-- ==== Sys2Proof/Word.lean ====
section
/-! DEFINITION. The words of the part and their plainest arithmetic: data bytes, the 32-bit time count and
service value, rounding up, saturation, and little-endian reading of bytes. -/

namespace Sys2Proof

/-- One data byte of a frame. -/
abbrev Byte := BitVec 8

/-- A 32-bit service value (R188), and the millisecond count (R169). -/
abbrev Word32 := BitVec 32

/-- A timer (R1): not running, or running with so many milliseconds left. -/
abbrev Timer := Option Nat

/-- A quotient rounded up, as the text's ceil (00, Arithmetic). -/
def ceilDiv (a b : Nat) : Nat := (a + b - 1) / b

/-- An addition that stops at a cap (00, Counters). -/
def satAdd (cap a b : Nat) : Nat := min cap (a + b)

/-- Bytes read as one number, the first byte least significant (00, Bytes and bits). -/
def leNat : List Byte → Nat
  | [] => 0
  | b :: bs => b.toNat + 256 * leNat bs

/-- The sum of some bytes. -/
def byteSum : List Byte → Nat
  | [] => 0
  | b :: bs => b.toNat + byteSum bs

end Sys2Proof
end

