-- ==== Sys2Proof/Syntax.lean ====
section
/-! DEFINITION. The commands of the part: one constructor of Instr per row of spec/opcode_table.json, with the
frames, ports and classes they name. -/

namespace Sys2Proof

/-- The two ports: C faces the chassis segment, B the brake segment (00). -/
inductive Port where
  | c
  | b
deriving DecidableEq, Repr

/-- The port a frame is forwarded to (R148). -/
def Port.other : Port → Port
  | .c => .b
  | .b => .c

/-- An identifier together with its format (R144): `ext` is true for 29-bit. -/
structure Ident where
  ext : Bool
  value : Nat
deriving DecidableEq, Repr

/-- An 11-bit identifier. -/
def Ident.std (value : Nat) : Ident := ⟨false, value⟩

/-- A classical CAN frame as an arrival holds it (R140). -/
structure Frame where
  ident : Ident
  remote : Bool
  data : List Byte
deriving DecidableEq, Repr

/-- The class of a transmit queue entry (R154). -/
inductive TxClass where
  | hold
  | forward
  | status
  | service
deriving DecidableEq, Repr

/-- The commands, one per row of spec/opcode_table.json. A service command's operand is the port whose oldest
waiting request it takes; an expiry's operand says whose timer runs out. -/
inductive Instr where
  /-- POWER_ON_RESET (R185), with the levels of NODE0 to NODE2. -/
  | powerOnReset (pins : BitVec 3)
  /-- STORE_LOAD_END (R185). -/
  | storeLoadEnd
  /-- ARRIVAL (R140): the port and the frame its segment carried. -/
  | arrival (p : Port) (f : Frame)
  /-- REFILL_EXPIRY (R149). -/
  | refillExpiry
  /-- WATCH_COPY (R8) at one frame monitor. -/
  | watchCopy (i : Fin 24)
  /-- PERIOD_TIMEOUT (R12) of one frame monitor. -/
  | periodTimeout (i : Fin 24)
  /-- REFUSED_COUNT (R110). -/
  | refusedCount
  /-- CALC_PUBLICATION (R27). -/
  | calcPublication
  /-- HC_PUBLICATION (R43). -/
  | hcPublication
  /-- CALC_RESULT (R38). -/
  | calcResult
  /-- START_WINDOW_EXPIRY (R53). -/
  | startWindowExpiry
  /-- ARMED_CONFIRM_EXPIRY (R57). -/
  | armedConfirmExpiry
  /-- MIN_HOLD_EXPIRY (R60). -/
  | minHoldExpiry
  /-- MAX_SERVICE_HOLD_EXPIRY (R61). -/
  | maxServiceHoldExpiry
  /-- REENTRY_GUARD_EXPIRY (R65). -/
  | reentryGuardExpiry
  /-- CLAIM_EXPIRY (R83) of the SERVICE claim of one tag. -/
  | claimExpiry (tag : Fin 4)
  /-- RAMP_STEP_EXPIRY (R99). -/
  | rampStepExpiry
  /-- HANDOVER_CONFIRM_EXPIRY (R130). -/
  | handoverConfirmExpiry
  /-- OVERLAP_EXPIRY (R129). -/
  | overlapExpiry
  /-- QUIET_EXPIRY (R137). -/
  | quietExpiry
  /-- CREEP_PUBLICATION (R109). -/
  | creepPublication
  /-- EVALUATION (R113). -/
  | evaluation
  /-- STATIONARY_TIMER_EXPIRY (R114). -/
  | stationaryTimerExpiry
  /-- DECISION_REPORT (R122). -/
  | decisionReport
  /-- BLIND_REPORT (R64). -/
  | blindReport
  /-- CROSSING_REPORT (R121). -/
  | crossingReport
  /-- STATE_REPORT (R115). -/
  | stateReport
  /-- QUEUE_OFFER (R155) of the oldest waiting offer of a class to a port. -/
  | queueOffer (p : Port) (cls : TxClass)
  /-- TRANSMISSION_SUCCESS (R157). -/
  | transmissionSuccess (p : Port)
  /-- TRANSMISSION_ERROR (R158). -/
  | transmissionError (p : Port)
  /-- RECOVERY_EXPIRY (R143). -/
  | recoveryExpiry (p : Port)
  /-- DEMAND_PERIOD_EXPIRY (R160). -/
  | demandPeriodExpiry
  /-- STATUS_PERIOD_EXPIRY (R166). -/
  | statusPeriodExpiry
  /-- FAULT_REPORT (R170) of the n-th waiting report. -/
  | faultReport (n : Nat)
  /-- COUNTER_COUNT (R174). -/
  | counterCount
  /-- ENTER_SERVICE (R179). -/
  | enterService (p : Port)
  /-- EXIT_SERVICE (R180). -/
  | exitService (p : Port)
  /-- SERVICE_IDLE_EXPIRY (R180). -/
  | serviceIdleExpiry
  /-- READ_ENTRY (R178). -/
  | readEntry (p : Port)
  /-- WRITE_FIELD (R181). -/
  | writeField (p : Port)
  /-- ACTIVATE (R182). -/
  | activate (p : Port)
  /-- STORE_WRITE_COMPLETE (R184): whether the write was completed and read back equal. -/
  | storeWriteComplete (ok : Bool)
  /-- READ_SIGNAL (R178). -/
  | readSignal (p : Port)
  /-- READ_COUNTERS (R175). -/
  | readCounters (p : Port)
  /-- READ_FAULT (R172). -/
  | readFault (p : Port)
  /-- CLEAR_FAULT (R172). -/
  | clearFault (p : Port)
  /-- READ_CLAIMS (R84). -/
  | readClaims (p : Port)
  /-- TEST_HOLD (R81). -/
  | testHold (p : Port)
  /-- RELEASE_TEST (R82). -/
  | releaseTest (p : Port)
  /-- RESET_PART (R186). -/
  | resetPart (p : Port)
  /-- PENDING_RESET_TAKEN (R186), with the levels of NODE0 to NODE2. -/
  | pendingResetTaken (pins : BitVec 3)
  /-- UNKNOWN_COMMAND_REQUEST (R177). -/
  | unknownCommandRequest (p : Port)
deriving DecidableEq, Repr

end Sys2Proof
end

