-- ==== Sys2Proof/Config.lean ====
section
/-! DEFINITION. What the part fixes and no bank changes: fixed durations and limits, each with its rule.
The spec leaves no result value open, so there is no free value here (INVENTORY.md). -/

namespace Sys2Proof.Config

/-- Start Window of STARTING, ms (R41). -/
def startWindow : Nat := 2000
/-- Quiet Time of SECURED, ms (R124). -/
def quietTime : Nat := 2000
/-- Recovery time of a port in BUS_OFF, ms (R139). -/
def recoveryTime : Nat := 500
/-- Refill interval of the rate classes, ms (R149). -/
def refillPeriod : Nat := 100
/-- Interval of the Creep Monitor's evaluation, ms (R107). -/
def evaluationPeriod : Nat := 20
/-- Service Idle timer, ms (R176). -/
def serviceIdle : Nat := 60000
/-- Largest accepted change of a wheel channel's count between two good frames (R107, R110). -/
def plausibilityLimit : Nat := 200
/-- Least grade magnitude, 0.1 %, of an uphill drive-off (R89, R92). -/
def uphillGrade : Nat := 10
/-- Load, 10 kg, above which an unsignalled pusher axle counts as lowered (R25, R28). -/
def pusherLoad : Nat := 50
/-- Steepest grade the part handles, 0.1 % (R31). -/
def steepestGrade : Nat := 400
/-- Entries of a transmit queue (R154). -/
def queueSize : Nat := 32
/-- Consecutive transmit errors that take a port to BUS_OFF (R141). -/
def busOffErrors : Nat := 16
/-- Percentage of the demand that an escalation's floors ask (R118). -/
def escalationPercent : Nat := 125
/-- Saturation of the 16-bit counters, the pending sums and the creep accumulator (R174, R109, R116). -/
def cap16 : Nat := 65535
/-- Saturation of the owed count and the repeat count (R163, R170). -/
def cap8 : Nat := 255
/-- Modulus of the alive counters of transmitted frames (R162, R166). -/
def aliveModulus : Nat := 15

end Sys2Proof.Config
end

