-- ==== Sys2Proof/Machine/Bank.lean ====
section
/-! DEFINITION. Signal kinds and the bank: every table and parameter the part runs on (R2, R4, R25, R41, R89, R90,
R107, R124, R144, R149, R153), with the defaults given where each field is defined. -/

namespace Sys2Proof.Machine

/-- The axle positions (00). -/
inductive Axle where
  | f1 | f2 | t1 | t2 | p
deriving DecidableEq, Repr

/-- One thing per axle position. -/
structure PerAxle (α : Type) where
  f1 : α
  f2 : α
  t1 : α
  t2 : α
  p : α
deriving DecidableEq, Repr

def PerAxle.get {α : Type} (x : PerAxle α) : Axle → α
  | .f1 => x.f1 | .f2 => x.f2 | .t1 => x.t1 | .t2 => x.t2 | .p => x.p

def PerAxle.set {α : Type} (x : PerAxle α) (a : Axle) (v : α) : PerAxle α :=
  match a with
  | .f1 => { x with f1 := v } | .f2 => { x with f2 := v } | .t1 => { x with t1 := v }
  | .t2 => { x with t2 := v } | .p => { x with p := v }

/-- The code of an axle position (R189), which is also its rank in R113. -/
def Axle.code : Axle → Nat
  | .f1 => 0 | .f2 => 1 | .t1 => 2 | .t2 => 3 | .p => 4

def Axle.all : List Axle := [.f1, .f2, .t1, .t2, .p]

/-- One thing per port. -/
structure PerPort (α : Type) where
  c : α
  b : α
deriving DecidableEq, Repr

def PerPort.get {α : Type} (x : PerPort α) : Port → α
  | .c => x.c | .b => x.b

def PerPort.set {α : Type} (x : PerPort α) (p : Port) (v : α) : PerPort α :=
  match p with
  | .c => { x with c := v } | .b => { x with b := v }

/-- One thing per class of transmit queue entry. -/
structure PerClass (α : Type) where
  hold : α
  forward : α
  status : α
  service : α
deriving DecidableEq, Repr

def PerClass.get {α : Type} (x : PerClass α) : TxClass → α
  | .hold => x.hold | .forward => x.forward | .status => x.status | .service => x.service

/-- A pressure of each brake circuit, kPa. -/
structure Circuits where
  a : Nat
  b : Nat
deriving DecidableEq, Repr

/-- The 29 signal kinds (R6). -/
inductive SignalKind where
  | axleLoad (x : Axle)
  | grade
  | wheelPulse (n : Fin 8)
  | engineTorque | drivePedal | brakePedal | gearDirection | outputSpeed | drumSpeed
  | dischargeActive | pendantRear | pendantSide | parkSwitch | doorOpen | seatOccupied
  | ignition | springState | pusherDown
deriving DecidableEq, Repr

/-- The code of a kind (R6). -/
def SignalKind.code : SignalKind → Nat
  | .axleLoad x => x.code
  | .grade => 5
  | .wheelPulse n => 6 + n.val
  | .engineTorque => 14 | .drivePedal => 15 | .brakePedal => 16 | .gearDirection => 17
  | .outputSpeed => 18 | .drumSpeed => 19 | .dischargeActive => 20 | .pendantRear => 21
  | .pendantSide => 22 | .parkSwitch => 23 | .doorOpen => 24 | .seatOccupied => 25
  | .ignition => 26 | .springState => 27 | .pusherDown => 28

/-- The kinds in the order of their codes (R6). -/
def SignalKind.all : List SignalKind :=
  [.axleLoad .f1, .axleLoad .f2, .axleLoad .t1, .axleLoad .t2, .axleLoad .p, .grade,
   .wheelPulse 0, .wheelPulse 1, .wheelPulse 2, .wheelPulse 3, .wheelPulse 4, .wheelPulse 5,
   .wheelPulse 6, .wheelPulse 7, .engineTorque, .drivePedal, .brakePedal, .gearDirection,
   .outputSpeed, .drumSpeed, .dischargeActive, .pendantRear, .pendantSide, .parkSwitch,
   .doorOpen, .seatOccupied, .ignition, .springState, .pusherDown]

/-- The kind a code names, if any (R6). -/
def SignalKind.ofCode (c : Nat) : Option SignalKind := SignalKind.all[c]?

/-- The wheel channel a kind belongs to (R6). -/
def SignalKind.channel : SignalKind → Option (Fin 8)
  | .wheelPulse n => some n
  | _ => none

def SignalKind.isWheel (k : SignalKind) : Bool := k.channel.isSome

/-- The codes of a discrete kind; none for a continuous kind (R6). -/
def SignalKind.codes : SignalKind → Option (List Int)
  | .gearDirection | .springState => some [0, 1, 2]
  | .brakePedal | .dischargeActive | .pendantRear | .pendantSide | .parkSwitch | .doorOpen
  | .seatOccupied | .ignition | .pusherDown => some [0, 1]
  | _ => none

def SignalKind.isDiscrete (k : SignalKind) : Bool := k.codes.isSome

/-- The eleven mandatory kinds besides the wheel pulse group, in the order of their codes (R7). -/
def SignalKind.mandatory : List SignalKind :=
  [.axleLoad .f1, .axleLoad .t1, .grade, .engineTorque, .drivePedal, .brakePedal, .gearDirection,
   .outputSpeed, .parkSwitch, .ignition, .springState]

def SignalKind.wheels : List SignalKind :=
  [.wheelPulse 0, .wheelPulse 1, .wheelPulse 2, .wheelPulse 3, .wheelPulse 4, .wheelPulse 5,
   .wheelPulse 6, .wheelPulse 7]

/-- An entry of the Signal Frame Table (R2). A counter modulus of 0 and a check position of 0 mean absent, as the
fields are coded for service access (R189). -/
structure MonitorEntry where
  inUse : Bool
  ident : Ident
  period : Nat
  counterStart : Nat
  counterMod : Nat
  checkPos : Nat
  checkSeed : Nat
  k : Nat
  n : Nat
  m : Nat
deriving DecidableEq, Repr

def MonitorEntry.default : MonitorEntry :=
  { inUse := false, ident := .std 0, period := 100, counterStart := 0, counterMod := 0,
    checkPos := 0, checkSeed := 0, k := 2, n := 5, m := 2 }

/-- The width of the counter field, from its modulus (R2). -/
def MonitorEntry.counterWidth (e : MonitorEntry) : Nat :=
  if e.counterMod = 4 then 2 else if e.counterMod = 8 then 3 else 4

/-- An entry of the Extraction Table (R4). -/
structure Extraction where
  kind : Option SignalKind
  monitor : Nat
  start : Nat
  width : Nat
  signed : Bool
  multiplier : Nat
  divisor : Nat
  offset : Int
  min : Int
  max : Int
  debounce : Bool
  axle : Axle
  distance : Nat
deriving DecidableEq, Repr

def Extraction.default : Extraction :=
  { kind := none, monitor := 0, start := 0, width := 8, signed := false, multiplier := 1, divisor := 1,
    offset := 0, min := 0, max := 0, debounce := false, axle := .f1, distance := 50 }

/-- The arrival ports a Forwarding Table entry matches (R144). -/
inductive ArrivalPort where
  | c | b | either
deriving DecidableEq, Repr

def ArrivalPort.matches : ArrivalPort → Port → Bool
  | .c, .c | .b, .b | .either, _ => true
  | _, _ => false

/-- The actions of a Forwarding Table entry (R144). -/
inductive Action where
  | pass | passWatch | watch | block
deriving DecidableEq, Repr

/-- The action makes a watch copy (R146). -/
def Action.watches : Action → Bool
  | .passWatch | .watch => true
  | _ => false

/-- The action makes a forwarding copy (R146). -/
def Action.passes : Action → Bool
  | .pass | .passWatch => true
  | _ => false

/-- An entry of the Forwarding Table (R144). -/
structure ForwardEntry where
  inUse : Bool
  ident : Ident
  port : ArrivalPort
  action : Action
  rateClass : Nat
  monitor : Nat
deriving DecidableEq, Repr

def ForwardEntry.default : ForwardEntry :=
  { inUse := false, ident := .std 0, port := .either, action := .block, rateClass := 0, monitor := 0 }

/-- Refill and Depth of one rate class (R144, R149). -/
structure RateRow where
  refill : Nat
  depth : Nat
deriving DecidableEq, Repr

/-- Rated Load and Brake Gain of one axle (R25). -/
structure AxleParams where
  rated : Nat
  gain : Nat
deriving DecidableEq, Repr

/-- The single parameters, in the order of table 5 of R189. A default action is true for BLOCK. -/
structure Params where
  holdEnable : Bool
  gradeThreshold : Nat
  stopConfirm : Nat
  minHold : Nat
  maxServiceHold : Nat
  reentryGuard : Nat
  safetyFactor : Nat
  drumMargin : Nat
  drumThreshold : Nat
  forceFloor : Nat
  pressureFloor : Nat
  maxPressureA : Nat
  maxPressureB : Nat
  uphillPedal : Nat
  downhillPedal : Nat
  uphillRamp : Nat
  downhillRamp : Nat
  rollbackSpeed : Nat
  reapplyBoost : Nat
  reapplyLimit : Nat
  creepLimit : Nat
  handoverConfirm : Nat
  overlapTime : Nat
  blockDefaultC : Bool
  blockDefaultB : Bool
  demandIdent : Ident
  statusIdent : Ident
  txSeed : Nat
  demandPeriod : Nat
  statusPeriod : Nat
  hpWatermark : Nat
  panicWatermark : Nat
deriving DecidableEq, Repr

/-- The defaults of R25, R41, R89, R107, R124, R144 and R153. -/
def Params.default : Params :=
  { holdEnable := true, gradeThreshold := 30, stopConfirm := 200, minHold := 1000, maxServiceHold := 300,
    reentryGuard := 2000, safetyFactor := 130, drumMargin := 15, drumThreshold := 20, forceFloor := 8000,
    pressureFloor := 120, maxPressureA := 800, maxPressureB := 800, uphillPedal := 5, downhillPedal := 8,
    uphillRamp := 600, downhillRamp := 300, rollbackSpeed := 20, reapplyBoost := 20, reapplyLimit := 3,
    creepLimit := 120, handoverConfirm := 2000, overlapTime := 800, blockDefaultC := true,
    blockDefaultB := false, demandIdent := .std 0x0C8, statusIdent := .std 0x3E0, txSeed := 0x3C,
    demandPeriod := 20, statusPeriod := 100, hpWatermark := 2, panicWatermark := 4 }

/-- A full set of tables and parameters (R176). -/
structure Bank where
  monitors : List MonitorEntry
  extractions : List Extraction
  forwarding : List ForwardEntry
  rates : List RateRow
  cells : List Nat
  params : Params
  axles : PerAxle AxleParams
  minima : PerPort (PerClass Nat)
  gradeBounds : List Nat
  massBounds : List Nat
deriving DecidableEq, Repr

/-- The default cells of the Release Table, grade band by grade band (R90). -/
def Bank.defaultCells : List Nat :=
  [8, 10, 12, 14, 16, 18,
   10, 13, 16, 19, 22, 25,
   14, 19, 24, 29, 34, 39,
   18, 25, 32, 39, 46, 53,
   22, 31, 40, 49, 58, 67,
   27, 38, 49, 60, 71, 82,
   34, 48, 62, 76, 90, 104,
   42, 59, 76, 93, 110, 125]

/-- Every field at its default (R179). -/
def Bank.default : Bank :=
  { monitors := List.replicate 24 .default
    extractions := List.replicate 64 .default
    forwarding := List.replicate 128 .default
    rates := List.replicate 7 ⟨10, 20⟩
    cells := Bank.defaultCells
    params := .default
    axles := { f1 := ⟨750, 38⟩, f2 := ⟨750, 38⟩, t1 := ⟨1100, 55⟩, t2 := ⟨1100, 55⟩, p := ⟨900, 45⟩ }
    minima := { c := ⟨0, 16, 2, 2⟩, b := ⟨1, 16, 0, 2⟩ }
    gradeBounds := [20, 40, 80, 120, 160, 220, 300, 400]
    massBounds := [12000, 18000, 24000, 30000, 36000, 65535] }

/-- The entry of frame monitor i. -/
def Bank.monitor (b : Bank) (i : Nat) : MonitorEntry := (b.monitors[i]?).getD .default

/-- The extractions, of a kind other than NONE, that name frame monitor i, in the order of the table (R8). -/
def Bank.extractionsOf (b : Bank) (i : Nat) : List Extraction :=
  b.extractions.filter fun e => e.kind.isSome && e.monitor == i

/-- The kinds frame monitor i carries. -/
def Bank.kindsOf (b : Bank) (i : Nat) : List SignalKind := (b.extractionsOf i).filterMap (·.kind)

/-- The extraction of a kind (V4 allows one). -/
def Bank.extractionOf (b : Bank) (k : SignalKind) : Option Extraction :=
  b.extractions.find? fun e => e.kind == some k

/-- A kind with an extraction is mapped (R4). -/
def Bank.mapped (b : Bank) (k : SignalKind) : Bool := (b.extractionOf k).isSome

/-- The minimum data length of frame monitor i (R3). -/
def Bank.minLength (b : Bank) (i : Nat) : Nat :=
  let e := b.monitor i
  let ext := ((b.extractionsOf i).map fun x => ceilDiv (x.start + x.width) 8).foldl Nat.max 0
  let ctr := if e.counterMod = 0 then 0 else ceilDiv (e.counterStart + e.counterWidth) 8
  let chk := if e.checkPos = 0 then 0 else e.checkPos + 1
  Nat.max ext (Nat.max ctr chk)

/-- The Refill and Depth of rate class 1 to 7 (R149). -/
def Bank.rate (b : Bank) (cls : Nat) : RateRow := (b.rates[cls - 1]?).getD ⟨10, 20⟩

/-- The Maximum Pressure of each circuit (R25). -/
def Bank.maxPressure (b : Bank) : Circuits := ⟨b.params.maxPressureA, b.params.maxPressureB⟩

/-- The shared space of a port's queue (R153). -/
def Bank.sharedSpace (b : Bank) (p : Port) : Nat :=
  let m := b.minima.get p
  Config.queueSize - (m.hold + m.forward + m.status + m.service)

/-- The active bank, with the minimum data lengths derived when it became active (R3). -/
structure ActiveBank where
  bank : Bank
  minLengths : List Nat
deriving DecidableEq, Repr

/-- A bank becoming active (R3): the lengths are derived for every monitor in use, and are 0 for the others. -/
def Bank.toActive (b : Bank) : ActiveBank :=
  { bank := b
    minLengths := (List.range 24).map fun i => if (b.monitor i).inUse then b.minLength i else 0 }

def ActiveBank.minLength (a : ActiveBank) (i : Nat) : Nat := (a.minLengths[i]?).getD 0

end Sys2Proof.Machine
end

