-- ==== Sys2Proof/Machine/Blocks.lean ====
section
/-! DEFINITION. What each block holds, as the chapters give it, and what it holds when there is no active bank (R23,
R40, R42, R123, R139, R151, R168, R173, R176): the values right after a reset. -/

namespace Sys2Proof.Machine

/-! ## Signals (chapter 1) -/

/-- The validity of a signal kind (R6). -/
inductive Validity where
  | unmapped | noData | valid | lost
deriving DecidableEq, Repr

/-- A kind's validity and value as published: an entry of an input image (R26, R43). -/
structure Sig where
  validity : Validity
  value : Option Int
deriving DecidableEq, Repr

def Sig.unmapped : Sig := ⟨.unmapped, none⟩
def Sig.noData : Sig := ⟨.noData, none⟩

/-- The entry an image starts with under a bank (R26, R43). -/
def Sig.start (mapped : Bool) : Sig := if mapped then .noData else .unmapped

/-- VALID with a given value. -/
def Sig.is (x : Sig) (v : Int) : Bool := x.validity == .valid && x.value == some v

/-- The value of a VALID kind. -/
def Sig.valid? (x : Sig) : Option Int := if x.validity = .valid then x.value else none

/-- An entry of the Signal Value Table (R6). -/
structure SvtEntry where
  validity : Validity
  value : Option Int
  candidate : Option Int
deriving DecidableEq, Repr

/-- The sync state of a frame monitor (R13 to R16). -/
inductive Sync where
  | acquiring | valid | lost
deriving DecidableEq, Repr

/-- The error kinds of a sample (R8, R12). -/
inductive SampleError where
  | length | check | counterRepeat | counterJump | range | timeout
deriving DecidableEq, Repr

/-- The running state of a frame monitor (R2). The window lists the outcomes oldest first, true for an error.
`beenValid` is the history R13 and R16 read: VALID since reset or activation. -/
structure MonitorState where
  sync : Sync
  good : Nat
  window : List Bool
  baseline : Option Nat
  timer : Timer
  beenValid : Bool
deriving DecidableEq, Repr

def MonitorState.start : MonitorState :=
  { sync := .acquiring, good := 0, window := [], baseline := none, timer := none, beenValid := false }

/-- The Signal Monitor: 24 frame monitors and the Signal Value Table, indexed by kind code. -/
structure SignalMonitor where
  monitors : List MonitorState
  svt : List SvtEntry
deriving DecidableEq, Repr

/-- No active bank: no monitor runs and every kind is UNMAPPED (R23). -/
def SignalMonitor.idle : SignalMonitor :=
  { monitors := List.replicate 24 .start, svt := List.replicate 29 ⟨.unmapped, none, none⟩ }

/-- The values of R21 under a bank. -/
def SignalMonitor.start (b : Bank) : SignalMonitor :=
  { monitors := List.replicate 24 .start
    svt := SignalKind.all.map fun k => ⟨if b.mapped k then .noData else .unmapped, none, none⟩ }

/-! ## Calculator (chapter 2) -/

/-- The calculator's input image (R26). -/
structure CalcImage where
  loads : PerAxle Sig
  grade : Sig
  drum : Sig
  discharge : Sig
  pusher : Sig
deriving DecidableEq, Repr

/-- The calculator's result record (R38). -/
structure CalcResult where
  pressure : Circuits
  capacity : Bool
  mass : Nat
deriving DecidableEq, Repr

/-- What the calculator keeps between computations (R26, R29, R30, R38). -/
structure Calculator where
  image : CalcImage
  result : CalcResult
  lossMarks : PerAxle Bool
  loadMark : Bool
deriving DecidableEq, Repr

/-! ## Hold Controller (chapters 3 to 5 and 7) -/

/-- The hold states (00). -/
inductive HoldState where
  | off | starting | inactive | armed | holding | releasing | handover | parked | secured
deriving DecidableEq, Repr

/-- The hold state code (R187). -/
def HoldState.code : HoldState → Nat
  | .off => 0 | .starting => 1 | .inactive => 2 | .armed => 3 | .holding => 4
  | .releasing => 5 | .handover => 6 | .parked => 7 | .secured => 8

/-- The causes of SECURED (00). -/
inductive Cause where
  | rollaway | handoverFailed | blind
deriving DecidableEq, Repr

/-- The code of the SECURED cause, 0 for absent (R187). -/
def Cause.code : Option Cause → Nat
  | none => 0 | some .rollaway => 1 | some .handoverFailed => 2 | some .blind => 3

/-- The demand modes (R44). -/
inductive DemandMode where
  | none | hold | ramp | parkOnly | max
deriving DecidableEq, Repr

/-- The demand mode code (R187). -/
def DemandMode.code : DemandMode → Nat
  | .none => 0 | .hold => 1 | .ramp => 2 | .parkOnly => 3 | .max => 4

/-- The demand record (R44). -/
structure Demand where
  mode : DemandMode
  pressure : Circuits
  park : Bool
deriving DecidableEq, Repr

/-- The sources of claims (R69). -/
inductive Source where
  | driver | pendantRear | pendantSide | discharge | monitor | service
deriving DecidableEq, Repr

/-- The code of a claim source (R188). -/
def Source.code : Source → Nat
  | .driver => 1 | .pendantRear => 2 | .pendantSide => 3 | .discharge => 4 | .monitor => 5 | .service => 6

/-- A claim record (R69), with its expiry timer (R83). `expiry` is in seconds. -/
structure Claim where
  source : Source
  tag : Nat
  floorA : Option Nat
  floorB : Option Nat
  expiry : Option Nat
  granted : Word32
  timer : Timer
deriving DecidableEq, Repr

/-- A signal request latch (R73). -/
inductive Latch where
  | idle | asserted | refused
deriving DecidableEq, Repr

/-- The release ramp state (R98). `forward` is the release intent +1. -/
structure Ramp where
  start : Circuits
  forward : Bool
  rampTime : Nat
  step : Circuits
deriving DecidableEq, Repr

/-- The handover phase (R125). -/
inductive Phase where
  | awaiting | overlap
deriving DecidableEq, Repr

/-- The Hold Controller's input image (R43). -/
structure HcImage where
  grade : Sig
  torque : Sig
  drivePedal : Sig
  brakePedal : Sig
  gear : Sig
  outputSpeed : Sig
  discharge : Sig
  pendantRear : Sig
  pendantSide : Sig
  parkSwitch : Sig
  doorOpen : Sig
  seat : Sig
  ignition : Sig
  spring : Sig
deriving DecidableEq, Repr

/-- The Hold Controller's record (R42, R43, R47, R73, R95, R98, R125). `claims` lists slots 0 to 5. -/
structure HoldController where
  state : HoldState
  cause : Option Cause
  demand : Demand
  claims : List (Option Claim)
  result : Option CalcResult
  image : HcImage
  missing : Bool
  allOnce : Bool
  stationary : Bool
  blind : Bool
  degraded : Bool
  startWindow : Timer
  armedConfirm : Timer
  minHold : Timer
  maxHold : Timer
  guard : Timer
  reapply : Nat
  ramp : Option Ramp
  rampStep : Timer
  metMemory : Bool
  latchRear : Latch
  latchSide : Latch
  latchDischarge : Latch
  phase : Option Phase
  deadline : Bool
  handoverConfirm : Timer
  overlapTimer : Timer
  quiet : Timer
  parkExit : Bool
deriving DecidableEq, Repr

/-- An empty Claim Table (R71). -/
def noClaims : List (Option Claim) := [none, none, none, none, none, none]

/-- An image under a bank, or with none (R43). -/
def HcImage.start (mapped : SignalKind → Bool) : HcImage :=
  { grade := .start (mapped .grade), torque := .start (mapped .engineTorque)
    drivePedal := .start (mapped .drivePedal), brakePedal := .start (mapped .brakePedal)
    gear := .start (mapped .gearDirection), outputSpeed := .start (mapped .outputSpeed)
    discharge := .start (mapped .dischargeActive), pendantRear := .start (mapped .pendantRear)
    pendantSide := .start (mapped .pendantSide), parkSwitch := .start (mapped .parkSwitch)
    doorOpen := .start (mapped .doorOpen), seat := .start (mapped .seatOccupied)
    ignition := .start (mapped .ignition), spring := .start (mapped .springState) }

/-- The record after a power-on reset or RESET_PART, while the tables load (R42, R51, R71, R106, R125). -/
def HoldController.off : HoldController :=
  { state := .off, cause := none, demand := ⟨.none, ⟨0, 0⟩, false⟩, claims := noClaims, result := none
    image := .start fun _ => false, missing := false, allOnce := false, stationary := false, blind := false
    degraded := false, startWindow := none, armedConfirm := none, minHold := none, maxHold := none
    guard := none, reapply := 0, ramp := none, rampStep := none, metMemory := false, latchRear := .idle
    latchSide := .idle, latchDischarge := .idle, phase := none, deadline := false, handoverConfirm := none
    overlapTimer := none, quiet := none, parkExit := false }

/-- The record at the entry to STARTING under a bank, with the start computation's result (R43, R52, R66, R67):
BLIND and MOVING are the Creep Monitor's start decisions (R123), and the degraded flag is set (R43). The signal request
latches are IDLE, as R73 says they are after activation, though it also says that a claim's leaving by activation does
not change its latch (log 32). -/
def HoldController.start (b : Bank) (r : CalcResult) : HoldController :=
  { HoldController.off with
    state := .starting, result := some r, image := .start b.mapped, missing := true, blind := true
    degraded := true, startWindow := some Config.startWindow }

/-! ## Creep Monitor (chapter 6) -/

/-- A wheel channel's record (R108). -/
structure ChannelRec where
  validity : Validity
  baseline : Option Nat
  pending : Nat
deriving DecidableEq, Repr

/-- The Creep Monitor's record (R108). `stationary` is the decision, `crossed` the crossing count 1. -/
structure CreepMonitor where
  channels : List ChannelRec
  blind : Bool
  stationary : Bool
  stationaryTimer : Timer
  evalTimer : Timer
  told : HoldState
  accumulator : Nat
  counting : Bool
  crossed : Bool
deriving DecidableEq, Repr

/-- No active bank (R123). R123 gives the channel records, the timers and the BLIND flag; that the told state is OFF, the
decision MOVING, the accumulator 0 and disarmed and the crossing count 0 is the model's choice (log 31). -/
def CreepMonitor.idle : CreepMonitor :=
  { channels := [], blind := false, stationary := false, stationaryTimer := none, evalTimer := none
    told := .off, accumulator := 0, counting := false, crossed := false }

/-- The start values of R123 under a bank. -/
def CreepMonitor.start (b : Bank) : CreepMonitor :=
  { channels := SignalKind.wheels.map fun k => ⟨if b.mapped k then .noData else .unmapped, none, 0⟩
    blind := true, stationary := false, stationaryTimer := none, evalTimer := some Config.evaluationPeriod
    told := .starting, accumulator := 0, counting := false, crossed := false }

/-! ## Ports and Forwarding Engine (chapter 8) -/

/-- The link record of a port (R139). -/
structure Link where
  busOff : Bool
  errors : Nat
  recovery : Timer
deriving DecidableEq, Repr

def Link.start : Link := ⟨false, 0, none⟩

/-- The buckets of classes 1 to 7 and the refill timer (R149); no bucket is kept without a bank (R151). -/
structure ForwardingEngine where
  buckets : List Nat
  refill : Timer
deriving DecidableEq, Repr

def ForwardingEngine.idle : ForwardingEngine := ⟨[], none⟩

/-- The buckets filled to their Depth and the refill timer started (R151, R152). -/
def ForwardingEngine.start (b : Bank) : ForwardingEngine :=
  ⟨[1, 2, 3, 4, 5, 6, 7].map fun c => (b.rate c).depth, some Config.refillPeriod⟩

/-! ## Transmit Scheduler (chapter 9) -/

/-- The 16 events (R167). -/
inductive Event where
  | stateChange | claimRefused | claimExpired | driveOffBlocked | creep | rollbackReapply | capacity
  | signalLost | signalRegained | counterJump | idConflict | demandLate | holdToDriver
  | parkExitRefused | tablesActivated | faultCaptured
deriving DecidableEq, Repr

/-- The number of an event, its bit in the event set of the Status Frame (R187). -/
def Event.code : Event → Nat
  | .stateChange => 0 | .claimRefused => 1 | .claimExpired => 2 | .driveOffBlocked => 3 | .creep => 4
  | .rollbackReapply => 5 | .capacity => 6 | .signalLost => 7 | .signalRegained => 8 | .counterJump => 9
  | .idConflict => 10 | .demandLate => 11 | .holdToDriver => 12 | .parkExitRefused => 13
  | .tablesActivated => 14 | .faultCaptured => 15

/-- The event set, and which of its events have been raised again since the start of the Status Frame in
transmission (R167). -/
structure EventSet where
  set : BitVec 16
  again : BitVec 16
deriving DecidableEq, Repr

/-- An entry of a transmit queue (R154). `alive` is fixed at the first start of a HOLD or STATUS frame (R162, R166);
`carried` is the event set a STATUS frame was last started with (R167); `stale` marks a transmission started before the
last activation (R158, R168); `reset` marks the OK response of a RESET_PART (R186). -/
structure Entry where
  cls : TxClass
  dedicated : Bool
  frame : Frame
  alive : Option Nat
  carried : BitVec 16
  stale : Bool
  reset : Bool
deriving DecidableEq, Repr

/-- A port's transmit queue (R154): the waiting entries in the order of admission, a returned entry first, and the
entry in transmission. -/
structure TxQueue where
  waiting : List Entry
  sending : Option Entry
deriving DecidableEq, Repr

def TxQueue.empty : TxQueue := ⟨[], none⟩

/-- The Transmit Scheduler (R154, R160 to R166). -/
structure Scheduler where
  queues : PerPort TxQueue
  owed : Nat
  outstanding : Bool
  starved : Bool
  nextDemand : Nat
  nextStatus : Nat
  demandTimer : Timer
  statusTimer : Timer
deriving DecidableEq, Repr

/-- After each reset (R168). -/
def Scheduler.reset : Scheduler :=
  { queues := ⟨.empty, .empty⟩, owed := 0, outstanding := false, starved := false, nextDemand := 0
    nextStatus := 0, demandTimer := none, statusTimer := none }

/-! ## Fault Capture (chapter 10) -/

inductive Severity where
  | minor | major
deriving DecidableEq, Repr

/-- The eleven fault kinds (10.1). -/
inductive FaultKind where
  | signalLost | capacity | handoverFailed | rollaway | monitorBlind | demandStarved | portBusOff
  | idConflict | loadImplausible | storeFailed | tablesInvalid
deriving DecidableEq, Repr

/-- The code of a fault kind (R187). -/
def FaultKind.code : FaultKind → Nat
  | .signalLost => 1 | .capacity => 2 | .handoverFailed => 3 | .rollaway => 4 | .monitorBlind => 5
  | .demandStarved => 6 | .portBusOff => 7 | .idConflict => 8 | .loadImplausible => 9
  | .storeFailed => 10 | .tablesInvalid => 11

/-- What a fault concerns (R169). -/
inductive Subject where
  | signal (k : SignalKind)
  | port (p : Port)
  | none
deriving DecidableEq, Repr

/-- The code of a fault subject (R187). -/
def Subject.code : Subject → Nat
  | .signal k => k.code | .port .c => 0x40 | .port .b => 0x41 | .none => 0xFF

/-- A fault report: a severity, a kind and a subject (R169). `state` is the hold state with which R169 says the report
is taken, for a report that the Hold Controller makes together with a change of state (log 29). -/
structure FaultReport where
  severity : Severity
  kind : FaultKind
  subject : Subject
  state : Option HoldState
deriving DecidableEq, Repr

/-- The fault held by the Fault Record (R169). -/
structure FaultRecord where
  severity : Severity
  kind : FaultKind
  subject : Subject
  state : HoldState
  timestamp : Word32
  repeats : Nat
deriving DecidableEq, Repr

/-- The seven counters of a port (R150). -/
structure PortCounters where
  rx : Nat
  forwarded : Nat
  policed : Nat
  blocked : Nat
  queueDrop : Nat
  txError : Nat
  idConflict : Nat
deriving DecidableEq, Repr

/-- The three counters of a frame monitor (R20). -/
structure MonitorCounters where
  good : Nat
  errors : Nat
  losses : Nat
deriving DecidableEq, Repr

def PortCounters.zero : PortCounters := ⟨0, 0, 0, 0, 0, 0, 0⟩
def MonitorCounters.zero : MonitorCounters := ⟨0, 0, 0⟩

/-- One of the 86 counters, as a count names it (R174). -/
inductive Counter where
  | rx (p : Port) | forwarded (p : Port) | policed (p : Port) | blocked (p : Port)
  | queueDrop (p : Port) | txError (p : Port) | idConflict (p : Port)
  | good (i : Fin 24) | errors (i : Fin 24) | losses (i : Fin 24)
deriving DecidableEq, Repr

/-- A counter of a frame monitor (R20). -/
def Counter.isMonitor : Counter → Bool
  | .good _ | .errors _ | .losses _ => true
  | _ => false

/-- The Fault Record and the 86 counters (R169, R174). -/
structure FaultCapture where
  record : Option FaultRecord
  ports : PerPort PortCounters
  monitors : List MonitorCounters
deriving DecidableEq, Repr

def FaultCapture.zero : FaultCapture :=
  { record := none, ports := ⟨.zero, .zero⟩, monitors := List.replicate 24 .zero }

/-! ## Service Responder (chapter 11) -/

/-- The reset pending (R186): clear; set, with the OK response not yet out; or due, the response having left. -/
inductive ResetPending where
  | clear | set | due
deriving DecidableEq, Repr

/-- The Service Responder (R176). `storeWrite` is the port of the ACTIVATE whose store write is in flight. -/
structure ServiceResponder where
  serviceMode : Bool
  staging : Option Bank
  storeWrite : Option Port
  resetPending : ResetPending
  idle : Timer
  node : BitVec 3
deriving DecidableEq, Repr

def ServiceResponder.reset (node : BitVec 3) : ServiceResponder :=
  { serviceMode := false, staging := none, storeWrite := none, resetPending := .clear, idle := none, node := node }

/-- One area of the store (R184): empty, a bank with whether its stored integrity value matches (R185), or the remains
of a write that was not completed. -/
inductive StoreArea where
  | empty
  | holds (bank : Bank) (intact : Bool)
  | spoiled
deriving DecidableEq, Repr

/-- The two areas of the store; `second` says that the second is current (R184). -/
structure Store where
  first : StoreArea
  other : StoreArea
  second : Bool
deriving DecidableEq, Repr

/-- The current area (R184). -/
def Store.current (s : Store) : StoreArea := if s.second then s.other else s.first

/-- A write into the area that is not current (R184). -/
def Store.writeSpare (s : Store) (x : StoreArea) : Store :=
  if s.second then { s with first := x } else { s with other := x }

/-! ## Deliveries between blocks -/

/-- A watch copy for a frame monitor (R147). -/
structure WatchCopy where
  monitor : Nat
  frame : Frame
deriving DecidableEq, Repr

/-- A kind in a publication set (R17). `entry` marks a publication at its monitor's entry to VALID (R14, R109). -/
structure PubItem where
  kind : SignalKind
  validity : Validity
  value : Option Int
  entry : Bool
deriving DecidableEq, Repr

/-- A publication set as it reaches the Hold Controller (R43), with the conditions of R7 it changes. `wanting` is the
kind that R53 would have named before this set (log 25). -/
structure HcSet where
  items : List PubItem
  missing : Option Bool
  allOnce : Option Bool
  wanting : Option SignalKind
deriving DecidableEq, Repr

/-- What the Signal Monitor delivers to the Creep Monitor: refused counts (R110) and publication sets (R109). -/
inductive CreepDelivery where
  | refused (n : Fin 8) (count : Nat)
  | publication (items : List PubItem)
deriving DecidableEq, Repr

/-- The Creep Monitor's reports (R43): a decision (true for stationary), BLIND entered or left, or a crossing with
its increment channel, `rollaway` or an escalation (R117). -/
inductive CreepReport where
  | decision (stationary : Bool)
  | blind (entered : Bool)
  | crossing (rollaway : Bool) (channel : Fin 8)
deriving DecidableEq, Repr

/-- A report of the hold state to the Creep Monitor, with the start of a hold episode (R49, R50). -/
structure StateReport where
  state : HoldState
  episode : Bool
deriving DecidableEq, Repr

/-- A frame offered to a port's queue (R155). -/
structure Offer where
  port : Port
  cls : TxClass
  frame : Frame
  reset : Bool
deriving DecidableEq, Repr

/-- A service request with its arrival port (R145). -/
structure Request where
  port : Port
  frame : Frame
deriving DecidableEq, Repr

/-- The deliveries under way, each list oldest first. Each is an event of the block that takes it. -/
structure Mail where
  watch : List WatchCopy
  toCalc : List (List PubItem)
  toHc : List HcSet
  toCreep : List CreepDelivery
  results : List CalcResult
  creepReports : List CreepReport
  stateReports : List StateReport
  offers : List Offer
  requests : List Request
  faults : List FaultReport
  counts : List Counter
deriving DecidableEq, Repr

def Mail.empty : Mail :=
  { watch := [], toCalc := [], toHc := [], toCreep := [], results := [], creepReports := []
    stateReports := [], offers := [], requests := [], faults := [], counts := [] }

end Sys2Proof.Machine
end

