-- ==== Sys2Proof/Machine/State.lean ====
section
/-! DEFINITION. The whole state of the part, the reasons a step can stop, the state right after a power-on reset, and
one named update per field. -/

namespace Sys2Proof.Machine

/-- The state: what each block holds, the banks and the store, the deliveries under way and the waiting commands. -/
structure State where
  /-- the commands that are waiting, first in, first out -/
  pending : List Instr
  /-- milliseconds since the last reset (R169) -/
  now : Word32
  /-- the stored tables are being loaded (R185) -/
  loading : Bool
  /-- the active bank (R183, R185) -/
  active : Option ActiveBank
  sm : SignalMonitor
  hpc : Option Calculator
  hc : HoldController
  cm : CreepMonitor
  fe : ForwardingEngine
  links : PerPort Link
  tx : Scheduler
  events : EventSet
  fc : FaultCapture
  sr : ServiceResponder
  store : Store
  mail : Mail
deriving DecidableEq, Repr

/-- The part has no fault outcome: no event stops it (INVENTORY.md, Faults). -/
inductive Fault where
deriving DecidableEq, Repr

/-- Why a command has no outcome. -/
inductive Refusal where
  /-- Raised by exec's arm of a command that has no meaning yet. Safe: nothing is claimed of it. No arm raises it. -/
  | notModelled (mnemonic : String)
deriving DecidableEq, Repr

/-- The part right after a power-on reset, the load of the stored tables under way (R42, R139, R151, R168, R173, R176,
R185), with the node number 0 and the store empty (logs 5 and 6). -/
def State.reset : State :=
  { pending := []
    now := 0
    loading := true
    active := none
    sm := .idle
    hpc := none
    hc := .off
    cm := .idle
    fe := .idle
    links := ⟨.start, .start⟩
    tx := .reset
    events := ⟨0, 0⟩
    fc := .zero
    sr := .reset 0
    store := ⟨.empty, .empty, false⟩
    mail := .empty }

def State.setPending (s : State) (x : List Instr) : State := { s with pending := x }
def State.setNow (s : State) (x : Word32) : State := { s with now := x }
def State.setLoading (s : State) (x : Bool) : State := { s with loading := x }
def State.setActive (s : State) (x : Option ActiveBank) : State := { s with active := x }
def State.setSm (s : State) (x : SignalMonitor) : State := { s with sm := x }
def State.setHpc (s : State) (x : Option Calculator) : State := { s with hpc := x }
def State.setHc (s : State) (x : HoldController) : State := { s with hc := x }
def State.setCm (s : State) (x : CreepMonitor) : State := { s with cm := x }
def State.setFe (s : State) (x : ForwardingEngine) : State := { s with fe := x }
def State.setLinks (s : State) (x : PerPort Link) : State := { s with links := x }
def State.setTx (s : State) (x : Scheduler) : State := { s with tx := x }
def State.setEvents (s : State) (x : EventSet) : State := { s with events := x }
def State.setFc (s : State) (x : FaultCapture) : State := { s with fc := x }
def State.setSr (s : State) (x : ServiceResponder) : State := { s with sr := x }
def State.setStore (s : State) (x : Store) : State := { s with store := x }
def State.setMail (s : State) (x : Mail) : State := { s with mail := x }

end Sys2Proof.Machine
end

