-- ==== Sys2Proof/WellFormed.lean ====
section
/-! DEFINITION. Which commands can be sent at all: the frames of R140 and the SERVICE tags of R69. The ranges of
frame monitors, ports and node pins are in the operands' types. -/

namespace Sys2Proof

/-- An identifier lies in the range of its format (R144). -/
def Ident.wf (i : Ident) : Bool := if i.ext then i.value < 2 ^ 29 else i.value < 2 ^ 11

/-- A classical CAN frame: an identifier of its format, at most 8 data bytes, and none in a remote frame (R140). -/
def Frame.wf (f : Frame) : Bool :=
  f.ident.wf && decide (f.data.length ≤ 8) && (!f.remote || f.data.isEmpty)

/-- The commands that can be sent. -/
def Instr.wf : Instr → Bool
  | .arrival _ f => f.wf
  | .claimExpiry tag => tag != 0
  | _ => true

end Sys2Proof
end

