-- ==== Sys2Proof/Machine/Ops.lean ====
section
/-! DEFINITION. The operations the blocks share: taking an element of a list, the time tick, raising an event, and
handing a delivery to another block. -/

namespace Sys2Proof.Machine

/-! ## Lists -/

/-- The first element with a property, and the list without it. -/
def takeFirst {α : Type} (f : α → Bool) : List α → Option (α × List α)
  | [] => none
  | x :: xs =>
    if f x then some (x, xs)
    else match takeFirst f xs with
      | none => none
      | some (y, ys) => some (y, x :: ys)

/-- The first element with a property replaced. -/
def replaceFirst {α : Type} (f : α → Bool) (g : α → α) : List α → List α
  | [] => []
  | x :: xs => if f x then g x :: xs else x :: replaceFirst f g xs

/-- The number of elements with a property. -/
def countWhere {α : Type} (f : α → Bool) (l : List α) : Nat := (l.filter f).length

/-! ## Time (R1, log 1) -/

/-- A running timer one millisecond later; one that has run its full duration waits at 0 for its expiry to be taken. -/
def tickTimer (t : Timer) : Timer := t.map (· - 1)

def tickClaim (c : Option Claim) : Option Claim := c.map fun x => { x with timer := tickTimer x.timer }

/-- One millisecond (00, Time): the time count moves on and wraps, and every timer of every block runs. -/
def tick (s : State) : State :=
  { s with
    now := s.now + 1
    sm := { s.sm with monitors := s.sm.monitors.map fun m => { m with timer := tickTimer m.timer } }
    hc := { s.hc with
      claims := s.hc.claims.map tickClaim
      startWindow := tickTimer s.hc.startWindow, armedConfirm := tickTimer s.hc.armedConfirm
      minHold := tickTimer s.hc.minHold, maxHold := tickTimer s.hc.maxHold, guard := tickTimer s.hc.guard
      rampStep := tickTimer s.hc.rampStep, handoverConfirm := tickTimer s.hc.handoverConfirm
      overlapTimer := tickTimer s.hc.overlapTimer, quiet := tickTimer s.hc.quiet }
    cm := { s.cm with
      stationaryTimer := tickTimer s.cm.stationaryTimer, evalTimer := tickTimer s.cm.evalTimer }
    fe := { s.fe with refill := tickTimer s.fe.refill }
    links :=
      { c := { s.links.c with recovery := tickTimer s.links.c.recovery }
        b := { s.links.b with recovery := tickTimer s.links.b.recovery } }
    tx := { s.tx with
      demandTimer := tickTimer s.tx.demandTimer, statusTimer := tickTimer s.tx.statusTimer }
    sr := { s.sr with idle := tickTimer s.sr.idle } }

/-! ## Events, reports and counts -/

/-- The bit of an event in the event set (R187). -/
def Event.bit (e : Event) : BitVec 16 := 1#16 <<< e.code

/-- Raising an event: it is in the set, and marked as raised again for the Status Frame in transmission (R167). -/
def raise (e : Event) (s : State) : State :=
  s.setEvents ⟨s.events.set ||| e.bit, s.events.again ||| e.bit⟩

/-- A fault report on its way to Fault Capture (R169, R170). -/
def report (sev : Severity) (kind : FaultKind) (subject : Subject) (s : State) : State :=
  s.setMail { s.mail with faults := s.mail.faults ++ [⟨sev, kind, subject, none⟩] }

/-- A report that the Hold Controller makes together with a change of state, after the change: it is taken with the
state the change has entered (R169; log 29). -/
def reportChange (sev : Severity) (kind : FaultKind) (subject : Subject) (s : State) : State :=
  s.setMail { s.mail with faults := s.mail.faults ++ [⟨sev, kind, subject, some s.hc.state⟩] }

/-- A count on its way to Fault Capture (R174). -/
def count (c : Counter) (s : State) : State :=
  s.setMail { s.mail with counts := s.mail.counts ++ [c] }

/-- As many counts of one counter. -/
def countTimes (c : Counter) (n : Nat) (s : State) : State :=
  s.setMail { s.mail with counts := s.mail.counts ++ List.replicate n c }

/-! ## Deliveries -/

/-- The Hold Controller tells the Creep Monitor its state (R49, R50). -/
def tellState (state : HoldState) (episode : Bool) (s : State) : State :=
  s.setMail { s.mail with stateReports := s.mail.stateReports ++ [⟨state, episode⟩] }

/-- The Creep Monitor reports to the Hold Controller (R43). -/
def tellHold (r : CreepReport) (s : State) : State :=
  s.setMail { s.mail with creepReports := s.mail.creepReports ++ [r] }

/-- The Signal Monitor delivers to the Creep Monitor (R109, R110). -/
def tellCreep (d : CreepDelivery) (s : State) : State :=
  s.setMail { s.mail with toCreep := s.mail.toCreep ++ [d] }

/-- A frame offered to a port's queue by another block (R155). -/
def postOffer (o : Offer) (s : State) : State :=
  s.setMail { s.mail with offers := s.mail.offers ++ [o] }

/-- The parameters the Transmit Scheduler uses: those of the active bank, or the factory defaults (R168). -/
def txBank (s : State) : Bank :=
  match s.active with
  | some a => a.bank
  | none => .default

/-- This node's service request and response identifiers (00, Identifiers). -/
def requestIdent (s : State) : Ident := .std (0x6F0 + s.sr.node.toNat)
def responseIdent (s : State) : Ident := .std (0x6F8 + s.sr.node.toNat)

end Sys2Proof.Machine
end

