-- ==== Sys2Proof/Machine/Operands.lean ====
section
/-! DEFINITION. Operand forms: the fields of watched frames (R5, R9, R10), the bytes of service requests (R188), and the
bytes of the part's own frames (R187). -/

namespace Sys2Proof.Machine

/-! ## Watched frames -/

/-- Width bits of the data from a start bit, unsigned (R5, R10; 00, Bytes and bits). -/
def rawField (data : List Byte) (start width : Nat) : Nat := leNat data / 2 ^ start % 2 ^ width

/-- Two's complement of a given width (R5). -/
def toSigned (width raw : Nat) : Int := if 2 ^ (width - 1) ≤ raw then (raw : Int) - (2 ^ width : Nat) else raw

/-- Steps 1 to 3 of R5. -/
def decodeRaw (e : Extraction) (data : List Byte) : Int :=
  let raw := rawField data e.start e.width
  let signed : Int := if e.signed then toSigned e.width raw else raw
  (signed * e.multiplier).tdiv e.divisor + e.offset

/-- A decoded value of a kind is one of its codes (R5, step 4). -/
def codeOk (k : SignalKind) (v : Int) : Bool :=
  match k.codes with
  | some cs => cs.contains v
  | none => true

/-- R5: the value of an extraction, absent when it fails with RANGE. -/
def decodeExtraction (k : SignalKind) (e : Extraction) (data : List Byte) : Option Int :=
  let v := decodeRaw e data
  if e.min ≤ v ∧ v ≤ e.max ∧ codeOk k v = true then
    some (if k.isWheel then v % 65536 else v)
  else none

/-- The check byte over some bytes with a seed (00, Check byte). -/
def checkByte (seed : Nat) (bytes : List Byte) : Nat := 255 - (seed + byteSum bytes) % 256

/-- R9: the check byte at position c matches. -/
def checkOk (pos seed : Nat) (data : List Byte) : Bool :=
  ((data[pos]?).map BitVec.toNat) == some (checkByte seed (data.take pos))

/-- What the counter test of R10 makes of a frame's counter: an error or none, and the baseline afterwards. -/
def counterTest (modulus ctr : Nat) (baseline : Option Nat) : Option SampleError × Option Nat :=
  if modulus ≤ ctr then (some .counterJump, none)
  else match baseline with
    | none => (none, some ctr)
    | some base =>
      if ctr = base then (some .counterRepeat, some base)
      else if ctr = (base + 1) % modulus then (none, some ctr)
      else (some .counterJump, some ctr)

/-! ## Service requests -/

/-- Byte k of a request, 0 past its end. -/
def argByte (f : Frame) (k : Nat) : Nat := ((f.data[k]?).map BitVec.toNat).getD 0

/-- A 16-bit and a 32-bit argument, little-endian. -/
def argWord (f : Frame) (k : Nat) : Nat := argByte f k + 256 * argByte f (k + 1)
def argLong (f : Frame) (k : Nat) : Nat := argWord f k + 65536 * argWord f (k + 2)

/-- A request carries a command: no remote frame, at least one byte (R177). -/
def hasCommand (f : Frame) : Bool := !f.remote && !f.data.isEmpty

/-- A request carries the command of this code (R188). -/
def isCommand (code : Nat) (f : Frame) : Bool := hasCommand f && argByte f 0 == code

/-- A floor argument: 0 means absent (R188). -/
def floorArg (v : Nat) : Option Nat := if v = 0 then none else some v

/-- The response statuses (R177). -/
inductive Status where
  | ok | satisfied | busy | refusedState | notReady | degraded | notStationary | guard | noSlot
  | badTable | badIndex | badField | badValue | checkFailed | storeFailed
deriving DecidableEq, Repr

/-- The status codes (R188). -/
def Status.code : Status → Nat
  | .ok => 0 | .satisfied => 1 | .busy => 2 | .refusedState => 3 | .notReady => 4 | .degraded => 5
  | .notStationary => 6 | .guard => 7 | .noSlot => 8 | .badTable => 9 | .badIndex => 10 | .badField => 11
  | .badValue => 12 | .checkFailed => 13 | .storeFailed => 14

/-! ## Bytes sent -/

def byte (n : Nat) : Byte := BitVec.ofNat 8 n

/-- A number in so many bytes, little-endian. -/
def bytesOf : Nat → Nat → List Byte
  | 0, _ => []
  | k + 1, n => byte n :: bytesOf k (n / 256)

/-- An integer in four bytes, two's complement (R188). -/
def bytesOfInt (v : Int) : List Byte := bytesOf 4 (BitVec.ofInt 32 v).toNat

/-- Data filled up to a length with zeros. -/
def padTo (n : Nat) (l : List Byte) : List Byte := (l ++ List.replicate n 0).take n

/-- A bit as a number. -/
def bit (b : Bool) : Nat := if b then 1 else 0

/-- Bytes 6 and 7 of a periodic frame: the alive counter and the check byte over bytes 0 to 6 (R187). -/
def sealBytes (seed alive : Nat) (body : List Byte) : List Byte :=
  let covered := padTo 6 body ++ [byte alive]
  covered ++ [byte (checkByte seed covered)]

/-- Bytes 0 to 5 of the Hold Demand Frame (R187). -/
def demandBytes (d : Demand) (state : HoldState) (cause : Option Cause) (degraded : Bool) : List Byte :=
  [byte (d.mode.code + 8 * bit d.park + 16 * bit degraded), byte (state.code + 16 * Cause.code cause)]
    ++ bytesOf 2 d.pressure.a ++ bytesOf 2 d.pressure.b

/-- Bytes 3 to 5 of the Status Frame (R187). -/
def faultBytes : Option FaultRecord → List Byte
  | none => [0, 0, 0]
  | some r => [byte (1 + 2 * bit (r.severity == .major)), byte r.kind.code, byte r.subject.code]

/-- Bytes 0 to 5 of the Status Frame (R187). -/
def statusBytes (state : HoldState) (cause : Option Cause) (degraded service : Bool) (events : BitVec 16)
    (record : Option FaultRecord) : List Byte :=
  [byte (state.code + 16 * Cause.code cause + 64 * bit degraded + 128 * bit service)]
    ++ bytesOf 2 events.toNat ++ faultBytes record

end Sys2Proof.Machine
end

