-- ==== Sys2Proof/Machine/Flags.lean ====
section
/-! DEFINITION. The conditions and flags the rules derive: missing and once-VALID mandatory signals (R7), the Hold
Controller's conditions (R46 to R48, R54, R62 to R64, R91 to R94, R137) and the scheduler's (R164, R165). -/

namespace Sys2Proof.Machine

/-! ## The two conditions of R7 -/

def SignalMonitor.entry (sm : SignalMonitor) (k : SignalKind) : SvtEntry :=
  (sm.svt[k.code]?).getD ⟨.unmapped, none, none⟩

def SignalMonitor.validity (sm : SignalMonitor) (k : SignalKind) : Validity := (sm.entry k).validity

/-- R7: a mandatory signal is missing, while a bank is active. -/
def SignalMonitor.missing (sm : SignalMonitor) : Bool :=
  (SignalKind.mandatory.any fun k => sm.validity k == .noData || sm.validity k == .lost) ||
    decide (countWhere (fun k => sm.validity k == .valid) SignalKind.wheels < 2)

/-- R7: all mandatory signals have been VALID at least once. -/
def SignalMonitor.allOnce (sm : SignalMonitor) : Bool :=
  (SignalKind.mandatory.all fun k => sm.validity k != .noData) &&
    decide (2 ≤ countWhere (fun k => sm.validity k != .noData && sm.validity k != .unmapped) SignalKind.wheels)

/-- R53: the lowest-coded of the eleven mandatory kinds still NO_DATA, else the lowest-coded wheel pulse kind that is. -/
def SignalMonitor.wanting (sm : SignalMonitor) : Option SignalKind :=
  match SignalKind.mandatory.find? fun k => sm.validity k == .noData with
  | some k => some k
  | none => SignalKind.wheels.find? fun k => sm.validity k == .noData

/-! ## Conditions of the Hold Controller -/

/-- R47: a mandatory signal is missing, or the Creep Monitor has reported BLIND (log 24). -/
def HoldController.isDegraded (h : HoldController) : Bool := h.missing || h.blind

/-- R46. -/
def HoldController.driverAbsent (h : HoldController) : Bool := h.image.doorOpen.is 1 && h.image.seat.is 0
def HoldController.ignitionOff (h : HoldController) : Bool := h.image.ignition.is 0
def HoldController.parkSet (h : HoldController) : Bool := h.image.parkSwitch.is 1
def HoldController.springApplied (h : HoldController) : Bool := h.image.spring.is 1
def HoldController.pedalPressed (h : HoldController) : Bool := h.image.brakePedal.is 1

/-- R48: the code of the first entry condition that fails, if one does. -/
def HoldController.entryRefusal (b : Bank) (h : HoldController) : Option Status :=
  if !b.params.holdEnable then some .refusedState
  else if h.missing then some .degraded
  else if h.blind then some .degraded
  else if !h.stationary then some .notStationary
  else if h.guard.isSome then some .guard
  else none

/-- R54, condition 1, not taken while the park-exit mark is set (R134). -/
def HoldController.parkCondition (h : HoldController) : Bool := h.stationary && h.springApplied && !h.parkExit

/-- R54, condition 2. -/
def HoldController.leaveCondition (h : HoldController) : Bool :=
  h.stationary && !h.springApplied && (h.driverAbsent || h.ignitionOff)

/-- GRADE is VALID with a magnitude of at least a threshold. -/
def HoldController.gradeAtLeast (h : HoldController) (threshold : Nat) : Bool :=
  match h.image.grade.valid? with
  | some g => decide (threshold ≤ g.natAbs)
  | none => false

/-- R54, condition 3. -/
def HoldController.armCondition (b : Bank) (h : HoldController) : Bool :=
  (h.entryRefusal b).isNone && h.pedalPressed && h.gradeAtLeast b.params.gradeThreshold

/-! ## Claims -/

/-- The claims that stand (R69). -/
def HoldController.standing (h : HoldController) : List Claim := h.claims.filterMap id

/-- The Claim Table is empty (R71). -/
def HoldController.noClaim (h : HoldController) : Bool := h.standing.isEmpty

/-- A source other than DRIVER and MONITOR (R62, R86). -/
def Source.outside : Source → Bool
  | .pendantRear | .pendantSide | .discharge | .service => true
  | .driver | .monitor => false

/-- R62, R63, R64: a handover condition holds in HOLDING. -/
def HoldController.handoverCondition (h : HoldController) : Bool :=
  h.ignitionOff || h.parkSet || (h.driverAbsent && !(h.standing.any fun c => c.source.outside))
    || ((h.result.map CalcResult.capacity).getD false) || h.blind

/-! ## Demand -/

def Circuits.zero : Circuits := ⟨0, 0⟩
def Circuits.sup (x y : Circuits) : Circuits := ⟨Nat.max x.a y.a, Nat.max x.b y.b⟩
def Circuits.inf (x y : Circuits) : Circuits := ⟨Nat.min x.a y.a, Nat.min x.b y.b⟩
def Circuits.sub (x y : Circuits) : Circuits := ⟨x.a - y.a, x.b - y.b⟩

/-- The pressures of the result in hand (R45, R58, R59). -/
def HoldController.resultPressure (h : HoldController) : Circuits :=
  match h.result with
  | some r => r.pressure
  | none => .zero

/-- The floors of a claim, an absent one as 0 (R69). -/
def Claim.floors (c : Claim) : Circuits := ⟨c.floorA.getD 0, c.floorB.getD 0⟩

def Claim.hasFloor (c : Claim) : Bool := c.floorA.isSome || c.floorB.isSome

/-- The largest floors of the standing claims, each limited to the Maximum Pressure (R58, R59). -/
def HoldController.limitedFloors (b : Bank) (h : HoldController) : Circuits :=
  h.standing.foldl (fun acc c => acc.sup (c.floors.inf b.maxPressure)) .zero

/-- The mode of the demand record in each hold state (R44). -/
def HoldState.mode : HoldState → DemandMode
  | .off | .starting | .inactive | .armed => .none
  | .holding | .handover => .hold
  | .releasing => .ramp
  | .parked => .parkOnly
  | .secured => .max

/-- The park request of each hold state (R44). -/
def HoldState.parks : HoldState → Bool
  | .handover | .parked | .secured => true
  | _ => false

/-- The demand record of a hold state, with the pressures HOLDING, RELEASING or HANDOVER asks (R44). -/
def demandFor (b : Bank) (state : HoldState) (asked : Circuits) : Demand :=
  { mode := state.mode
    pressure :=
      match state with
      | .holding | .releasing | .handover => asked
      | .secured => b.maxPressure
      | _ => .zero
    park := state.parks }

/-! ## Drive-off (R91 to R94) -/

/-- R91: the intent, true for +1. -/
def HoldController.intent (h : HoldController) : Option Bool :=
  match h.image.gear.valid? with
  | some 1 => some true
  | some 2 => some false
  | _ => none

def intentSign (forward : Bool) : Int := if forward then 1 else -1

/-- R92. -/
def uphill (forward : Bool) (grade : Int) : Bool :=
  decide (0 < intentSign forward * grade) && decide (Config.uphillGrade ≤ grade.natAbs)

/-- The index of the lowest band whose bound is at least a value, else of the last band (R93). -/
def bandOf (bounds : List Nat) (v : Nat) : Nat :=
  match bounds.findIdx? fun x => decide (v ≤ x) with
  | some i => i
  | none => bounds.length - 1

/-- R93: the selected cell of the Release Table. -/
def Bank.releaseCell (b : Bank) (grade : Int) (mass : Nat) : Nat :=
  (b.cells[bandOf b.gradeBounds grade.natAbs * 6 + bandOf b.massBounds mass]?).getD 0

def HoldController.mass (h : HoldController) : Nat := (h.result.map CalcResult.mass).getD 0

/-- R94: the drive-off criterion. -/
def HoldController.criterion (b : Bank) (h : HoldController) : Bool :=
  match h.intent, h.image.grade.valid?, h.image.drivePedal.valid?, h.image.torque.valid? with
  | some fwd, some grade, some pedal, some torque =>
    if uphill fwd grade then
      decide ((b.releaseCell grade h.mass : Int) ≤ torque) && decide ((b.params.uphillPedal : Int) ≤ pedal)
    else decide ((b.params.downhillPedal : Int) ≤ pedal)
  | _, _, _, _ => false

/-- R101: OUTPUT_SPEED against a release intent. -/
def HoldController.rollback (b : Bank) (h : HoldController) (forward : Bool) : Bool :=
  match h.image.outputSpeed.valid? with
  | some v => decide (intentSign forward * v < 0) && decide (b.params.rollbackSpeed ≤ v.natAbs)
  | none => false

/-- R60, R95: the criterion is acted on: the Min Hold timer does not run, or Min Hold Time is 0 (log 12). -/
def HoldController.criterionActive (b : Bank) (h : HoldController) : Bool :=
  h.minHold.isNone || b.params.minHold == 0

/-- R137: the quiet test. -/
def HoldController.quietTest (h : HoldController) : Bool := h.springApplied && h.stationary

/-! ## The scheduler's conditions -/

/-- R164: a class is held back on a port. -/
def heldBack (s : State) (p : Port) (cls : TxClass) : Bool :=
  p == .b && (cls == .status || cls == .service) && decide ((txBank s).params.hpWatermark ≤ s.tx.owed)

/-- R165: the panic condition stands. -/
def panicStands (s : State) : Bool := decide ((txBank s).params.panicWatermark ≤ s.tx.owed)

end Sys2Proof.Machine
end

