-- ==== Sys2Proof/Machine/CreepMonitor.lean ====
section
/-! DEFINITION. The Creep Monitor (chapter 6): pulse counts into pending sums, BLIND, the evaluation, the stationary
decision and the creep accumulator. -/

namespace Sys2Proof.Machine

def CreepMonitor.channel (c : CreepMonitor) (n : Nat) : ChannelRec := (c.channels[n]?).getD ⟨.unmapped, none, 0⟩

def CreepMonitor.setChannel (c : CreepMonitor) (n : Nat) (r : ChannelRec) : CreepMonitor :=
  { c with channels := c.channels.set n r }

/-- The number of VALID channels (R111). -/
def CreepMonitor.validCount (c : CreepMonitor) : Nat := countWhere (fun r => r.validity == .valid) c.channels

/-! ## Pulse counts (R109, R110) -/

/-- R109: one published wheel pulse kind at its channel's record. -/
def takePulse (r : ChannelRec) (x : PubItem) : ChannelRec :=
  match x.validity, x.value with
  | .valid, some v =>
    let ct := v.toNat
    match r.baseline with
    | some base =>
      if x.entry then ⟨.valid, some ct, r.pending⟩
      else ⟨.valid, some ct, satAdd Config.cap16 r.pending ((v - base) % 65536).toNat⟩
    | none => ⟨.valid, some ct, r.pending⟩
  | .lost, _ => ⟨.lost, none, 0⟩
  | v, _ => { r with validity := v }

def takePulses (items : List PubItem) (c : CreepMonitor) : CreepMonitor :=
  items.foldl (fun c x =>
    match x.kind.channel with
    | some n => c.setChannel n.val (takePulse (c.channel n.val) x)
    | none => c) c

/-- R111: BLIND is entered. -/
def enterBlind (s : State) : State :=
  let was := s.cm.stationary
  let s1 := s.setCm { s.cm with blind := true, stationaryTimer := none, stationary := false }
  let s2 := report .major .monitorBlind .none (tellHold (.blind true) s1)
  if was then tellHold (.decision false) s2 else s2

/-- R112: BLIND is left. -/
def leaveBlind (b : Bank) (s : State) : State :=
  tellHold (.blind false)
    (s.setCm { s.cm with blind := false, stationaryTimer := some b.params.stopConfirm })

/-- R109, R111, R112: a publication set at the Creep Monitor. -/
def takeWheelSet (b : Bank) (items : List PubItem) (s : State) : State :=
  let before := s.cm.validCount
  let s1 := s.setCm (takePulses items s.cm)
  let after := s1.cm.validCount
  if 2 ≤ before ∧ after < 2 then enterBlind s1
  else if before < 2 ∧ 2 ≤ after then leaveBlind b s1
  else s1

/-- CREEP_PUBLICATION (R109): the oldest delivery of the Signal Monitor, if it is a publication set. -/
def takeCreepSet (s : State) : State :=
  match s.mail.toCreep, s.active with
  | .publication items :: rest, some a => takeWheelSet a.bank items (s.setMail { s.mail with toCreep := rest })
  | _, _ => s

/-- REFUSED_COUNT (R110): the oldest delivery, if it is a refused count: the channel's new baseline, the pending sum
unchanged. -/
def takeRefused (s : State) : State :=
  match s.mail.toCreep with
  | .refused n ct :: rest =>
    let s1 := s.setMail { s.mail with toCreep := rest }
    s1.setCm (s1.cm.setChannel n.val { s1.cm.channel n.val with baseline := some ct })
  | _ => s

/-! ## The evaluation (R113, R114, R116, R117) -/

/-- A VALID channel as R113 ranks it: its distance, its axle position's rank and its number. -/
structure Ranked where
  distance : Nat
  axle : Nat
  channel : Fin 8
deriving DecidableEq, Repr

/-- R113: one channel stands before another. -/
def Ranked.before (x y : Ranked) : Bool :=
  decide (y.distance < x.distance) ||
    (x.distance == y.distance &&
      (decide (x.axle < y.axle) || (x.axle == y.axle && decide (x.channel.val ≤ y.channel.val))))

def insertRanked (x : Ranked) : List Ranked → List Ranked
  | [] => [x]
  | y :: ys => if x.before y then x :: y :: ys else y :: insertRanked x ys

def rankAll : List Ranked → List Ranked
  | [] => []
  | x :: xs => insertRanked x (rankAll xs)

def channelNumbers : List (Fin 8) := [0, 1, 2, 3, 4, 5, 6, 7]

/-- R113, steps 2 and 3: the VALID channels with their distances, in rank order. -/
def ranking (b : Bank) (c : CreepMonitor) : List Ranked :=
  rankAll (channelNumbers.filterMap fun n =>
    let r := c.channel n.val
    if r.validity = .valid then
      let e := (b.extractionOf (.wheelPulse n)).getD .default
      some ⟨r.pending * e.distance, e.axle.code, n⟩
    else none)

/-- R113, steps 1 and 4: every pending sum at 0. -/
def CreepMonitor.clearPending (c : CreepMonitor) : CreepMonitor :=
  { c with channels := c.channels.map fun r => { r with pending := 0 } }

/-- R114: the stationary test on an increment. -/
def stationaryTest (b : Bank) (increment : Nat) (s : State) : State :=
  if increment = 0 then s
  else
    let was := s.cm.stationary
    let s1 := s.setCm { s.cm with stationary := false, stationaryTimer := some b.params.stopConfirm }
    if was then tellHold (.decision false) s1 else s1

/-- R117: a crossing, with the increment channel. -/
def cross (channel : Fin 8) (s : State) : State :=
  let s1 := raise .creep (s.setCm { s.cm with accumulator := 0 })
  match s.cm.told with
  | .holding =>
    if s.cm.crossed then tellHold (.crossing true channel) s1
    else tellHold (.crossing false channel) (s1.setCm { s1.cm with crossed := true })
  | .handover | .parked | .secured => tellHold (.crossing true channel) s1
  | _ => s1

/-- R116: the accumulation of an increment. -/
def accumulate (b : Bank) (x : Ranked) (s : State) : State :=
  if s.cm.counting then
    let acc := satAdd Config.cap16 s.cm.accumulator x.distance
    let s1 := s.setCm { s.cm with accumulator := acc }
    if b.params.creepLimit * 10 ≤ acc then cross x.channel s1 else s1
  else s

/-- R113: one evaluation. -/
def evaluate (b : Bank) (s : State) : State :=
  let s1 := s.setCm s.cm.clearPending
  if s.cm.blind then s1
  else match (ranking b s.cm)[1]? with
    | some x => accumulate b x (stationaryTest b x.distance s1)
    | none => s1

/-- EVALUATION (R113): one evaluation, and the evaluation timer started again. -/
def evaluationExpired (s : State) : State :=
  match s.active, s.cm.evalTimer with
  | some a, some 0 =>
    let s1 := evaluate a.bank s
    s1.setCm { s1.cm with evalTimer := some Config.evaluationPeriod }
  | _, _ => s

/-- STATIONARY_TIMER_EXPIRY (R114). -/
def stationaryExpired (s : State) : State :=
  match s.cm.stationaryTimer with
  | some 0 =>
    let was := s.cm.stationary
    let s1 := s.setCm { s.cm with stationary := true, stationaryTimer := none }
    if was then s1 else tellHold (.decision true) s1
  | _ => s

/-! ## State reports (R115) -/

/-- R115: the states in which the accumulation counts. -/
def HoldState.counts : HoldState → Bool
  | .holding | .handover | .parked | .secured => true
  | _ => false

/-- STATE_REPORT (R115): the oldest state report. -/
def takeStateReport (s : State) : State :=
  match s.mail.stateReports with
  | [] => s
  | r :: rest =>
    let s1 := s.setMail { s.mail with stateReports := rest }
    s1.setCm { s1.cm with
      told := r.state
      counting := r.state.counts
      accumulator := 0
      crossed := if r.episode then false else s1.cm.crossed }

/-! ## The commands -/

/-- REFUSED_COUNT (R110). -/
def execRefusedCount (s : State) : Host.Outcome State Fault Refusal := .next (takeRefused s)

/-- CREEP_PUBLICATION (R109). -/
def execCreepPublication (s : State) : Host.Outcome State Fault Refusal := .next (takeCreepSet s)

/-- EVALUATION (R113). -/
def execEvaluation (s : State) : Host.Outcome State Fault Refusal := .next (evaluationExpired s)

/-- STATIONARY_TIMER_EXPIRY (R114). -/
def execStationaryTimerExpiry (s : State) : Host.Outcome State Fault Refusal := .next (stationaryExpired s)

/-- STATE_REPORT (R115). -/
def execStateReport (s : State) : Host.Outcome State Fault Refusal := .next (takeStateReport s)

end Sys2Proof.Machine
end

