-- ==== Sys2Proof/Machine/Forwarding.lean ====
section
/-! DEFINITION. The Forwarding Engine (chapter 8): arrivals, the identifier check, the lookup, policing and refill. -/

namespace Sys2Proof.Machine

/-! ## Looking up (R145, R146) -/

/-- R145, R151: the part's own transmit identifiers. In pass-through they are 0x3E0 and the service response identifier. -/
def ownIdents (s : State) : List Ident :=
  match s.active with
  | some a => [a.bank.params.demandIdent, a.bank.params.statusIdent, responseIdent s]
  | none => [.std 0x3E0, responseIdent s]

/-- R146: the entry in use that an arrival matches. -/
def lookup (b : Bank) (p : Port) (f : Frame) : Option ForwardEntry :=
  b.forwarding.find? fun e => e.inUse && e.ident == f.ident && e.port.matches p

/-- What the Forwarding Engine makes of an arrival (R146, R151): whether it is forwarded and by which rate class (0 is
unpoliced), and the frame monitor given a watch copy. -/
structure Verdict where
  forward : Option Nat
  watch : Option Nat
deriving DecidableEq, Repr

/-- R144: the default action of a port is BLOCK. -/
def blocksByDefault (b : Bank) : Port → Bool
  | .c => b.params.blockDefaultC
  | .b => b.params.blockDefaultB

def verdict (s : State) (p : Port) (f : Frame) : Verdict :=
  if f.remote then ⟨none, none⟩
  else match s.active with
    | none => ⟨some 0, none⟩
    | some a =>
      match lookup a.bank p f with
      | some e =>
        { forward := if e.action.passes then some e.rateClass else none
          watch := if e.action.watches then some e.monitor else none }
      | none => ⟨if blocksByDefault a.bank p then none else some 0, none⟩

/-! ## The forwarding copy (R148) -/

/-- The tokens of a rate class 1 to 7 (R149). -/
def ForwardingEngine.tokens (fe : ForwardingEngine) (cls : Nat) : Nat := (fe.buckets[cls - 1]?).getD 0

def ForwardingEngine.takeToken (fe : ForwardingEngine) (cls : Nat) : ForwardingEngine :=
  { fe with buckets := fe.buckets.set (cls - 1) (fe.tokens cls - 1) }

/-- R148: discarded for BUS_OFF, policed, or offered to the other port as class FORWARD. -/
def forwardCopy (p : Port) (f : Frame) (cls : Nat) (s : State) : State :=
  let offerIt := postOffer ⟨p.other, .forward, f, false⟩
  if (s.links.get p.other).busOff then count (.queueDrop p.other) s
  else if cls = 0 then offerIt s
  else if s.fe.tokens cls = 0 then count (.policed p) s
  else offerIt (s.setFe (s.fe.takeToken cls))

/-- R147: the watch copy. -/
def watchCopy (i : Nat) (f : Frame) (s : State) : State :=
  s.setMail { s.mail with watch := s.mail.watch ++ [⟨i, f⟩] }

/-- R146: the copies of an arrival, the watch copy first; one that yields none and is not watched is BLOCKED. -/
def makeCopies (p : Port) (f : Frame) (v : Verdict) (s : State) : State :=
  let s1 := match v.watch with
    | some i => watchCopy i f s
    | none => s
  match v.forward, v.watch with
  | some cls, _ => forwardCopy p f cls s1
  | none, some _ => s1
  | none, none => count (.blocked p) s1

/-! ## Arrivals (R140, R145) -/

/-- R145, step 1: an identifier conflict. -/
def idConflict (p : Port) (s : State) : State :=
  report .minor .idConflict (.port p) (raise .idConflict (count (.idConflict p) s))

/-- R145, step 2: a service request handed to the Service Responder. -/
def steer (p : Port) (f : Frame) (s : State) : State :=
  s.setMail { s.mail with requests := s.mail.requests ++ [⟨p, f⟩] }

/-- R140: the port takes arrivals: it is ACTIVE, and the tables are not being loaded (R151). -/
def takesArrivals (p : Port) (s : State) : Bool := !s.loading && !(s.links.get p).busOff

/-- ARRIVAL (R140, R145, R146). Only a classical CAN frame is an arrival. -/
def takeArrival (p : Port) (f : Frame) (s : State) : State :=
  if takesArrivals p s && f.wf then
    let s1 := count (.rx p) s
    if (ownIdents s).contains f.ident then idConflict p s1
    else if f.ident = requestIdent s then steer p f s1
    else makeCopies p f (verdict s p f) s1
  else s

/-! ## Refill (R149) -/

/-- Each class gains its Refill up to its Depth (R149). -/
def refillBuckets (b : Bank) : Nat → List Nat → List Nat
  | _, [] => []
  | cls, t :: ts => satAdd (b.rate cls).depth t (b.rate cls).refill :: refillBuckets b (cls + 1) ts

/-- REFILL_EXPIRY (R149). -/
def refillExpired (s : State) : State :=
  match s.active, s.fe.refill with
  | some a, some 0 => s.setFe ⟨refillBuckets a.bank 1 s.fe.buckets, some Config.refillPeriod⟩
  | _, _ => s

/-! ## The commands -/

/-- ARRIVAL (R140). -/
def execArrival (p : Port) (f : Frame) (s : State) : Host.Outcome State Fault Refusal := .next (takeArrival p f s)

/-- REFILL_EXPIRY (R149). -/
def execRefillExpiry (s : State) : Host.Outcome State Fault Refusal := .next (refillExpired s)

end Sys2Proof.Machine
end

