-- ==== Sys2Proof/Machine/Calculator.lean ====
section
/-! DEFINITION. The Hold Pressure Calculator (chapter 2). -/

namespace Sys2Proof.Machine

/-- R26: the image under a bank at reset and activation. -/
def CalcImage.start (b : Bank) : CalcImage :=
  let f := fun k => Sig.start (b.mapped k)
  { loads := ⟨f (.axleLoad .f1), f (.axleLoad .f2), f (.axleLoad .t1), f (.axleLoad .t2), f (.axleLoad .p)⟩
    grade := f .grade, drum := f .drumSpeed, discharge := f .dischargeActive, pusher := f .pusherDown }

/-- R26: one published kind into the image; kinds the calculator does not consume do not reach it. -/
def CalcImage.take (img : CalcImage) (x : PubItem) : CalcImage :=
  let v : Sig := ⟨x.validity, x.value⟩
  match x.kind with
  | .axleLoad a => { img with loads := img.loads.set a v }
  | .grade => { img with grade := v }
  | .drumSpeed => { img with drum := v }
  | .dischargeActive => { img with discharge := v }
  | .pusherDown => { img with pusher := v }
  | _ => img

/-- R28: the pusher axle is counted. -/
def CalcImage.pusherCounted (img : CalcImage) : Bool :=
  match img.pusher.validity with
  | .valid => img.pusher.is 1
  | .noData | .lost => false
  | .unmapped =>
    match img.loads.p.valid? with
    | some v => decide ((Config.pusherLoad : Int) < v)
    | none => false

/-- R28: the counted axles, in the order of their codes. -/
def CalcImage.counted (img : CalcImage) : List Axle :=
  if img.pusherCounted then [.f1, .f2, .t1, .t2, .p] else [.f1, .f2, .t1, .t2]

/-- R29: the load used of an axle before the replacement of R30. -/
def loadUsed (b : Bank) (img : CalcImage) (x : Axle) : Nat :=
  match (img.loads.get x).valid? with
  | some v => v.toNat
  | none => (b.axles.get x).rated

def sumOver (f : Axle → Nat) (l : List Axle) : Nat := (l.map f).foldr (· + ·) 0

/-- R30: the measured mass is zero, so the Rated Loads replace the loads used. -/
def massZero (b : Bank) (img : CalcImage) : Bool := sumOver (loadUsed b img) img.counted == 0

/-- R30: the load finally used of an axle. -/
def finalLoad (b : Bank) (img : CalcImage) (x : Axle) : Nat :=
  if massZero b img then (b.axles.get x).rated else loadUsed b img x

/-- R30: the total counted load, in 10 kg. -/
def totalLoad (b : Bank) (img : CalcImage) : Nat := sumOver (finalLoad b img) img.counted

/-- R31: the grade used. -/
def gradeUsed (img : CalcImage) : Nat :=
  match img.grade.valid? with
  | some g => Nat.min g.natAbs Config.steepestGrade
  | none => Config.steepestGrade

/-- R32: the drum margin, %. -/
def drumMargin (b : Bank) (img : CalcImage) : Nat :=
  let turning := match img.drum.valid? with
    | some v => decide (b.params.drumThreshold ≤ v.natAbs)
    | none => true
  if turning || img.discharge.is 1 then b.params.drumMargin else 0

/-- R33: the hold force, N. -/
def holdForce (b : Bank) (img : CalcImage) : Nat :=
  Nat.max b.params.forceFloor
    (ceilDiv (10 * totalLoad b img * gradeUsed img * 981 * b.params.safetyFactor * (100 + drumMargin b img)) 1000000000)

/-- R34: the share of a counted axle, N. -/
def axleShare (b : Bank) (img : CalcImage) (x : Axle) : Nat :=
  if totalLoad b img = 0 then ceilDiv (holdForce b img) img.counted.length
  else ceilDiv (holdForce b img * finalLoad b img x) (totalLoad b img)

/-- R35: the pressure of a counted axle, kPa. -/
def axlePressure (b : Bank) (img : CalcImage) (x : Axle) : Nat := ceilDiv (axleShare b img x) (b.axles.get x).gain

/-- R36: the largest pressure among some axles. -/
def largestPressure (b : Bank) (img : CalcImage) (l : List Axle) : Nat := (l.map (axlePressure b img)).foldr Nat.max 0

/-- The axles of circuit A are F1 and F2 (00). -/
def Axle.circuitA : Axle → Bool
  | .f1 | .f2 => true
  | _ => false

/-- R36: the circuit pressures before clamping. -/
def unclamped (b : Bank) (img : CalcImage) : Circuits :=
  { a := largestPressure b img (img.counted.filter fun x => x.circuitA)
    b := largestPressure b img (img.counted.filter fun x => !x.circuitA) }

/-- R36: a circuit pressure clamped between the Pressure Floor and the Maximum Pressure. -/
def clampPressure (floor top v : Nat) : Nat := if top < v then top else Nat.max floor v

/-- R37: a circuit needs more than its Maximum Pressure. -/
def excess (b : Bank) (img : CalcImage) : Bool :=
  decide (b.params.maxPressureA < (unclamped b img).a) || decide (b.params.maxPressureB < (unclamped b img).b)

/-- R38: the result of a computation, with a given capacity flag. -/
def resultOf (b : Bank) (img : CalcImage) (capacity : Bool) : CalcResult :=
  { pressure :=
      ⟨clampPressure b.params.pressureFloor b.params.maxPressureA (unclamped b img).a,
       clampPressure b.params.pressureFloor b.params.maxPressureB (unclamped b img).b⟩
    capacity
    mass := 10 * totalLoad b img }

/-- R39: the calculator at a start, with the start computation's result: no event, no fault, the flag
clear. That its load mark stays clear where the start computation finds a mass of 0 is the model's choice (log 30). -/
def Calculator.start (b : Bank) : Calculator :=
  { image := .start b, result := resultOf b (.start b) false, lossMarks := ⟨false, false, false, false, false⟩
    loadMark := false }

/-- R29: the loss marks after a computation, and the axles whose loss is reported. -/
def markLoss (img : CalcImage) (x : Axle) (marks : PerAxle Bool) : PerAxle Bool × Bool :=
  match (img.loads.get x).validity with
  | .valid => (marks.set x false, false)
  | .lost => if marks.get x then (marks, false) else (marks.set x true, true)
  | .noData | .unmapped => (marks, false)

def markLosses (img : CalcImage) : List Axle → PerAxle Bool → PerAxle Bool × List Axle
  | [], marks => (marks, [])
  | x :: xs, marks =>
    let (marks1, reported) := markLoss img x marks
    let (marks2, rest) := markLosses img xs marks1
    (marks2, if reported then x :: rest else rest)

/-- R29: the MINOR reports of lost loads. -/
def reportLosses (l : List Axle) (s : State) : State :=
  l.foldl (fun s x => report .minor .signalLost (.signal (.axleLoad x)) s) s

/-- R27: one whole computation on an updated image: the marks and reports of R29 and R30, the capacity flag of R37, and
the result handed to the Hold Controller (R38). -/
def compute (b : Bank) (c : Calculator) (img : CalcImage) (s : State) : State :=
  let (marks, lost) := markLosses img img.counted c.lossMarks
  let zero := massZero b img
  let exceeds := excess b img
  let r := resultOf b img exceeds
  let s1 := reportLosses lost s
  let s2 := if zero = true ∧ c.loadMark = false then report .minor .loadImplausible .none s1 else s1
  let s3 := if exceeds then raise .capacity s2 else s2
  let s4 := if exceeds = true ∧ c.result.capacity = false then report .minor .capacity .none s3 else s3
  let s5 := s4.setMail { s4.mail with results := s4.mail.results ++ [r] }
  s5.setHpc (some ⟨img, r, marks, zero⟩)

/-- CALC_PUBLICATION (R26, R27): the oldest publication set waiting for the calculator. -/
def takeCalcSet (s : State) : State :=
  match s.mail.toCalc, s.active, s.hpc with
  | items :: rest, some a, some c =>
    compute a.bank c (items.foldl CalcImage.take c.image) (s.setMail { s.mail with toCalc := rest })
  | _, _, _ => s

/-- CALC_PUBLICATION (R27). -/
def execCalcPublication (s : State) : Host.Outcome State Fault Refusal := .next (takeCalcSet s)

end Sys2Proof.Machine
end

