-- ==== Sys2Proof/Machine/Checks.lean ====
section
/-! DEFINITION. The checks V1 to V10 of a bank (R182), each with the entry it reports. -/

namespace Sys2Proof.Machine

/-- A failed check: its number, and the index and table of the entry reported, if the check reports one (R182). -/
structure CheckFailure where
  check : Nat
  entry : Option (Nat × Nat)
deriving DecidableEq, Repr

/-- The first index, counted from one given, at which a list's element has a property that may read the elements of
lower index. -/
def firstBad {α : Type} (f : List α → α → Bool) : List α → Nat → List α → Option Nat
  | _, _, [] => none
  | seen, i, x :: xs => if f seen x then some i else firstBad f (seen ++ [x]) (i + 1) xs

/-- R144: two entries in use conflict: one key, or one identifier with EITHER. -/
def forwardConflict (x y : ForwardEntry) : Bool :=
  x.inUse && y.inUse && x.ident == y.ident && (x.port == y.port || x.port == .either || y.port == .either)

/-- V1. -/
def checkV1 (b : Bank) : Option CheckFailure :=
  (firstBad (fun seen x => seen.any (forwardConflict x)) [] 0 b.forwarding).map fun i => ⟨1, some (i, 2)⟩

/-- V2. -/
def checkV2 (b : Bank) : Option CheckFailure :=
  (firstBad (fun _ x => x.inUse && x.action.watches && !(b.monitor x.monitor).inUse) [] 0 b.forwarding).map
    fun i => ⟨2, some (i, 2)⟩

/-- V3, on the Signal Frame Table: a monitor in use named by no extraction. The monitors are numbered by their place. -/
def unnamedMonitor (b : Bank) : Option Nat :=
  firstBad (fun seen x => x.inUse && (b.extractionsOf seen.length).isEmpty) [] 0 b.monitors

/-- V3. -/
def checkV3 (b : Bank) : Option CheckFailure :=
  match unnamedMonitor b with
  | some i => some ⟨3, some (i, 0)⟩
  | none =>
    (firstBad (fun _ x => x.kind.isSome && !(b.monitor x.monitor).inUse) [] 0 b.extractions).map
      fun i => ⟨3, some (i, 1)⟩

/-- V4. -/
def checkV4 (b : Bank) : Option CheckFailure :=
  (firstBad (fun seen x => x.kind.isSome && seen.any fun y => y.kind == x.kind) [] 0 b.extractions).map
    fun i => ⟨4, some (i, 1)⟩

/-- V5. -/
def checkV5 (b : Bank) : Option CheckFailure :=
  if (SignalKind.mandatory.all b.mapped) && decide (2 ≤ (SignalKind.wheels.filter b.mapped).length) then none
  else some ⟨5, none⟩

/-- Two bit ranges, each by start and length, share a bit. -/
def rangesOverlap (s1 n1 s2 n2 : Nat) : Bool := decide (s1 < s2 + n2) && decide (s2 < s1 + n1)

/-- V6 for an extraction. -/
def extractionPlaced (b : Bank) (x : Extraction) : Bool :=
  let e := b.monitor x.monitor
  decide (x.start + x.width ≤ 64) &&
    (e.counterMod == 0 || !rangesOverlap x.start x.width e.counterStart e.counterWidth) &&
    (e.checkPos == 0 || !rangesOverlap x.start x.width (8 * e.checkPos) 8)

/-- V6 for a monitor's counter field. -/
def counterPlaced (e : MonitorEntry) : Bool :=
  e.counterMod == 0 ||
    (decide (e.counterStart + e.counterWidth ≤ 64) &&
      (e.checkPos == 0 || !rangesOverlap e.counterStart e.counterWidth (8 * e.checkPos) 8))

/-- V6. -/
def checkV6 (b : Bank) : Option CheckFailure :=
  match firstBad (fun _ x => x.kind.isSome && !extractionPlaced b x) [] 0 b.extractions with
  | some i => some ⟨6, some (i, 1)⟩
  | none => (firstBad (fun _ e => !counterPlaced e) [] 0 b.monitors).map fun i => ⟨6, some (i, 0)⟩

/-- V7. -/
def checkV7 (b : Bank) : Option CheckFailure :=
  (firstBad (fun _ e => e.inUse && decide (e.n ≤ e.m)) [] 0 b.monitors).map fun i => ⟨7, some (i, 0)⟩

def minimaSum (m : PerClass Nat) : Nat := m.hold + m.forward + m.status + m.service

/-- V8. -/
def checkV8 (b : Bank) : Option CheckFailure :=
  if minimaSum b.minima.c ≤ Config.queueSize ∧ minimaSum b.minima.b ≤ Config.queueSize ∧
      b.params.hpWatermark < b.params.panicWatermark then none
  else some ⟨8, none⟩

def strictlyIncreasing : List Nat → Bool
  | x :: y :: rest => decide (x < y) && strictlyIncreasing (y :: rest)
  | _ => true

/-- V9. -/
def checkV9 (b : Bank) : Option CheckFailure :=
  if strictlyIncreasing b.gradeBounds && strictlyIncreasing b.massBounds then none else some ⟨9, none⟩

/-- An 11-bit identifier 0x6F0 to 0x6FF (V10). -/
def isServiceIdent (i : Ident) : Bool := !i.ext && decide (0x6F0 ≤ i.value) && decide (i.value ≤ 0x6FF)

/-- V10. -/
def checkV10 (b : Bank) : Option CheckFailure :=
  let d := b.params.demandIdent
  let t := b.params.statusIdent
  if d != t && !isServiceIdent d && !isServiceIdent t &&
      (b.forwarding.all fun e => !e.inUse || (e.ident != d && e.ident != t)) then none
  else some ⟨10, none⟩

/-- The first of some failures. -/
def firstFailure : List (Option CheckFailure) → Option CheckFailure
  | [] => none
  | some f :: _ => some f
  | none :: rest => firstFailure rest

/-- R182: the first check that fails, in numerical order. -/
def checkBank (b : Bank) : Option CheckFailure :=
  firstFailure [checkV1 b, checkV2 b, checkV3 b, checkV4 b, checkV5 b, checkV6 b, checkV7 b, checkV8 b, checkV9 b,
    checkV10 b]

end Sys2Proof.Machine
end

