-- ==== Sys2Proof/Machine/FaultCapture.lean ====
section
/-! DEFINITION. Fault Capture (chapter 10): the Fault Record and the counters. -/

namespace Sys2Proof.Machine

/-! ## The Fault Record (R169, R170) -/

/-- A report captured: severity, kind and subject from it, hold state and timestamp added, repeat count 0 (R170). The
hold state is the Hold Controller's as it stands, or the one R169 names for the report (log 29). -/
def capture (r : FaultReport) (s : State) : State :=
  raise .faultCaptured (s.setFc { s.fc with
    record := some ⟨r.severity, r.kind, r.subject, r.state.getD s.hc.state, s.now, 0⟩ })

/-- A report counted as a repeat (R170). -/
def countRepeat (old : FaultRecord) (s : State) : State :=
  s.setFc { s.fc with record := some { old with repeats := satAdd Config.cap8 old.repeats 1 } }

/-- R170: a report is captured into an empty record, or a MAJOR one over a MINOR fault; else it is a repeat. -/
def takeReport (r : FaultReport) (s : State) : State :=
  match s.fc.record with
  | none => capture r s
  | some old => if old.severity = .minor ∧ r.severity = .major then capture r s else countRepeat old s

/-- FAULT_REPORT: the n-th waiting report (R171: either of two may be taken first). -/
def takeFault (n : Nat) (s : State) : State :=
  match s.mail.faults[n]? with
  | none => s
  | some r => takeReport r (s.setMail { s.mail with faults := s.mail.faults.eraseIdx n })

/-! ## The counters (R174) -/

/-- One count of a 16-bit counter (R174). -/
def bump (n : Nat) : Nat := satAdd Config.cap16 n 1

def updatePort (p : Port) (f : PortCounters → PortCounters) (fc : FaultCapture) : FaultCapture :=
  { fc with ports := fc.ports.set p (f (fc.ports.get p)) }

def FaultCapture.monitor (fc : FaultCapture) (i : Nat) : MonitorCounters := (fc.monitors[i]?).getD .zero

def updateMonitor (i : Nat) (f : MonitorCounters → MonitorCounters) (fc : FaultCapture) : FaultCapture :=
  { fc with monitors := fc.monitors.set i (f (fc.monitor i)) }

/-- A count of one counter (R174). -/
def countInto (c : Counter) (fc : FaultCapture) : FaultCapture :=
  match c with
  | .rx p => updatePort p (fun x => { x with rx := bump x.rx }) fc
  | .forwarded p => updatePort p (fun x => { x with forwarded := bump x.forwarded }) fc
  | .policed p => updatePort p (fun x => { x with policed := bump x.policed }) fc
  | .blocked p => updatePort p (fun x => { x with blocked := bump x.blocked }) fc
  | .queueDrop p => updatePort p (fun x => { x with queueDrop := bump x.queueDrop }) fc
  | .txError p => updatePort p (fun x => { x with txError := bump x.txError }) fc
  | .idConflict p => updatePort p (fun x => { x with idConflict := bump x.idConflict }) fc
  | .good i => updateMonitor i (fun x => { x with good := bump x.good }) fc
  | .errors i => updateMonitor i (fun x => { x with errors := bump x.errors }) fc
  | .losses i => updateMonitor i (fun x => { x with losses := bump x.losses }) fc

/-- COUNTER_COUNT: the oldest waiting count. -/
def takeCount (s : State) : State :=
  match s.mail.counts with
  | [] => s
  | c :: rest => (s.setMail { s.mail with counts := rest }).setFc (countInto c s.fc)

/-- The counters of a group, as many as it has, and none for a group that does not exist (R175). -/
def counterGroup (fc : FaultCapture) (g : Nat) : Option (List Nat) :=
  let first := fun x : PortCounters => [x.rx, x.forwarded, x.policed]
  let second := fun x : PortCounters => [x.blocked, x.queueDrop, x.txError]
  match g with
  | 0 => some (first fc.ports.c)
  | 1 => some (second fc.ports.c)
  | 2 => some [fc.ports.c.idConflict]
  | 3 => some (first fc.ports.b)
  | 4 => some (second fc.ports.b)
  | 5 => some [fc.ports.b.idConflict]
  | n => if n ≤ 29 then
      let m := fc.monitor (n - 6)
      some [m.good, m.errors, m.losses]
    else none

/-- A group's counters set to 0 (R175). -/
def clearGroup (g : Nat) (fc : FaultCapture) : FaultCapture :=
  let first := fun x : PortCounters => { x with rx := 0, forwarded := 0, policed := 0 }
  let second := fun x : PortCounters => { x with blocked := 0, queueDrop := 0, txError := 0 }
  match g with
  | 0 => updatePort .c first fc
  | 1 => updatePort .c second fc
  | 2 => updatePort .c (fun x => { x with idConflict := 0 }) fc
  | 3 => updatePort .b first fc
  | 4 => updatePort .b second fc
  | 5 => updatePort .b (fun x => { x with idConflict := 0 }) fc
  | n => if n ≤ 29 then updateMonitor (n - 6) (fun _ => .zero) fc else fc

/-- The 72 frame monitor counters at 0, the rest kept (R20, R174). -/
def clearMonitorCounters (fc : FaultCapture) : FaultCapture :=
  { fc with monitors := List.replicate 24 .zero }

/-! ## The commands -/

/-- FAULT_REPORT (R170). -/
def execFaultReport (n : Nat) (s : State) : Host.Outcome State Fault Refusal := .next (takeFault n s)

/-- COUNTER_COUNT (R174). -/
def execCounterCount (s : State) : Host.Outcome State Fault Refusal := .next (takeCount s)

end Sys2Proof.Machine
end

