-- ==== Sys2Proof/Machine/SignalMonitor.lean ====
section
/-! DEFINITION. The Signal Monitor (chapter 1): taking in a watched frame, the sync machine, debounce and
publication. -/

namespace Sys2Proof.Machine

def SignalMonitor.state (sm : SignalMonitor) (i : Nat) : MonitorState := (sm.monitors[i]?).getD .start

/-! ## Testing a frame (R8 to R11) -/

/-- What the tests of R8 make of a frame: an error or none, the counter baseline afterwards, whether the counter
jumped, the refused wheel counts (R110), and the decoded value of each extraction. -/
structure FrameTest where
  error : Option SampleError
  baseline : Option Nat
  refused : List (Fin 8 × Nat)
  values : List (SignalKind × Bool × Int)
deriving DecidableEq, Repr

/-- The plausibility test of R110 fails for a channel and a decoded count. -/
def implausible (cm : CreepMonitor) (n : Fin 8) (count : Int) : Bool :=
  match (cm.channels[n.val]?).bind ChannelRec.baseline with
  | some base => decide ((Config.plausibilityLimit : Int) < (count - base) % 65536)
  | none => false

/-- Every extraction of a monitor decoded (R5), with its kind and debounce flag. -/
def decodeAll (exts : List Extraction) (data : List Byte) : List (SignalKind × Bool × Option Int) :=
  exts.filterMap fun e => e.kind.map fun k => (k, e.debounce, decodeExtraction k e data)

/-- The wheel counts a frame of a VALID monitor loses to the plausibility test, each modulo 65,536 (R11, R110). The
count tested is the decoded value of R5, step 3, within its own range or not (log 22). -/
def refusedCounts (cm : CreepMonitor) (exts : List Extraction) (data : List Byte) : List (Fin 8 × Nat) :=
  exts.filterMap fun e =>
    match e.kind with
    | some (.wheelPulse n) =>
      let c := decodeRaw e data
      if implausible cm n c then some (n, (c % 65536).toNat) else none
    | _ => none

/-- Step 4 of R8, the extraction test, the counter test passed with a baseline. -/
def extractionTest (exts : List Extraction) (valid : Bool) (cm : CreepMonitor) (baseline : Option Nat)
    (data : List Byte) : FrameTest :=
  let decoded := decodeAll exts data
  let refused := if valid then refusedCounts cm exts data else []
  let failed := (decoded.any fun d => d.2.2.isNone) || !refused.isEmpty
  { error := if failed then some .range else none
    baseline
    refused
    values := decoded.filterMap fun (k, deb, v) => v.map fun x => (k, deb, x) }

/-- The tests of R8 in their order. -/
def testFrame (a : ActiveBank) (i : Nat) (m : MonitorState) (cm : CreepMonitor) (data : List Byte) : FrameTest :=
  let e := a.bank.monitor i
  let fail := fun (err : SampleError) (baseline : Option Nat) => (⟨some err, baseline, [], []⟩ : FrameTest)
  if data.length < a.minLength i then fail .length m.baseline
  else if e.checkPos ≠ 0 ∧ checkOk e.checkPos e.checkSeed data = false then fail .check m.baseline
  else
    let exts := a.bank.extractionsOf i
    let valid := m.sync == .valid
    if e.counterMod = 0 then extractionTest exts valid cm m.baseline data
    else match counterTest e.counterMod (rawField data e.counterStart e.counterWidth) m.baseline with
      | (some err, baseline) => fail err baseline
      | (none, baseline) => extractionTest exts valid cm baseline data

/-! ## Publication (R17) -/

/-- The consumers of the kinds (R6). -/
def SignalKind.toCalculator : SignalKind → Bool
  | .axleLoad _ | .grade | .drumSpeed | .dischargeActive | .pusherDown => true
  | _ => false

def SignalKind.toHoldController : SignalKind → Bool
  | .grade | .engineTorque | .drivePedal | .brakePedal | .gearDirection | .outputSpeed | .dischargeActive
  | .pendantRear | .pendantSide | .parkSwitch | .doorOpen | .seatOccupied | .ignition | .springState => true
  | _ => false

/-- A condition as it is delivered: its new value where the publication changed it (R43). -/
def changed (before after : Bool) : Option Bool := if before = after then none else some after

/-- A publication set delivered to the consumers of its kinds (R17), with the conditions of R7 it changed to the Hold
Controller (R43). `old` is the Signal Monitor before the sample. -/
def publish (old : SignalMonitor) (items : List PubItem) (s : State) : State :=
  let calcItems := items.filter fun x => x.kind.toCalculator
  let creepItems := items.filter fun x => x.kind.isWheel
  let hcSet : HcSet :=
    { items := items.filter fun x => x.kind.toHoldController
      missing := changed old.missing s.sm.missing
      allOnce := changed old.allOnce s.sm.allOnce
      wanting := old.wanting }
  s.setMail { s.mail with
    toCalc := s.mail.toCalc ++ (if calcItems.isEmpty then [] else [calcItems])
    toCreep := s.mail.toCreep ++ (if creepItems.isEmpty then [] else [.publication creepItems])
    toHc := s.mail.toHc ++
      (if hcSet.items.isEmpty && hcSet.missing.isNone && hcSet.allOnce.isNone then [] else [hcSet]) }

/-! ## The sync machine (R13 to R16) -/

def setMonitor (i : Nat) (m : MonitorState) (s : State) : State :=
  s.setSm { s.sm with monitors := s.sm.monitors.set i m }

def setEntry (k : SignalKind) (e : SvtEntry) (sm : SignalMonitor) : SignalMonitor :=
  { sm with svt := sm.svt.set k.code e }

/-- R14: every value accepted with validity VALID, no candidate. -/
def acceptAll (values : List (SignalKind × Bool × Int)) (sm : SignalMonitor) : SignalMonitor :=
  values.foldl (fun sm (k, _, v) => setEntry k ⟨.valid, some v, none⟩ sm) sm

/-- R14, R16: entry to VALID. -/
def enterValid (i : Nat) (e : MonitorEntry) (good : Nat) (values : List (SignalKind × Bool × Int)) (s : State) : State :=
  let m := s.sm.state i
  let s1 := setMonitor i { m with sync := .valid, good, window := List.replicate e.n false, beenValid := true } s
  let s2 := s1.setSm (acceptAll values s1.sm)
  let s3 := if m.beenValid then raise .signalRegained s2 else s2
  publish s.sm (values.map fun (k, _, v) => ⟨k, .valid, some v, true⟩) s3

/-- R15: the report at the entry to LOST. -/
def lossReport (kinds : List SignalKind) : Severity × Subject :=
  match SignalKind.mandatory.find? fun k => kinds.contains k with
  | some k => (.major, .signal k)
  | none =>
    match SignalKind.all.find? fun k => kinds.contains k with
    | some k => (.minor, .signal k)
    | none => (.minor, .none)

/-- R15: kinds set to LOST with their values held and their candidates discarded. -/
def loseAll (kinds : List SignalKind) (sm : SignalMonitor) : SignalMonitor :=
  kinds.foldl (fun sm k => setEntry k ⟨.lost, (sm.entry k).value, none⟩ sm) sm

/-- R15: entry to LOST from VALID. -/
def enterLost (i : Fin 24) (b : Bank) (s : State) : State :=
  let kinds := b.kindsOf i
  let m := s.sm.state i
  let s1 := setMonitor i { m with sync := .lost, baseline := none } s
  let s2 := s1.setSm (loseAll kinds s1.sm)
  let (sev, subject) := lossReport kinds
  let s3 := report sev .signalLost subject (count (.losses i) (raise .signalLost s2))
  publish s.sm (kinds.map fun k => ⟨k, .lost, (s3.sm.entry k).value, false⟩) s3

/-- R18 for one kind at a good sample in VALID: its entry afterwards, and whether it is published. -/
def acceptValue (k : SignalKind) (debounce : Bool) (d : Int) (e : SvtEntry) : SvtEntry × Bool :=
  if !k.isDiscrete then (⟨.valid, some d, none⟩, true)
  else if e.value = some d then ({ e with candidate := none }, false)
  else if !debounce then ({ e with value := some d, candidate := none }, true)
  else if e.candidate = some d then ({ e with value := some d, candidate := none }, true)
  else ({ e with candidate := some d }, false)

/-- R17, R18: the values of a good sample in VALID, and the kinds they publish. -/
def acceptGood : List (SignalKind × Bool × Int) → SignalMonitor → List PubItem × SignalMonitor
  | [], sm => ([], sm)
  | (k, deb, d) :: rest, sm =>
    let (e, published) := acceptValue k deb d (sm.entry k)
    let (items, sm') := acceptGood rest (setEntry k e sm)
    (if published then ⟨k, .valid, some d, false⟩ :: items else items, sm')

/-- A sample appended to the loss window (R14). -/
def pushWindow (w : List Bool) (err : Bool) : List Bool := w.tail ++ [err]

/-- A good sample taken through the sync machine (R13, R14, R16, R20). -/
def takeGood (i : Fin 24) (b : Bank) (values : List (SignalKind × Bool × Int)) (s : State) : State :=
  let e := b.monitor i
  let m := s.sm.state i
  let s1 := count (.good i) s
  match m.sync with
  | .acquiring =>
    if e.k ≤ m.good + 1 then enterValid i e (m.good + 1) values s1
    else setMonitor i { m with good := m.good + 1 } s1
  | .valid =>
    let s2 := setMonitor i { m with window := pushWindow m.window false } s1
    let (items, sm') := acceptGood values s2.sm
    publish s.sm items (s2.setSm sm')
  | .lost =>
    if e.k ≤ 1 then enterValid i e 1 values s1
    else setMonitor i { m with sync := .acquiring, good := 1 } s1

/-- An error sample taken through the sync machine (R13, R14, R16, R20). -/
def takeError (i : Fin 24) (b : Bank) (s : State) : State :=
  let e := b.monitor i
  let m := s.sm.state i
  let s1 := count (.errors i) s
  match m.sync with
  | .acquiring => setMonitor i { m with good := 0 } s1
  | .valid =>
    let w := pushWindow m.window true
    let s2 := setMonitor i { m with window := w } s1
    if e.m ≤ countWhere id w then enterLost i b s2 else s2
  | .lost => s1

/-! ## Arrivals and timeouts -/

/-- The refused counts of a sample, handed to the Creep Monitor in the order of the table (R110). -/
def handRefused (l : List (Fin 8 × Nat)) (s : State) : State :=
  l.foldl (fun s (n, c) => tellCreep (.refused n c) s) s

/-- R16: in LOST an error sample leaves the baseline as it is (log 8); otherwise the baseline is that of R10. -/
def baselineAfter (m : MonitorState) (t : FrameTest) : Option Nat :=
  if m.sync = .lost ∧ t.error ≠ none then m.baseline else t.baseline

/-- An arrival at a frame monitor: the period timer, the tests, then the sample (R8, R12). -/
def takeFrame (i : Fin 24) (a : ActiveBank) (f : Frame) (s : State) : State :=
  let e := a.bank.monitor i
  let m := s.sm.state i
  let t := testFrame a i m s.cm f.data
  let s1 := setMonitor i { m with timer := some (e.period + e.period / 2), baseline := baselineAfter m t } s
  let s2 := if t.error = some .counterJump then raise .counterJump s1 else s1
  let s3 := handRefused t.refused s2
  match t.error with
  | none => takeGood i a.bank t.values s3
  | some _ => takeError i a.bank s3

/-- WATCH_COPY (R8): the oldest watch copy waiting for monitor i, discarded where the monitor is not in use or
watches another identifier. -/
def takeWatchCopy (i : Fin 24) (s : State) : State :=
  match takeFirst (fun w => w.monitor == i.val) s.mail.watch, s.active with
  | some (w, rest), some a =>
    let e := a.bank.monitor i
    let s1 := s.setMail { s.mail with watch := rest }
    if e.inUse = true ∧ w.frame.ident = e.ident then takeFrame i a w.frame s1 else s1
  | _, _ => s

/-- PERIOD_TIMEOUT (R12): a TIMEOUT error sample, and the timer started again with one period. -/
def periodTimedOut (i : Fin 24) (s : State) : State :=
  match s.active, (s.sm.state i).timer with
  | some a, some 0 =>
    takeError i a.bank (setMonitor i { s.sm.state i with timer := some (a.bank.monitor i).period } s)
  | _, _ => s

/-! ## The commands -/

/-- WATCH_COPY (R8). -/
def execWatchCopy (i : Fin 24) (s : State) : Host.Outcome State Fault Refusal := .next (takeWatchCopy i s)

/-- PERIOD_TIMEOUT (R12). -/
def execPeriodTimeout (i : Fin 24) (s : State) : Host.Outcome State Fault Refusal := .next (periodTimedOut i s)

end Sys2Proof.Machine
end

