-- ==== Sys2Proof/Machine/Fields.lean ====
section
/-! DEFINITION. Tables and fields for service access (R189): reading and writing one field of a bank, with its range, and
the running-state fields of a frame monitor (R24). -/

namespace Sys2Proof.Machine

/-- A field: how it reads as a 32-bit value, and what a 32-bit value written makes of its owner, none where the value
is outside the field's range (R181). -/
structure FieldSpec (α : Type) where
  get : α → Word32
  put : α → Word32 → Option α

/-- An unsigned field with a range. -/
def natField {α : Type} (lo hi : Nat) (get : α → Nat) (set : α → Nat → α) : FieldSpec α :=
  { get := fun x => BitVec.ofNat 32 (get x)
    put := fun x v => if lo ≤ v.toNat ∧ v.toNat ≤ hi then some (set x v.toNat) else none }

/-- An unsigned field whose values are a list of codes. -/
def codeField {α : Type} (codes : List Nat) (get : α → Nat) (set : α → Nat → α) : FieldSpec α :=
  { get := fun x => BitVec.ofNat 32 (get x)
    put := fun x v => if codes.contains v.toNat then some (set x v.toNat) else none }

/-- A signed field, read as two's complement (R181). -/
def intField {α : Type} (lo hi : Int) (get : α → Int) (set : α → Int → α) : FieldSpec α :=
  { get := fun x => BitVec.ofInt 32 (get x)
    put := fun x v => if lo ≤ v.toInt ∧ v.toInt ≤ hi then some (set x v.toInt) else none }

/-- A two-valued field, coded 0 and 1 (R189). -/
def boolField {α : Type} (get : α → Bool) (set : α → Bool → α) : FieldSpec α :=
  natField 0 1 (fun x => bit (get x)) (fun x v => set x (v == 1))

/-- An identifier, in the range of its format as it stands (R189). -/
def identField {α : Type} (get : α → Ident) (set : α → Ident → α) : FieldSpec α :=
  { get := fun x => BitVec.ofNat 32 (get x).value
    put := fun x v =>
      let i : Ident := ⟨(get x).ext, v.toNat⟩
      if i.wf then some (set x i) else none }

/-- An identifier format; 11-bit is refused while the identifier is above 0x7FF (R189). -/
def formatField {α : Type} (get : α → Ident) (set : α → Ident → α) : FieldSpec α :=
  { get := fun x => BitVec.ofNat 32 (bit (get x).ext)
    put := fun x v =>
      if v.toNat ≤ 1 then
        let i : Ident := ⟨v.toNat == 1, (get x).value⟩
        if i.wf then some (set x i) else none
      else none }

/-- A field of an element of a list, as a field of the owner of the list. -/
def FieldSpec.within {α β : Type} (f : FieldSpec α) (get : β → α) (set : β → α → β) : FieldSpec β :=
  { get := fun x => f.get (get x)
    put := fun x v => (f.put (get x) v).map (set x) }

/-- Table 0, writable fields (R2, R189). -/
def monitorField : Nat → Option (FieldSpec MonitorEntry)
  | 0 => some (boolField (·.inUse) fun e v => { e with inUse := v })
  | 1 => some (formatField (·.ident) fun e v => { e with ident := v })
  | 2 => some (identField (·.ident) fun e v => { e with ident := v })
  | 3 => some (natField 10 1000 (·.period) fun e v => { e with period := v })
  | 4 => some (natField 0 63 (·.counterStart) fun e v => { e with counterStart := v })
  | 5 => some (codeField [0, 4, 8, 15, 16] (·.counterMod) fun e v => { e with counterMod := v })
  | 6 => some (natField 0 7 (·.checkPos) fun e v => { e with checkPos := v })
  | 7 => some (natField 0 255 (·.checkSeed) fun e v => { e with checkSeed := v })
  | 8 => some (natField 1 4 (·.k) fun e v => { e with k := v })
  | 9 => some (codeField [4, 5, 6, 8] (·.n) fun e v => { e with n := v })
  | 10 => some (natField 2 7 (·.m) fun e v => { e with m := v })
  | _ => none

/-- The signal kind code of an extraction, 255 for NONE (R189). -/
def kindCode : Option SignalKind → Nat
  | some k => k.code
  | none => 255

def axleOfCode (c : Nat) : Axle := (Axle.all[c]?).getD .f1

/-- Table 1 (R4, R189). -/
def extractionField : Nat → Option (FieldSpec Extraction)
  | 0 => some
    { get := fun e => BitVec.ofNat 32 (kindCode e.kind)
      put := fun e v =>
        if v.toNat = 255 then some { e with kind := none }
        else (SignalKind.ofCode v.toNat).map fun k => { e with kind := some k } }
  | 1 => some (natField 0 23 (·.monitor) fun e v => { e with monitor := v })
  | 2 => some (natField 0 63 (·.start) fun e v => { e with start := v })
  | 3 => some (natField 1 16 (·.width) fun e v => { e with width := v })
  | 4 => some (boolField (·.signed) fun e v => { e with signed := v })
  | 5 => some (natField 1 1000 (·.multiplier) fun e v => { e with multiplier := v })
  | 6 => some (natField 1 1000 (·.divisor) fun e v => { e with divisor := v })
  | 7 => some (intField (-32768) 32767 (·.offset) fun e v => { e with offset := v })
  | 8 => some (intField (-2147483648) 2147483647 (·.min) fun e v => { e with min := v })
  | 9 => some (intField (-2147483648) 2147483647 (·.max) fun e v => { e with max := v })
  | 10 => some (boolField (·.debounce) fun e v => { e with debounce := v })
  | 11 => some (natField 0 4 (fun e => e.axle.code) fun e v => { e with axle := axleOfCode v })
  | 12 => some (natField 10 500 (·.distance) fun e v => { e with distance := v })
  | _ => none

def ArrivalPort.code : ArrivalPort → Nat
  | .c => 0 | .b => 1 | .either => 2
def arrivalPortOf : Nat → ArrivalPort
  | 0 => .c | 1 => .b | _ => .either
def Action.code : Action → Nat
  | .pass => 0 | .passWatch => 1 | .watch => 2 | .block => 3
def actionOf : Nat → Action
  | 0 => .pass | 1 => .passWatch | 2 => .watch | _ => .block

/-- Table 2 (R144, R189). -/
def forwardField : Nat → Option (FieldSpec ForwardEntry)
  | 0 => some (boolField (·.inUse) fun e v => { e with inUse := v })
  | 1 => some (formatField (·.ident) fun e v => { e with ident := v })
  | 2 => some (identField (·.ident) fun e v => { e with ident := v })
  | 3 => some (natField 0 2 (fun e => e.port.code) fun e v => { e with port := arrivalPortOf v })
  | 4 => some (natField 0 3 (fun e => e.action.code) fun e v => { e with action := actionOf v })
  | 5 => some (natField 0 7 (·.rateClass) fun e v => { e with rateClass := v })
  | 6 => some (natField 0 23 (·.monitor) fun e v => { e with monitor := v })
  | _ => none

/-- Table 3 (R144, R189). -/
def rateField : Nat → Option (FieldSpec RateRow)
  | 0 => some (natField 1 255 (·.refill) fun e v => { e with refill := v })
  | 1 => some (natField 1 255 (·.depth) fun e v => { e with depth := v })
  | _ => none

/-- Table 6 (R25, R189). -/
def axleField : Nat → Option (FieldSpec AxleParams)
  | 0 => some (natField 0 1500 (·.rated) fun e v => { e with rated := v })
  | 1 => some (natField 10 200 (·.gain) fun e v => { e with gain := v })
  | _ => none

/-- Table 7 (R153, R189). -/
def minimaField : Nat → Option (FieldSpec (PerClass Nat))
  | 0 => some (natField 0 32 (·.hold) fun e v => { e with hold := v })
  | 1 => some (natField 0 32 (·.forward) fun e v => { e with forward := v })
  | 2 => some (natField 0 32 (·.status) fun e v => { e with status := v })
  | 3 => some (natField 0 32 (·.service) fun e v => { e with service := v })
  | _ => none

/-- Table 5 (R25, R41, R89, R107, R124, R144, R153, R189). -/
def paramField : Nat → Option (FieldSpec Params)
  | 0 => some (boolField (·.holdEnable) fun e v => { e with holdEnable := v })
  | 1 => some (natField 0 200 (·.gradeThreshold) fun e v => { e with gradeThreshold := v })
  | 2 => some (natField 100 1000 (·.stopConfirm) fun e v => { e with stopConfirm := v })
  | 3 => some (natField 0 10000 (·.minHold) fun e v => { e with minHold := v })
  | 4 => some (natField 30 900 (·.maxServiceHold) fun e v => { e with maxServiceHold := v })
  | 5 => some (natField 0 10000 (·.reentryGuard) fun e v => { e with reentryGuard := v })
  | 6 => some (natField 100 200 (·.safetyFactor) fun e v => { e with safetyFactor := v })
  | 7 => some (natField 0 50 (·.drumMargin) fun e v => { e with drumMargin := v })
  | 8 => some (natField 0 500 (·.drumThreshold) fun e v => { e with drumThreshold := v })
  | 9 => some (natField 0 50000 (·.forceFloor) fun e v => { e with forceFloor := v })
  | 10 => some (natField 0 300 (·.pressureFloor) fun e v => { e with pressureFloor := v })
  | 11 => some (natField 300 1000 (·.maxPressureA) fun e v => { e with maxPressureA := v })
  | 12 => some (natField 300 1000 (·.maxPressureB) fun e v => { e with maxPressureB := v })
  | 13 => some (natField 1 50 (·.uphillPedal) fun e v => { e with uphillPedal := v })
  | 14 => some (natField 1 50 (·.downhillPedal) fun e v => { e with downhillPedal := v })
  | 15 => some (natField 100 3000 (·.uphillRamp) fun e v => { e with uphillRamp := v })
  | 16 => some (natField 100 3000 (·.downhillRamp) fun e v => { e with downhillRamp := v })
  | 17 => some (natField 5 200 (·.rollbackSpeed) fun e v => { e with rollbackSpeed := v })
  | 18 => some (natField 0 50 (·.reapplyBoost) fun e v => { e with reapplyBoost := v })
  | 19 => some (natField 1 5 (·.reapplyLimit) fun e v => { e with reapplyLimit := v })
  | 20 => some (natField 20 500 (·.creepLimit) fun e v => { e with creepLimit := v })
  | 21 => some (natField 500 10000 (·.handoverConfirm) fun e v => { e with handoverConfirm := v })
  | 22 => some (natField 100 5000 (·.overlapTime) fun e v => { e with overlapTime := v })
  | 23 => some (boolField (·.blockDefaultC) fun e v => { e with blockDefaultC := v })
  | 24 => some (boolField (·.blockDefaultB) fun e v => { e with blockDefaultB := v })
  | 25 => some (identField (·.demandIdent) fun e v => { e with demandIdent := v })
  | 26 => some (formatField (·.demandIdent) fun e v => { e with demandIdent := v })
  | 27 => some (identField (·.statusIdent) fun e v => { e with statusIdent := v })
  | 28 => some (formatField (·.statusIdent) fun e v => { e with statusIdent := v })
  | 29 => some (natField 0 255 (·.txSeed) fun e v => { e with txSeed := v })
  | 30 => some (natField 10 50 (·.demandPeriod) fun e v => { e with demandPeriod := v })
  | 31 => some (natField 50 1000 (·.statusPeriod) fun e v => { e with statusPeriod := v })
  | 32 => some (natField 1 4 (·.hpWatermark) fun e v => { e with hpWatermark := v })
  | 33 => some (natField 2 8 (·.panicWatermark) fun e v => { e with panicWatermark := v })
  | _ => none

/-- The number of entries of each table (R189). -/
def tableSize : Nat → Option Nat
  | 0 => some 24 | 1 => some 64 | 2 => some 128 | 3 => some 8 | 4 => some 48 | 5 => some 1
  | 6 => some 5 | 7 => some 2 | 8 => some 2 | _ => none

/-- A field of element i of a list of a bank. -/
def listField {α : Type} (f : Option (FieldSpec α)) (get : Bank → List α) (set : Bank → List α → Bank) (dflt : α) (i : Nat) :
    Option (FieldSpec Bank) :=
  f.map fun spec => spec.within (fun b => ((get b)[i]?).getD dflt) (fun b x => set b ((get b).set i x))

/-- The port a queue minima index names (R189). -/
def minimaPort (i : Nat) : Port := if i = 0 then .c else .b

/-- The field that a table, an index within it and a field number name (R189). -/
def bankField (table index field : Nat) : Option (FieldSpec Bank) :=
  match table with
  | 0 => listField (monitorField field) (·.monitors) (fun b l => { b with monitors := l }) .default index
  | 1 => listField (extractionField field) (·.extractions) (fun b l => { b with extractions := l }) .default index
  | 2 => listField (forwardField field) (·.forwarding) (fun b l => { b with forwarding := l }) .default index
  | 3 => if index = 0 then none
    else listField (rateField field) (·.rates) (fun b l => { b with rates := l }) ⟨10, 20⟩ (index - 1)
  | 4 => if field = 0 then
      listField (some (natField 0 125 id fun _ v => v)) (·.cells) (fun b l => { b with cells := l }) 0 index
    else none
  | 5 => (paramField field).map fun spec => spec.within (·.params) fun b x => { b with params := x }
  | 6 => (axleField field).map fun spec =>
      spec.within (fun b => b.axles.get (axleOfCode index)) fun b x => { b with axles := b.axles.set (axleOfCode index) x }
  | 7 => (minimaField field).map fun spec =>
      spec.within (fun b => b.minima.get (minimaPort index)) fun b x => { b with minima := b.minima.set (minimaPort index) x }
  | 8 =>
    if index = 0 then
      if field < 8 then
        listField (some (natField 1 400 id fun _ v => v)) (·.gradeBounds) (fun b l => { b with gradeBounds := l }) 0 field
      else none
    else if field < 6 then
      listField (some (natField 1 65535 id fun _ v => v)) (·.massBounds) (fun b l => { b with massBounds := l }) 0 field
    else none
  | _ => none

/-! ## Running state of a frame monitor (R24, R189) -/

/-- The loss window as bits, bit 0 the oldest sample. -/
def windowBits : List Bool → Nat
  | [] => 0
  | e :: es => bit e + 2 * windowBits es

/-- What an absent baseline or a timer that does not run reads as (R189). -/
def absentValue : Word32 := BitVec.ofNat 32 0xFFFFFFFF

def Sync.code : Sync → Nat
  | .acquiring => 0 | .valid => 1 | .lost => 2

/-- The read-only fields 16 to 24 of table 0, of the active bank (R3, R24, R189). A monitor not in use reads 0 in
fields 16 to 21. -/
def runningField (s : State) (a : ActiveBank) (i field : Nat) : Option Word32 :=
  let m := s.sm.state i
  let k := s.fc.monitor i
  let used := fun v : Word32 => if (a.bank.monitor i).inUse then v else 0
  match field with
  | 16 => some (used (BitVec.ofNat 32 (a.minLength i)))
  | 17 => some (used (BitVec.ofNat 32 m.sync.code))
  | 18 => some (used (BitVec.ofNat 32 m.good))
  | 19 => some (used (if m.sync = .valid then BitVec.ofNat 32 (windowBits m.window) else 0))
  | 20 => some (used ((m.baseline.map (BitVec.ofNat 32)).getD absentValue))
  | 21 => some (used ((m.timer.map (BitVec.ofNat 32)).getD absentValue))
  | 22 => some (BitVec.ofNat 32 k.good)
  | 23 => some (BitVec.ofNat 32 k.errors)
  | 24 => some (BitVec.ofNat 32 k.losses)
  | _ => none

/-- A field read from the active bank, its running-state fields among them (R178). -/
def readActive (s : State) (a : ActiveBank) (table index field : Nat) : Option Word32 :=
  match bankField table index field with
  | some spec => some (spec.get a.bank)
  | none => if table = 0 then runningField s a index field else none

/-- A field read from the staging bank (R178). -/
def readStaging (b : Bank) (table index field : Nat) : Option Word32 :=
  (bankField table index field).map fun spec => spec.get b

/-- R181, from the table number on: the bank with the field written, or the refusal. -/
def writeBank (b : Bank) (table index field : Nat) (v : Word32) : Except Status Bank :=
  match tableSize table with
  | none => .error .badTable
  | some n =>
    if n ≤ index then .error .badIndex
    else match bankField table index field with
      | none => .error .badField
      | some spec =>
        match spec.put b v with
        | none => .error .badValue
        | some b' => .ok b'

end Sys2Proof.Machine
end

