-- ==== Sys2Proof/Machine/Scheduler.lean ====
section
/-! DEFINITION. The Transmit Scheduler and the ports' transmission (chapter 9, R139, R141 to R143): admission, starting
and ending transmissions, BUS_OFF, and the demand and status frames. -/

namespace Sys2Proof.Machine

/-! ## The queue (R154) -/

/-- Every entry of a queue, the one in transmission first: it is the oldest of its class. -/
def TxQueue.entries (q : TxQueue) : List Entry := q.sending.toList ++ q.waiting

/-- The dedicated occupancy of a class and the shared occupancy (R154). -/
def TxQueue.dedicatedCount (q : TxQueue) (cls : TxClass) : Nat :=
  countWhere (fun e => e.cls == cls && e.dedicated) q.entries
def TxQueue.sharedCount (q : TxQueue) : Nat := countWhere (fun e => !e.dedicated) q.entries

/-- A waiting entry of a class stands. -/
def TxQueue.hasWaiting (q : TxQueue) (cls : TxClass) : Bool := q.waiting.any fun e => e.cls == cls

def queueOf (s : State) (p : Port) : TxQueue := s.tx.queues.get p

def setQueue (p : Port) (q : TxQueue) (s : State) : State :=
  s.setTx { s.tx with queues := s.tx.queues.set p q }

def setLink (p : Port) (l : Link) (s : State) : State := s.setLinks (s.links.set p l)

/-- The OK response of a RESET_PART has left the queue or was refused: the reset is due (R186). -/
def noteResetOut (e : Entry) (s : State) : State :=
  if e.reset then s.setSr { s.sr with resetPending := .due } else s

/-! ## Starting a transmission -/

/-- What a frame carries when its transmission starts. A HOLD frame takes its alive counter and check byte at its
first start (R162); a STATUS frame takes its contents at each start and its alive counter at the first (R166); the
others go out as they are. -/
def startEntry (s : State) (e : Entry) : Entry :=
  let params := (txBank s).params
  match e.cls with
  | .hold =>
    match e.alive with
    | some _ => e
    | none =>
      { e with
        alive := some s.tx.nextDemand
        frame := ⟨params.demandIdent, false, sealBytes params.txSeed s.tx.nextDemand e.frame.data⟩ }
  | .status =>
    let alive := e.alive.getD s.tx.nextStatus
    { e with
      alive := some alive
      carried := s.events.set
      frame := ⟨params.statusIdent, false, sealBytes params.txSeed alive
        (statusBytes s.hc.state s.hc.cause s.hc.degraded s.sr.serviceMode s.events.set s.fc.record)⟩ }
  | .forward | .service => e

/-- At the start of a Status Frame no event has been raised again since (R167). -/
def noteStart (e : Entry) (s : State) : State :=
  if e.cls = .status then s.setEvents { s.events with again := 0 } else s

/-- The waiting entry the scheduler chooses: the oldest of the first class in the order of R156 that has one and is
not held back. -/
def choose (s : State) (p : Port) : Option (Entry × List Entry) :=
  let q := queueOf s p
  match [TxClass.hold, .forward, .status, .service].find? fun c => q.hasWaiting c && !heldBack s p c with
  | some c => takeFirst (fun e => e.cls == c) q.waiting
  | none => none

/-- R156: a port that is ACTIVE and idle starts the chosen entry. During the load nothing is sent (R168). -/
def trySend (p : Port) (s : State) : State :=
  if s.loading || (s.links.get p).busOff || (queueOf s p).sending.isSome then s
  else match choose s p with
    | none => s
    | some (e, rest) => noteStart e (setQueue p ⟨rest, some (startEntry s e)⟩ s)

/-! ## Admission (R155, R161, R165) -/

/-- The space an offered frame is admitted into: dedicated, shared, or none (R155). -/
def spaceFor (s : State) (p : Port) (cls : TxClass) : Option Bool :=
  let q := queueOf s p
  if Config.queueSize ≤ q.entries.length then none
  else if q.dedicatedCount cls < ((txBank s).minima.get p).get cls then some true
  else if q.sharedCount < (txBank s).sharedSpace p then some false
  else none

/-- A frame to be offered. -/
def newEntry (cls : TxClass) (frame : Frame) (reset : Bool) : Entry :=
  { cls, dedicated := false, frame, alive := none, carried := 0, stale := false, reset }

/-- A refused frame is counted as QUEUE_DROP (R155). -/
def refuseOffer (p : Port) (e : Entry) (s : State) : State := noteResetOut e (count (.queueDrop p) s)

/-- An offer to a port's queue, with whether the frame was admitted: a waiting HOLD entry is superseded (R161), a
FORWARD frame to Port B in panic is refused (R165), and otherwise R155's table decides. -/
def offer (p : Port) (e : Entry) (s : State) : Bool × State :=
  let q := queueOf s p
  if e.cls = .hold ∧ q.hasWaiting .hold = true then
    (true, setQueue p
      { q with waiting := replaceFirst (fun x => x.cls == .hold) (fun x => { e with dedicated := x.dedicated }) q.waiting } s)
  else if e.cls = .forward ∧ p = .b ∧ panicStands s = true then (false, refuseOffer p e s)
  else match spaceFor s p e.cls with
    | none => (false, refuseOffer p e s)
    | some d => (true, trySend p (setQueue p { q with waiting := q.waiting ++ [{ e with dedicated := d }] } s))

/-! ## The Hold Demand Frame (R160, R163 to R165) -/

/-- The owed count and the outstanding mark at a generation (R163). -/
def oweDemand (s : State) : State :=
  s.setTx { s.tx with
    owed := if s.tx.outstanding then satAdd Config.cap8 s.tx.owed 1 else s.tx.owed
    outstanding := true }

/-- Every waiting FORWARD entry of Port B is discarded and counted (R165). -/
def discardForward (s : State) : State :=
  let q := queueOf s .b
  countTimes (.queueDrop .b) (countWhere (fun e => e.cls == .forward) q.waiting)
    (setQueue .b { q with waiting := q.waiting.filter fun e => e.cls != .forward } s)

/-- The watermarks at a generation, from the owed count before it (R164, R165). -/
def watermarks (before : Nat) (s : State) : State :=
  let params := (txBank s).params
  let s1 := if params.hpWatermark ≤ s.tx.owed then raise .demandLate s else s
  let s2 := if before < params.panicWatermark ∧ params.panicWatermark ≤ s.tx.owed then discardForward s1 else s1
  if params.panicWatermark ≤ s.tx.owed ∧ s.links.b.busOff = false ∧ s.tx.starved = false then
    report .major .demandStarved .none (s2.setTx { s2.tx with starved := true })
  else s2

/-- The Hold Demand Frame of the demand record as it stands (R160, R187). The bytes fixed at the start are not set. -/
def demandFrame (s : State) : Frame :=
  ⟨(txBank s).params.demandIdent, false, demandBytes s.hc.demand s.hc.state s.hc.cause s.hc.degraded⟩

/-- R160: a demand frame is generated: the owed count first, then the frame, then the offer to Port B. That the FORWARD
entries of R165 are discarded before the frame is offered is the model's choice (log 34). -/
def generateDemand (s : State) : State :=
  let s1 := watermarks s.tx.owed (oweDemand s)
  (offer .b (newEntry .hold (demandFrame s1) false) s1).2

/-- R160: a demand frame and the Demand Period timer started again. -/
def runDemandPeriod (s : State) : State :=
  let s1 := generateDemand s
  s1.setTx { s1.tx with demandTimer := some (txBank s).params.demandPeriod }

/-! ## Endings of transmissions -/

/-- The effect of a demand frame's success (R157, R162, R163); none for one started before the last activation. -/
def demandSucceeded (e : Entry) (s : State) : State :=
  if e.stale then s
  else
    s.setTx { s.tx with
      nextDemand := (e.alive.getD 0 + 1) % Config.aliveModulus
      owed := 0
      outstanding := (queueOf s .b).hasWaiting .hold
      starved := false }

/-- The effect of a Status Frame's success (R166, R167): the events it carried and that were not raised again leave
the set; one started before the last activation leaves the alive counter (R168). -/
def statusSucceeded (e : Entry) (s : State) : State :=
  let s1 := s.setEvents { s.events with set := s.events.set &&& ~~~(e.carried &&& ~~~s.events.again) }
  if e.stale then s1
  else s1.setTx { s1.tx with nextStatus := (e.alive.getD 0 + 1) % Config.aliveModulus }

/-- R157 for the entry that leaves. -/
def entrySucceeded (e : Entry) (s : State) : State :=
  match e.cls with
  | .hold => demandSucceeded e s
  | .status => statusSucceeded e s
  | .forward => s
  | .service => noteResetOut e s

/-- TRANSMISSION_SUCCESS: R157, then the error count (R141), then the choice of R156. -/
def transmissionSucceeded (p : Port) (s : State) : State :=
  match (queueOf s p).sending with
  | none => s
  | some e =>
    let s1 := entrySucceeded e (setQueue p { queueOf s p with sending := none } s)
    trySend p (setLink p { s1.links.get p with errors := 0 } s1)

/-- What becomes of a failed entry (R158): returned to the head of its class, or out, and if out whether counted. -/
inductive FailedEntry where
  | returned
  | dropped
  | replaced
deriving DecidableEq, Repr

def failedOutcome (p : Port) (e : Entry) (s : State) : FailedEntry :=
  match e.cls with
  | .hold =>
    if e.stale then .dropped
    else if (queueOf s p).hasWaiting .hold then .replaced
    else .returned
  | .forward => if p = .b ∧ panicStands s = true then .dropped else .returned
  | .status | .service => .returned

/-- A returned entry waits again; a STATUS frame started before the last activation starts anew (R168). -/
def returnEntry (e : Entry) : Entry :=
  if e.cls = .status ∧ e.stale = true then { e with alive := none, stale := false } else e

/-- R158 and, for the OK response of a RESET_PART, R186. -/
def entryFailed (p : Port) (e : Entry) (s : State) : State :=
  let q := queueOf s p
  let s1 := match failedOutcome p e s with
    | .returned => setQueue p ⟨returnEntry e :: q.waiting, none⟩ s
    | .dropped => count (.queueDrop p) (setQueue p { q with sending := none } s)
    | .replaced => setQueue p { q with sending := none } s
  noteResetOut e s1

/-- R159: every entry but the waiting HOLD entry is discarded, each counted as QUEUE_DROP. -/
def flushQueue (p : Port) (s : State) : State :=
  let q := queueOf s p
  let gone := q.waiting.filter fun e => e.cls != .hold
  gone.foldl (fun s e => noteResetOut e s)
    (countTimes (.queueDrop p) gone.length
      (setQueue p { q with waiting := q.waiting.filter fun e => e.cls == .hold } s))

/-- R142, R159: entry to BUS_OFF. -/
def enterBusOff (p : Port) (s : State) : State :=
  let s1 := setLink p { s.links.get p with busOff := true, recovery := some Config.recoveryTime } s
  let sev := match p with | .b => Severity.major | .c => .minor
  flushQueue p (report sev .portBusOff (.port p) s1)

/-- TRANSMISSION_ERROR: R158 first, then the error count of R141, and BUS_OFF at the sixteenth. -/
def transmissionFailed (p : Port) (s : State) : State :=
  match (queueOf s p).sending with
  | none => s
  | some e =>
    let s1 := count (.txError p) (entryFailed p e s)
    let errors := (s1.links.get p).errors + 1
    let s2 := setLink p { s1.links.get p with errors := errors } s1
    if Config.busOffErrors ≤ errors then enterBusOff p s2 else trySend p s2

/-- RECOVERY_EXPIRY (R143). -/
def recovered (p : Port) (s : State) : State :=
  match (s.links.get p).recovery with
  | some 0 => trySend p (setLink p .start s)
  | _ => s

/-- DEMAND_PERIOD_EXPIRY (R160). -/
def demandPeriodExpired (s : State) : State :=
  match s.tx.demandTimer with
  | some 0 => runDemandPeriod s
  | _ => s

/-- STATUS_PERIOD_EXPIRY (R166). -/
def statusPeriodExpired (s : State) : State :=
  match s.tx.statusTimer with
  | some 0 =>
    let s1 := if (queueOf s .c).hasWaiting .status then s
      else (offer .c (newEntry .status ⟨(txBank s).params.statusIdent, false, []⟩ false) s).2
    s1.setTx { s1.tx with statusTimer := some (txBank s).params.statusPeriod }
  | _ => s

/-- QUEUE_OFFER (R155): the oldest waiting offer of a class to a port. A forwarding copy whose port is in BUS_OFF does
not reach the queue (R148, R159; log 15); an admitted one is counted as FORWARDED on its arrival port (R148). -/
def takeOffer (p : Port) (cls : TxClass) (s : State) : State :=
  match takeFirst (fun o => o.port == p && o.cls == cls) s.mail.offers with
  | none => s
  | some (o, rest) =>
    let s1 := s.setMail { s.mail with offers := rest }
    if cls = .forward ∧ (s1.links.get p).busOff = true then count (.queueDrop p) s1
    else
      let (admitted, s2) := offer p (newEntry cls o.frame o.reset) s1
      if admitted = true ∧ cls = .forward then count (.forwarded p.other) s2 else s2

/-! ## Activation (R168) -/

/-- A count per class with one more of a class. -/
def PerClass.oneMore (x : PerClass Nat) : TxClass → PerClass Nat
  | .hold => { x with hold := x.hold + 1 }
  | .forward => { x with forward := x.forward + 1 }
  | .status => { x with status := x.status + 1 }
  | .service => { x with service := x.service + 1 }

/-- Entries of a class beyond its new minimum hold shared space from then on, the newest first (R168): `kept` counts,
per class, the dedicated entries already passed. -/
def reassign (minima : PerClass Nat) : PerClass Nat → List Entry → List Entry
  | _, [] => []
  | kept, e :: es =>
    if e.dedicated = true ∧ kept.get e.cls < minima.get e.cls then
      e :: reassign minima (kept.oneMore e.cls) es
    else { e with dedicated := false } :: reassign minima kept es

/-- A queue's entries under the new minima, and its STATUS and HOLD entries as started before the activation. -/
def requeue (minima : PerClass Nat) (q : TxQueue) : TxQueue :=
  let moved := reassign minima ⟨0, 0, 0, 0⟩ q.entries
  let again := fun e : Entry => if e.cls = .status then { e with alive := none } else e
  match q.sending, moved with
  | some _, e :: es => ⟨es.map again, some { e with stale := true }⟩
  | _, es => ⟨es.map again, none⟩

/-- The waiting HOLD entry of Port B is discarded and counted (R168). -/
def discardHold (s : State) : State :=
  let q := queueOf s .b
  countTimes (.queueDrop .b) (countWhere (fun e => e.cls == .hold) q.waiting)
    (setQueue .b { q with waiting := q.waiting.filter fun e => e.cls != .hold } s)

/-- R168 at an activation, the bank's parameters being those of the new active bank. -/
def activateScheduler (s : State) : State :=
  let s1 := discardHold s
  let b := txBank s
  let s2 := s1.setTx { s1.tx with
    queues := ⟨requeue b.minima.c s1.tx.queues.c, requeue b.minima.b s1.tx.queues.b⟩
    owed := 0, outstanding := false, starved := false, nextDemand := 0, nextStatus := 0
    demandTimer := none, statusTimer := some b.params.statusPeriod }
  trySend .b s2

/-! ## The commands -/

/-- QUEUE_OFFER (R155). -/
def execQueueOffer (p : Port) (cls : TxClass) (s : State) : Host.Outcome State Fault Refusal :=
  .next (takeOffer p cls s)

/-- TRANSMISSION_SUCCESS (R157). -/
def execTransmissionSuccess (p : Port) (s : State) : Host.Outcome State Fault Refusal :=
  .next (transmissionSucceeded p s)

/-- TRANSMISSION_ERROR (R158). -/
def execTransmissionError (p : Port) (s : State) : Host.Outcome State Fault Refusal :=
  .next (transmissionFailed p s)

/-- RECOVERY_EXPIRY (R143). -/
def execRecoveryExpiry (p : Port) (s : State) : Host.Outcome State Fault Refusal :=
  .next (recovered p s)

/-- DEMAND_PERIOD_EXPIRY (R160). -/
def execDemandPeriodExpiry (s : State) : Host.Outcome State Fault Refusal :=
  .next (demandPeriodExpired s)

/-- STATUS_PERIOD_EXPIRY (R166). -/
def execStatusPeriodExpiry (s : State) : Host.Outcome State Fault Refusal :=
  .next (statusPeriodExpired s)

end Sys2Proof.Machine
end

