-- ==== Sys2Proof/Machine/HoldController.lean ====
section
/-! DEFINITION. The Hold Controller (chapters 3 to 5 and 7) and its Claim Table: changes of state, claims, drive-off and
release, handover, park and secured. -/

namespace Sys2Proof.Machine

/-! ## Changes of state (R49) -/

/-- R49: entry to HANDOVER, SECURED or INACTIVE empties the Claim Table. -/
def HoldState.emptiesClaims : HoldState → Bool
  | .handover | .secured | .inactive => true
  | _ => false

/-- The record at a change of hold state (R44, R49, R95, R98, R125, R134): a timer that belongs to a state stops when the
state is left, and the new state's own entry then starts what it starts. The drive-off memory is kept into RELEASING
alone; it is NOT_MET at each entry into HOLDING (R95). -/
def enterRecord (b : Bank) (new : HoldState) (cause : Option Cause) (asked : Circuits) (h : HoldController) :
    HoldController :=
  { h with
    state := new
    cause := cause
    demand := demandFor b new asked
    claims := if new.emptiesClaims then noClaims else h.claims
    startWindow := none
    armedConfirm := none
    minHold := none
    maxHold := none
    ramp := none
    rampStep := none
    metMemory := new == .releasing && h.metMemory
    phase := none
    deadline := false
    handoverConfirm := none
    overlapTimer := none
    quiet := none
    parkExit := match new with
      | .inactive | .armed => h.parkExit
      | _ => false }

/-- R49: a change of hold state. The claims are emptied, the timers of the state left are stopped, the demand record is
rebuilt, STATE_CHANGE is raised and the Creep Monitor is told. -/
def changeState (b : Bank) (new : HoldState) (cause : Option Cause) (asked : Circuits) (episode : Bool) (s : State) :
    State :=
  tellState new episode (raise .stateChange (s.setHc (enterRecord b new cause asked s.hc)))

/-- An update of the Hold Controller's record. -/
def onHold (f : HoldController → HoldController) (s : State) : State := s.setHc (f s.hc)

/-! ## Entries -/

/-- R126, R127: a confirmation starts the overlap. -/
def startOverlap (b : Bank) (h : HoldController) : HoldController :=
  { h with phase := some .overlap, overlapTimer := some b.params.overlapTime }

/-- R126: entry to HANDOVER with its held value, the confirmation test applied once. -/
def enterHandover (b : Bank) (held : Circuits) (s : State) : State :=
  onHold (fun h =>
    let h1 := { h with phase := some .awaiting, handoverConfirm := some b.params.handoverConfirm }
    if h1.springApplied then startOverlap b h1 else h1)
    (changeState b .handover none held false s)

/-- R132: entry to PARKED. -/
def enterParked (b : Bank) (s : State) : State := changeState b .parked none .zero false s

/-- R137: the Quiet timer started where the quiet test holds and it does not run. -/
def startQuiet (h : HoldController) : HoldController :=
  if h.quietTest && h.quiet.isNone then { h with quiet := some Config.quietTime } else h

/-- R136: entry to SECURED, the quiet test applied once. -/
def enterSecured (b : Bank) (cause : Cause) (s : State) : State :=
  onHold startQuiet (changeState b .secured (some cause) .zero false s)

/-- R55: entry to ARMED. -/
def enterArmed (b : Bank) (s : State) : State :=
  onHold (fun h => { h with armedConfirm := some b.params.stopConfirm }) (changeState b .armed none .zero false s)

/-- R54: the three conditions in INACTIVE. -/
def inactiveTest (b : Bank) (s : State) : State :=
  if s.hc.parkCondition then enterParked b s
  else if s.hc.leaveCondition then enterHandover b s.hc.resultPressure s
  else if s.hc.armCondition b then enterArmed b s
  else s

/-- Entry to INACTIVE, and the test of R54 at the entry. -/
def enterInactive (b : Bank) (s : State) : State :=
  inactiveTest b (changeState b .inactive none .zero false s)

/-- R55: the tests in ARMED. -/
def armedTest (b : Bank) (s : State) : State :=
  if s.hc.parkCondition then enterParked b s
  else if s.hc.leaveCondition then enterHandover b s.hc.resultPressure s
  else if s.hc.armCondition b then s
  else enterInactive b s

/-- R54 or R55 in the two states, nothing in the others. -/
def standTest (b : Bank) (s : State) : State :=
  match s.hc.state with
  | .inactive => inactiveTest b s
  | .armed => armedTest b s
  | _ => s

/-- R62, R63, R64: in HOLDING a handover condition goes to HANDOVER with the demand as the held value. -/
def handoverTest (b : Bank) (s : State) : State :=
  if s.hc.state = .holding ∧ s.hc.handoverCondition = true then enterHandover b s.hc.demand.pressure s else s

/-- R58: entry into HOLDING from a start value, the claim already in the table. -/
def enterHolding (b : Bank) (start : Circuits) (episode : Bool) (s : State) : State :=
  let asked := (start.sup s.hc.resultPressure).sup (s.hc.limitedFloors b)
  handoverTest b
    (onHold (fun h =>
      { h with
        minHold := some b.params.minHold
        maxHold := some (b.params.maxServiceHold * 1000)
        reapply := if episode then 0 else h.reapply })
      (changeState b .holding none asked episode s))

/-! ## The ratchet and the Claim Table (R59, R69, R70) -/

/-- R59: the demand of each circuit rises to the largest of itself, the result in hand and the limited floors. -/
def ratchet (b : Bank) (h : HoldController) : HoldController :=
  { h with demand := { h.demand with
      pressure := (h.demand.pressure.sup h.resultPressure).sup (h.limitedFloors b) } }

/-- A claim's key (R69). -/
def Claim.hasKey (c : Claim) (src : Source) (tag : Nat) : Bool := c.source == src && c.tag == tag

/-- The slot a key stands in (R69). -/
def slotOf (claims : List (Option Claim)) (src : Source) (tag : Nat) : Option Nat :=
  claims.findIdx? fun c => (c.map fun x => x.hasKey src tag).getD false

/-- The lowest-numbered empty slot among 1 to 5 (R70). -/
def freeSlot (claims : List (Option Claim)) : Option Nat :=
  [1, 2, 3, 4, 5].find? fun i => claims[i]? == some none

/-- A claim with a key stands. -/
def HoldController.hasClaim (h : HoldController) (src : Source) (tag : Nat) : Bool := (slotOf h.claims src tag).isSome

def putClaim (slot : Nat) (c : Claim) (h : HoldController) : HoldController :=
  { h with claims := h.claims.set slot (some c) }

/-- A DRIVER claim (R57, R72): tag 0, no floor, no expiry. -/
def driverClaim (now : Word32) : Claim := ⟨.driver, 0, none, none, none, now, none⟩

/-- A DRIVER claim placed in slot 1 (R57, R86, R102). -/
def placeDriver (s : State) : State := onHold (putClaim 1 (driverClaim s.now)) s

/-- Removing every claim with a property; a floor leaving the table is a change of floor (R59). -/
def removeClaims (b : Bank) (f : Claim → Bool) (h : HoldController) : HoldController :=
  let gone := h.standing.filter f
  let h1 := { h with claims := h.claims.map fun c => c.filter fun x => !f x }
  if gone.any Claim.hasFloor then ratchet b h1 else h1

/-- A claim request (R75). -/
structure ClaimRequest where
  source : Source
  tag : Nat
  floorA : Option Nat
  floorB : Option Nat
  expiry : Option Nat
deriving DecidableEq, Repr

/-- The answer to a claim request: the status, and the slot of a claim placed or refreshed (R81). -/
structure ClaimAnswer where
  status : Status
  slot : Option Nat
deriving DecidableEq, Repr

def ClaimRequest.claim (r : ClaimRequest) (granted : Word32) : Claim :=
  ⟨r.source, r.tag, r.floorA, r.floorB, r.expiry, granted, r.expiry.map (· * 1000)⟩

/-- R77: in HOLDING a request places its claim in the lowest empty slot, refreshes the standing one, or finds no slot. -/
def requestInHolding (b : Bank) (r : ClaimRequest) (s : State) : ClaimAnswer × State :=
  match slotOf s.hc.claims r.source r.tag with
  | some i =>
    let granted := ((s.hc.claims[i]?).join.map Claim.granted).getD s.now
    (⟨.ok, some i⟩, onHold (fun h => ratchet b (putClaim i (r.claim granted) h)) s)
  | none =>
    match freeSlot s.hc.claims with
    | some i =>
      let c := r.claim s.now
      (⟨.ok, some i⟩, onHold (fun h => if c.hasFloor then ratchet b (putClaim i c h) else putClaim i c h) s)
    | none => (⟨.noSlot, none⟩, s)

/-- R75: a claim request judged in the hold state in which it is taken. -/
def requestClaim (b : Bank) (r : ClaimRequest) (s : State) : ClaimAnswer × State :=
  match s.hc.state with
  | .off | .starting => (⟨.notReady, none⟩, s)
  | .inactive | .armed =>
    match s.hc.entryRefusal b with
    | some code => (⟨code, none⟩, s)
    | none =>
      (⟨.ok, some 1⟩, enterHolding b s.hc.resultPressure true (onHold (putClaim 1 (r.claim s.now)) s))
  | .holding => requestInHolding b r s
  | .releasing =>
    let start := (s.hc.ramp.map Ramp.start).getD .zero
    (⟨.ok, some 1⟩, enterHolding b start false (onHold (putClaim 1 (r.claim s.now)) s))
  | .handover | .parked | .secured => (⟨.satisfied, none⟩, s)

/-- R86: a removal in HOLDING by a signal's fall or RELEASE_TEST, judged on the table after it. -/
def afterRemoval (b : Bank) (s : State) : State :=
  if s.hc.state = .holding then
    if s.hc.noClaim then
      if s.hc.driverAbsent then enterHandover b s.hc.demand.pressure s
      else
        raise .holdToDriver (onHold (fun h => { h with minHold := some b.params.minHold, metMemory := false })
          (placeDriver s))
    else handoverTest b s
  else s

/-! ## Signal request latches (R73) -/

/-- The latch and the image entry of a signal source. -/
def HoldController.latch (h : HoldController) : Source → Latch
  | .pendantRear => h.latchRear
  | .pendantSide => h.latchSide
  | _ => h.latchDischarge

def HoldController.setLatch (h : HoldController) (src : Source) (l : Latch) : HoldController :=
  match src with
  | .pendantRear => { h with latchRear := l }
  | .pendantSide => { h with latchSide := l }
  | _ => { h with latchDischarge := l }

def HoldController.latchSig (h : HoldController) : Source → Sig
  | .pendantRear => h.image.pendantRear
  | .pendantSide => h.image.pendantSide
  | _ => h.image.discharge

/-- The kind of a signal source (R72). -/
def Source.kind : Source → SignalKind
  | .pendantRear => .pendantRear
  | .pendantSide => .pendantSide
  | _ => .dischargeActive

/-- R73, R80: a signal becoming true makes a request; a refusal raises CLAIM_REFUSED and sets the latch to REFUSED. -/
def signalRise (b : Bank) (src : Source) (s : State) : State :=
  let (ans, s1) := requestClaim b ⟨src, 0, none, none, none⟩ s
  if ans.status = .ok ∨ ans.status = .satisfied then onHold (fun h => h.setLatch src .asserted) s1
  else raise .claimRefused (onHold (fun h => h.setLatch src .refused) s1)

/-- R73, R85: a signal becoming false releases its source's claim, if it stands. -/
def signalFall (b : Bank) (src : Source) (s : State) : State :=
  let was := s.hc.latch src
  let s1 := onHold (fun h => h.setLatch src .idle) s
  if was = .asserted ∧ s1.hc.hasClaim src 0 = true then
    afterRemoval b (onHold (removeClaims b fun c => c.hasKey src 0) s1)
  else s1

/-- R73: a publication of a signal source's kind. -/
def latchStep (b : Bank) (items : List PubItem) (src : Source) (s : State) : State :=
  if items.any fun x => x.kind == src.kind then
    if (s.hc.latchSig src).is 1 then
      if s.hc.latch src = .idle then signalRise b src s else s
    else if (s.hc.latchSig src).is 0 then signalFall b src s
    else s
  else s

/-! ## Drive-off, release and re-apply (R95 to R103) -/

/-- R101 to R103: rollback in RELEASING re-applies the hold, or hands over at the Reapply Limit. -/
def takeRollback (b : Bank) (ramp : Ramp) (s : State) : State :=
  let s1 := raise .rollbackReapply (onHold (fun h => { h with reapply := h.reapply + 1 }) s)
  if s1.hc.reapply < b.params.reapplyLimit then
    let boosted : Circuits :=
      ⟨ceilDiv (ramp.start.a * (100 + b.params.reapplyBoost)) 100, ceilDiv (ramp.start.b * (100 + b.params.reapplyBoost)) 100⟩
    enterHolding b (boosted.inf b.maxPressure) false (placeDriver s1)
  else enterHandover b ramp.start s1

/-- R101: the rollback test. -/
def rollbackTest (b : Bank) (s : State) : State :=
  match s.hc.ramp with
  | some ramp => if s.hc.rollback b ramp.forward then takeRollback b ramp s else s
  | none => s

/-- R98: the release ramp state from the demand at the moment of leaving HOLDING. -/
def rampOf (b : Bank) (h : HoldController) : Ramp :=
  let fwd := h.intent.getD true
  let up := match h.image.grade.valid? with
    | some g => uphill fwd g
    | none => false
  let time := if up then b.params.uphillRamp else b.params.downhillRamp
  let p := h.demand.pressure
  { start := p, forward := fwd, rampTime := time
    step := ⟨ceilDiv (p.a * b.params.demandPeriod) time, ceilDiv (p.b * b.params.demandPeriod) time⟩ }

/-- R98: entry to RELEASING, the rollback test applied once. -/
def enterReleasing (b : Bank) (s : State) : State :=
  let ramp := rampOf b s.hc
  rollbackTest b
    (onHold (fun h => { h with ramp := some ramp, rampStep := some b.params.demandPeriod })
      (changeState b .releasing none ramp.start false s))

/-- R96: a drive-off taken. -/
def takeDriveOff (b : Bank) (s : State) : State :=
  let s1 := onHold (removeClaims b fun c => c.source == .driver || c.source == .monitor) s
  if s1.hc.noClaim then enterReleasing b s1 else handoverTest b (raise .driveOffBlocked s1)

/-- R95: an evaluation of the drive-off criterion, in HOLDING and while it is acted on. -/
def evaluateCriterion (b : Bank) (s : State) : State :=
  if s.hc.state = .holding ∧ s.hc.criterionActive b = true then
    if s.hc.criterion b then
      if s.hc.metMemory then s
      else takeDriveOff b (onHold (fun h => { h with metMemory := true }) s)
    else onHold (fun h => { h with metMemory := false }) s
  else s

/-! ## Publication sets (R43) -/

/-- One published kind into the image; kinds the controller does not consume do not reach it (R43). -/
def HcImage.take (img : HcImage) (x : PubItem) : HcImage :=
  let v : Sig := ⟨x.validity, x.value⟩
  match x.kind with
  | .grade => { img with grade := v }
  | .engineTorque => { img with torque := v }
  | .drivePedal => { img with drivePedal := v }
  | .brakePedal => { img with brakePedal := v }
  | .gearDirection => { img with gear := v }
  | .outputSpeed => { img with outputSpeed := v }
  | .dischargeActive => { img with discharge := v }
  | .pendantRear => { img with pendantRear := v }
  | .pendantSide => { img with pendantSide := v }
  | .parkSwitch => { img with parkSwitch := v }
  | .doorOpen => { img with doorOpen := v }
  | .seatOccupied => { img with seat := v }
  | .ignition => { img with ignition := v }
  | .springState => { img with spring := v }
  | _ => img

/-- The image, the copies of R7's conditions and the degraded flag after a publication set (R43, R47). -/
def takeImage (set : HcSet) (h : HoldController) : HoldController :=
  let h1 := { h with
    image := set.items.foldl HcImage.take h.image
    missing := set.missing.getD h.missing
    allOnce := set.allOnce.getD h.allOnce }
  { h1 with degraded := h1.isDegraded }

/-- The set publishes a kind. -/
def HcSet.has (set : HcSet) (k : SignalKind) : Bool := set.items.any fun x => x.kind == k

/-- R52: leaving STARTING once all mandatory signals have been VALID. -/
def leaveStarting (b : Bank) (s : State) : State :=
  if s.hc.springApplied then enterParked b s else enterInactive b s

/-- R134: the park-exit mark is cleared by a publication that leaves SPRING_STATE not applied, or of PARK_SWITCH set. -/
def clearParkExit (set : HcSet) (h : HoldController) : HoldController :=
  if (set.has .springState && !h.springApplied) || (set.has .parkSwitch && h.parkSet) then
    { h with parkExit := false }
  else h

/-- R127, R128: SPRING_STATE published in HANDOVER. -/
def springInHandover (b : Bank) (s : State) : State :=
  match s.hc.phase with
  | some .awaiting => if s.hc.springApplied then onHold (startOverlap b) s else s
  | some .overlap =>
    if s.hc.springApplied then s
    else if s.hc.deadline then
      reportChange .major .handoverFailed (.signal .springState) (enterSecured b .handoverFailed s)
    else onHold (fun h => { h with phase := some .awaiting, overlapTimer := none }) s
  | none => s

/-- R135: in PARKED, SPRING_STATE not applied while BLIND stands goes to SECURED with the cause BLIND. -/
def blindParked (h : HoldController) : Bool := h.state == .parked && h.blind && !h.springApplied

/-- R133: the events at which the exit test is applied. -/
def exitTested (set : HcSet) (h : HoldController) : Bool :=
  (set.has .parkSwitch && h.image.parkSwitch.is 0) ||
    (set.has .brakePedal && h.pedalPressed && h.image.parkSwitch.is 0)

/-- R133: the park exit test. A set that satisfies it and also leaves SPRING_STATE not applied leaves the mark that the
exit sets standing, the model's choice (log 33). -/
def parkExitTest (b : Bank) (s : State) : State :=
  if s.sr.serviceMode = false ∧ s.hc.pedalPressed = true then
    inactiveTest b (onHold (fun h => { h with parkExit := true }) (changeState b .inactive none .zero false s))
  else raise .parkExitRefused s

/-- R137: SPRING_STATE published in SECURED. -/
def springInSecured (h : HoldController) : HoldController :=
  if h.springApplied then startQuiet h else { h with quiet := none }

/-- The kinds the drive-off criterion reads (R95). -/
def HcSet.movesCriterion (set : HcSet) : Bool :=
  set.has .gearDirection || set.has .grade || set.has .drivePedal || set.has .engineTorque

/-- What a publication set does in the hold state in which it stands, its signal requests having been taken
(R52, R54, R55, R97, R100, R127, R133 to R135, R137; logs 10 and 19). -/
def setInState (b : Bank) (set : HcSet) (s : State) : State :=
  match s.hc.state with
  | .off => s
  | .starting => if set.allOnce.isSome && s.hc.allOnce then leaveStarting b s else s
  | .inactive | .armed => standTest b (onHold (clearParkExit set) s)
  | .holding =>
    let s1 := handoverTest b s
    if set.movesCriterion then evaluateCriterion b s1 else s1
  | .releasing =>
    if set.has .ignition && s.hc.ignitionOff then
      enterHandover b ((s.hc.ramp.map Ramp.start).getD .zero) s
    else if set.has .outputSpeed then rollbackTest b s
    else s
  | .handover => if set.has .springState then springInHandover b s else s
  | .parked =>
    if set.has .springState && blindParked s.hc then enterSecured b .blind s
    else if exitTested set s.hc then parkExitTest b s
    else s
  | .secured => if set.has .springState then onHold springInSecured s else s

/-- The signal requests and releases of a set, in the order of R73 (log 10). -/
def takeLatches (b : Bank) (items : List PubItem) (s : State) : State :=
  latchStep b items .discharge (latchStep b items .pendantSide (latchStep b items .pendantRear s))

/-- R43: one publication set. Where a signal request has changed the hold state, the set's other kinds stand in the
image for the entry's own tests and nothing more is taken (log 10). -/
def takeHcItems (b : Bank) (set : HcSet) (s : State) : State :=
  let s1 := onHold (takeImage set) s
  let s2 := takeLatches b set.items s1
  if s2.hc.state = s1.hc.state then setInState b set s2 else s2

/-- R160: an event in which the controller leaves STARTING generates a demand frame and starts the Demand Period timer,
on the record as the event leaves it (log 11). -/
def withStart (before : HoldState) (s : State) : State :=
  if before = .starting ∧ s.hc.state ≠ .starting ∧ s.hc.state ≠ .off then runDemandPeriod s else s

/-- An event of the Hold Controller under the active bank. With none the controller takes no event (R51). -/
def holdEvent (f : Bank → State → State) (s : State) : State :=
  match s.active with
  | some a => withStart s.hc.state (f a.bank s)
  | none => s

/-! ## The events -/

/-- HC_PUBLICATION (R43): the oldest publication set waiting for the controller. -/
def takeHcSet (b : Bank) (s : State) : State :=
  match s.mail.toHc with
  | [] => s
  | set :: rest => takeHcItems b set (s.setMail { s.mail with toHc := rest })

/-- CALC_RESULT (R38, R59, R63, R95): the oldest result waiting. -/
def takeResult (b : Bank) (s : State) : State :=
  match s.mail.results with
  | [] => s
  | r :: rest =>
    let s1 := onHold (fun h => { h with result := some r }) (s.setMail { s.mail with results := rest })
    if s1.hc.state = .holding then evaluateCriterion b (handoverTest b (onHold (ratchet b) s1)) else s1

/-- R53: the subject of the Start Window's report: the kind still NO_DATA. Where the publication that ends the wait is
under way, the kind it ends the wait for (log 25). -/
def startSubject (s : State) : Subject :=
  match s.sm.wanting with
  | some k => .signal k
  | none =>
    match s.mail.toHc.findSome? HcSet.wanting with
    | some k => .signal k
    | none => .none

/-- START_WINDOW_EXPIRY (R53). The report is made after the change to INACTIVE and before the test of R54 at the entry, so
it is taken with the hold state INACTIVE (R169; log 29). -/
def startWindowExpired (b : Bank) (s : State) : State :=
  if s.hc.startWindow = some 0 ∧ s.hc.state = .starting then
    let s1 := changeState b .inactive none .zero false s
    inactiveTest b (if s.hc.allOnce then s1 else reportChange .major .signalLost (startSubject s) s1)
  else s

/-- ARMED_CONFIRM_EXPIRY (R57). -/
def armedConfirmed (b : Bank) (s : State) : State :=
  if s.hc.armedConfirm = some 0 ∧ s.hc.state = .armed then enterHolding b s.hc.resultPressure true (placeDriver s)
  else s

/-- MIN_HOLD_EXPIRY (R60). -/
def minHoldExpired (b : Bank) (s : State) : State :=
  if s.hc.minHold = some 0 then evaluateCriterion b (onHold (fun h => { h with minHold := none }) s) else s

/-- MAX_SERVICE_HOLD_EXPIRY (R61). -/
def maxHoldExpired (b : Bank) (s : State) : State :=
  if s.hc.maxHold = some 0 ∧ s.hc.state = .holding then enterHandover b s.hc.demand.pressure s else s

/-- REENTRY_GUARD_EXPIRY (R65). -/
def guardExpired (b : Bank) (s : State) : State :=
  if s.hc.guard = some 0 then
    let s1 := onHold (fun h => { h with guard := none }) s
    if s1.hc.state = .inactive then inactiveTest b s1 else s1
  else s

/-- The expiry timer of the SERVICE claim of a tag has run out (R83). -/
def claimDue (h : HoldController) (tag : Nat) : Bool :=
  h.standing.any fun c => c.hasKey .service tag && c.timer == some 0

/-- CLAIM_EXPIRY (R83). -/
def claimExpired (tag : Fin 4) (b : Bank) (s : State) : State :=
  if claimDue s.hc tag.val then
    let s1 := raise .claimExpired (onHold (removeClaims b fun c => c.hasKey .service tag.val) s)
    if s1.hc.noClaim then enterHandover b s1.hc.demand.pressure s1 else handoverTest b s1
  else s

/-- R99: the release is complete: INACTIVE, with the Re-entry Guard started unless it is 0 (R65). -/
def completeRelease (b : Bank) (s : State) : State :=
  inactiveTest b
    (onHold (fun h => { h with guard := if b.params.reentryGuard = 0 then h.guard else some b.params.reentryGuard })
      (changeState b .inactive none .zero false s))

/-- RAMP_STEP_EXPIRY (R99). -/
def rampStepped (b : Bank) (s : State) : State :=
  match s.hc.rampStep, s.hc.ramp with
  | some 0, some ramp =>
    if s.hc.state = .releasing then
      let p := s.hc.demand.pressure.sub ramp.step
      let s1 := onHold (fun h => { h with
        demand := { h.demand with pressure := p }, rampStep := some b.params.demandPeriod }) s
      if p = .zero then completeRelease b s1 else s1
    else s
  | _, _ => s

/-- HANDOVER_CONFIRM_EXPIRY (R130). -/
def handoverConfirmExpired (b : Bank) (s : State) : State :=
  if s.hc.handoverConfirm = some 0 then
    match s.hc.phase with
    | some .awaiting => reportChange .major .handoverFailed (.signal .springState) (enterSecured b .handoverFailed s)
    | some .overlap => onHold (fun h => { h with deadline := true, handoverConfirm := none }) s
    | none => s
  else s

/-- OVERLAP_EXPIRY (R129). -/
def overlapExpired (b : Bank) (s : State) : State :=
  if s.hc.overlapTimer = some 0 ∧ s.hc.phase = some .overlap then enterParked b s else s

/-- QUIET_EXPIRY (R137). -/
def quietExpired (b : Bank) (s : State) : State :=
  if s.hc.quiet = some 0 ∧ s.hc.state = .secured then enterParked b s else s

/-- R122, R137: a stationary or moving report. -/
def takeDecision (b : Bank) (stationary : Bool) (s : State) : State :=
  let s1 := onHold (fun h => { h with stationary := stationary }) s
  match s1.hc.state with
  | .inactive | .armed => standTest b s1
  | .secured => onHold (fun h => if stationary then startQuiet h else { h with quiet := none }) s1
  | _ => s1

/-- R122, R64, R135: BLIND entered or left. -/
def takeBlind (b : Bank) (entered : Bool) (s : State) : State :=
  let s1 := onHold (fun h =>
    let h1 := { h with blind := entered }
    { h1 with degraded := h1.isDegraded }) s
  match s1.hc.state with
  | .inactive | .armed => standTest b s1
  | .holding => handoverTest b s1
  | .parked => if blindParked s1.hc then enterSecured b .blind s1 else s1
  | _ => s1

/-- R118: the floors of an escalation's MONITOR claim, one of 0 recorded as absent. -/
def escalationFloor (top demand : Nat) : Option Nat :=
  floorArg (Nat.min top (ceilDiv (demand * Config.escalationPercent) 100))

/-- R74, R118: the MONITOR claim of an escalation in slot 0, and the ratchet. -/
def escalate (b : Bank) (s : State) : State :=
  onHold (fun h => ratchet b (putClaim 0
    ⟨.monitor, 0, escalationFloor b.params.maxPressureA h.demand.pressure.a,
      escalationFloor b.params.maxPressureB h.demand.pressure.b, none, s.now, none⟩ h)) s

/-- R119, R120: SECURED with the cause ROLLAWAY, and its report, made after the change (R169). -/
def takeRollaway (b : Bank) (channel : Fin 8) (s : State) : State :=
  reportChange .major .rollaway (.signal (.wheelPulse channel)) (enterSecured b .rollaway s)

/-- R121: a crossing report by hold state. -/
def takeCrossing (b : Bank) (rollaway : Bool) (channel : Fin 8) (s : State) : State :=
  match rollaway, s.hc.state with
  | false, .holding => escalate b s
  | true, .holding | true, .handover | true, .parked | true, .secured => takeRollaway b channel s
  | _, _ => s

/-- The oldest report of the Creep Monitor, out of its channel. -/
def popCreepReport (s : State) : State := s.setMail { s.mail with creepReports := s.mail.creepReports.tail }

/-- DECISION_REPORT (R122): the oldest report, if it is a decision. -/
def takeDecisionReport (b : Bank) (s : State) : State :=
  match s.mail.creepReports.head? with
  | some (.decision d) => takeDecision b d (popCreepReport s)
  | _ => s

/-- BLIND_REPORT (R64, R122): the oldest report, if it is of BLIND. -/
def takeBlindReport (b : Bank) (s : State) : State :=
  match s.mail.creepReports.head? with
  | some (.blind e) => takeBlind b e (popCreepReport s)
  | _ => s

/-- CROSSING_REPORT (R121): the oldest report, if it is a crossing. -/
def takeCrossingReport (b : Bank) (s : State) : State :=
  match s.mail.creepReports.head? with
  | some (.crossing r n) => takeCrossing b r n (popCreepReport s)
  | _ => s

/-! ## The commands -/

/-- HC_PUBLICATION (R43). -/
def execHcPublication (s : State) : Host.Outcome State Fault Refusal := .next (holdEvent takeHcSet s)

/-- CALC_RESULT (R38). -/
def execCalcResult (s : State) : Host.Outcome State Fault Refusal := .next (holdEvent takeResult s)

/-- START_WINDOW_EXPIRY (R53). -/
def execStartWindowExpiry (s : State) : Host.Outcome State Fault Refusal := .next (holdEvent startWindowExpired s)

/-- ARMED_CONFIRM_EXPIRY (R57). -/
def execArmedConfirmExpiry (s : State) : Host.Outcome State Fault Refusal := .next (holdEvent armedConfirmed s)

/-- MIN_HOLD_EXPIRY (R60). -/
def execMinHoldExpiry (s : State) : Host.Outcome State Fault Refusal := .next (holdEvent minHoldExpired s)

/-- MAX_SERVICE_HOLD_EXPIRY (R61). -/
def execMaxServiceHoldExpiry (s : State) : Host.Outcome State Fault Refusal := .next (holdEvent maxHoldExpired s)

/-- REENTRY_GUARD_EXPIRY (R65). -/
def execReentryGuardExpiry (s : State) : Host.Outcome State Fault Refusal := .next (holdEvent guardExpired s)

/-- CLAIM_EXPIRY (R83). -/
def execClaimExpiry (tag : Fin 4) (s : State) : Host.Outcome State Fault Refusal := .next (holdEvent (claimExpired tag) s)

/-- RAMP_STEP_EXPIRY (R99). -/
def execRampStepExpiry (s : State) : Host.Outcome State Fault Refusal := .next (holdEvent rampStepped s)

/-- HANDOVER_CONFIRM_EXPIRY (R130). -/
def execHandoverConfirmExpiry (s : State) : Host.Outcome State Fault Refusal := .next (holdEvent handoverConfirmExpired s)

/-- OVERLAP_EXPIRY (R129). -/
def execOverlapExpiry (s : State) : Host.Outcome State Fault Refusal := .next (holdEvent overlapExpired s)

/-- QUIET_EXPIRY (R137). -/
def execQuietExpiry (s : State) : Host.Outcome State Fault Refusal := .next (holdEvent quietExpired s)

/-- DECISION_REPORT (R122). -/
def execDecisionReport (s : State) : Host.Outcome State Fault Refusal := .next (holdEvent takeDecisionReport s)

/-- BLIND_REPORT (R64). -/
def execBlindReport (s : State) : Host.Outcome State Fault Refusal := .next (holdEvent takeBlindReport s)

/-- CROSSING_REPORT (R121). -/
def execCrossingReport (s : State) : Host.Outcome State Fault Refusal := .next (holdEvent takeCrossingReport s)

end Sys2Proof.Machine
end

