-- ==== Sys2Proof/Machine/Service.lean ====
section
/-! DEFINITION. The Service Responder (chapter 11, R176 to R181, R186): taking requests, responses, service mode and the
staging bank, and the commands answered for the blocks that own the state (R81, R82, R84, R172, R175, R178). -/

namespace Sys2Proof.Machine

/-! ## Requests and responses (R177) -/

/-- The oldest request waiting at a port, taken out of its channel if it has a property. -/
def takeRequest (p : Port) (want : Frame → Bool) (s : State) : Option (Frame × State) :=
  match takeFirst (fun r => r.port == p) s.mail.requests with
  | some (r, rest) =>
    if want r.frame then some (r.frame, s.setMail { s.mail with requests := rest }) else none
  | none => none

/-- The answer to a request: its status and data bytes. -/
structure Answer where
  status : Status
  data : List Byte
deriving DecidableEq, Repr

/-- A status without data. -/
def Answer.just (status : Status) : Answer := ⟨status, []⟩

/-- The response frame: the command byte, the status and six data bytes, the unused ones 0 (R177, R188). -/
def responseFrame (s : State) (code : Nat) (a : Answer) : Frame :=
  ⟨responseIdent s, false, [byte code, byte a.status.code] ++ padTo 6 a.data⟩

/-- A response offered to the queue of a port as class SERVICE (R177). `reset` marks the OK of a RESET_PART (R186). -/
def respond (p : Port) (code : Nat) (a : Answer) (reset : Bool) (s : State) : State :=
  postOffer ⟨p, .service, responseFrame s code a, reset⟩ s

def setResponder (f : ServiceResponder → ServiceResponder) (s : State) : State := s.setSr (f s.sr)

/-- R177, step 1: the store write is in flight or a reset is pending. -/
def isBusy (s : State) : Bool := s.sr.storeWrite.isSome || s.sr.resetPending != .clear

/-- In service mode a request that passes step 1 starts the Service Idle timer again (R177). -/
def restartIdle (s : State) : State :=
  if s.sr.serviceMode then setResponder (fun r => { r with idle := some Config.serviceIdle }) s else s

/-- R177: the oldest request of a port, if it carries the command with this code: BUSY, too short for the command's
arguments, or carried out by `act`, which offers the response. -/
def serve (code arguments : Nat) (p : Port) (act : Frame → State → State) (s : State) : State :=
  match takeRequest p (isCommand code) s with
  | none => s
  | some (f, s1) =>
    if isBusy s1 then respond p code (.just .busy) false s1
    else
      let s2 := restartIdle s1
      if f.data.length ≤ arguments then respond p code (.just .badValue) false s2 else act f s2

/-- A command that is answered at once. -/
def serveNow (code arguments : Nat) (p : Port) (act : Frame → State → Answer × State) (s : State) : State :=
  serve code arguments p (fun f s1 => let (a, s2) := act f s1; respond p code a false s2) s

/-- UNKNOWN_COMMAND_REQUEST (R177): a request without a command is discarded (log 13); one whose command byte names no
command is answered BUSY or BAD_VALUE. -/
def unknownRequest (p : Port) (s : State) : State :=
  match takeRequest p (fun f => !hasCommand f || !(decide (1 ≤ argByte f 0) && decide (argByte f 0 ≤ 13))) s with
  | none => s
  | some (f, s1) =>
    if !hasCommand f then s1
    else if isBusy s1 then respond p (argByte f 0) (.just .busy) false s1
    else respond p (argByte f 0) (.just .badValue) false (restartIdle s1)

/-! ## Service mode (R179, R180) -/

/-- R179: what ENTER_SERVICE makes the staging bank from. -/
def stagingSource (s : State) : Bank :=
  match s.active with
  | some a => a.bank
  | none => .default

/-- R179. -/
def enterService (s : State) : Answer × State :=
  if s.sr.serviceMode then (.just .refusedState, s)
  else if s.hc.state = .parked ∨ s.hc.state = .off then
    (.just .ok, setResponder (fun r =>
      { r with serviceMode := true, staging := some (stagingSource s), idle := some Config.serviceIdle }) s)
  else (.just .refusedState, s)

/-- The end of service mode (R180, R183). -/
def endService (r : ServiceResponder) : ServiceResponder := { r with serviceMode := false, staging := none, idle := none }

/-- R180. -/
def exitService (s : State) : Answer × State :=
  if s.sr.serviceMode then (.just .ok, setResponder endService s) else (.just .refusedState, s)

/-- SERVICE_IDLE_EXPIRY (R180). -/
def idleExpired (s : State) : State :=
  match s.sr.idle with
  | some 0 => setResponder endService s
  | _ => s

/-! ## Reading and writing tables and signals (R178, R181) -/

/-- R178: READ_ENTRY's tests and value. -/
def readEntry (s : State) (table index field selector : Nat) : Except Status Word32 :=
  let within := fun (value : Option Word32) =>
    match tableSize table with
    | none => .error .badTable
    | some n => if n ≤ index then .error .badIndex else match value with
      | none => .error .badField
      | some v => .ok v
  match selector with
  | 0 =>
    match s.active with
    | none => .error .notReady
    | some a => within (readActive s a table index field)
  | 1 =>
    match s.sr.serviceMode, s.sr.staging with
    | true, some b => within (readStaging b table index field)
    | _, _ => .error .refusedState
  | _ => .error .badValue

def readEntryAnswer (f : Frame) (s : State) : Answer :=
  match readEntry s (argByte f 1) (argByte f 2) (argByte f 3) (argByte f 4) with
  | .ok v => ⟨.ok, bytesOf 4 v.toNat⟩
  | .error e => .just e

/-- R181. -/
def writeField (f : Frame) (s : State) : Answer × State :=
  match s.sr.serviceMode, s.sr.staging with
  | true, some b =>
    match writeBank b (argByte f 1) (argByte f 2) (argByte f 3) (BitVec.ofNat 32 (argLong f 4)) with
    | .ok b' => (.just .ok, setResponder (fun r => { r with staging := some b' }) s)
    | .error e => (.just e, s)
  | _, _ => (.just .refusedState, s)

/-- The validity code of READ_SIGNAL (R188). -/
def Validity.code : Validity → Nat
  | .unmapped => 0 | .noData => 1 | .valid => 2 | .lost => 3

/-- R178: READ_SIGNAL. -/
def readSignalAnswer (f : Frame) (s : State) : Answer :=
  match SignalKind.ofCode (argByte f 1) with
  | some k =>
    let e := s.sm.entry k
    ⟨.ok, byte e.validity.code :: bytesOfInt (e.value.getD 0)⟩
  | none => .just .badIndex

/-! ## Counters and faults (R172, R175) -/

/-- R175. That a group above 29 is answered BAD_INDEX whatever the clear flag, the group being tested first, is the model's
choice (log 35). -/
def readCounters (f : Frame) (s : State) : Answer × State :=
  match counterGroup s.fc (argByte f 1) with
  | none => (.just .badIndex, s)
  | some values =>
    let a : Answer := ⟨.ok, values.flatMap (bytesOf 2)⟩
    match argByte f 2 with
    | 0 => (a, s)
    | 1 => (a, s.setFc (clearGroup (argByte f 1) s.fc))
    | _ => (.just .badValue, s)

/-- R172, R188: READ_FAULT. -/
def readFaultAnswer (f : Frame) (s : State) : Answer :=
  match argByte f 1, s.fc.record with
  | 0, none | 1, none => .just .ok
  | 0, some r =>
    ⟨.ok, [byte (1 + 2 * bit (r.severity == .major)), byte r.kind.code, byte r.subject.code, byte r.state.code,
      byte r.repeats]⟩
  | 1, some r => ⟨.ok, 1 :: bytesOf 4 r.timestamp.toNat⟩
  | _, _ => .just .badValue

/-- R172: CLEAR_FAULT. -/
def clearFault (s : State) : Answer × State := (.just .ok, s.setFc { s.fc with record := none })

/-! ## Claims (R81, R82, R84) -/

/-- The seconds remaining of a claim, rounded up, at least 1; 0xFFFF without an expiry (R84, R188; log 26). -/
def Claim.secondsLeft (c : Claim) : Nat :=
  match c.timer with
  | some ms => Nat.max 1 (ceilDiv ms 1000)
  | none => 0xFFFF

/-- R84, R188: READ_CLAIMS; the part is optional and 0 when absent. -/
def readClaimsAnswer (f : Frame) (s : State) : Answer :=
  match s.hc.claims[argByte f 1]? with
  | none => .just .badIndex
  | some slot =>
    match argByte f 2, slot with
    | 0, none | 1, none => .just .ok
    | 0, some c => ⟨.ok, [byte c.source.code, byte c.tag] ++ bytesOf 2 c.floors.a ++ bytesOf 2 c.floors.b⟩
    | 1, some c => ⟨.ok, bytesOf 2 c.secondsLeft ++ bytesOf 4 c.granted.toNat⟩
    | _, _ => .just .badValue

/-- The arguments of a TEST_HOLD lie in their ranges (R81, R188). -/
def testHoldArguments (f : Frame) : Bool :=
  decide (1 ≤ argByte f 1) && decide (argByte f 1 ≤ 3) && decide (1 ≤ argWord f 2) && decide (argWord f 2 ≤ 600) &&
    decide (argWord f 4 ≤ 1000) && decide (argWord f 6 ≤ 1000)

/-- The claim request of a TEST_HOLD (R81). -/
def testHoldRequest (f : Frame) : ClaimRequest :=
  ⟨.service, argByte f 1, floorArg (argWord f 4), floorArg (argWord f 6), some (argWord f 2)⟩

/-- R81: with no active bank the hold state is OFF, so the request is answered NOT_READY (R75). -/
def testHold (f : Frame) (s : State) : Answer × State :=
  if !testHoldArguments f then (.just .badValue, s)
  else if s.sr.serviceMode then (.just .refusedState, s)
  else match s.active with
    | none => (.just .notReady, s)
    | some a =>
      let (ans, s1) := requestClaim a.bank (testHoldRequest f) s
      (⟨ans.status, if ans.status = .ok then (ans.slot.map byte).toList else []⟩, s1)

/-- R82: the claim is removed, with its timer, and the removal treated by R86. -/
def releaseTest (f : Frame) (s : State) : Answer × State :=
  let tag := argByte f 1
  if tag < 1 ∨ 3 < tag then (.just .badValue, s)
  else match s.active with
    | none => (.just .badIndex, s)
    | some a =>
      if s.hc.hasClaim .service tag then
        (.just .ok, afterRemoval a.bank (onHold (removeClaims a.bank fun c => c.hasKey .service tag) s))
      else (.just .badIndex, s)

/-! ## RESET_PART (R186) -/

/-- R186: accepted, the OK response is marked, for the reset is taken when it leaves the queue. -/
def resetPart (p : Port) (s : State) : State :=
  if s.hc.state = .parked ∨ s.hc.state = .off ∨ s.sr.serviceMode = true then
    respond p 0x0D (.just .ok) true (setResponder (fun r => { r with resetPending := .set, idle := none }) s)
  else respond p 0x0D (.just .refusedState) false s

/-! ## The commands -/

/-- ENTER_SERVICE (R179). -/
def execEnterService (p : Port) (s : State) : Host.Outcome State Fault Refusal :=
  .next (serveNow 0x01 0 p (fun _ s => enterService s) s)

/-- EXIT_SERVICE (R180). -/
def execExitService (p : Port) (s : State) : Host.Outcome State Fault Refusal :=
  .next (serveNow 0x02 0 p (fun _ s => exitService s) s)

/-- SERVICE_IDLE_EXPIRY (R180). -/
def execServiceIdleExpiry (s : State) : Host.Outcome State Fault Refusal := .next (idleExpired s)

/-- READ_ENTRY (R178). -/
def execReadEntry (p : Port) (s : State) : Host.Outcome State Fault Refusal :=
  .next (serveNow 0x03 4 p (fun f s => (readEntryAnswer f s, s)) s)

/-- WRITE_FIELD (R181). -/
def execWriteField (p : Port) (s : State) : Host.Outcome State Fault Refusal :=
  .next (serveNow 0x04 7 p writeField s)

/-- READ_SIGNAL (R178). -/
def execReadSignal (p : Port) (s : State) : Host.Outcome State Fault Refusal :=
  .next (serveNow 0x06 1 p (fun f s => (readSignalAnswer f s, s)) s)

/-- READ_COUNTERS (R175). -/
def execReadCounters (p : Port) (s : State) : Host.Outcome State Fault Refusal :=
  .next (serveNow 0x07 2 p readCounters s)

/-- READ_FAULT (R172). -/
def execReadFault (p : Port) (s : State) : Host.Outcome State Fault Refusal :=
  .next (serveNow 0x08 1 p (fun f s => (readFaultAnswer f s, s)) s)

/-- CLEAR_FAULT (R172). -/
def execClearFault (p : Port) (s : State) : Host.Outcome State Fault Refusal :=
  .next (serveNow 0x09 0 p (fun _ s => clearFault s) s)

/-- READ_CLAIMS (R84). -/
def execReadClaims (p : Port) (s : State) : Host.Outcome State Fault Refusal :=
  .next (serveNow 0x0A 1 p (fun f s => (readClaimsAnswer f s, s)) s)

/-- TEST_HOLD (R81). -/
def execTestHold (p : Port) (s : State) : Host.Outcome State Fault Refusal :=
  .next (serveNow 0x0B 7 p testHold s)

/-- RELEASE_TEST (R82). -/
def execReleaseTest (p : Port) (s : State) : Host.Outcome State Fault Refusal :=
  .next (serveNow 0x0C 1 p releaseTest s)

/-- RESET_PART (R186). -/
def execResetPart (p : Port) (s : State) : Host.Outcome State Fault Refusal :=
  .next (serve 0x0D 0 p (fun _ s => resetPart p s) s)

/-- UNKNOWN_COMMAND_REQUEST (R177). -/
def execUnknownCommandRequest (p : Port) (s : State) : Host.Outcome State Fault Refusal :=
  .next (unknownRequest p s)

end Sys2Proof.Machine
end

