-- ==== Sys2Proof/Machine/StartUp.lean ====
section
/-! DEFINITION. Resets, the load of the stored tables, activation and the store write (R182 to R186, with each block's
start: R21, R22, R39, R42, R66, R67, R123, R139, R151, R152, R168, R173, R176). -/

namespace Sys2Proof.Machine

/-! ## Resets (R185, R186) -/

/-- The store after a reset: an area being written is left with the remains of the write, the other stays current
(R184; log 7). -/
def storeAfterReset (s : State) : Store :=
  if s.sr.storeWrite.isSome then s.store.writeSpare .spoiled else s.store

/-- Every block at its reset values, the node number read, the load begun (R185). The store and the waiting commands
are outside the reset. That NODE0 is the least significant bit of the node number is the model's choice (log 36). -/
def resetAll (pins : BitVec 3) (s : State) : State :=
  { State.reset with pending := s.pending, sr := .reset pins, store := storeAfterReset s }

/-- POWER_ON_RESET (R185): the Fault Record and every counter emptied with the rest (R173, R174). -/
def powerOn (pins : BitVec 3) (s : State) : State := resetAll pins s

/-- PENDING_RESET_TAKEN (R186): as a power-on reset, with the Fault Record and the counters kept, and the reports and
counts on their way to them (log 17). -/
def takePendingReset (pins : BitVec 3) (s : State) : State :=
  if s.sr.resetPending = .due then
    { resetAll pins s with
      fc := s.fc
      mail := { Mail.empty with faults := s.mail.faults, counts := s.mail.counts } }
  else s

/-! ## A bank becoming active -/

/-- What a load and an activation have in common (R183, R185): the bank active, the Signal Monitor, the calculator with
its start computation, the Hold Controller in STARTING with that result in hand, the Creep Monitor and the Forwarding
Engine at their start values; STATE_CHANGE raised and the Creep Monitor told (R49, R67; log 14). -/
def runOn (b : Bank) (s : State) : State :=
  let c := Calculator.start b
  tellState .starting false (raise .stateChange
    { s with
      active := some b.toActive
      sm := .start b
      hpc := some c
      hc := .start b c.result
      cm := .start b
      fe := .start b })

/-! ## The load of the stored tables (R185) -/

/-- The bank a store area gives to a load that passes (R185). -/
def StoreArea.loadable : StoreArea → Option Bank
  | .holds b true => if (checkBank b).isNone then some b else none
  | _ => none

/-- The status timer at the end of a load, of the bank or of the defaults (R166, R168). -/
def startStatus (b : Bank) (s : State) : State :=
  s.setTx { s.tx with statusTimer := some b.params.statusPeriod }

/-- STORE_LOAD_END (R185). -/
def loadEnded (s : State) : State :=
  if s.loading then
    let s1 := s.setLoading false
    match s.store.current.loadable with
    | some b => startStatus b (runOn b s1)
    | none => report .major .tablesInvalid .none (startStatus .default s1)
  else s

/-! ## Activation (R182, R183) -/

/-- The data of a CHECK_FAILED response (R182, R188). -/
def CheckFailure.data (f : CheckFailure) : List Byte :=
  match f.entry with
  | some (index, table) => [byte f.check, byte index, byte table]
  | none => [byte f.check, 0xFF, 0xFF]

/-- Deliveries that the new bank replaces: those inside the blocks that start again. Requests, offers, fault reports and
port counts stay (R20, R22, R40, R67, R123, R152; log 16). -/
def Mail.activated (m : Mail) : Mail :=
  { Mail.empty with
    offers := m.offers
    requests := m.requests
    faults := m.faults
    counts := m.counts.filter fun c => !c.isMonitor }

/-- R183: the staging bank, which has passed the checks, becomes active; the store write begins (R184). -/
def activateBank (p : Port) (b : Bank) (s : State) : State :=
  let s1 := s.setMail s.mail.activated
  let s2 := setResponder (fun r => { endService r with storeWrite := some p }) s1
  let s3 := s2.setFc (clearMonitorCounters s2.fc)
  activateScheduler (runOn b (raise .tablesActivated s3))

/-- R182: ACTIVATE. The response OK waits for the store write (R184). -/
def activate (p : Port) (s : State) : State :=
  match s.sr.serviceMode, s.sr.staging with
  | true, some b =>
    match checkBank b with
    | some f => respond p 0x05 ⟨.checkFailed, f.data⟩ false s
    | none => activateBank p b s
  | _, _ => respond p 0x05 (.just .refusedState) false s

/-! ## The store write (R184) -/

/-- STORE_WRITE_COMPLETE (R184): on success the area written holds the active bank and becomes current. -/
def storeWritten (ok : Bool) (s : State) : State :=
  match s.sr.storeWrite, s.active with
  | some p, some a =>
    let s1 := setResponder (fun r => { r with storeWrite := none }) s
    if ok then
      let written := s.store.writeSpare (.holds a.bank true)
      respond p 0x05 (.just .ok) false (s1.setStore { written with second := !written.second })
    else
      respond p 0x05 (.just .storeFailed) false
        (report .minor .storeFailed .none (s1.setStore (s.store.writeSpare .spoiled)))
  | _, _ => s

/-! ## The commands -/

/-- POWER_ON_RESET (R185). -/
def execPowerOnReset (pins : BitVec 3) (s : State) : Host.Outcome State Fault Refusal := .next (powerOn pins s)

/-- STORE_LOAD_END (R185). -/
def execStoreLoadEnd (s : State) : Host.Outcome State Fault Refusal := .next (loadEnded s)

/-- ACTIVATE (R182). -/
def execActivate (p : Port) (s : State) : Host.Outcome State Fault Refusal :=
  .next (serve 0x05 0 p (fun _ s => activate p s) s)

/-- STORE_WRITE_COMPLETE (R184). -/
def execStoreWriteComplete (ok : Bool) (s : State) : Host.Outcome State Fault Refusal := .next (storeWritten ok s)

/-- PENDING_RESET_TAKEN (R186). -/
def execPendingResetTaken (pins : BitVec 3) (s : State) : Host.Outcome State Fault Refusal :=
  .next (takePendingReset pins s)

end Sys2Proof.Machine
end

