-- ==== Sys2Proof/Machine/Dispatch.lean ====
section
/-! DEFINITION. The meaning of each command, one arm per constructor of Instr. -/

namespace Sys2Proof.Machine

def exec (i : Instr) (s : State) : Host.Outcome State Fault Refusal :=
  match i with
  | .powerOnReset pins => Sys2Proof.Machine.execPowerOnReset pins s
  | .storeLoadEnd => Sys2Proof.Machine.execStoreLoadEnd s
  | .arrival p f => Sys2Proof.Machine.execArrival p f s
  | .refillExpiry => Sys2Proof.Machine.execRefillExpiry s
  | .watchCopy n => Sys2Proof.Machine.execWatchCopy n s
  | .periodTimeout n => Sys2Proof.Machine.execPeriodTimeout n s
  | .refusedCount => Sys2Proof.Machine.execRefusedCount s
  | .calcPublication => Sys2Proof.Machine.execCalcPublication s
  | .hcPublication => Sys2Proof.Machine.execHcPublication s
  | .calcResult => Sys2Proof.Machine.execCalcResult s
  | .startWindowExpiry => Sys2Proof.Machine.execStartWindowExpiry s
  | .armedConfirmExpiry => Sys2Proof.Machine.execArmedConfirmExpiry s
  | .minHoldExpiry => Sys2Proof.Machine.execMinHoldExpiry s
  | .maxServiceHoldExpiry => Sys2Proof.Machine.execMaxServiceHoldExpiry s
  | .reentryGuardExpiry => Sys2Proof.Machine.execReentryGuardExpiry s
  | .claimExpiry tag => Sys2Proof.Machine.execClaimExpiry tag s
  | .rampStepExpiry => Sys2Proof.Machine.execRampStepExpiry s
  | .handoverConfirmExpiry => Sys2Proof.Machine.execHandoverConfirmExpiry s
  | .overlapExpiry => Sys2Proof.Machine.execOverlapExpiry s
  | .quietExpiry => Sys2Proof.Machine.execQuietExpiry s
  | .creepPublication => Sys2Proof.Machine.execCreepPublication s
  | .evaluation => Sys2Proof.Machine.execEvaluation s
  | .stationaryTimerExpiry => Sys2Proof.Machine.execStationaryTimerExpiry s
  | .decisionReport => Sys2Proof.Machine.execDecisionReport s
  | .blindReport => Sys2Proof.Machine.execBlindReport s
  | .crossingReport => Sys2Proof.Machine.execCrossingReport s
  | .stateReport => Sys2Proof.Machine.execStateReport s
  | .queueOffer p cls => Sys2Proof.Machine.execQueueOffer p cls s
  | .transmissionSuccess p => Sys2Proof.Machine.execTransmissionSuccess p s
  | .transmissionError p => Sys2Proof.Machine.execTransmissionError p s
  | .recoveryExpiry p => Sys2Proof.Machine.execRecoveryExpiry p s
  | .demandPeriodExpiry => Sys2Proof.Machine.execDemandPeriodExpiry s
  | .statusPeriodExpiry => Sys2Proof.Machine.execStatusPeriodExpiry s
  | .faultReport n => Sys2Proof.Machine.execFaultReport n s
  | .counterCount => Sys2Proof.Machine.execCounterCount s
  | .enterService p => Sys2Proof.Machine.execEnterService p s
  | .exitService p => Sys2Proof.Machine.execExitService p s
  | .serviceIdleExpiry => Sys2Proof.Machine.execServiceIdleExpiry s
  | .readEntry p => Sys2Proof.Machine.execReadEntry p s
  | .writeField p => Sys2Proof.Machine.execWriteField p s
  | .activate p => Sys2Proof.Machine.execActivate p s
  | .storeWriteComplete ok => Sys2Proof.Machine.execStoreWriteComplete ok s
  | .readSignal p => Sys2Proof.Machine.execReadSignal p s
  | .readCounters p => Sys2Proof.Machine.execReadCounters p s
  | .readFault p => Sys2Proof.Machine.execReadFault p s
  | .clearFault p => Sys2Proof.Machine.execClearFault p s
  | .readClaims p => Sys2Proof.Machine.execReadClaims p s
  | .testHold p => Sys2Proof.Machine.execTestHold p s
  | .releaseTest p => Sys2Proof.Machine.execReleaseTest p s
  | .resetPart p => Sys2Proof.Machine.execResetPart p s
  | .pendingResetTaken pins => Sys2Proof.Machine.execPendingResetTaken pins s
  | .unknownCommandRequest p => Sys2Proof.Machine.execUnknownCommandRequest p s

end Sys2Proof.Machine
end

