-- ==== Sys2Proof/Safety.lean ====
section
/-! DEFINITION. What counts as a safe state of the part, in the terms the statements use: invariants read from the
chapters' own sentences about the whole part, and the parts of a state a command may touch. -/

namespace Sys2Proof.Machine

/-- A pressure of each circuit within a bound of each circuit. -/
def Circuits.within (x top : Circuits) : Prop := x.a ≤ top.a ∧ x.b ≤ top.b

/-- R71: six slots, occupied exactly in HOLDING; a handover phase stands in HANDOVER alone (R125). -/
structure ClaimTableKept (s : State) : Prop where
  slots : s.hc.claims.length = 6
  holding : s.hc.state = .holding ↔ s.hc.noClaim = false
  phase : s.hc.phase.isSome = true → s.hc.state = .handover

/-- R44: the mode and the park request of the demand record are those of the hold state, and the pressures are 0 in
the modes NONE and PARK_ONLY. -/
structure DemandRecordKept (s : State) : Prop where
  mode : s.hc.demand.mode = s.hc.state.mode
  park : s.hc.demand.park = s.hc.state.parks
  idle : s.hc.state.mode = .none ∨ s.hc.state.mode = .parkOnly → s.hc.demand.pressure = ⟨0, 0⟩

/-- The pressure parameters of a bank lie in the ranges of R25: a Pressure Floor is never above a Maximum Pressure. -/
def Bank.pressuresOk (b : Bank) : Prop :=
  b.params.pressureFloor ≤ 300 ∧ 300 ≤ b.params.maxPressureA ∧ 300 ≤ b.params.maxPressureB

/-- Every bank a store area holds has its pressure parameters in range. -/
def StoreArea.pressuresOk : StoreArea → Prop
  | .holds b _ => b.pressuresOk
  | _ => True

/-- R44, R59: under the active bank no pressure the part holds for a demand is above the Maximum Pressure of its
circuit, and every bank that may become active keeps the ranges of R25. -/
structure PressuresKept (s : State) : Prop where
  staging : ∀ b, s.sr.staging = some b → b.pressuresOk
  first : s.store.first.pressuresOk
  other : s.store.other.pressuresOk
  loading : s.loading = true → s.active = none
  unpublished : s.active = none → s.mail.results = []
  ranges : ∀ a, s.active = some a → a.bank.pressuresOk
  demand : ∀ a, s.active = some a → s.hc.demand.pressure.within a.bank.maxPressure
  result : ∀ a, s.active = some a → s.hc.resultPressure.within a.bank.maxPressure
  ramp : ∀ a r, s.active = some a → s.hc.ramp = some r → r.start.within a.bank.maxPressure
  results : ∀ a, s.active = some a → ∀ r ∈ s.mail.results, r.pressure.within a.bank.maxPressure

/-- R154 for one queue: at most 32 entries, at most one HOLD entry not yet started. -/
structure TxQueue.Kept (q : TxQueue) : Prop where
  size : q.entries.length ≤ 32
  hold : countWhere (fun e => e.cls == .hold) q.waiting ≤ 1

/-- R154 for both queues. -/
def QueuesKept (s : State) : Prop := ∀ p, (queueOf s p).Kept

/-- R154: no class holds more dedicated space than its minimum under the parameters in use. -/
def DedicatedKept (s : State) : Prop :=
  ∀ p cls, (queueOf s p).dedicatedCount cls ≤ ((txBank s).minima.get p).get cls

/-- The seven counters of a port are 16 bits wide (R174). -/
def PortCounters.Kept (x : PortCounters) : Prop :=
  x.rx ≤ 65535 ∧ x.forwarded ≤ 65535 ∧ x.policed ≤ 65535 ∧ x.blocked ≤ 65535 ∧ x.queueDrop ≤ 65535 ∧
    x.txError ≤ 65535 ∧ x.idConflict ≤ 65535

/-- The three counters of a frame monitor are 16 bits wide (R20). -/
def MonitorCounters.Kept (x : MonitorCounters) : Prop := x.good ≤ 65535 ∧ x.errors ≤ 65535 ∧ x.losses ≤ 65535

/-- R174, R163, R162, R166, R170, R109, R116: the 86 counters and the other counts of the part keep to their widths. -/
structure CountersKept (s : State) : Prop where
  portC : s.fc.ports.c.Kept
  portB : s.fc.ports.b.Kept
  monitors : s.fc.monitors.length = 24 ∧ ∀ x ∈ s.fc.monitors, x.Kept
  repeats : ∀ r, s.fc.record = some r → r.repeats ≤ 255
  owed : s.tx.owed ≤ 255
  demandAlive : s.tx.nextDemand < 15
  statusAlive : s.tx.nextStatus < 15
  accumulator : s.cm.accumulator ≤ 65535
  pulses : ∀ r ∈ s.cm.channels, r.pending ≤ 65535

/-- R68, R176, R180: in service mode the hold state is OFF, PARKED or SECURED; the staging bank exists, and the Service
Idle timer runs, only in service mode; during the load of the stored tables there is no service mode (R151, R185). -/
structure ServiceModeKept (s : State) : Prop where
  states : s.sr.serviceMode = true → s.hc.state = .off ∨ s.hc.state = .parked ∨ s.hc.state = .secured
  staging : s.sr.staging.isSome = s.sr.serviceMode
  idle : s.sr.idle.isSome = true → s.sr.serviceMode = true
  loading : s.loading = true → s.sr.serviceMode = false ∧ s.mail.requests = []

/-- What one of the 86 counters holds (R174). -/
def Counter.read : Counter → FaultCapture → Nat
  | .rx p, fc => (fc.ports.get p).rx
  | .forwarded p, fc => (fc.ports.get p).forwarded
  | .policed p, fc => (fc.ports.get p).policed
  | .blocked p, fc => (fc.ports.get p).blocked
  | .queueDrop p, fc => (fc.ports.get p).queueDrop
  | .txError p, fc => (fc.ports.get p).txError
  | .idConflict p, fc => (fc.ports.get p).idConflict
  | .good i, fc => (fc.monitor i).good
  | .errors i, fc => (fc.monitor i).errors
  | .losses i, fc => (fc.monitor i).losses

/-- Every table of a bank has its number of entries (R2, R4, R144, R90, R189). -/
structure Bank.Shaped (b : Bank) : Prop where
  monitors : b.monitors.length = 24
  extractions : b.extractions.length = 64
  forwarding : b.forwarding.length = 128
  rates : b.rates.length = 7
  cells : b.cells.length = 48
  gradeBounds : b.gradeBounds.length = 8
  massBounds : b.massBounds.length = 6

/-! ## Service requests as a tool sees them -/

/-- The oldest request of a port is `f`, and `rest` is what the channel holds without it. -/
def Asks (p : Port) (f : Frame) (rest : List Request) (s : State) : Prop :=
  ∃ before after, s.mail.requests = before ++ ⟨p, f⟩ :: after ∧ (∀ r ∈ before, r.port ≠ p) ∧ rest = before ++ after

/-- The Service Responder does not answer BUSY (R177). -/
def Ready (s : State) : Prop := s.sr.storeWrite = none ∧ s.sr.resetPending = .clear

/-- A request taken (R177): out of its channel, the Service Idle timer started again in service mode. -/
def taken (rest : List Request) (s : State) : State :=
  { s with
    mail := { s.mail with requests := rest }
    sr := if s.sr.serviceMode then { s.sr with idle := some 60000 } else s.sr }

/-- A response of eight bytes on its way to the queue of a port (R188): command byte, status, six data bytes. -/
def answered (p : Port) (code : Nat) (status : Status) (data : List Byte) (s : State) : State :=
  { s with mail := { s.mail with offers := s.mail.offers ++
      [⟨p, .service, ⟨.std (0x6F8 + s.sr.node.toNat), false, byte code :: byte status.code :: data⟩, false⟩] } }

/-- The counters of a READ_COUNTERS group, in the order of the response (R175); none for a group past 29. -/
def groupCounters (g : Nat) : List Counter :=
  match g with
  | 0 => [.rx .c, .forwarded .c, .policed .c]
  | 1 => [.blocked .c, .queueDrop .c, .txError .c]
  | 2 => [.idConflict .c]
  | 3 => [.rx .b, .forwarded .b, .policed .b]
  | 4 => [.blocked .b, .queueDrop .b, .txError .b]
  | 5 => [.idConflict .b]
  | n => if h : n - 6 < 24 then [.good ⟨n - 6, h⟩, .errors ⟨n - 6, h⟩, .losses ⟨n - 6, h⟩] else []

/-! ## Changes of hold state as the chapters give them -/

/-- What every change of hold state leaves (R44, R49): the state and its cause, the demand record of the state with
the given pressures, STATE_CHANGE (event 0) raised and the Creep Monitor told. -/
structure Entered (new : HoldState) (cause : Option Cause) (pressure : Circuits) (episode : Bool) (s t : State) :
    Prop where
  state : t.hc.state = new
  cause : t.hc.cause = cause
  demand : t.hc.demand = ⟨new.mode, pressure, new.parks⟩
  event : t.events.set = s.events.set ||| 1#16
  told : t.mail.stateReports = s.mail.stateReports ++ [⟨new, episode⟩]

/-- The timers that belong to a state, and the marks of handover and release, are stopped and cleared (R49, R125). -/
structure TimersStopped (h : HoldController) : Prop where
  startWindow : h.startWindow = none
  armedConfirm : h.armedConfirm = none
  minHold : h.minHold = none
  maxHold : h.maxHold = none
  ramp : h.ramp = none
  rampStep : h.rampStep = none
  phase : h.phase = none
  deadline : h.deadline = false
  handoverConfirm : h.handoverConfirm = none
  overlap : h.overlapTimer = none

/-- The parts of the Hold Controller's record that no change of state touches. -/
structure RecordKept (h k : HoldController) : Prop where
  result : k.result = h.result
  image : k.image = h.image
  missing : k.missing = h.missing
  allOnce : k.allOnce = h.allOnce
  stationary : k.stationary = h.stationary
  blind : k.blind = h.blind
  degraded : k.degraded = h.degraded
  guard : k.guard = h.guard
  latchRear : k.latchRear = h.latchRear
  latchSide : k.latchSide = h.latchSide
  latchDischarge : k.latchDischarge = h.latchDischarge

/-- An event of the Hold Controller reaches its own record, the event set, the reports to the Creep Monitor and the
fault reports under way, and nothing else. -/
def HoldOnly (s t : State) : Prop :=
  t = { s with
    hc := t.hc
    events := t.events
    mail := { s.mail with stateReports := t.mail.stateReports, faults := t.mail.faults } }

/-- HANDOVER as R126 leaves it: the claims gone, the Handover Confirm timer started, the phase by SPRING_STATE. -/
structure HandoverStarted (b : Bank) (h : HoldController) : Prop where
  claims : h.claims = [none, none, none, none, none, none]
  confirm : h.handoverConfirm = some b.params.handoverConfirm
  deadline : h.deadline = false
  phase : h.phase = some (if h.springApplied then .overlap else .awaiting)
  overlap : h.overlapTimer = if h.springApplied then some b.params.overlapTime else none
  minHold : h.minHold = none
  maxHold : h.maxHold = none

/-- A Claim Table holding a DRIVER claim alone, in slot 1 (R57, R72). -/
def driverAlone (granted : Word32) : List (Option Claim) :=
  [none, some ⟨.driver, 0, none, none, none, granted, none⟩, none, none, none, none]

/-! ## The blocks at their start under a bank -/

/-- R2: the width of a frame monitor's counter field, from its modulus. -/
def counterBits (modulus : Nat) : Nat := if modulus = 4 then 2 else if modulus = 8 then 3 else 4

/-- R3: a field that frame monitor i reads ends in data byte n, counted from 1. -/
def FieldEnds (b : Bank) (i n : Nat) : Prop :=
  (∃ x ∈ b.extractions, x.kind ≠ none ∧ x.monitor = i ∧ n = (x.start + x.width + 7) / 8) ∨
    ((b.monitor i).counterMod ≠ 0 ∧ n = ((b.monitor i).counterStart + counterBits (b.monitor i).counterMod + 7) / 8) ∨
    ((b.monitor i).checkPos ≠ 0 ∧ n = (b.monitor i).checkPos + 1)

/-- R3: the minimum data length of frame monitor i, the largest of the bytes its fields end in. -/
def IsMinLength (b : Bank) (i n : Nat) : Prop :=
  (∀ m, FieldEnds b i m → m ≤ n) ∧ (FieldEnds b i n ∨ (n = 0 ∧ ∀ m, ¬ FieldEnds b i m))

/-- R179: a bank with every field at the default given where the field is defined. -/
structure Defaults (b : Bank) : Prop where
  monitors : b.monitors = List.replicate 24
    { inUse := false, ident := .std 0, period := 100, counterStart := 0, counterMod := 0
      checkPos := 0, checkSeed := 0, k := 2, n := 5, m := 2 }
  extractions : b.extractions = List.replicate 64
    { kind := none, monitor := 0, start := 0, width := 8, signed := false
      multiplier := 1, divisor := 1, offset := 0, min := 0, max := 0, debounce := false, axle := .f1, distance := 50 }
  forwarding : b.forwarding = List.replicate 128
    { inUse := false, ident := .std 0, port := .either, action := .block, rateClass := 0, monitor := 0 }
  rates : b.rates = List.replicate 7 ⟨10, 20⟩
  gradeBounds : b.gradeBounds = [20, 40, 80, 120, 160, 220, 300, 400]
  massBounds : b.massBounds = [12000, 18000, 24000, 30000, 36000, 65535]
  cells : b.cells = [8, 10, 12, 14, 16, 18] ++ [10, 13, 16, 19, 22, 25] ++ [14, 19, 24, 29, 34, 39] ++
    [18, 25, 32, 39, 46, 53] ++ [22, 31, 40, 49, 58, 67] ++ [27, 38, 49, 60, 71, 82] ++ [34, 48, 62, 76, 90, 104] ++
    [42, 59, 76, 93, 110, 125]
  axles : b.axles = ⟨⟨750, 38⟩, ⟨750, 38⟩, ⟨1100, 55⟩, ⟨1100, 55⟩, ⟨900, 45⟩⟩
  minima : b.minima.b = ⟨1, 16, 0, 2⟩ ∧ b.minima.c = ⟨0, 16, 2, 2⟩
  force : b.params.safetyFactor = 130 ∧ b.params.drumMargin = 15 ∧ b.params.drumThreshold = 20 ∧
    b.params.forceFloor = 8000 ∧ b.params.pressureFloor = 120 ∧ b.params.maxPressureA = 800 ∧ b.params.maxPressureB = 800
  hold : b.params.holdEnable = true ∧ b.params.gradeThreshold = 30 ∧ b.params.stopConfirm = 200 ∧
    b.params.minHold = 1000 ∧ b.params.maxServiceHold = 300 ∧ b.params.reentryGuard = 2000
  release : b.params.uphillPedal = 5 ∧ b.params.downhillPedal = 8 ∧ b.params.uphillRamp = 600 ∧
    b.params.downhillRamp = 300 ∧ b.params.rollbackSpeed = 20 ∧ b.params.reapplyBoost = 20 ∧ b.params.reapplyLimit = 3
  handover : b.params.creepLimit = 120 ∧ b.params.handoverConfirm = 2000 ∧ b.params.overlapTime = 800
  forwards : b.params.blockDefaultC = true ∧ b.params.blockDefaultB = false
  transmits : b.params.demandIdent = .std 0x0C8 ∧ b.params.statusIdent = .std 0x3E0 ∧ b.params.txSeed = 0x3C ∧
    b.params.demandPeriod = 20 ∧ b.params.statusPeriod = 100 ∧ b.params.hpWatermark = 2 ∧ b.params.panicWatermark = 4

/-- A kind's entry in a fresh image (R26, R43). -/
def freshSig (b : Bank) (k : SignalKind) : Sig := ⟨if b.mapped k then .noData else .unmapped, none⟩

/-- A circuit's largest pressure clamped between the Pressure Floor and the Maximum Pressure (R36). -/
def Clamped (floor top need v : Nat) : Prop := floor ≤ top → v = min top (max floor need)

/-- R39: the calculator with its start computation: the image of R26, no mark, and the first result, in the Hold
Controller's hand, on the Rated Loads of F1, F2, T1 and T2, the grade 400 and the Drum Margin. -/
def CalcStarted (b : Bank) (t : State) : Prop :=
  ∃ c, t.hpc = some c ∧ t.hc.result = some c.result ∧ (∀ x, c.lossMarks.get x = false) ∧ c.loadMark = false ∧
    (∀ x, c.image.loads.get x = freshSig b (.axleLoad x)) ∧ c.image.grade = freshSig b .grade ∧
    c.image.drum = freshSig b .drumSpeed ∧ c.image.discharge = freshSig b .dischargeActive ∧
    c.image.pusher = freshSig b .pusherDown ∧
    c.image.counted = [.f1, .f2, .t1, .t2] ∧ (∀ x, finalLoad b c.image x = (b.axles.get x).rated) ∧
    totalLoad b c.image = b.axles.f1.rated + b.axles.f2.rated + b.axles.t1.rated + b.axles.t2.rated ∧
    gradeUsed c.image = 400 ∧ drumMargin b c.image = b.params.drumMargin ∧
    c.result.capacity = false ∧ c.result.mass = 10 * totalLoad b c.image ∧
    Clamped b.params.pressureFloor b.params.maxPressureA (unclamped b c.image).a c.result.pressure.a ∧
    Clamped b.params.pressureFloor b.params.maxPressureB (unclamped b c.image).b c.result.pressure.b

/-- R123: the Creep Monitor at its start, the eight channels among its record. -/
def CreepStarted (b : Bank) (c : CreepMonitor) : Prop :=
  c = ⟨(List.finRange 8).map fun n => ⟨(freshSig b (.wheelPulse n)).validity, none, 0⟩,
    true, false, none, some 20, .starting, 0, false, false⟩

/-- R42, R43, R66, R67, R71, R106, R125: the Hold Controller at its entry to STARTING, but for the result in hand. -/
structure HoldStarted (b : Bank) (h : HoldController) : Prop where
  state : h.state = .starting ∧ h.cause = none ∧ h.demand = ⟨.none, ⟨0, 0⟩, false⟩
  claims : h.claims = [none, none, none, none, none, none]
  image : h.image = ⟨freshSig b .grade, freshSig b .engineTorque, freshSig b .drivePedal, freshSig b .brakePedal,
    freshSig b .gearDirection, freshSig b .outputSpeed, freshSig b .dischargeActive, freshSig b .pendantRear,
    freshSig b .pendantSide, freshSig b .parkSwitch, freshSig b .doorOpen, freshSig b .seatOccupied,
    freshSig b .ignition, freshSig b .springState⟩
  copies : h.missing = true ∧ h.allOnce = false ∧ h.stationary = false ∧ h.blind = true ∧ h.degraded = true
  timers : h.startWindow = some 2000 ∧ h.armedConfirm = none ∧ h.minHold = none ∧ h.maxHold = none ∧ h.guard = none
  release : h.reapply = 0 ∧ h.ramp = none ∧ h.rampStep = none ∧ h.metMemory = false
  latches : h.latchRear = .idle ∧ h.latchSide = .idle ∧ h.latchDischarge = .idle
  handover : h.phase = none ∧ h.deadline = false ∧ h.handoverConfirm = none ∧ h.overlapTimer = none ∧
    h.quiet = none ∧ h.parkExit = false

/-! ## Time (R1) -/

/-- Every expiry row of the table with the timer whose end it takes, but for the claims' timers (R1). -/
def expiries (s : State) : List (Instr × Timer) :=
  [(.refillExpiry, s.fe.refill), (.startWindowExpiry, s.hc.startWindow), (.armedConfirmExpiry, s.hc.armedConfirm),
    (.minHoldExpiry, s.hc.minHold), (.maxServiceHoldExpiry, s.hc.maxHold), (.reentryGuardExpiry, s.hc.guard),
    (.rampStepExpiry, s.hc.rampStep), (.handoverConfirmExpiry, s.hc.handoverConfirm),
    (.overlapExpiry, s.hc.overlapTimer), (.quietExpiry, s.hc.quiet), (.evaluation, s.cm.evalTimer),
    (.stationaryTimerExpiry, s.cm.stationaryTimer), (.recoveryExpiry .c, s.links.c.recovery),
    (.recoveryExpiry .b, s.links.b.recovery), (.demandPeriodExpiry, s.tx.demandTimer),
    (.statusPeriodExpiry, s.tx.statusTimer), (.serviceIdleExpiry, s.sr.idle)] ++
    (List.finRange 24).map fun i : Fin 24 => (.periodTimeout i, (s.sm.state i.val).timer)

/-! ## The Release Table (R93) -/

/-- An index is that of the lowest band whose upper bound is at least a value, or of the last band. -/
def IsBand (bounds : List Nat) (v i : Nat) : Prop :=
  i < bounds.length ∧ (∀ j x, j < i → bounds[j]? = some x → x < v) ∧
    ∀ x, bounds[i]? = some x → v ≤ x ∨ i + 1 = bounds.length

/-! ## The ranking of the wheel channels (R113) -/

/-- A channel stands before another: a larger distance, or of equal distances the axle position first in the order F1, F2,
T1, T2, P, or of equal positions the lower number. -/
def Outranks (distance : Fin 8 → Nat) (axle : Fin 8 → Axle) (m n : Fin 8) : Prop :=
  distance n < distance m ∨ (distance m = distance n ∧
    ((axle m).code < (axle n).code ∨ (axle m = axle n ∧ m < n)))

/-! ## The conditions of the hold, read from the record (R46, R48, R54, R62 to R64) -/

/-- R46: the driver is absent. -/
def Absent (h : HoldController) : Prop := h.image.doorOpen = ⟨.valid, some 1⟩ ∧ h.image.seat = ⟨.valid, some 0⟩

/-- R46: SPRING_STATE is applied. -/
def Applied (h : HoldController) : Prop := h.image.spring = ⟨.valid, some 1⟩

/-- R48: the five entry conditions. -/
structure EntryHolds (b : Bank) (h : HoldController) : Prop where
  enabled : b.params.holdEnable = true
  present : h.missing = false
  sighted : h.blind = false
  stationary : h.stationary = true
  guard : h.guard = none

/-- R48: an entry condition fails, and the status is the code of the first that does in the order of its table. -/
def EntryRefused (b : Bank) (h : HoldController) (status : Status) : Prop :=
  (b.params.holdEnable = false ∧ status = .refusedState) ∨
  (b.params.holdEnable = true ∧
    ((h.missing = true ∧ status = .degraded) ∨
    (h.missing = false ∧
      ((h.blind = true ∧ status = .degraded) ∨
      (h.blind = false ∧
        ((h.stationary = false ∧ status = .notStationary) ∨
        (h.stationary = true ∧ h.guard ≠ none ∧ status = .guard)))))))

/-- R54, condition 1, which the park-exit mark suspends (R134). -/
def Parks (h : HoldController) : Prop := h.stationary = true ∧ Applied h ∧ h.parkExit = false

/-- R54, condition 2. -/
def Leaves (h : HoldController) : Prop :=
  h.stationary = true ∧ ¬ Applied h ∧ (Absent h ∨ h.image.ignition = ⟨.valid, some 0⟩)

/-- R54, condition 3. -/
def Arms (b : Bank) (h : HoldController) : Prop :=
  EntryHolds b h ∧ h.image.brakePedal = ⟨.valid, some 1⟩ ∧
    ∃ g, h.image.grade = ⟨.valid, some g⟩ ∧ b.params.gradeThreshold ≤ g.natAbs

/-- R62, R63, R64: a handover condition holds in HOLDING. -/
def HandsOver (h : HoldController) : Prop :=
  h.image.ignition = ⟨.valid, some 0⟩ ∨ h.image.parkSwitch = ⟨.valid, some 1⟩ ∨
    (Absent h ∧ ∀ c, some c ∈ h.claims → c.source = .driver ∨ c.source = .monitor) ∨
    (∃ r, h.result = some r ∧ r.capacity = true) ∨ h.blind = true

/-! ## What an event does once it is recorded: `u` is the state with the event's record made, `r` its outcome -/

/-- A change of hold state that nothing else accompanies (R44, R49). -/
structure Moved (new : HoldState) (cause : Option Cause) (pressure : Circuits) (u t : State) : Prop where
  entered : Entered new cause pressure false u t
  kept : RecordKept u.hc t.hc
  only : HoldOnly u t
  faults : t.mail.faults = u.mail.faults

/-- R54 and R55: the tests in INACTIVE and ARMED. -/
structure StandTested (b : Bank) (u : State) (r : Host.Outcome State Fault Refusal) : Prop where
  parks : Parks u.hc → ∃ t, r = .next t ∧ Moved .parked none ⟨0, 0⟩ u t
  leaves : ¬ Parks u.hc → Leaves u.hc →
    ∃ t, r = .next t ∧ Moved .handover none u.hc.resultPressure u t ∧ HandoverStarted b t.hc
  arms : u.hc.state = .inactive → ¬ Parks u.hc → ¬ Leaves u.hc → Arms b u.hc →
    ∃ t, r = .next t ∧ Moved .armed none ⟨0, 0⟩ u t ∧ t.hc.armedConfirm = some b.params.stopConfirm ∧
      t.hc.parkExit = u.hc.parkExit
  disarms : u.hc.state = .armed → ¬ Parks u.hc → ¬ Leaves u.hc → ¬ Arms b u.hc →
    ∃ t, r = .next t ∧ Moved .inactive none ⟨0, 0⟩ u t ∧ TimersStopped t.hc ∧ t.hc.claims = noClaims ∧
      t.hc.parkExit = u.hc.parkExit
  stays : ¬ Parks u.hc → ¬ Leaves u.hc →
    ((u.hc.state = .inactive ∧ ¬ Arms b u.hc) ∨ (u.hc.state = .armed ∧ Arms b u.hc)) → r = .next u

/-- R62 to R64: the handover test in HOLDING, the ratcheted demand being the held value (R45). -/
structure HoldTested (b : Bank) (u : State) (r : Host.Outcome State Fault Refusal) : Prop where
  leaves : HandsOver u.hc → ∃ t, r = .next t ∧ Moved .handover none u.hc.demand.pressure u t ∧ HandoverStarted b t.hc
  stays : ¬ HandsOver u.hc → r = .next u

/-- The test of the hold state in which an event stands: R54, R55 or R62, and none in the other states. -/
structure StateTested (b : Bank) (u : State) (r : Host.Outcome State Fault Refusal) : Prop where
  stand : u.hc.state = .inactive ∨ u.hc.state = .armed → StandTested b u r
  hold : u.hc.state = .holding → HoldTested b u r
  other : u.hc.state ≠ .inactive → u.hc.state ≠ .armed → u.hc.state ≠ .holding → r = .next u

/-- R58: HOLDING is entered with some claims at some demand, and where a handover condition stands is left at once for
HANDOVER with that demand as the held value. -/
structure HoldBegun (b : Bank) (claims : List (Option Claim)) (asked : Circuits) (episode : Bool) (u : State)
    (r : Host.Outcome State Fault Refusal) : Prop where
  stands : ¬ HandsOver { u.hc with claims := claims } →
    ∃ t, r = .next t ∧ Entered .holding none asked episode u t ∧ t.hc.claims = claims ∧
      t.hc.minHold = some b.params.minHold ∧ t.hc.maxHold = some (b.params.maxServiceHold * 1000) ∧
      t.hc.reapply = (if episode then 0 else u.hc.reapply) ∧ t.hc.metMemory = false ∧ t.hc.ramp = none ∧
      t.hc.rampStep = none ∧ t.hc.armedConfirm = none ∧ RecordKept u.hc t.hc ∧ HoldOnly u t ∧
      t.mail.faults = u.mail.faults
  leaves : HandsOver { u.hc with claims := claims } →
    ∃ t, r = .next t ∧ t.hc.state = .handover ∧ t.hc.cause = none ∧ t.hc.demand = ⟨.hold, asked, true⟩ ∧
      HandoverStarted b t.hc ∧ t.events.set = u.events.set ||| 1#16 ∧
      t.mail.stateReports = u.mail.stateReports ++ [⟨.holding, episode⟩, ⟨.handover, false⟩] ∧
      t.hc.reapply = (if episode then 0 else u.hc.reapply) ∧ RecordKept u.hc t.hc ∧ HoldOnly u t ∧
      t.mail.faults = u.mail.faults

/-- R101: OUTPUT_SPEED shows rollback against a release intent. -/
def RollsBack (b : Bank) (forward : Bool) (h : HoldController) : Prop :=
  ∃ v : Int, h.image.outputSpeed = ⟨.valid, some v⟩ ∧ (if forward then v < 0 else 0 < v) ∧
    b.params.rollbackSpeed ≤ v.natAbs

/-- An event raised (R167). -/
def raisedIn (e : Nat) (u : State) : State :=
  { u with events := ⟨u.events.set ||| 1#16 <<< e, u.events.again ||| 1#16 <<< e⟩ }

/-- R101 to R103: the rollback test in RELEASING, the Claim Table being empty. -/
structure RollbackTested (b : Bank) (ramp : Ramp) (u : State) (r : Host.Outcome State Fault Refusal) : Prop where
  goesOn : ¬ RollsBack b ramp.forward u.hc → r = .next u
  reapplies : RollsBack b ramp.forward u.hc → u.hc.reapply + 1 < b.params.reapplyLimit →
    let boosted := fun top start : Nat => min top (ceilDiv (start * (100 + b.params.reapplyBoost)) 100)
    let p := u.hc.resultPressure
    HoldBegun b (driverAlone u.now)
      ⟨max (boosted b.params.maxPressureA ramp.start.a) p.a, max (boosted b.params.maxPressureB ramp.start.b) p.b⟩ false
      (raisedIn 5 { u with hc := { u.hc with reapply := u.hc.reapply + 1 } }) r
  handsOver : RollsBack b ramp.forward u.hc → b.params.reapplyLimit ≤ u.hc.reapply + 1 →
    ∃ t, r = .next t ∧ HandoverStarted b t.hc ∧ t.hc.reapply = u.hc.reapply + 1 ∧ t.hc.ramp = none ∧
      Moved .handover none ramp.start (raisedIn 5 u) t

/-- A claim that a drive-off removes (R96). -/
def Claim.drivenOff (c : Claim) : Bool := c.source == .driver || c.source == .monitor

/-- R95, R96, R98: an evaluation of the drive-off criterion in HOLDING, where the demand covers the result in hand and
the floors, as the ratchet keeps it (R59). -/
structure CriterionTested (b : Bank) (u : State) (r : Host.Outcome State Fault Refusal) : Prop where
  waits : u.hc.minHold.isSome = true → b.params.minHold ≠ 0 → r = .next u
  fails : (u.hc.minHold = none ∨ b.params.minHold = 0) → u.hc.criterion b = false →
    r = .next { u with hc := { u.hc with metMemory := false } }
  met : (u.hc.minHold = none ∨ b.params.minHold = 0) → u.hc.criterion b = true → u.hc.metMemory = true → r = .next u
  blocked : (u.hc.minHold = none ∨ b.params.minHold = 0) → u.hc.criterion b = true → u.hc.metMemory = false →
    (∃ c, some c ∈ u.hc.claims ∧ c.drivenOff = false) → u.hc.resultPressure.within u.hc.demand.pressure →
    (u.hc.limitedFloors b).within u.hc.demand.pressure →
    let left := u.hc.claims.map fun c => c.filter fun x => !x.drivenOff
    HoldTested b (raisedIn 3 { u with hc := { u.hc with claims := left, metMemory := true } }) r
  releases : (u.hc.minHold = none ∨ b.params.minHold = 0) → u.hc.criterion b = true → u.hc.metMemory = false →
    (∀ c, some c ∈ u.hc.claims → c.drivenOff = true) → u.hc.claims.length = 6 →
    u.hc.resultPressure.within u.hc.demand.pressure → ∀ forward : Bool, u.hc.intent = some forward →
    let p := u.hc.demand.pressure
    let time := if (match u.hc.image.grade.valid? with | some g => uphill forward g | none => false) then
      b.params.uphillRamp else b.params.downhillRamp
    let ramp : Ramp := ⟨p, forward, time,
      ⟨ceilDiv (p.a * b.params.demandPeriod) time, ceilDiv (p.b * b.params.demandPeriod) time⟩⟩
    ∃ w, Moved .releasing none p u w ∧ w.hc.claims = noClaims ∧ w.hc.ramp = some ramp ∧
      w.hc.rampStep = some b.params.demandPeriod ∧ w.hc.minHold = none ∧ w.hc.maxHold = none ∧
      w.hc.reapply = u.hc.reapply ∧ RollbackTested b ramp w r

/-! ## Publication sets at the Hold Controller (R43) -/

/-- The record with a publication set taken into it (R43, R47). -/
def recorded (set : HcSet) (h : HoldController) : HoldController :=
  { h with
    image := set.items.foldl HcImage.take h.image
    missing := set.missing.getD h.missing
    allOnce := set.allOnce.getD h.allOnce
    degraded := set.missing.getD h.missing || h.blind }

/-- The state with the oldest publication set recorded and out of its channel. -/
def withSet (set : HcSet) (rest : List HcSet) (s : State) : State :=
  { s with hc := recorded set s.hc, mail := { s.mail with toHc := rest } }

/-- A set publishes a kind. -/
def Carries (set : HcSet) (k : SignalKind) : Prop := ∃ x ∈ set.items, x.kind = k

/-- A set publishes no signal source's kind (R72). -/
def NoSource (set : HcSet) : Prop :=
  ∀ x ∈ set.items, x.kind ≠ .pendantRear ∧ x.kind ≠ .pendantSide ∧ x.kind ≠ .dischargeActive

/-- A set publishes one of the kinds the drive-off criterion reads (R95). -/
def MovesCriterion (set : HcSet) : Prop :=
  Carries set .gearDirection ∨ Carries set .grade ∨ Carries set .drivePedal ∨ Carries set .engineTorque

/-- The sources with a signal request latch, each with its kind (R72, R73). -/
def Source.SignalOf (src : Source) (k : SignalKind) : Prop :=
  (src = .pendantRear ∧ k = .pendantRear) ∨ (src = .pendantSide ∧ k = .pendantSide) ∨
    (src = .discharge ∧ k = .dischargeActive)

/-- The record with the latch of a signal source set (R73). -/
def HoldController.latched (h : HoldController) (src : Source) (l : Latch) : HoldController :=
  match src with
  | .pendantRear => { h with latchRear := l }
  | .pendantSide => { h with latchSide := l }
  | .discharge => { h with latchDischarge := l }
  | _ => h

/-- The claim that a signal request asks for (R72). -/
def signalClaim (src : Source) (granted : Word32) : Claim := ⟨src, 0, none, none, none, granted, none⟩

/-- R73, R75 to R78, R80: the request of a signal source whose kind has become true with its latch IDLE. -/
structure Requested (b : Bank) (src : Source) (u v : State) : Prop where
  early : u.hc.state = .off ∨ u.hc.state = .starting → v = raisedIn 1 { u with hc := u.hc.latched src .refused }
  refused : u.hc.state = .inactive ∨ u.hc.state = .armed → ¬ EntryHolds b u.hc →
    v = raisedIn 1 { u with hc := u.hc.latched src .refused }
  granted : u.hc.state = .inactive ∨ u.hc.state = .armed → EntryHolds b u.hc → u.hc.claims = noClaims →
    HoldBegun b [none, some (signalClaim src u.now), none, none, none, none] u.hc.resultPressure true
      { u with hc := u.hc.latched src .asserted } (.next v)
  refreshed : u.hc.state = .holding → u.hc.resultPressure.within u.hc.demand.pressure →
    (u.hc.limitedFloors b).within u.hc.demand.pressure → ∀ slot c, u.hc.claims[slot]? = some (some c) →
    c.source = src → c.tag = 0 →
    (∀ i x, u.hc.claims[i]? = some (some x) → x.source = src → x.tag = 0 → i = slot) →
    v = { u with hc := { u.hc.latched src .asserted with
      claims := u.hc.claims.set slot (some (signalClaim src c.granted)) } }
  placed : u.hc.state = .holding → (∀ c, some c ∈ u.hc.claims → ¬ (c.source = src ∧ c.tag = 0)) →
    ∀ slot, 1 ≤ slot → slot ≤ 5 → u.hc.claims[slot]? = some none →
    (∀ i, 1 ≤ i → i < slot → u.hc.claims[i]? ≠ some none) →
    v = { u with hc := { u.hc.latched src .asserted with
      claims := u.hc.claims.set slot (some (signalClaim src u.now)) } }
  full : u.hc.state = .holding → (∀ c, some c ∈ u.hc.claims → ¬ (c.source = src ∧ c.tag = 0)) →
    (∀ i, 1 ≤ i → i ≤ 5 → u.hc.claims[i]? ≠ some none) →
    v = raisedIn 1 { u with hc := u.hc.latched src .refused }
  returns : u.hc.state = .releasing → ∀ ramp, u.hc.ramp = some ramp → u.hc.claims = noClaims →
    HoldBegun b [none, some (signalClaim src u.now), none, none, none, none]
      ⟨max ramp.start.a u.hc.resultPressure.a, max ramp.start.b u.hc.resultPressure.b⟩ false
      { u with hc := u.hc.latched src .asserted } (.next v)
  late : u.hc.state = .handover ∨ u.hc.state = .parked ∨ u.hc.state = .secured →
    v = { u with hc := u.hc.latched src .asserted }

/-- R73, R85, R86: the release of a signal source whose kind has become false. -/
structure Released (b : Bank) (src : Source) (u v : State) : Prop where
  unheld : u.hc.latch src ≠ .asserted ∨ (∀ c, some c ∈ u.hc.claims → ¬ (c.source = src ∧ c.tag = 0)) →
    v = { u with hc := u.hc.latched src .idle }
  held : u.hc.latch src = .asserted → u.hc.state = .holding → u.hc.claims.length = 6 →
    ∀ slot c, u.hc.claims[slot]? = some (some c) → c.source = src → c.tag = 0 →
    (∀ i x, u.hc.claims[i]? = some (some x) → x.source = src → x.tag = 0 → i = slot) →
    u.hc.resultPressure.within u.hc.demand.pressure → (u.hc.limitedFloors b).within u.hc.demand.pressure →
    let left := u.hc.claims.set slot none
    let w := { u with hc := { u.hc.latched src .idle with claims := left } }
    ((∃ x, some x ∈ left) → HoldTested b w (.next v)) ∧
    ((∀ x, some x ∉ left) → ¬ Absent u.hc → v = raisedIn 12 { w with
      hc := { w.hc with claims := driverAlone u.now, minHold := some b.params.minHold, metMemory := false } }) ∧
    ((∀ x, some x ∉ left) → Absent u.hc →
      Moved .handover none u.hc.demand.pressure w v ∧ HandoverStarted b v.hc)

/-- R73: what a publication set makes of one signal source, its kind standing in the image. -/
structure SourceTaken (b : Bank) (set : HcSet) (src : Source) (u v : State) : Prop where
  silent : ¬ Carries set src.kind → v = u
  still : u.hc.latchSig src ≠ ⟨.valid, some 0⟩ → ¬ (u.hc.latchSig src = ⟨.valid, some 1⟩ ∧ u.hc.latch src = .idle) → v = u
  rises : Carries set src.kind → u.hc.latchSig src = ⟨.valid, some 1⟩ → u.hc.latch src = .idle → Requested b src u v
  falls : Carries set src.kind → u.hc.latchSig src = ⟨.valid, some 0⟩ → Released b src u v

/-- A set's signal sources, in the order that the model takes them in (log 10). -/
def SourcesTaken (b : Bank) (set : HcSet) (u v : State) : Prop :=
  ∃ u1 u2, SourceTaken b set .pendantRear u u1 ∧ SourceTaken b set .pendantSide u1 u2 ∧
    SourceTaken b set .discharge u2 v

/-! ## Watched frames as R5, R6, R11 and R110 read them -/

/-- R5, steps 1 to 3: the decoded value. -/
def decodedValue (x : Extraction) (data : List Byte) : Int :=
  let raw := leNat data / 2 ^ x.start % 2 ^ x.width
  let number : Int := if x.signed = true ∧ 2 ^ (x.width - 1) ≤ raw then (raw : Int) - 2 ^ x.width else raw
  (number * x.multiplier).tdiv x.divisor + x.offset

/-- R5, step 4: the decoded value is in range and, for a discrete kind, a code. -/
def Accepts (k : SignalKind) (x : Extraction) (data : List Byte) : Prop :=
  x.min ≤ decodedValue x data ∧ decodedValue x data ≤ x.max ∧ ∀ codes, k.codes = some codes → decodedValue x data ∈ codes

/-- R5, step 4: the value that has passed; a wheel count is taken modulo 65,536. -/
def acceptedValue (k : SignalKind) (x : Extraction) (data : List Byte) : Int :=
  if k.isWheel then decodedValue x data % 65536 else decodedValue x data

/-- R11, R110: the plausibility test of a wheel count fails; it is applied in VALID and to a channel with a baseline. -/
def Implausible (valid : Bool) (cm : CreepMonitor) (k : SignalKind) (x : Extraction) (data : List Byte) : Prop :=
  valid = true ∧ ∃ n base, k = .wheelPulse n ∧ (cm.channel n).baseline = some base ∧
    200 < (decodedValue x data - base) % 65536

/-- R8, step 4, over the extractions of a frame monitor: what the test finds, the values decoded and the refused
counts. -/
structure ExtractionTested (exts : List Extraction) (valid : Bool) (cm : CreepMonitor) (data : List Byte)
    (test : FrameTest) : Prop where
  good : test.error = none ↔
    ∀ x ∈ exts, ∀ k, x.kind = some k → Accepts k x data ∧ ¬ Implausible valid cm k x data
  range : test.error ≠ none → test.error = some .range
  values : test.error = none →
    test.values = exts.filterMap fun x => x.kind.map fun k => (k, x.debounce, acceptedValue k x data)
  refused : ∀ n count, (n, count) ∈ test.refused ↔ ∃ x ∈ exts, x.kind = some (.wheelPulse n) ∧
    Implausible valid cm (.wheelPulse n) x data ∧ count = (decodedValue x data % 65536).toNat

/-- The kinds each consumer takes, by their codes (R6). -/
def SignalKind.forCalculator (k : SignalKind) : Bool := [0, 1, 2, 3, 4, 5, 19, 20, 28].contains k.code
def SignalKind.forCreepMonitor (k : SignalKind) : Bool := decide (6 ≤ k.code) && decide (k.code ≤ 13)
def SignalKind.forHoldController (k : SignalKind) : Bool :=
  [5, 14, 15, 16, 17, 18, 20, 21, 22, 23, 24, 25, 26, 27].contains k.code

/-- R17, R43, R110: a sample's refused counts and its publication set on their way to the consumers of its kinds; the
Hold Controller is given the conditions of R7 that have changed. -/
structure Published (items : List PubItem) (refused : List (Fin 8 × Nat)) (s t : State) : Prop where
  calculator : t.mail.toCalc = s.mail.toCalc ++
    (if items.filter (fun x => x.kind.forCalculator) = [] then [] else [items.filter fun x => x.kind.forCalculator])
  creep : t.mail.toCreep = s.mail.toCreep ++ refused.map (fun x => .refused x.1 x.2) ++
    (if items.filter (fun x => x.kind.forCreepMonitor) = [] then []
      else [.publication (items.filter fun x => x.kind.forCreepMonitor)])
  silent : items.filter (fun x => x.kind.forHoldController) = [] → t.sm.missing = s.sm.missing →
    t.sm.allOnce = s.sm.allOnce → t.mail.toHc = s.mail.toHc
  hold : items.filter (fun x => x.kind.forHoldController) ≠ [] ∨ t.sm.missing ≠ s.sm.missing ∨
      t.sm.allOnce ≠ s.sm.allOnce →
    ∃ set : HcSet, t.mail.toHc = s.mail.toHc ++ [set] ∧
      set.items = items.filter (fun x => x.kind.forHoldController) ∧
      set.missing = (if t.sm.missing = s.sm.missing then none else some t.sm.missing) ∧
      set.allOnce = (if t.sm.allOnce = s.sm.allOnce then none else some t.sm.allOnce)

/-- The lowest-coded kind with a property. -/
def IsLowest (f : SignalKind → Prop) (k : SignalKind) : Prop := f k ∧ ∀ k', f k' → k.code ≤ k'.code

/-- R15: the report of a frame monitor's loss: its lowest-coded mandatory kind, MAJOR, or where it carries none its
lowest-coded kind, MINOR. -/
structure LossReported (kinds : List SignalKind) (r : FaultReport) : Prop where
  kind : r.kind = .signalLost ∧ r.state = none
  major : ∀ k, IsLowest (fun x => x ∈ kinds ∧ x ∈ SignalKind.mandatory) k → r.severity = .major ∧ r.subject = .signal k
  minor : (∀ k ∈ kinds, k ∉ SignalKind.mandatory) → r.severity = .minor ∧
    ∀ k, IsLowest (fun x => x ∈ kinds) k → r.subject = .signal k

/-- R53: the kind still NO_DATA that the Start Window's report names: the lowest-coded of the eleven mandatory kinds, or
where all of them have come the lowest-coded wheel pulse kind. -/
def StartSubject (sm : SignalMonitor) (k : SignalKind) : Prop :=
  let waits := fun x => (sm.entry x).validity = .noData
  IsLowest (fun x => x ∈ SignalKind.mandatory ∧ waits x) k ∨
    ((∀ x ∈ SignalKind.mandatory, ¬ waits x) ∧ IsLowest (fun x => (∃ n, x = .wheelPulse n) ∧ waits x) k)

/-! ## The choice of the Transmit Scheduler (R156, R162, R164, R166) -/

/-- The order of the classes (R156). -/
def rankOf : TxClass → Nat
  | .hold => 0 | .forward => 1 | .status => 2 | .service => 3

/-- R164: a class is held back. -/
def HeldBack (u : State) (p : Port) (cls : TxClass) : Prop :=
  p = .b ∧ (cls = .status ∨ cls = .service) ∧ (txBank u).params.hpWatermark ≤ u.tx.owed

/-- R156: the waiting entry `e`, between `before` and `after`, is the one to be started. -/
structure Chosen (u : State) (p : Port) (before : List Entry) (e : Entry) (after : List Entry) : Prop where
  waiting : (queueOf u p).waiting = before ++ e :: after
  oldest : ∀ x ∈ before, x.cls ≠ e.cls
  free : ¬ HeldBack u p e.cls
  first : ∀ x ∈ (queueOf u p).waiting, rankOf x.cls < rankOf e.cls → HeldBack u p x.cls

/-- R162, R166: what an entry becomes when its transmission starts. -/
structure Started (u : State) (e e' : Entry) : Prop where
  same : e'.cls = e.cls ∧ e'.dedicated = e.dedicated ∧ e'.stale = e.stale ∧ e'.reset = e.reset
  plain : e.cls = .forward ∨ e.cls = .service → e' = e
  again : e.cls = .hold → e.alive ≠ none → e' = e
  demand : e.cls = .hold → e.alive = none → e'.alive = some u.tx.nextDemand ∧
    e'.frame = ⟨(txBank u).params.demandIdent, false, sealBytes (txBank u).params.txSeed u.tx.nextDemand e.frame.data⟩
  status : e.cls = .status → e'.alive = some (e.alive.getD u.tx.nextStatus) ∧ e'.carried = u.events.set ∧
    e'.frame = ⟨(txBank u).params.statusIdent, false, sealBytes (txBank u).params.txSeed (e.alive.getD u.tx.nextStatus)
      (statusBytes u.hc.state u.hc.cause u.hc.degraded u.sr.serviceMode u.events.set u.fc.record)⟩

/-- The port is ACTIVE, sends nothing, and no load is under way. -/
def Idle (p : Port) (u : State) : Prop :=
  u.loading = false ∧ (u.links.get p).busOff = false ∧ (queueOf u p).sending = none

/-- R156: the choice for a port, `t` being what it makes of `u`. -/
structure Sends (p : Port) (u t : State) : Prop where
  busy : ¬ Idle p u → t = u
  rests : (∀ x ∈ (queueOf u p).waiting, HeldBack u p x.cls) → t = u
  starts : Idle p u → ∀ before e after, Chosen u p before e after →
    ∃ e', Started u e e' ∧ queueOf t p = ⟨before ++ after, some e'⟩ ∧
      t.events.again = if e.cls = .status then 0 else u.events.again
  other : queueOf t p.other = queueOf u p.other
  only : t = { u with
    tx := { u.tx with queues := t.tx.queues }
    events := { u.events with again := t.events.again } }

/-! ## The queues at an activation (R168) -/

/-- The entries of a list that hold dedicated space of a class. -/
def dedicatedIn (cls : TxClass) (entries : List Entry) : Nat :=
  (entries.filter fun e => e.cls == cls && e.dedicated).length

/-- An entry keeps dedicated space at an activation where the entries of its class before it leave room in the new
minimum, so that the newest entries beyond the minimum hold shared space. -/
def keepsSpace (minima : PerClass Nat) (before : List Entry) (e : Entry) : Bool :=
  e.dedicated && decide (dedicatedIn e.cls before < minima.get e.cls)

/-- A queue at an activation, `waiting` being its entries that stay: the entry in transmission, the oldest, is marked as
from before the activation; the others wait in their order, a Status Frame as one that has not started. -/
structure Requeued (minima : PerClass Nat) (q : TxQueue) (waiting : List Entry) (q' : TxQueue) : Prop where
  idle : q.sending = none → q'.sending = none
  sending : ∀ e, q.sending = some e → q'.sending = some { e with dedicated := keepsSpace minima [] e, stale := true }
  length : q'.waiting.length = waiting.length
  waits : ∀ before e after, waiting = before ++ e :: after →
    q'.waiting[before.length]? = some { e with
      dedicated := keepsSpace minima (q.sending.toList ++ before) e
      alive := if e.cls = .status then none else e.alive }

/-! ## The generation of a Hold Demand Frame (R155, R160, R161, R163 to R165, R187) -/

/-- What is waiting on Port B once a generation has brought the owed count to the Panic Watermark or not, and the FORWARD
entries it has discarded. -/
def Remains (panics : Prop) (waiting entries : List Entry) (discarded : Nat) : Prop :=
  (panics → entries = waiting.filter (fun x => x.cls != .forward) ∧
    discarded = (waiting.filter fun x => x.cls == .forward).length) ∧
  (¬ panics → entries = waiting ∧ discarded = 0)

/-- One generation of a Hold Demand Frame, the Demand Period timer started again: the owed count, the watermarks, and the
frame, which takes the place of a waiting one or is judged by the space of the queue. That the FORWARD entries go before
it is offered is the model's choice (log 34). -/
def DemandMade (s t : State) : Prop :=
  let params := (txBank s).params
  let owed := if s.tx.outstanding then min 255 (s.tx.owed + 1) else s.tx.owed
  let d := s.hc.demand
  let q := queueOf s .b
  let covered := [byte (d.mode.code + 8 * bit d.park + 16 * bit s.hc.degraded),
    byte (s.hc.state.code + 16 * Cause.code s.hc.cause), byte d.pressure.a, byte (d.pressure.a / 256),
    byte d.pressure.b, byte (d.pressure.b / 256)]
  let entry := fun space : Bool => (⟨.hold, space, ⟨params.demandIdent, false, covered⟩, none, 0, false, false⟩ : Entry)
  let panics := s.tx.owed < params.panicWatermark ∧ params.panicWatermark ≤ owed
  let late := if params.hpWatermark ≤ owed then 1#16 <<< 11 else 0
  t.tx.owed = owed ∧ t.tx.outstanding = true ∧ t.tx.demandTimer = some params.demandPeriod ∧
  t.tx.nextDemand = s.tx.nextDemand ∧ t.tx.nextStatus = s.tx.nextStatus ∧ t.tx.statusTimer = s.tx.statusTimer ∧
  t.events.set = s.events.set ||| late ∧
  (params.panicWatermark ≤ owed ∧ s.links.b.busOff = false ∧ s.tx.starved = false →
    t.tx.starved = true ∧ t.mail.faults = s.mail.faults ++ [⟨.major, .demandStarved, .none, none⟩]) ∧
  (¬ (params.panicWatermark ≤ owed ∧ s.links.b.busOff = false ∧ s.tx.starved = false) →
    t.tx.starved = s.tx.starved ∧ t.mail.faults = s.mail.faults) ∧
  (panics → ∀ e ∈ (queueOf t .b).waiting, e.cls ≠ .forward) ∧
  (∀ (entries : List Entry) (discarded : Nat), Remains panics q.waiting entries discarded →
    let counts := s.mail.counts ++ List.replicate discarded (.queueDrop .b)
    (∀ before e after, entries = before ++ e :: after → e.cls = .hold → (∀ x ∈ before, x.cls ≠ .hold) →
      queueOf t .b = ⟨before ++ entry e.dedicated :: after, q.sending⟩ ∧
      t.events.again = s.events.again ||| late ∧ t.mail.counts = counts) ∧
    ((∀ x ∈ entries, x.cls ≠ .hold) →
      let left : TxQueue := ⟨entries, q.sending⟩
      let minimum := (txBank s).minima.b.hold
      let full := 32 ≤ left.entries.length ∨
        (minimum ≤ left.dedicatedCount .hold ∧ (txBank s).sharedSpace .b ≤ left.sharedCount)
      let made := fun (queue : TxQueue) (drops : List Counter) => { s with
        tx := { t.tx with queues := s.tx.queues.set .b queue }
        events := ⟨t.events.set, s.events.again ||| late⟩
        mail := { s.mail with counts := counts ++ drops, faults := t.mail.faults } }
      (full → t = made left [.queueDrop .b]) ∧
      (¬ full → Sends .b
        (made ⟨entries ++ [entry (decide (left.dedicatedCount .hold < minimum))], q.sending⟩ []) t))) ∧
  (s.loading = false → s.links.b.busOff = false → q.sending = none → q.hasWaiting .hold = false →
    q.entries.length < 32 → q.dedicatedCount .hold < (txBank s).minima.b.hold →
    let sealed := covered ++ [byte s.tx.nextDemand]
    ∃ e, (queueOf t .b).sending = some e ∧ e.cls = .hold ∧ e.dedicated = true ∧ e.alive = some s.tx.nextDemand ∧
      e.frame = ⟨params.demandIdent, false, sealed ++ [byte (255 - (params.txSeed + byteSum sealed) % 256)]⟩) ∧
  queueOf t .c = queueOf s .c ∧
  t = { s with
    tx := t.tx
    events := t.events
    mail := { s.mail with counts := t.mail.counts, faults := t.mail.faults } }

/-! ## The checks of R182 -/

/-- An index is the first with a property. -/
def IsFirst (bad : Nat → Prop) (i : Nat) : Prop := bad i ∧ ∀ j < i, ¬ bad j

/-- Two bit ranges, each by start and length, share a bit. -/
def Overlap (s1 n1 s2 n2 : Nat) : Prop := ∃ bit, s1 ≤ bit ∧ bit < s1 + n1 ∧ s2 ≤ bit ∧ bit < s2 + n2

/-- The entries that fail each check. -/
def V1Bad (b : Bank) (i : Nat) : Prop :=
  ∃ x y j, b.forwarding[i]? = some x ∧ j < i ∧ b.forwarding[j]? = some y ∧ x.inUse = true ∧ y.inUse = true ∧
    x.ident = y.ident ∧ (x.port = y.port ∨ x.port = .either ∨ y.port = .either)
def V2Bad (b : Bank) (i : Nat) : Prop :=
  ∃ x, b.forwarding[i]? = some x ∧ x.inUse = true ∧ (x.action = .watch ∨ x.action = .passWatch) ∧
    (b.monitor x.monitor).inUse = false
def V3Unnamed (b : Bank) (i : Nat) : Prop :=
  ∃ e, b.monitors[i]? = some e ∧ e.inUse = true ∧ ∀ x ∈ b.extractions, x.kind ≠ none → x.monitor ≠ i
def V3Dangling (b : Bank) (i : Nat) : Prop :=
  ∃ x, b.extractions[i]? = some x ∧ x.kind ≠ none ∧ (b.monitor x.monitor).inUse = false
def V4Bad (b : Bank) (i : Nat) : Prop :=
  ∃ x y j, b.extractions[i]? = some x ∧ j < i ∧ b.extractions[j]? = some y ∧ x.kind ≠ none ∧ y.kind = x.kind
def V6BadExtraction (b : Bank) (i : Nat) : Prop :=
  ∃ x, b.extractions[i]? = some x ∧ x.kind ≠ none ∧ (64 < x.start + x.width ∨
    ((b.monitor x.monitor).counterMod ≠ 0 ∧ Overlap x.start x.width (b.monitor x.monitor).counterStart
      (b.monitor x.monitor).counterWidth) ∨
    ((b.monitor x.monitor).checkPos ≠ 0 ∧ Overlap x.start x.width (8 * (b.monitor x.monitor).checkPos) 8))
def V6BadCounter (b : Bank) (i : Nat) : Prop :=
  ∃ e, b.monitors[i]? = some e ∧ e.counterMod ≠ 0 ∧ (64 < e.counterStart + e.counterWidth ∨
    (e.checkPos ≠ 0 ∧ Overlap e.counterStart e.counterWidth (8 * e.checkPos) 8))
def V7Bad (b : Bank) (i : Nat) : Prop := ∃ e, b.monitors[i]? = some e ∧ e.inUse = true ∧ ¬ e.m < e.n

/-- A kind stands in an extraction (V5). -/
def Stands (b : Bank) (k : SignalKind) : Prop := ∃ x ∈ b.extractions, x.kind = some k

/-- Each bound is above the one before it (V9). -/
def Increasing (l : List Nat) : Prop := ∀ i x y, l[i]? = some x → l[i + 1]? = some y → x < y

/-- R182: a bank passes the check of a number. -/
def Passes (b : Bank) : Nat → Prop
  | 1 => ∀ i, ¬ V1Bad b i
  | 2 => ∀ i, ¬ V2Bad b i
  | 3 => ∀ i, ¬ V3Unnamed b i ∧ ¬ V3Dangling b i
  | 4 => ∀ i, ¬ V4Bad b i
  | 5 => (∀ k ∈ SignalKind.mandatory, Stands b k) ∧
      ∃ m n : Fin 8, m ≠ n ∧ Stands b (.wheelPulse m) ∧ Stands b (.wheelPulse n)
  | 6 => ∀ i, ¬ V6BadExtraction b i ∧ ¬ V6BadCounter b i
  | 7 => ∀ i, ¬ V7Bad b i
  | 8 => (∀ p, (b.minima.get p).hold + (b.minima.get p).forward + (b.minima.get p).status +
      (b.minima.get p).service ≤ 32) ∧ b.params.hpWatermark < b.params.panicWatermark
  | 9 => Increasing b.gradeBounds ∧ Increasing b.massBounds
  | 10 => b.params.demandIdent ≠ b.params.statusIdent ∧
      (∀ n, 0x6F0 ≤ n → n ≤ 0x6FF → b.params.demandIdent ≠ .std n ∧ b.params.statusIdent ≠ .std n) ∧
      ∀ e ∈ b.forwarding, e.inUse = true → e.ident ≠ b.params.demandIdent ∧ e.ident ≠ b.params.statusIdent
  | _ => True

/-- R182: the entry that a failed check reports, by index and table. -/
def Reports (b : Bank) : Nat → Option (Nat × Nat) → Prop
  | 1, e => ∃ i, e = some (i, 2) ∧ IsFirst (V1Bad b) i
  | 2, e => ∃ i, e = some (i, 2) ∧ IsFirst (V2Bad b) i
  | 3, e => (∃ i, e = some (i, 0) ∧ IsFirst (V3Unnamed b) i) ∨
      ((∀ i, ¬ V3Unnamed b i) ∧ ∃ i, e = some (i, 1) ∧ IsFirst (V3Dangling b) i)
  | 4, e => ∃ i, e = some (i, 1) ∧ IsFirst (V4Bad b) i
  | 6, e => (∃ i, e = some (i, 1) ∧ IsFirst (V6BadExtraction b) i) ∨
      ((∀ i, ¬ V6BadExtraction b i) ∧ ∃ i, e = some (i, 0) ∧ IsFirst (V6BadCounter b) i)
  | 7, e => ∃ i, e = some (i, 0) ∧ IsFirst (V7Bad b) i
  | _, e => e = none

/-! ## The fields of R189 -/

/-- A field as R189 and its chapter give it: its number, the 32-bit values its owner may be given, and what the owner
holds once it has been given one. -/
structure FieldRow (α : Type) where
  number : Nat
  fits : α → Word32 → Prop
  holds : α → Word32 → Prop

/-- An unsigned field, a two-valued field and a signed field. -/
def FieldRow.nat {α : Type} (number lo hi : Nat) (get : α → Nat) : FieldRow α :=
  ⟨number, fun _ v => lo ≤ v.toNat ∧ v.toNat ≤ hi, fun x v => get x = v.toNat⟩
def FieldRow.flag {α : Type} (number : Nat) (get : α → Bool) : FieldRow α :=
  ⟨number, fun _ v => v = 0 ∨ v = 1, fun x v => get x = true ↔ v = 1⟩
def FieldRow.int {α : Type} (number : Nat) (lo hi : Int) (get : α → Int) : FieldRow α :=
  ⟨number, fun _ v => lo ≤ v.toInt ∧ v.toInt ≤ hi, fun x v => get x = v.toInt⟩

/-- An identifier format, whose change must leave the identifier in range, and an identifier in the range of its
format. -/
def FieldRow.format {α : Type} (number : Nat) (get : α → Ident) : FieldRow α :=
  ⟨number, fun x v => (v = 0 ∧ (get x).value ≤ 0x7FF) ∨ (v = 1 ∧ (get x).value ≤ 0x1FFFFFFF),
    fun x v => (get x).ext = true ↔ v = 1⟩
def FieldRow.ident {α : Type} (number : Nat) (get : α → Ident) : FieldRow α :=
  ⟨number, fun x v => v.toNat ≤ if (get x).ext then 0x1FFFFFFF else 0x7FF, fun x v => (get x).value = v.toNat⟩

/-- The fields of the tables that have several (R2, R4, R144, R149, R25, R41, R89, R107, R124, R153, R189). -/
def monitorRows : List (FieldRow MonitorEntry) :=
  [.flag 0 (·.inUse), .format 1 (·.ident), .ident 2 (·.ident), .nat 3 10 1000 (·.period),
    .nat 4 0 63 (·.counterStart), ⟨5, fun _ v => v.toNat ∈ [0, 4, 8, 15, 16], fun e v => e.counterMod = v.toNat⟩,
    .nat 6 0 7 (·.checkPos), .nat 7 0 255 (·.checkSeed), .nat 8 1 4 (·.k),
    ⟨9, fun _ v => v.toNat ∈ [4, 5, 6, 8], fun e v => e.n = v.toNat⟩, .nat 10 2 7 (·.m)]

def extractionRows : List (FieldRow Extraction) :=
  [⟨0, fun _ v => v.toNat ≤ 28 ∨ v.toNat = 255, fun x v => match x.kind with
      | some k => k.code = v.toNat
      | none => v.toNat = 255⟩,
    .nat 1 0 23 (·.monitor), .nat 2 0 63 (·.start), .nat 3 1 16 (·.width), .flag 4 (·.signed),
    .nat 5 1 1000 (·.multiplier), .nat 6 1 1000 (·.divisor), .int 7 (-32768) 32767 (·.offset),
    .int 8 (-2147483648) 2147483647 (·.min), .int 9 (-2147483648) 2147483647 (·.max), .flag 10 (·.debounce),
    ⟨11, fun _ v => v.toNat ≤ 4, fun x v => [Axle.f1, .f2, .t1, .t2, .p][v.toNat]? = some x.axle⟩,
    .nat 12 10 500 (·.distance)]

def forwardRows : List (FieldRow ForwardEntry) :=
  [.flag 0 (·.inUse), .format 1 (·.ident), .ident 2 (·.ident),
    ⟨3, fun _ v => v.toNat ≤ 2, fun e v => [ArrivalPort.c, .b, .either][v.toNat]? = some e.port⟩,
    ⟨4, fun _ v => v.toNat ≤ 3, fun e v => [Action.pass, .passWatch, .watch, .block][v.toNat]? = some e.action⟩,
    .nat 5 0 7 (·.rateClass), .nat 6 0 23 (·.monitor)]

def paramRows : List (FieldRow Params) :=
  [.flag 0 (·.holdEnable), .nat 1 0 200 (·.gradeThreshold), .nat 2 100 1000 (·.stopConfirm),
    .nat 3 0 10000 (·.minHold), .nat 4 30 900 (·.maxServiceHold), .nat 5 0 10000 (·.reentryGuard),
    .nat 6 100 200 (·.safetyFactor), .nat 7 0 50 (·.drumMargin), .nat 8 0 500 (·.drumThreshold),
    .nat 9 0 50000 (·.forceFloor), .nat 10 0 300 (·.pressureFloor), .nat 11 300 1000 (·.maxPressureA),
    .nat 12 300 1000 (·.maxPressureB), .nat 13 1 50 (·.uphillPedal), .nat 14 1 50 (·.downhillPedal),
    .nat 15 100 3000 (·.uphillRamp), .nat 16 100 3000 (·.downhillRamp), .nat 17 5 200 (·.rollbackSpeed),
    .nat 18 0 50 (·.reapplyBoost), .nat 19 1 5 (·.reapplyLimit), .nat 20 20 500 (·.creepLimit),
    .nat 21 500 10000 (·.handoverConfirm), .nat 22 100 5000 (·.overlapTime), .flag 23 (·.blockDefaultC),
    .flag 24 (·.blockDefaultB), .ident 25 (·.demandIdent), .format 26 (·.demandIdent), .ident 27 (·.statusIdent),
    .format 28 (·.statusIdent), .nat 29 0 255 (·.txSeed), .nat 30 10 50 (·.demandPeriod),
    .nat 31 50 1000 (·.statusPeriod), .nat 32 1 4 (·.hpWatermark), .nat 33 2 8 (·.panicWatermark)]

def minimaRows : List (FieldRow (PerClass Nat)) :=
  [.nat 0 0 32 (·.hold), .nat 1 0 32 (·.forward), .nat 2 0 32 (·.status), .nat 3 0 32 (·.service)]

def boundRows (bands top : Nat) : List (FieldRow (List Nat)) :=
  (List.range bands).map fun n => ⟨n, fun _ v => 1 ≤ v.toNat ∧ v.toNat ≤ top, fun l v => l[n]? = some v.toNat⟩

/-- R181, R189: the fields of one entry of a table: a value that fits is written and the owner holds it, another is
refused BAD_VALUE, and a number that no row has BAD_FIELD. -/
structure RowsHold {α : Type} (rows : List (FieldRow α)) (table index : Nat) (owner : Bank → Option α) (b : Bank) :
    Prop where
  written : ∀ row ∈ rows, ∀ x v, owner b = some x → row.fits x v →
    ∃ b' y, writeBank b table index row.number v = .ok b' ∧ owner b' = some y ∧ row.holds y v
  refused : ∀ row ∈ rows, ∀ x v, owner b = some x → ¬ row.fits x v →
    writeBank b table index row.number v = .error .badValue
  absent : ∀ n v, (∀ row ∈ rows, row.number ≠ n) → writeBank b table index n v = .error .badField

end Sys2Proof.Machine
end

