-- ==== Sys2Proof/Certificates/Slice0/Obligations.lean ====
section
/-! DEFINITION. The statements about the part, for the provers. Each names the rules of spec/ it comes from. -/

open Sys2Proof Sys2Proof.Machine

/-! ## The queue of commands, resets, the load and activation -/

/-- The model's step (log 1): the front command runs on the state with the queue's rest; on an empty queue one
millisecond passes, which moves the time count and every running timer, a timer at 0 waiting there, and leaves all that
the blocks hold besides. An expiry takes
place where its timer has run its full duration, and nowhere else: a timer that does not run, or that has been started
again, does not expire (R1; log 2). -/
def Obligations.StepRunsTheFrontCommand : Prop :=
  ∀ s : State,
    (∀ c rest, s.pending = c :: rest → step s = exec c (s.setPending rest)) ∧
    (s.pending = [] → ∃ t, step s = .next t ∧
      expiries t = (expiries s).map (fun x => (x.1, x.2.map (· - 1))) ∧
      t.hc.claims = s.hc.claims.map (fun c => c.map fun x => { x with timer := x.timer.map (· - 1) }) ∧
      t.sm.monitors = s.sm.monitors.map (fun m => { m with timer := m.timer.map (· - 1) }) ∧
      t = { s with
        now := s.now + 1
        sm := { s.sm with monitors := t.sm.monitors }
        hc := { s.hc with
          claims := t.hc.claims, startWindow := t.hc.startWindow, armedConfirm := t.hc.armedConfirm
          minHold := t.hc.minHold, maxHold := t.hc.maxHold, guard := t.hc.guard, rampStep := t.hc.rampStep
          handoverConfirm := t.hc.handoverConfirm, overlapTimer := t.hc.overlapTimer, quiet := t.hc.quiet }
        cm := { s.cm with stationaryTimer := t.cm.stationaryTimer, evalTimer := t.cm.evalTimer }
        fe := { s.fe with refill := t.fe.refill }
        links := ⟨{ s.links.c with recovery := t.links.c.recovery }, { s.links.b with recovery := t.links.b.recovery }⟩
        tx := { s.tx with demandTimer := t.tx.demandTimer, statusTimer := t.tx.statusTimer }
        sr := { s.sr with idle := t.sr.idle } }) ∧
    (∀ x ∈ expiries s, x.2 ≠ some 0 → exec x.1 s = .next s) ∧
    (∀ tag : Fin 4, (∀ c, some c ∈ s.hc.claims → c.source = .service → c.tag = tag.val → c.timer ≠ some 0) →
      exec (.claimExpiry tag) s = .next s)

/-- The invariants hold in State.reset, the part right after a power-on reset with the empty store that the model chose
for it (log 6), on which the clauses of PressuresKept about the store rest. -/
def Obligations.ResetKeepsTheInvariants : Prop :=
  ClaimTableKept State.reset ∧ DemandRecordKept State.reset ∧ PressuresKept State.reset ∧ QueuesKept State.reset ∧
    DedicatedKept State.reset ∧ CountersKept State.reset ∧ ServiceModeKept State.reset

/-- POWER_ON_RESET (R42, R71, R139, R151, R168, R173, R174, R176, R184, R185): every block at its reset values, the node
number read from the pins, the load begun, and no delivery under way; the current area of the store and the waiting
commands stay. That each block holds its values of a part without an active bank while the tables load (no calculator,
every kind UNMAPPED) is deduced (log 20); of the Creep Monitor's the told state OFF, the decision MOVING, the accumulator
0 and disarmed and the crossing count 0 are the model's choice (log 31), as is that NODE0 is the least significant bit of
the node number (log 36). -/
def Obligations.PowerOnResetEmptiesEveryBlock : Prop :=
  ∀ (pins : BitVec 3) (s : State), ∃ t, exec (.powerOnReset pins) s = .next t ∧
    t.now = 0 ∧ t.loading = true ∧ t.active = none ∧ t.hpc = none ∧
    t.hc.state = .off ∧ t.hc.cause = none ∧ t.hc.demand = ⟨.none, ⟨0, 0⟩, false⟩ ∧
    t.hc.claims = [none, none, none, none, none, none] ∧ t.hc.reapply = 0 ∧ t.hc.ramp = none ∧
    t.hc.metMemory = false ∧ t.hc.guard = none ∧ TimersStopped t.hc ∧ t.hc.quiet = none ∧ t.hc.parkExit = false ∧
    t.hc.latchRear = .idle ∧ t.hc.latchSide = .idle ∧ t.hc.latchDischarge = .idle ∧ t.hc.result = none ∧
    t.hc.image = HcImage.start (fun _ => false) ∧ t.hc.missing = false ∧ t.hc.allOnce = false ∧
    t.hc.stationary = false ∧ t.hc.blind = false ∧ t.hc.degraded = false ∧
    (∀ k, t.sm.entry k = ⟨.unmapped, none, none⟩) ∧
    (∀ i < 24, t.sm.monitors[i]? = some ⟨.acquiring, 0, [], none, none, false⟩) ∧
    t.cm = ⟨[], false, false, none, none, .off, 0, false, false⟩ ∧ t.mail = ⟨[], [], [], [], [], [], [], [], [], [], []⟩ ∧
    t.links = ⟨⟨false, 0, none⟩, ⟨false, 0, none⟩⟩ ∧ t.fe = ⟨[], none⟩ ∧
    t.tx = ⟨⟨⟨[], none⟩, ⟨[], none⟩⟩, 0, false, false, 0, 0, none, none⟩ ∧ t.events = ⟨0, 0⟩ ∧
    t.fc.record = none ∧ t.fc.ports = ⟨⟨0, 0, 0, 0, 0, 0, 0⟩, ⟨0, 0, 0, 0, 0, 0, 0⟩⟩ ∧
    (∀ i < 24, t.fc.monitors[i]? = some ⟨0, 0, 0⟩) ∧
    t.sr = ⟨false, none, none, .clear, none, pins⟩ ∧
    t.store.current = s.store.current ∧ (s.sr.storeWrite = none → t.store = s.store) ∧ t.pending = s.pending

/-- STORE_LOAD_END where the load passes (R2, R3, R21, R39, R43, R66, R123, R151, R166, R185): the bank is active and
every block starts under it: every frame monitor in use with the minimum data length of R3, the calculator with the
marks clear and its start computation's result in the Hold Controller's hand, the Creep Monitor with the eight channel
records; the hold state is STARTING, and TABLES_ACTIVATED is not raised. That the change from OFF to STARTING raises
STATE_CHANGE is deduced from R49 (log 14); that the load mark stays clear where the start computation finds a mass of 0
is the model's choice (log 30). -/
def Obligations.LoadThatPassesStartsEveryBlock : Prop :=
  ∀ (s : State) (b : Bank), s.loading = true → s.store.current = .holds b true → checkBank b = none →
    ∃ t a, exec .storeLoadEnd s = .next t ∧ t.loading = false ∧ t.active = some a ∧ a.bank = b ∧
      (∀ i < 24, (b.monitor i).inUse = true → a.minLength i = b.minLength i ∧ IsMinLength b i (a.minLength i)) ∧
      (∀ i < 24, t.sm.monitors[i]? = some ⟨.acquiring, 0, [], none, none, false⟩) ∧
      (∀ k, t.sm.entry k = ⟨if b.mapped k then .noData else .unmapped, none, none⟩) ∧
      CalcStarted b t ∧ HoldStarted b t.hc ∧ CreepStarted b t.cm ∧
      t.fe.buckets = [1, 2, 3, 4, 5, 6, 7].map (fun c => (b.rate c).depth) ∧ t.fe.refill = some 100 ∧
      t.tx = { s.tx with statusTimer := some b.params.statusPeriod } ∧
      t.events.set = s.events.set ||| 1#16 ∧ t.mail.faults = s.mail.faults ∧
      t.links = s.links ∧ t.fc = s.fc ∧ t.sr = s.sr ∧ t.store = s.store ∧ t.now = s.now ∧ t.pending = s.pending

/-- STORE_LOAD_END where the load fails (R66, R168, R173, R185): no bank becomes active, the status timer runs with the
default period, a MAJOR TABLES_INVALID fault is reported, and nothing else changes. -/
def Obligations.LoadThatFailsReportsTablesInvalid : Prop :=
  ∀ s : State, s.loading = true → (∀ b, s.store.current = .holds b true → checkBank b ≠ none) →
    exec .storeLoadEnd s = .next { s with
      loading := false
      tx := { s.tx with statusTimer := some 100 }
      mail := { s.mail with faults := s.mail.faults ++ [⟨.major, .tablesInvalid, .none, none⟩] } }

/-- ACTIVATE of a staging bank that passes V1 to V10 (R2, R3, R22, R39, R43, R67, R73, R123, R152, R168, R174, R182,
R183): the bank is active with the minimum data lengths of R3, service mode has ended, every block starts under it, the
store write begins, and no response is offered yet (R184). Of the queues, the waiting HOLD entry of Port B is discarded and
counted; every other entry stays, the newest beyond a class's new minimum in shared space, the one in transmission marked
as from before the activation, a waiting Status Frame to start anew; and the end of a hold-back lets Port B choose (R156,
R164). That the offers, the fault reports and the port counts under way stay, and every other delivery ends, is deduced
(log 16), as is that the request latches are IDLE (log 32); that the load mark stays clear where the start computation finds
a mass of 0 is the model's choice (log 30). -/
def Obligations.ActivateStartsTheNewBank : Prop :=
  ∀ (p : Port) (s : State) (f : Frame) (tail : List Byte) (rest : List Request) (b : Bank),
    Asks p f rest s → Ready s → f.remote = false → f.data = 5 :: tail →
    s.sr.serviceMode = true → s.sr.staging = some b → checkBank b = none →
    let waits := (queueOf s .b).waiting
    ∃ t a, exec (.activate p) s = .next t ∧ t.active = some a ∧ a.bank = b ∧
      (∀ i < 24, (b.monitor i).inUse = true → IsMinLength b i (a.minLength i)) ∧
      t.sr = { s.sr with serviceMode := false, staging := none, idle := none, storeWrite := some p } ∧
      (∀ i < 24, t.sm.monitors[i]? = some ⟨.acquiring, 0, [], none, none, false⟩) ∧
      (∀ k, t.sm.entry k = ⟨if b.mapped k then .noData else .unmapped, none, none⟩) ∧
      CalcStarted b t ∧ HoldStarted b t.hc ∧ CreepStarted b t.cm ∧
      t.fe.buckets = [1, 2, 3, 4, 5, 6, 7].map (fun c => (b.rate c).depth) ∧ t.fe.refill = some 100 ∧
      t.tx.owed = 0 ∧ t.tx.outstanding = false ∧ t.tx.starved = false ∧ t.tx.nextDemand = 0 ∧ t.tx.nextStatus = 0 ∧
      t.tx.demandTimer = none ∧ t.tx.statusTimer = some b.params.statusPeriod ∧
      (queueOf t .b).hasWaiting .hold = false ∧
      (∃ qc qb, Requeued b.minima.c (queueOf s .c) (queueOf s .c).waiting qc ∧
        Requeued b.minima.b (queueOf s .b) (waits.filter fun e => e.cls != .hold) qb ∧
        Sends .b { t with
          tx := { t.tx with queues := ⟨qc, qb⟩ }
          events := { t.events with again := s.events.again ||| 1#16 <<< 14 ||| 1#16 } } t) ∧
      t.events.set = s.events.set ||| 1#16 <<< 14 ||| 1#16 ∧
      t.fc.record = s.fc.record ∧ t.fc.ports = s.fc.ports ∧ (∀ i < 24, t.fc.monitors[i]? = some ⟨0, 0, 0⟩) ∧
      t.mail = { watch := [], toCalc := [], toHc := [], toCreep := [], results := [], creepReports := []
                 stateReports := [⟨.starting, false⟩], offers := s.mail.offers, requests := rest
                 faults := s.mail.faults
                 counts := s.mail.counts.filter (fun c => match c with
                     | .good _ | .errors _ | .losses _ => false
                     | _ => true) ++
                   List.replicate (waits.filter fun e => e.cls == .hold).length (.queueDrop .b) } ∧
      t = { s with
        active := t.active, sm := t.sm, hpc := t.hpc, hc := t.hc, cm := t.cm, fe := t.fe, tx := t.tx
        events := t.events, fc := t.fc, sr := t.sr, mail := t.mail }

/-- ACTIVATE that activates nothing (R177, R182, R188): out of service mode REFUSED_STATE; in it CHECK_FAILED with the
number of the first failing check and the entry it reports. Nothing else changes. The checks are V1 to V10 in numerical
order: a bank passes them all or none is reported, and the check and the entry reported are those of R182, in a bank
whose extractions are at least a bit wide (R4); V6 reads the counter fields of monitors not in use too (log 27). -/
def Obligations.ActivateReportsTheFirstFailedCheck : Prop :=
  (∀ b : Bank, (∀ x ∈ b.extractions, 1 ≤ x.width) →
    (checkBank b = none ↔ ∀ n, Passes b n) ∧
    (∀ f, checkBank b = some f → ¬ Passes b f.check ∧ (∀ n < f.check, Passes b n) ∧ Reports b f.check f.entry)) ∧
  ∀ (p : Port) (s : State) (f : Frame) (tail : List Byte) (rest : List Request),
    Asks p f rest s → Ready s → f.remote = false → f.data = 5 :: tail →
    (s.sr.serviceMode = false →
      exec (.activate p) s = .next (answered p 5 .refusedState [0, 0, 0, 0, 0, 0] (taken rest s))) ∧
    (∀ b n, s.sr.serviceMode = true → s.sr.staging = some b → checkBank b = some ⟨n, none⟩ →
      exec (.activate p) s = .next (answered p 5 .checkFailed [byte n, 0xFF, 0xFF, 0, 0, 0] (taken rest s))) ∧
    (∀ b n i table, s.sr.serviceMode = true → s.sr.staging = some b → checkBank b = some ⟨n, some (i, table)⟩ →
      exec (.activate p) s = .next (answered p 5 .checkFailed [byte n, byte i, byte table, 0, 0, 0] (taken rest s)))

/-- STORE_WRITE_COMPLETE (R184): on success the store holds the new bank, on failure its previous contents; the
response to the ACTIVATE goes to its port, and a failure reports a MINOR STORE_FAILED. -/
def Obligations.StoreWriteCompletes : Prop :=
  ∀ (ok : Bool) (p : Port) (s : State) (a : ActiveBank), s.sr.storeWrite = some p → s.active = some a →
    ∃ t, exec (.storeWriteComplete ok) s = .next t ∧
      t.store.current = (if ok then .holds a.bank true else s.store.current) ∧
      t = answered p 5 (if ok then .ok else .storeFailed) [0, 0, 0, 0, 0, 0] { s with
        store := t.store
        sr := { s.sr with storeWrite := none }
        mail := { s.mail with
          faults := s.mail.faults ++ (if ok then [] else [⟨.minor, .storeFailed, .none, none⟩]) } }

/-- RESET_PART (R186): accepted in PARKED, OFF or service mode with an OK response whose leaving the queue makes the
reset due; otherwise answered REFUSED_STATE. -/
def Obligations.ResetPartIsAnswered : Prop :=
  ∀ (p : Port) (s : State) (f : Frame) (tail : List Byte) (rest : List Request),
    Asks p f rest s → Ready s → f.remote = false → f.data = 13 :: tail →
    ((s.hc.state = .parked ∨ s.hc.state = .off ∨ s.sr.serviceMode = true) →
      exec (.resetPart p) s = .next { s with
        sr := { s.sr with resetPending := .set, idle := none }
        mail := { s.mail with
          requests := rest
          offers := s.mail.offers ++ [⟨p, .service,
            ⟨.std (0x6F8 + s.sr.node.toNat), false, [13, 0, 0, 0, 0, 0, 0, 0]⟩, true⟩] } }) ∧
    (s.hc.state ≠ .parked → s.hc.state ≠ .off → s.sr.serviceMode = false →
      exec (.resetPart p) s = .next (answered p 13 .refusedState [0, 0, 0, 0, 0, 0] (taken rest s)))

/-- PENDING_RESET_TAKEN (R185, R186): with the reset due, the part as a power-on reset on the same pins leaves it
(PowerOnResetEmptiesEveryBlock), with the Fault Record and the 86 counters kept; that the fault reports and counts on their
way to them are kept as well is deduced (log 17), and that NODE0 is the least significant bit of the node number is the
model's choice (log 36). With no reset due the command has no effect (log 4). -/
def Obligations.PendingResetKeepsRecordAndCounters : Prop :=
  ∀ (pins : BitVec 3) (s : State),
    (s.sr.resetPending = .due →
      ∃ t u, exec (.pendingResetTaken pins) s = .next t ∧ exec (.powerOnReset pins) s = .next u ∧
        t = { u with
          fc := s.fc
          mail := { u.mail with faults := s.mail.faults, counts := s.mail.counts } } ∧
        t.fc = s.fc ∧ t.now = 0 ∧ t.loading = true ∧ t.active = none ∧ t.hc.state = .off ∧
        t.hc.demand = ⟨.none, ⟨0, 0⟩, false⟩ ∧ t.hc.claims = [none, none, none, none, none, none] ∧
        t.links = ⟨⟨false, 0, none⟩, ⟨false, 0, none⟩⟩ ∧
        t.tx = ⟨⟨⟨[], none⟩, ⟨[], none⟩⟩, 0, false, false, 0, 0, none, none⟩ ∧ t.events.set = 0 ∧
        t.mail = ⟨[], [], [], [], [], [], [], [], [], s.mail.faults, s.mail.counts⟩ ∧
        t.sr = ⟨false, none, none, .clear, none, pins⟩ ∧ t.store.current = s.store.current ∧ t.pending = s.pending) ∧
    (s.sr.resetPending ≠ .due → exec (.pendingResetTaken pins) s = .next s)

/-! ## Forwarding (chapter 8) -/

/-- ARRIVAL that is not looked up (R140, R145, R151): with this node's service request identifier it is handed to the
Service Responder; with one of the part's transmit identifiers it is dropped, counted and reported; a port in BUS_OFF,
or during the load, takes none. -/
def Obligations.ArrivalDroppedOrSteered : Prop :=
  ∀ (p : Port) (f : Frame) (s : State), f.wf = true →
    ((s.loading = true ∨ (s.links.get p).busOff = true) → exec (.arrival p f) s = .next s) ∧
    (s.loading = false → (s.links.get p).busOff = false →
      ((∃ a, s.active = some a ∧ (f.ident = a.bank.params.demandIdent ∨ f.ident = a.bank.params.statusIdent)) ∨
        (s.active = none ∧ f.ident = .std 0x3E0) ∨ f.ident = .std (0x6F8 + s.sr.node.toNat)) →
      ∃ t, exec (.arrival p f) s = .next t ∧ t.events.set = s.events.set ||| 1#16 <<< 10 ∧
        t = { s with
          events := t.events
          mail := { s.mail with
            counts := s.mail.counts ++ [.rx p, .idConflict p]
            faults := s.mail.faults ++ [⟨.minor, .idConflict, .port p, none⟩] } }) ∧
    (s.loading = false → (s.links.get p).busOff = false →
      (∀ a, s.active = some a → f.ident ≠ a.bank.params.demandIdent ∧ f.ident ≠ a.bank.params.statusIdent) →
      f.ident = .std (0x6F0 + s.sr.node.toNat) →
      exec (.arrival p f) s = .next { s with mail := { s.mail with
        counts := s.mail.counts ++ [.rx p]
        requests := s.mail.requests ++ [⟨p, f⟩] } })

/-- ARRIVAL matched by a Forwarding Table entry (R144, R146, R147, R148): the watch copy goes to the entry's frame
monitor whatever becomes of the forwarding copy, which is discarded for BUS_OFF, policed by its class's bucket, or
offered unchanged to the other port. -/
def Obligations.ArrivalMatchedByAnEntry : Prop :=
  ∀ (p : Port) (f : Frame) (s : State) (a : ActiveBank) (e : ForwardEntry),
    f.wf = true → s.loading = false → (s.links.get p).busOff = false → s.active = some a → f.remote = false →
    f.ident ≠ a.bank.params.demandIdent → f.ident ≠ a.bank.params.statusIdent →
    f.ident ≠ .std (0x6F8 + s.sr.node.toNat) → f.ident ≠ .std (0x6F0 + s.sr.node.toNat) →
    a.bank.forwarding.find? (fun x => x.inUse && x.ident == f.ident && x.port.matches p) = some e →
    let watched := if e.action = .passWatch ∨ e.action = .watch then s.mail.watch ++ [⟨e.monitor, f⟩] else s.mail.watch
    let out := fun (counts : List Counter) (offers : List Offer) =>
      { s.mail with watch := watched, counts := s.mail.counts ++ .rx p :: counts, offers := s.mail.offers ++ offers }
    (e.action = .watch → exec (.arrival p f) s = .next { s with mail := out [] [] }) ∧
    (e.action = .block → exec (.arrival p f) s = .next { s with mail := out [.blocked p] [] }) ∧
    (e.action = .pass ∨ e.action = .passWatch →
      ((s.links.get p.other).busOff = true →
        exec (.arrival p f) s = .next { s with mail := out [.queueDrop p.other] [] }) ∧
      ((s.links.get p.other).busOff = false → e.rateClass = 0 →
        exec (.arrival p f) s = .next { s with mail := out [] [⟨p.other, .forward, f, false⟩] }) ∧
      (∀ tokens, (s.links.get p.other).busOff = false → e.rateClass ≠ 0 → s.fe.buckets[e.rateClass - 1]? = some tokens →
        (tokens = 0 → exec (.arrival p f) s = .next { s with mail := out [.policed p] [] }) ∧
        (0 < tokens → exec (.arrival p f) s = .next { s with
          fe := { s.fe with buckets := s.fe.buckets.set (e.rateClass - 1) (tokens - 1) }
          mail := out [] [⟨p.other, .forward, f, false⟩] })))

/-- ARRIVAL that no entry matches (R144, R146, R148, R151): a remote frame is blocked; otherwise the default action of
the arrival port decides, and in pass-through every frame is forwarded unpoliced and unwatched. -/
def Obligations.ArrivalMatchedByNoEntry : Prop :=
  ∀ (p : Port) (f : Frame) (s : State),
    f.wf = true → s.loading = false → (s.links.get p).busOff = false →
    (∀ a, s.active = some a → f.ident ≠ a.bank.params.demandIdent ∧ f.ident ≠ a.bank.params.statusIdent ∧
      (f.remote = true ∨ ∀ x ∈ a.bank.forwarding, x.inUse = true → x.ident = f.ident → x.port.matches p = false)) →
    (s.active = none → f.ident ≠ .std 0x3E0) →
    f.ident ≠ .std (0x6F8 + s.sr.node.toNat) → f.ident ≠ .std (0x6F0 + s.sr.node.toNat) →
    let blocks := f.remote = true ∨ ∃ a, s.active = some a ∧
      ((p = .c ∧ a.bank.params.blockDefaultC = true) ∨ (p = .b ∧ a.bank.params.blockDefaultB = true))
    (blocks → exec (.arrival p f) s = .next { s with mail := { s.mail with
      counts := s.mail.counts ++ [.rx p, .blocked p] } }) ∧
    (¬ blocks → (s.links.get p.other).busOff = true → exec (.arrival p f) s = .next { s with mail := { s.mail with
      counts := s.mail.counts ++ [.rx p, .queueDrop p.other] } }) ∧
    (¬ blocks → (s.links.get p.other).busOff = false → exec (.arrival p f) s = .next { s with mail := { s.mail with
      counts := s.mail.counts ++ [.rx p]
      offers := s.mail.offers ++ [⟨p.other, .forward, f, false⟩] } })

/-- REFILL_EXPIRY (R149): each class 1 to 7 gains its Refill up to its Depth, the timer starts again with 100 ms, and
nothing else changes. -/
def Obligations.RefillFillsTheBuckets : Prop :=
  ∀ (s : State) (a : ActiveBank), s.active = some a → s.fe.refill = some 0 → s.fe.buckets.length = 7 →
    ∃ t, exec .refillExpiry s = .next t ∧ t.fe.refill = some 100 ∧ t.fe.buckets.length = 7 ∧
      (∀ c, 1 ≤ c → c ≤ 7 → t.fe.tokens c = min (a.bank.rate c).depth (s.fe.tokens c + (a.bank.rate c).refill)) ∧
      t = { s with fe := t.fe }

/-! ## Signal Monitor (chapter 1) -/

/-- R5, R8 to R11 and R110: the length test comes before the check byte test, both before the counter test, and that
before the extraction test. A frame that fails one of the first two leaves the counter baseline; a check byte matches
exactly when it is 255 less the seed and the bytes before it, modulo 256. The counter passes with an absent baseline or
as the baseline's successor, and is the baseline then; it fails as a repeat with the baseline kept, or as a jump with the
counter as the baseline, and absent where the counter reaches the modulus. The extraction test decodes every extraction
of the monitor by R5 and, in VALID, tests each wheel count against its channel's baseline, within its own range or not
(log 22); the refused counts are those that fail, modulo 65,536. -/
def Obligations.FrameTestsInTheirOrder : Prop :=
  ∀ (a : ActiveBank) (i : Nat) (m : MonitorState) (cm : CreepMonitor) (data : List Byte),
    let e := a.bank.monitor i
    let test := testFrame a i m cm data
    let good := fun v : Byte => v.toNat = 255 - (e.checkSeed + byteSum (data.take e.checkPos)) % 256
    (data.length < a.minLength i → test.error = some .length ∧ test.baseline = m.baseline ∧ test.refused = []) ∧
    (a.minLength i ≤ data.length → ∀ v, e.checkPos ≠ 0 → data[e.checkPos]? = some v →
      (¬ good v → test.error = some .check ∧ test.baseline = m.baseline ∧ test.refused = []) ∧
      (good v → test.error ≠ some .check ∧ test.error ≠ some .length)) ∧
    (a.minLength i ≤ data.length → (e.checkPos = 0 ∨ ∃ v, data[e.checkPos]? = some v ∧ good v) →
      let counter := leNat data / 2 ^ e.counterStart % 2 ^ e.counterWidth
      let exts := a.bank.extractions.filter fun x => x.kind.isSome && x.monitor == i
      let extracts := ExtractionTested exts (m.sync == .valid) cm data test
      (e.counterMod = 0 → test.baseline = m.baseline ∧ extracts) ∧
      (e.counterMod ≠ 0 → e.counterMod ≤ counter →
        test.error = some .counterJump ∧ test.baseline = none ∧ test.refused = []) ∧
      (e.counterMod ≠ 0 → counter < e.counterMod → m.baseline = none → test.baseline = some counter ∧ extracts) ∧
      (∀ base, e.counterMod ≠ 0 → counter < e.counterMod → m.baseline = some base →
        (counter = base → test.error = some .counterRepeat ∧ test.baseline = some base ∧ test.refused = []) ∧
        (counter ≠ base → counter = (base + 1) % e.counterMod → test.baseline = some counter ∧ extracts) ∧
        (counter ≠ base → counter ≠ (base + 1) % e.counterMod →
          test.error = some .counterJump ∧ test.baseline = some counter ∧ test.refused = [])))

/-- WATCH_COPY (R8, R12 to R16, R20): a copy for a frame monitor not in use, or of another identifier, is discarded. A
frame that passes every test is a good sample: the period timer starts with one and a half periods; in ACQUIRING below
K the good count alone rises; at K the monitor enters VALID with a window of good samples, every value it carries is
accepted and published, and SIGNAL_REGAINED is raised if it had been VALID before; in VALID the sample enters the
window, every continuous kind is published with its new value, and a discrete kind is published where its accepted value
changes, which with the debounce flag takes a second agreeing sample (R6, R17, R18). That the frame's wheel counts are
tested against the baselines the Creep Monitor holds at the watch copy, with publications still under way, is deduced
(log 21). -/
def Obligations.WatchCopyTakesAGoodSample : Prop :=
  ∀ (i : Fin 24) (s : State) (a : ActiveBank) (f : Frame) (before after : List WatchCopy),
    s.active = some a → s.mail.watch = before ++ ⟨i.val, f⟩ :: after → (∀ w ∈ before, w.monitor ≠ i.val) →
    ((a.bank.monitor i).inUse = false ∨ f.ident ≠ (a.bank.monitor i).ident →
      exec (.watchCopy i) s = .next { s with mail := { s.mail with watch := before ++ after } }) ∧
    (s.sm.monitors.length = 24 → s.sm.svt.length = 29 →
    (a.bank.monitor i).inUse = true → f.ident = (a.bank.monitor i).ident →
    (testFrame a i (s.sm.state i) s.cm f.data).error = none →
    let e := a.bank.monitor i
    let m := s.sm.state i
    let test := testFrame a i m s.cm f.data
    ∃ t, exec (.watchCopy i) s = .next t ∧
      (t.sm.state i).timer = some (e.period + e.period / 2) ∧ (t.sm.state i).baseline = test.baseline ∧
      t.mail.watch = before ++ after ∧ t.mail.counts = s.mail.counts ++ [.good i] ∧
      (∀ j : Nat, j ≠ i.val → t.sm.state j = s.sm.state j) ∧
      (m.sync = .acquiring → m.good + 1 < e.k →
        (t.sm.state i).sync = .acquiring ∧ (t.sm.state i).good = m.good + 1 ∧ t.sm.svt = s.sm.svt ∧
        t.events = s.events ∧ t.mail.toCalc = s.mail.toCalc ∧ t.mail.toHc = s.mail.toHc ∧ t.mail.toCreep = s.mail.toCreep) ∧
      ((m.sync = .acquiring ∧ e.k ≤ m.good + 1) ∨ (m.sync = .lost ∧ e.k ≤ 1) →
        (t.sm.state i).sync = .valid ∧ (t.sm.state i).window = List.replicate e.n false ∧
        ((test.values.map fun x => x.1).Nodup → ∀ x ∈ test.values, t.sm.entry x.1 = ⟨.valid, some x.2.2, none⟩) ∧
        (∀ k, k ∉ test.values.map (fun x => x.1) → t.sm.entry k = s.sm.entry k) ∧
        Published (test.values.map fun x => ⟨x.1, .valid, some x.2.2, true⟩) [] s t ∧
        t.events.set = if m.beenValid then s.events.set ||| 1#16 <<< 8 else s.events.set) ∧
      (m.sync = .lost → 1 < e.k →
        (t.sm.state i).sync = .acquiring ∧ (t.sm.state i).good = 1 ∧ t.sm.svt = s.sm.svt ∧
        t.events = s.events ∧ t.mail.toCalc = s.mail.toCalc ∧ t.mail.toHc = s.mail.toHc ∧
        t.mail.toCreep = s.mail.toCreep) ∧
      (m.sync = .valid →
        (t.sm.state i).sync = .valid ∧ (t.sm.state i).window = m.window.tail ++ [false] ∧ t.events = s.events) ∧
      (m.sync = .valid → (test.values.map fun x => x.1).Nodup → ∃ items, Published items [] s t ∧
        (∀ y ∈ items, ∃ x ∈ test.values, y = ⟨x.1, .valid, some x.2.2, false⟩) ∧
        (∀ k, k ∉ test.values.map (fun x => x.1) → t.sm.entry k = s.sm.entry k) ∧
        ∀ k debounce d, (k, debounce, d) ∈ test.values →
          let old := s.sm.entry k
          let publishes := (⟨k, .valid, some d, false⟩ : PubItem) ∈ items
          let silent := ∀ y ∈ items, y.kind ≠ k
          (k.codes = none → t.sm.entry k = ⟨.valid, some d, none⟩ ∧ publishes) ∧
          (k.codes ≠ none → old.value = some d → t.sm.entry k = { old with candidate := none } ∧ silent) ∧
          (k.codes ≠ none → old.value ≠ some d → debounce = false ∨ old.candidate = some d →
            t.sm.entry k = { old with value := some d, candidate := none } ∧ publishes) ∧
          (k.codes ≠ none → old.value ≠ some d → debounce = true → old.candidate ≠ some d →
            t.sm.entry k = { old with candidate := some d } ∧ silent)) ∧
      t = { s with
        sm := t.sm
        events := t.events
        mail := { s.mail with
          watch := t.mail.watch, counts := t.mail.counts, toCalc := t.mail.toCalc, toHc := t.mail.toHc
          toCreep := t.mail.toCreep } })

/-- PERIOD_TIMEOUT (R12, R13, R15, R16, R20): an error sample, and the timer starts again with one period. The sample
ends a good count, or enters the window; with M errors in the window the monitor enters LOST: its kinds are LOST with
their values held and published so, its baseline is absent, SIGNAL_LOST is raised and one fault is reported, of the
monitor's lowest-coded mandatory kind, MAJOR, or where it carries none of its lowest-coded kind, MINOR. In LOST nothing
else changes. A WATCH_COPY whose frame fails a test (R8, R10, R11) is an error sample too: the period timer starts with
one and a half periods, a counter jump raises COUNTER_JUMP, the refused counts are handed on before any publication, and
the baseline is that of the test, in LOST left as it is (log 8). That the good count stays as it is outside ACQUIRING is
deduced (log 9), as is that the test reads the Creep Monitor's baselines as they stand at the watch copy (log 21). -/
def Obligations.PeriodTimeoutTakesAnErrorSample : Prop :=
  (∀ (i : Fin 24) (s : State) (a : ActiveBank),
    s.active = some a → (s.sm.state i).timer = some 0 → s.sm.monitors.length = 24 → s.sm.svt.length = 29 →
    let e := a.bank.monitor i
    let m := s.sm.state i
    let window := m.window.tail ++ [true]
    let still := fun (x : MonitorState) => { s with
      sm := { s.sm with monitors := s.sm.monitors.set i x }
      mail := { s.mail with counts := s.mail.counts ++ [.errors i] } }
    (m.sync = .acquiring → exec (.periodTimeout i) s = .next (still { m with good := 0, timer := some e.period })) ∧
    (m.sync = .lost → exec (.periodTimeout i) s = .next (still { m with timer := some e.period })) ∧
    (m.sync = .valid → window.count true < e.m →
      exec (.periodTimeout i) s = .next (still { m with window := window, timer := some e.period })) ∧
    (m.sync = .valid → e.m ≤ window.count true →
      ∃ t, exec (.periodTimeout i) s = .next t ∧ (t.sm.state i).sync = .lost ∧ (t.sm.state i).baseline = none ∧
        (t.sm.state i).timer = some e.period ∧
        (∀ k ∈ a.bank.kindsOf i, t.sm.entry k = ⟨.lost, (s.sm.entry k).value, none⟩) ∧
        (∀ k, k ∉ a.bank.kindsOf i → t.sm.entry k = s.sm.entry k) ∧
        (∀ j : Nat, j ≠ i.val → t.sm.state j = s.sm.state j) ∧
        t.events.set = s.events.set ||| 1#16 <<< 7 ∧
        Published ((a.bank.kindsOf i).map fun k => ⟨k, .lost, (s.sm.entry k).value, false⟩) [] s t ∧
        t.mail.counts = s.mail.counts ++ [.errors i, .losses i] ∧
        ∃ report, t.mail.faults = s.mail.faults ++ [report] ∧ LossReported (a.bank.kindsOf i) report)) ∧
  (∀ (i : Fin 24) (s : State) (a : ActiveBank) (f : Frame) (before after : List WatchCopy) (error : SampleError),
    s.active = some a → s.mail.watch = before ++ ⟨i.val, f⟩ :: after → (∀ w ∈ before, w.monitor ≠ i.val) →
    s.sm.monitors.length = 24 → s.sm.svt.length = 29 →
    (a.bank.monitor i).inUse = true → f.ident = (a.bank.monitor i).ident →
    (testFrame a i (s.sm.state i) s.cm f.data).error = some error →
    let e := a.bank.monitor i
    let m := s.sm.state i
    let test := testFrame a i m s.cm f.data
    let window := m.window.tail ++ [true]
    let jumped := if error = .counterJump then s.events.set ||| 1#16 <<< 9 else s.events.set
    let timer := some (e.period + e.period / 2)
    ∃ t, exec (.watchCopy i) s = .next t ∧ t.mail.watch = before ++ after ∧
      (∀ j : Nat, j ≠ i.val → t.sm.state j = s.sm.state j) ∧
      (m.sync ≠ .valid ∨ window.count true < e.m →
        t.sm.svt = s.sm.svt ∧ t.events.set = jumped ∧ Published [] test.refused s t ∧
        t.mail.counts = s.mail.counts ++ [.errors i] ∧ t.mail.faults = s.mail.faults ∧
        (m.sync = .acquiring → t.sm.state i = { m with good := 0, timer := timer, baseline := test.baseline }) ∧
        (m.sync = .lost → t.sm.state i = { m with timer := timer }) ∧
        (m.sync = .valid → t.sm.state i = { m with window := window, timer := timer, baseline := test.baseline })) ∧
      (m.sync = .valid → e.m ≤ window.count true →
        t.sm.state i = { m with sync := .lost, window := window, timer := timer, baseline := none } ∧
        (∀ k ∈ a.bank.kindsOf i, t.sm.entry k = ⟨.lost, (s.sm.entry k).value, none⟩) ∧
        (∀ k, k ∉ a.bank.kindsOf i → t.sm.entry k = s.sm.entry k) ∧
        t.events.set = jumped ||| 1#16 <<< 7 ∧
        Published ((a.bank.kindsOf i).map fun k => ⟨k, .lost, (s.sm.entry k).value, false⟩) test.refused s t ∧
        t.mail.counts = s.mail.counts ++ [.errors i, .losses i] ∧
        ∃ report, t.mail.faults = s.mail.faults ++ [report] ∧ LossReported (a.bank.kindsOf i) report) ∧
      t = { s with
        sm := t.sm
        events := t.events
        mail := { s.mail with
          watch := t.mail.watch, counts := t.mail.counts, faults := t.mail.faults, toCalc := t.mail.toCalc
          toHc := t.mail.toHc, toCreep := t.mail.toCreep } })

/-! ## Hold Pressure Calculator (chapter 2) -/

/-- R34 and R35: the shares are the hold force in proportion to the loads used, rounded up, together at least the hold
force and less than one newton a counted axle above it; with no load, each is the force over the counted axles,
rounded up; and a pressure is a share over the axle's Brake Gain, rounded up. -/
def Obligations.SharesAndPressures : Prop :=
  ∀ (b : Bank) (img : CalcImage),
    let force := holdForce b img
    let load := totalLoad b img
    let axles := img.counted
    (∀ x ∈ axles,
      (load ≠ 0 → force * finalLoad b img x ≤ axleShare b img x * load ∧
        (∀ n, force * finalLoad b img x ≤ n * load → axleShare b img x ≤ n)) ∧
      (load = 0 → force ≤ axleShare b img x * axles.length ∧
        (∀ n, force ≤ n * axles.length → axleShare b img x ≤ n)) ∧
      (finalLoad b img x = 0 → load ≠ 0 → axleShare b img x = 0) ∧
      (axleShare b img x = 0 → axlePressure b img x = 0) ∧
      (0 < (b.axles.get x).gain → axleShare b img x ≤ axlePressure b img x * (b.axles.get x).gain ∧
        (∀ n, axleShare b img x ≤ n * (b.axles.get x).gain → axlePressure b img x ≤ n))) ∧
    (load ≠ 0 → force ≤ sumOver (axleShare b img) axles ∧ sumOver (axleShare b img) axles < force + axles.length) ∧
    (axles.length = 4 ∨ axles.length = 5)

/-- R32, and the grade used of R31: the Drum Margin is taken where the drum turns by the Drum Threshold either way, is
not VALID, or the discharge is VALID and true, and is 0 otherwise; a VALID grade is clamped to 40.0 % and any other
counts as 40.0 %. -/
def Obligations.DrumMarginAndGrade : Prop :=
  ∀ (b : Bank) (img : CalcImage),
    (drumMargin b img = b.params.drumMargin ∨ drumMargin b img = 0) ∧
    ((∃ v, img.drum = ⟨.valid, some v⟩ ∧ b.params.drumThreshold ≤ v.natAbs) → drumMargin b img = b.params.drumMargin) ∧
    (img.drum.validity ≠ .valid → drumMargin b img = b.params.drumMargin) ∧
    (img.discharge = ⟨.valid, some 1⟩ → drumMargin b img = b.params.drumMargin) ∧
    ((∃ v, img.drum = ⟨.valid, some v⟩ ∧ v.natAbs < b.params.drumThreshold) → img.discharge ≠ ⟨.valid, some 1⟩ →
      drumMargin b img = 0) ∧
    (∀ v, img.grade = ⟨.valid, some v⟩ → gradeUsed img = (max (-400) (min 400 v)).natAbs) ∧
    (img.grade.validity ≠ .valid → gradeUsed img = 400)

/-- CALC_PUBLICATION (R26, R27, R30, R33, R36, R37, R38): one computation on the updated image; its result, handed on
whole, has each circuit's largest axle pressure clamped between the Pressure Floor and the Maximum Pressure, the mass
of the total load, and the capacity flag exactly where a circuit needs more than its maximum; the hold force is the
product of R33 rounded up, and never below the Force Floor. The pusher axle is counted by the table of R28; a VALID load
is used, a negative one as 0, and any other is the Rated Load (R29); where the loads used come to 0 the Rated Loads are
used (R30). What a circuit needs is the largest pressure among its counted axles. The reports are those of R29, R30 and
R37 alone, each once for a run; the loss marks are kept up on Rated Loads too (log 23). -/
def Obligations.CalcPublicationComputesOnce : Prop :=
  ∀ (s : State) (a : ActiveBank) (c : Calculator) (items : List PubItem) (rest : List (List PubItem)),
    s.active = some a → s.hpc = some c → s.mail.toCalc = items :: rest →
    let b := a.bank
    let img := items.foldl CalcImage.take c.image
    let need := unclamped b img
    let measured := (img.counted.map (loadUsed b img)).sum
    let pusher := img.pusher = ⟨.valid, some 1⟩ ∨
      (img.pusher.validity = .unmapped ∧ ∃ v, img.loads.p = ⟨.valid, some v⟩ ∧ 50 < v)
    let lost := img.counted.filter fun x => (img.loads.get x).validity == .lost && !c.lossMarks.get x
    let product := 10 * totalLoad b img * gradeUsed img * 981 * b.params.safetyFactor * (100 + drumMargin b img)
    ∃ t r, exec .calcPublication s = .next t ∧
      t.mail.results = s.mail.results ++ [r] ∧ t.mail.toCalc = rest ∧
      (∃ c', t.hpc = some c' ∧ c'.image = img ∧ c'.result = r ∧ (c'.loadMark = true ↔ measured = 0) ∧
        ∀ x, c'.lossMarks.get x = (if x ∈ img.counted then
          match (img.loads.get x).validity with
          | .valid => false
          | .lost => true
          | _ => c.lossMarks.get x
          else c.lossMarks.get x)) ∧
      (pusher → img.counted = [.f1, .f2, .t1, .t2, .p]) ∧ (¬ pusher → img.counted = [.f1, .f2, .t1, .t2]) ∧
      (∀ x, (∀ v, img.loads.get x = ⟨.valid, some v⟩ → loadUsed b img x = v.toNat) ∧
        ((img.loads.get x).validity ≠ .valid → loadUsed b img x = (b.axles.get x).rated)) ∧
      (measured ≠ 0 → totalLoad b img = measured ∧ ∀ x, finalLoad b img x = loadUsed b img x) ∧
      (measured = 0 → totalLoad b img = (img.counted.map fun x => (b.axles.get x).rated).sum ∧
        ∀ x, finalLoad b img x = (b.axles.get x).rated) ∧
      (∃ x ∈ img.counted, x.circuitA = true ∧ need.a = axlePressure b img x) ∧
      (∃ x ∈ img.counted, x.circuitA = false ∧ need.b = axlePressure b img x) ∧
      t.mail.faults = s.mail.faults ++ lost.map (fun x => ⟨.minor, .signalLost, .signal (.axleLoad x), none⟩) ++
        (if measured = 0 ∧ c.loadMark = false then [⟨.minor, .loadImplausible, .none, none⟩] else []) ++
        (if r.capacity = true ∧ c.result.capacity = false then [⟨.minor, .capacity, .none, none⟩] else []) ∧
      (r.capacity = true ↔ b.params.maxPressureA < need.a ∨ b.params.maxPressureB < need.b) ∧
      r.mass = 10 * totalLoad b img ∧
      (b.params.pressureFloor ≤ b.params.maxPressureA →
        r.pressure.a = min b.params.maxPressureA (max b.params.pressureFloor need.a)) ∧
      (b.params.pressureFloor ≤ b.params.maxPressureB →
        r.pressure.b = min b.params.maxPressureB (max b.params.pressureFloor need.b)) ∧
      (∀ x ∈ img.counted, axlePressure b img x ≤ if x.circuitA then need.a else need.b) ∧
      b.params.forceFloor ≤ holdForce b img ∧ product ≤ holdForce b img * 1000000000 ∧
      (∀ n, b.params.forceFloor ≤ n → product ≤ n * 1000000000 → holdForce b img ≤ n) ∧
      t.events.set = (if r.capacity then s.events.set ||| 1#16 <<< 6 else s.events.set) ∧
      t = { s with
        hpc := t.hpc
        events := t.events
        mail := { s.mail with toCalc := t.mail.toCalc, results := t.mail.results, faults := t.mail.faults } }

/-! ## Hold Controller (chapters 3 to 5 and 7) -/

/-- R91 to R94: the drive-off criterion holds exactly where the four kinds are VALID, the gear gives an intent, and torque
and pedal reach what an uphill or another drive-off asks. The torque an uphill one asks is the cell of the lowest grade
band whose bound is at least the grade's magnitude, or of band 8, and of the mass band of the mass of the result in hand
alike; with the default table it is 71 % at 18.0 % and 36,000 kg, and 82 % at 18.1 % and 36,010 kg. -/
def Obligations.DriveOffCriterion : Prop :=
  (∀ (b : Bank) (h : HoldController),
    h.criterion b = true ↔
      ∃ gear grade pedal torque : Int,
        h.image.gear = ⟨.valid, some gear⟩ ∧ h.image.grade = ⟨.valid, some grade⟩ ∧
        h.image.drivePedal = ⟨.valid, some pedal⟩ ∧ h.image.torque = ⟨.valid, some torque⟩ ∧
        ∃ intent : Int, ((gear = 1 ∧ intent = 1) ∨ (gear = 2 ∧ intent = -1)) ∧
          ((0 < intent * grade ∧ 10 ≤ grade.natAbs ∧ (b.releaseCell grade h.mass : Int) ≤ torque ∧
              (b.params.uphillPedal : Int) ≤ pedal) ∨
            (¬ (0 < intent * grade ∧ 10 ≤ grade.natAbs) ∧ (b.params.downhillPedal : Int) ≤ pedal))) ∧
  (∀ (b : Bank) (grade : Int) (mass g m cell : Nat), IsBand b.gradeBounds grade.natAbs g → IsBand b.massBounds mass m →
    b.cells[g * 6 + m]? = some cell → b.releaseCell grade mass = cell) ∧
  (∀ (h : HoldController) (r : CalcResult), h.result = some r → h.mass = r.mass) ∧
  Bank.default.releaseCell 180 36000 = 71 ∧ Bank.default.releaseCell 181 36010 = 82

/-- HC_PUBLICATION in STARTING, INACTIVE and ARMED (R43, R44, R52, R54, R55, R73, R134, R160), whatever the set carries. It
is recorded, and the requests and releases of its signal sources are taken; that this comes before the tests of the hold
state, and that nothing more is taken once a request has changed the state, is the model's choice (log 10). The set that
completes the second condition of R7 takes STARTING to PARKED with SPRING_STATE applied, and otherwise to INACTIVE with the
tests of R54; either way a demand frame is generated and the Demand Period timer starts, at the end of the event (deduced:
log 11). Another set leaves STARTING as it is. In INACTIVE and ARMED a set that leaves SPRING_STATE not applied or sets the
park switch clears the park-exit mark, and the tests of the state are applied. The degraded flag is recorded from the
controller's own copies of its two conditions (R47; deduced: log 24). That the FORWARD entries of R165 go before the demand
frame is offered is the model's choice (log 34). -/
def Obligations.PublicationLeavesStarting : Prop :=
  ∀ (s : State) (a : ActiveBank) (set : HcSet) (rest : List HcSet),
    s.active = some a → s.mail.toHc = set :: rest →
    ∃ u, SourcesTaken a.bank set (withSet set rest s) u ∧
    (s.hc.state = .starting → set.allOnce = some true →
      ∃ w t, exec .hcPublication s = .next t ∧ DemandMade w t ∧ u.hc.image = set.items.foldl HcImage.take s.hc.image ∧
        (Applied u.hc → Moved .parked none ⟨0, 0⟩ u w) ∧
        (¬ Applied u.hc → ∃ i, Moved .inactive none ⟨0, 0⟩ u i ∧ TimersStopped i.hc ∧ i.hc.claims = noClaims ∧
          i.hc.parkExit = u.hc.parkExit ∧ StandTested a.bank i (.next w) ∧ (s.hc.stationary = false → w = i)) ∧
        t.hc.startWindow = none) ∧
    (s.hc.state = .starting → set.allOnce ≠ some true → exec .hcPublication s = .next u) ∧
    (s.hc.state = .inactive ∨ s.hc.state = .armed →
      (u.hc.state ≠ s.hc.state → exec .hcPublication s = .next u) ∧
      (u.hc.state = s.hc.state → ∀ mark : Bool,
        (mark = true ↔ u.hc.parkExit = true ∧ ¬ ((Carries set .springState ∧ ¬ Applied u.hc) ∨
          (Carries set .parkSwitch ∧ u.hc.image.parkSwitch = ⟨.valid, some 1⟩))) →
        StandTested a.bank { u with hc := { u.hc with parkExit := mark } } (exec .hcPublication s)))

/-- HC_PUBLICATION in HOLDING, RELEASING, HANDOVER, PARKED and SECURED (R60, R62, R73, R95, R97, R100 to R104, R127, R128,
R133 to R135, R137, R169), whatever the set carries. It is recorded, and the requests and releases of its signal sources
are taken; that this comes before what the hold state makes of the set, and that nothing more is taken once one of them
has changed the state, is the model's choice (log 10). The degraded flag is recorded from the controller's own copies of its
two conditions (R47; deduced: log 24). In HOLDING a handover condition goes to HANDOVER with the ratcheted demand held, and
where none stands a kind of the drive-off criterion has it evaluated (with a Min Hold Time of 0 from the entry on, deduced:
log 12). In RELEASING ignition off hands over at P_start, and OUTPUT_SPEED is tested for rollback. In HANDOVER SPRING_STATE
confirms, or withdraws the confirmation, which after the deadline is SECURED(HANDOVER_FAILED), its report taken with the
hold state SECURED (log 29). In PARKED SPRING_STATE not applied under BLIND is SECURED(BLIND), taken before the exit test
(log 19), whose outcomes are those of R133; that the exit's mark stays set where that set also leaves SPRING_STATE not
applied is the model's choice (log 33). In SECURED SPRING_STATE keeps the Quiet timer. -/
def Obligations.PublicationHandsOver : Prop :=
  ∀ (s : State) (a : ActiveBank) (set : HcSet) (rest : List HcSet),
    s.active = some a → s.mail.toHc = set :: rest →
    let b := a.bank
    let r := exec .hcPublication s
    ∃ u, SourcesTaken b set (withSet set rest s) u ∧
    (s.hc.state ≠ .starting → u.hc.state ≠ s.hc.state → r = .next u) ∧ (u.hc.state = s.hc.state →
    let springs := Carries set .springState
    (u.hc.state = .off → r = .next u) ∧
    (u.hc.state = .holding →
      (HandsOver u.hc → ∃ t, r = .next t ∧ Moved .handover none u.hc.demand.pressure u t ∧ HandoverStarted b t.hc) ∧
      (¬ HandsOver u.hc → ¬ MovesCriterion set → r = .next u) ∧
      (¬ HandsOver u.hc → MovesCriterion set → CriterionTested b u r)) ∧
    (∀ ramp, u.hc.state = .releasing → u.hc.ramp = some ramp → u.hc.claims = noClaims →
      let off := Carries set .ignition ∧ u.hc.image.ignition = ⟨.valid, some 0⟩
      (off → ∃ t, r = .next t ∧ Moved .handover none ramp.start u t ∧ HandoverStarted b t.hc ∧ t.hc.ramp = none ∧
        t.hc.rampStep = none) ∧
      (¬ off → Carries set .outputSpeed → RollbackTested b ramp u r) ∧
      (¬ off → ¬ Carries set .outputSpeed → r = .next u)) ∧
    (u.hc.state = .handover →
      (¬ springs → r = .next u) ∧
      (springs → u.hc.phase = some .awaiting →
        (Applied u.hc → r = .next { u with
          hc := { u.hc with phase := some .overlap, overlapTimer := some b.params.overlapTime } }) ∧
        (¬ Applied u.hc → r = .next u)) ∧
      (springs → u.hc.phase = some .overlap →
        (Applied u.hc → r = .next u) ∧
        (¬ Applied u.hc → u.hc.deadline = false →
          r = .next { u with hc := { u.hc with phase := some .awaiting, overlapTimer := none } }) ∧
        (¬ Applied u.hc → u.hc.deadline = true →
          ∃ t, r = .next t ∧ Entered .secured (some .handoverFailed) b.maxPressure false u t ∧ TimersStopped t.hc ∧
            t.hc.claims = noClaims ∧ t.hc.quiet = none ∧ RecordKept u.hc t.hc ∧ HoldOnly u t ∧
            t.mail.faults = u.mail.faults ++ [⟨.major, .handoverFailed, .signal .springState, some .secured⟩]))) ∧
    (u.hc.state = .parked →
      let turns := springs ∧ u.hc.blind = true ∧ ¬ Applied u.hc
      let pressed := u.hc.image.brakePedal = ⟨.valid, some 1⟩
      let tested := (Carries set .parkSwitch ∨ (Carries set .brakePedal ∧ pressed)) ∧
        u.hc.image.parkSwitch = ⟨.valid, some 0⟩
      (turns → ∃ t, r = .next t ∧ Moved .secured (some .blind) b.maxPressure u t ∧ t.hc.quiet = none) ∧
      (¬ turns → tested → u.sr.serviceMode = false → pressed →
        ∃ w, Moved .inactive none ⟨0, 0⟩ u w ∧ TimersStopped w.hc ∧ w.hc.claims = noClaims ∧ w.hc.parkExit = true ∧
          StandTested b w r) ∧
      (¬ turns → tested → u.sr.serviceMode = true ∨ ¬ pressed → r = .next (raisedIn 13 u)) ∧
      (¬ turns → ¬ tested → r = .next u)) ∧
    (u.hc.state = .secured →
      (springs → Applied u.hc → u.hc.stationary = true → u.hc.quiet = none →
        r = .next { u with hc := { u.hc with quiet := some 2000 } }) ∧
      (springs → ¬ Applied u.hc → r = .next { u with hc := { u.hc with quiet := none } }) ∧
      (¬ springs ∨ (Applied u.hc ∧ (u.hc.stationary = false ∨ u.hc.quiet ≠ none)) → r = .next u)))

/-- CALC_RESULT (R38, R59, R63, R95): outside HOLDING the result in hand is replaced and nothing else changes; in HOLDING
the demand rises to the largest of itself, the result and the limited floors; a handover condition, the capacity flag
among them, hands over at that demand, and where none stands the drive-off criterion is evaluated (with a Min Hold Time of
0 from the entry into HOLDING on, deduced: log 12). -/
def Obligations.CalcResultRatchets : Prop :=
  ∀ (s : State) (a : ActiveBank) (r : CalcResult) (rest : List CalcResult),
    s.active = some a → s.mail.results = r :: rest →
    let floors := s.hc.limitedFloors a.bank
    let raised : Circuits :=
      ⟨max (max s.hc.demand.pressure.a r.pressure.a) floors.a, max (max s.hc.demand.pressure.b r.pressure.b) floors.b⟩
    let mail := { s.mail with results := rest }
    let u := { s with
      hc := { s.hc with result := some r, demand := { s.hc.demand with pressure := raised } }, mail := mail }
    (s.hc.state ≠ .holding → exec .calcResult s = .next { s with hc := { s.hc with result := some r }, mail := mail }) ∧
    (s.hc.state = .holding →
      (r.capacity = true → HandsOver u.hc) ∧
      (HandsOver u.hc → ∃ t, exec .calcResult s = .next t ∧ Moved .handover none raised u t ∧
        HandoverStarted a.bank t.hc) ∧
      (¬ HandsOver u.hc → CriterionTested a.bank u (exec .calcResult s)))

/-- START_WINDOW_EXPIRY (R53, R54, R160): the controller leaves STARTING for INACTIVE, and where not all mandatory signals
have been VALID it reports one MAJOR SIGNAL_LOST fault, which is taken with the hold state INACTIVE (R169; log 29), of the
lowest-coded mandatory kind still NO_DATA or else of the lowest-coded such wheel pulse kind; then the tests of R54 are
applied, and at the end of the event a demand frame is generated (deduced: log 11), before whose offer the FORWARD entries
of R165 go (the model's choice: log 34). -/
def Obligations.StartWindowExpiryLeavesStarting : Prop :=
  ∀ (s : State) (a : ActiveBank),
    s.active = some a → s.hc.state = .starting → s.hc.startWindow = some 0 →
    ∃ w v t, exec .startWindowExpiry s = .next t ∧
      Entered .inactive none ⟨0, 0⟩ false s w ∧ w.hc.claims = [none, none, none, none, none, none] ∧
      TimersStopped w.hc ∧ RecordKept s.hc w.hc ∧ w.hc.parkExit = s.hc.parkExit ∧ HoldOnly s w ∧
      (s.hc.allOnce = false → ∃ subject,
        w.mail.faults = s.mail.faults ++ [⟨.major, .signalLost, subject, some .inactive⟩] ∧
        ∀ k, StartSubject s.sm k → subject = .signal k) ∧
      (s.hc.allOnce = true → w.mail.faults = s.mail.faults) ∧
      StandTested a.bank w (.next v) ∧ (s.hc.stationary = false → v = w) ∧ DemandMade v t

/-- ARMED_CONFIRM_EXPIRY (R44, R50, R57, R58, R60 to R64): a DRIVER claim in slot 1 of the empty table, granted now, and
HOLDING at the result in hand; where a handover condition stands at the entry, HANDOVER at once with that demand held. -/
def Obligations.ArmedConfirmationHolds : Prop :=
  ∀ (s : State) (a : ActiveBank) (r : CalcResult),
    s.active = some a → s.hc.state = .armed → s.hc.armedConfirm = some 0 → s.hc.result = some r →
    s.hc.claims = [none, none, none, none, none, none] →
    HoldBegun a.bank (driverAlone s.now) r.pressure true s (exec .armedConfirmExpiry s) ∧
    ∃ t, exec .armedConfirmExpiry s = .next t ∧ t.hc.armedConfirm = none ∧ t.hc.parkExit = false

/-- MIN_HOLD_EXPIRY in HOLDING (R60, R95, R96, R98, R101): the timer has stopped and the drive-off criterion is evaluated
once. Where it does not hold the memory is NOT_MET, and nothing else changes. Where it holds, not having been met, and
only DRIVER and MONITOR claims stand, RELEASING is entered from the demand with the ramp of R98 and its rollback test;
with another claim standing the DRIVER and MONITOR claims leave and DRIVE_OFF_BLOCKED is raised. -/
def Obligations.MinHoldExpiryEvaluatesTheCriterion : Prop :=
  ∀ (s : State) (a : ActiveBank),
    s.active = some a → s.hc.state = .holding → s.hc.minHold = some 0 →
    CriterionTested a.bank { s with hc := { s.hc with minHold := none } } (exec .minHoldExpiry s) ∧
    (s.hc.criterion a.bank = false →
      exec .minHoldExpiry s = .next { s with hc := { s.hc with minHold := none, metMemory := false } }) ∧
    (∀ forward : Bool, s.hc.criterion a.bank = true → s.hc.metMemory = false → s.hc.intent = some forward →
      (∀ c, some c ∈ s.hc.claims → c.source = .driver ∨ c.source = .monitor) →
      s.hc.resultPressure.within s.hc.demand.pressure → s.hc.rollback a.bank forward = false →
      let p := s.hc.demand.pressure
      let time := if (match s.hc.image.grade.valid? with | some g => uphill forward g | none => false) then
        a.bank.params.uphillRamp else a.bank.params.downhillRamp
      ∃ t, exec .minHoldExpiry s = .next t ∧ Entered .releasing none p false s t ∧
        (∀ c ∈ t.hc.claims, c = none) ∧
        t.hc.ramp = some ⟨p, forward, time,
          ⟨ceilDiv (p.a * a.bank.params.demandPeriod) time, ceilDiv (p.b * a.bank.params.demandPeriod) time⟩⟩ ∧
        t.hc.rampStep = some a.bank.params.demandPeriod ∧ t.hc.minHold = none ∧ t.hc.maxHold = none ∧
        t.hc.reapply = s.hc.reapply ∧ RecordKept s.hc t.hc ∧ HoldOnly s t ∧ t.mail.faults = s.mail.faults)

/-- MAX_SERVICE_HOLD_EXPIRY in HOLDING, and CLAIM_EXPIRY (R45, R61, R62, R83, R126): HANDOVER with the ratcheted demand as
the held value. A claim's expiry raises CLAIM_EXPIRED and takes the claim out; it hands over where it was the last, and
with claims left the hold goes on unless a handover condition now stands. -/
def Obligations.ExpiriesHandOver : Prop :=
  ∀ (s : State) (a : ActiveBank), s.active = some a → s.hc.state = .holding →
    (s.hc.maxHold = some 0 →
      ∃ t, exec .maxServiceHoldExpiry s = .next t ∧ Entered .handover none s.hc.demand.pressure false s t ∧
        HandoverStarted a.bank t.hc ∧ RecordKept s.hc t.hc ∧ HoldOnly s t ∧ t.mail.faults = s.mail.faults) ∧
    (∀ (tag : Fin 4) (slot : Nat) (c : Claim), tag ≠ 0 → s.hc.claims[slot]? = some (some c) →
      c.source = .service → c.tag = tag.val → c.timer = some 0 → s.hc.resultPressure.within s.hc.demand.pressure →
      ((∀ i x, s.hc.claims[i]? = some (some x) → i = slot) →
        ∃ t, exec (.claimExpiry tag) s = .next t ∧ t.hc.state = .handover ∧
          t.hc.demand = ⟨.hold, s.hc.demand.pressure, true⟩ ∧ HandoverStarted a.bank t.hc ∧
          t.events.set = s.events.set ||| 1#16 <<< 2 ||| 1#16 ∧
          t.mail.stateReports = s.mail.stateReports ++ [⟨.handover, false⟩] ∧ RecordKept s.hc t.hc ∧ HoldOnly s t ∧
          t.mail.faults = s.mail.faults) ∧
      ((∀ i x, s.hc.claims[i]? = some (some x) → x.source = .service → x.tag = tag.val → i = slot) →
        (s.hc.limitedFloors a.bank).within s.hc.demand.pressure →
        let left := s.hc.claims.set slot none
        (∃ x, some x ∈ left) →
        HoldTested a.bank (raisedIn 2 { s with hc := { s.hc with claims := left } }) (exec (.claimExpiry tag) s)))

/-- REENTRY_GUARD_EXPIRY (R54, R65): outside INACTIVE the timer has run out and nothing else changes; in INACTIVE the
three conditions are tested once, and the first that holds is taken. -/
def Obligations.GuardExpiryTestsInactive : Prop :=
  ∀ (s : State) (a : ActiveBank), s.active = some a → s.hc.guard = some 0 →
    let u := { s with hc := { s.hc with guard := none } }
    (s.hc.state ≠ .inactive → exec .reentryGuardExpiry s = .next u) ∧
    (s.hc.state = .inactive → StandTested a.bank u (exec .reentryGuardExpiry s))

/-- RAMP_STEP_EXPIRY in RELEASING (R44, R54, R65, R99): the demand falls by its step and stops at 0; until both circuits
stand at 0 the timer starts again; then the controller enters INACTIVE with the Re-entry Guard started, unless it is 0,
and the tests of R54 are applied. -/
def Obligations.RampStepLowersTheDemand : Prop :=
  ∀ (s : State) (a : ActiveBank) (ramp : Ramp),
    s.active = some a → s.hc.state = .releasing → s.hc.rampStep = some 0 → s.hc.ramp = some ramp →
    let p := s.hc.demand.pressure
    let lowered : Circuits := ⟨p.a - ramp.step.a, p.b - ramp.step.b⟩
    (lowered ≠ ⟨0, 0⟩ → exec .rampStepExpiry s = .next { s with
      hc := { s.hc with
        demand := { s.hc.demand with pressure := lowered }
        rampStep := some a.bank.params.demandPeriod } }) ∧
    (lowered = ⟨0, 0⟩ →
      let guard := if a.bank.params.reentryGuard = 0 then s.hc.guard else some a.bank.params.reentryGuard
      ∃ w, Entered .inactive none ⟨0, 0⟩ false s w ∧ w.hc.claims = [none, none, none, none, none, none] ∧
        TimersStopped w.hc ∧ RecordKept { s.hc with guard := guard } w.hc ∧ w.hc.reapply = s.hc.reapply ∧
        w.hc.parkExit = s.hc.parkExit ∧ HoldOnly s w ∧ w.mail.faults = s.mail.faults ∧
        StandTested a.bank w (exec .rampStepExpiry s) ∧ (s.hc.stationary = false → exec .rampStepExpiry s = .next w))

/-- HANDOVER_CONFIRM_EXPIRY, OVERLAP_EXPIRY and QUIET_EXPIRY (R44, R129, R130, R132, R136, R137). A confirmation that
does not come in AWAITING goes to SECURED with the cause HANDOVER_FAILED and the Maximum Pressures, and reports a MAJOR
HANDOVER_FAILED fault of SPRING_STATE, taken with the hold state SECURED (R169; log 29); in OVERLAP the deadline mark is
set and the handover goes on. The end of the overlap, and in SECURED that of the Quiet Time, is PARKED, with the
pressures 0, the park request, no cause and no timer of the state left running. -/
def Obligations.HandoverAndSecuredExpiriesAct : Prop :=
  ∀ (s : State) (a : ActiveBank), s.active = some a →
    let parks := fun (c : Instr) => ∃ t, exec c s = .next t ∧ Entered .parked none ⟨0, 0⟩ false s t ∧
      TimersStopped t.hc ∧ t.hc.quiet = none ∧ t.hc.parkExit = false ∧ t.hc.claims = s.hc.claims ∧
      RecordKept s.hc t.hc ∧ HoldOnly s t ∧ t.mail.faults = s.mail.faults
    (s.hc.state = .handover → s.hc.handoverConfirm = some 0 → s.hc.phase = some .awaiting →
      ∃ t, exec .handoverConfirmExpiry s = .next t ∧
        Entered .secured (some .handoverFailed) a.bank.maxPressure false s t ∧
        t.hc.claims = [none, none, none, none, none, none] ∧ TimersStopped t.hc ∧
        t.hc.quiet = (if s.hc.springApplied ∧ s.hc.stationary then some 2000 else none) ∧
        t.mail.faults = s.mail.faults ++ [⟨.major, .handoverFailed, .signal .springState, some .secured⟩] ∧
        RecordKept s.hc t.hc ∧ HoldOnly s t) ∧
    (s.hc.state = .handover → s.hc.handoverConfirm = some 0 → s.hc.phase = some .overlap →
      exec .handoverConfirmExpiry s = .next { s with hc := { s.hc with deadline := true, handoverConfirm := none } }) ∧
    (s.hc.state = .handover → s.hc.phase = some .overlap → s.hc.overlapTimer = some 0 → parks .overlapExpiry) ∧
    (s.hc.state = .secured → s.hc.quiet = some 0 → parks .quietExpiry)

/-- DECISION_REPORT (R54, R55, R122, R137): in INACTIVE and ARMED the decision is recorded and the tests of the state are
applied; in SECURED a stationary report on an applied spring brake starts a Quiet timer that does not run, and a moving
report stops it; in the other states the record alone changes. -/
def Obligations.DecisionReportIsRecorded : Prop :=
  ∀ (s : State) (a : ActiveBank) (d : Bool) (rest : List CreepReport),
    s.active = some a → s.mail.creepReports = .decision d :: rest →
    let u := { s with hc := { s.hc with stationary := d }, mail := { s.mail with creepReports := rest } }
    (s.hc.state ≠ .inactive → s.hc.state ≠ .armed → s.hc.state ≠ .secured → exec .decisionReport s = .next u) ∧
    (s.hc.state = .secured →
      exec .decisionReport s = .next { u with
        hc := { u.hc with
          quiet := if d then (if s.hc.springApplied ∧ s.hc.quiet = none then some 2000 else s.hc.quiet) else none } }) ∧
    (s.hc.state = .inactive ∨ s.hc.state = .armed → StandTested a.bank u (exec .decisionReport s))

/-- BLIND_REPORT (R47, R54, R55, R62, R64, R122, R135): BLIND and the degraded flag are recorded; INACTIVE and ARMED apply
their tests; HOLDING goes to HANDOVER at the ratcheted demand where BLIND is entered; PARKED goes to SECURED with the
cause BLIND where it is entered and SPRING_STATE is not applied; otherwise the record alone changes. That the degraded
flag is set while a mandatory signal is missing or BLIND stands is deduced (log 24). -/
def Obligations.BlindReportActsByState : Prop :=
  ∀ (s : State) (a : ActiveBank) (entered : Bool) (rest : List CreepReport),
    s.active = some a → s.mail.creepReports = .blind entered :: rest →
    let u := { s with
      hc := { s.hc with blind := entered, degraded := s.hc.missing || entered }
      mail := { s.mail with creepReports := rest } }
    (s.hc.state ≠ .inactive → s.hc.state ≠ .armed → s.hc.state ≠ .holding → s.hc.state ≠ .parked →
      exec .blindReport s = .next u) ∧
    (s.hc.state = .inactive ∨ s.hc.state = .armed → StandTested a.bank u (exec .blindReport s)) ∧
    (s.hc.state = .holding →
      (entered = true → ∃ t, exec .blindReport s = .next t ∧ Moved .handover none s.hc.demand.pressure u t ∧
        HandoverStarted a.bank t.hc) ∧
      HoldTested a.bank u (exec .blindReport s)) ∧
    (s.hc.state = .parked →
      (entered = true → ¬ Applied s.hc → ∃ t, exec .blindReport s = .next t ∧
        Moved .secured (some .blind) a.bank.maxPressure u t ∧ t.hc.quiet = none) ∧
      (entered = false ∨ Applied s.hc → exec .blindReport s = .next u))

/-- CROSSING_REPORT (R70, R74, R118 to R121): an escalation in HOLDING places a MONITOR claim in slot 0 with floors a
quarter above the demand, limited to the Maximum Pressure, and the demand rises to them; a rollaway in HOLDING,
HANDOVER, PARKED or SECURED goes to SECURED with the cause ROLLAWAY, where the Quiet timer runs anew if the quiet test
holds and is stopped if not (R136, R137), and reports a MAJOR ROLLAWAY fault of the increment channel, taken with the hold
state SECURED (R169; log 29); any other report is discarded. -/
def Obligations.CrossingReportActsByState : Prop :=
  ∀ (s : State) (a : ActiveBank) (rollaway : Bool) (n : Fin 8) (rest : List CreepReport),
    s.active = some a → s.mail.creepReports = .crossing rollaway n :: rest →
    let p := s.hc.demand.pressure
    let top := a.bank.maxPressure
    let floorA := min top.a (ceilDiv (p.a * 125) 100)
    let floorB := min top.b (ceilDiv (p.b * 125) 100)
    (rollaway = false → s.hc.state = .holding → p.within top → s.hc.resultPressure.within p →
      (s.hc.limitedFloors a.bank).within p → s.hc.claims.length = 6 →
      exec .crossingReport s = .next { s with
        hc := { s.hc with
          claims := s.hc.claims.set 0 (some ⟨.monitor, 0, if floorA = 0 then none else some floorA,
            if floorB = 0 then none else some floorB, none, s.now, none⟩)
          demand := { s.hc.demand with pressure := ⟨floorA, floorB⟩ } }
        mail := { s.mail with creepReports := rest } }) ∧
    (rollaway = true →
      s.hc.state = .holding ∨ s.hc.state = .handover ∨ s.hc.state = .parked ∨ s.hc.state = .secured →
      ∃ t, exec .crossingReport s = .next t ∧ Entered .secured (some .rollaway) top false s t ∧
        t.hc.claims = [none, none, none, none, none, none] ∧ TimersStopped t.hc ∧ RecordKept s.hc t.hc ∧
        (Applied s.hc ∧ s.hc.stationary = true → t.hc.quiet = some 2000) ∧
        (¬ (Applied s.hc ∧ s.hc.stationary = true) → t.hc.quiet = none) ∧
        t.hc.parkExit = false ∧ t.hc.reapply = s.hc.reapply ∧
        t.mail.faults = s.mail.faults ++ [⟨.major, .rollaway, .signal (.wheelPulse n), some .secured⟩] ∧
        HoldOnly { s with mail := { s.mail with creepReports := rest } } t) ∧
    ((rollaway = false ∧ s.hc.state ≠ .holding) ∨
        s.hc.state ∉ [HoldState.holding, .handover, .parked, .secured] →
      exec .crossingReport s = .next { s with mail := { s.mail with creepReports := rest } })

/-! ## Creep Monitor (chapter 6) -/

/-- CREEP_PUBLICATION (R109, R111, R112): a channel published once takes its count as baseline and adds the delta to its
pending sum, but not at its monitor's entry to VALID or without a baseline; LOST clears both. Falling below two VALID
channels enters BLIND, reported with a MAJOR MONITOR_BLIND fault and the decision MOVING; reaching two leaves it. Through
both the accumulator and the crossing count keep their values, and the told state and the evaluation timer (R116). -/
def Obligations.CreepPublicationAddsPulses : Prop :=
  ∀ (s : State) (a : ActiveBank) (items : List PubItem) (rest : List CreepDelivery),
    s.active = some a → s.mail.toCreep = .publication items :: rest → s.cm.channels.length = 8 →
    ∃ t, exec .creepPublication s = .next t ∧ t.mail.toCreep = rest ∧
      (∀ (n : Fin 8) (x : PubItem), items.filter (fun y => y.kind == .wheelPulse n) = [x] →
        let r := s.cm.channel n
        (x.validity = .lost → t.cm.channel n = ⟨.lost, none, 0⟩) ∧
        (∀ v, x.validity = .valid → x.value = some v → (r.baseline = none ∨ x.entry = true) →
          t.cm.channel n = ⟨.valid, some v.toNat, r.pending⟩) ∧
        (∀ v base, x.validity = .valid → x.value = some v → r.baseline = some base → x.entry = false →
          t.cm.channel n = ⟨.valid, some v.toNat, min 65535 (r.pending + ((v - base) % 65536).toNat)⟩)) ∧
      (∀ n : Fin 8, items.filter (fun y => y.kind == .wheelPulse n) = [] → t.cm.channel n = s.cm.channel n) ∧
      (2 ≤ s.cm.validCount → t.cm.validCount < 2 →
        t.cm = { s.cm with channels := t.cm.channels, blind := true, stationary := false, stationaryTimer := none } ∧
        t.mail.faults = s.mail.faults ++ [⟨.major, .monitorBlind, .none, none⟩] ∧
        t.mail.creepReports = s.mail.creepReports ++ .blind true ::
          (if s.cm.stationary then [.decision false] else [])) ∧
      (s.cm.validCount < 2 → 2 ≤ t.cm.validCount →
        t.cm = { s.cm with
          channels := t.cm.channels, blind := false, stationaryTimer := some a.bank.params.stopConfirm } ∧
        t.mail.faults = s.mail.faults ∧ t.mail.creepReports = s.mail.creepReports ++ [.blind false]) ∧
      ((s.cm.validCount < 2 ↔ t.cm.validCount < 2) →
        t.cm = { s.cm with channels := t.cm.channels } ∧ t.mail.faults = s.mail.faults ∧
        t.mail.creepReports = s.mail.creepReports) ∧
      t = { s with
        cm := t.cm
        mail := { s.mail with
          toCreep := t.mail.toCreep, faults := t.mail.faults, creepReports := t.mail.creepReports } }

/-- EVALUATION (R113, R114, R116, R117): the increment is the distance of the channel that stands second among the VALID
ones, ranked by distance, then by axle position, then by channel number, and that channel is the one a crossing names; it
turns the decision to MOVING unless it is 0, and while counting it is accumulated; reaching Creep Limit is a crossing,
which raises CREEP and sends an escalation or a rollaway. Under BLIND no increment is formed. Every pending sum goes to
0 and the timer starts again. -/
def Obligations.EvaluationTakesTheSecondLargest : Prop :=
  ∀ (s : State) (a : ActiveBank),
    s.active = some a → s.cm.evalTimer = some 0 → s.cm.channels.length = 8 →
    let distance := fun n : Fin 8 =>
      (s.cm.channel n).pending * ((a.bank.extractionOf (.wheelPulse n)).getD .default).distance
    let axle := fun n : Fin 8 => ((a.bank.extractionOf (.wheelPulse n)).getD .default).axle
    let stands := fun n : Fin 8 => (s.cm.channel n).validity = .valid
    let emptied := s.cm.channels.map fun r => { r with pending := 0 }
    (s.cm.blind = true →
      exec .evaluation s = .next { s with cm := { s.cm with channels := emptied, evalTimer := some 20 } }) ∧
    (s.cm.blind = false → 2 ≤ s.cm.validCount →
      ∃ t first second, exec .evaluation s = .next t ∧
        stands first ∧ stands second ∧ Outranks distance axle first second ∧
        (∀ n, stands n → n ≠ first → n ≠ second → Outranks distance axle second n) ∧
        let x := distance second
        let total := min 65535 (s.cm.accumulator + x)
        let crosses := s.cm.counting = true ∧ a.bank.params.creepLimit * 10 ≤ total
        let moved := x ≠ 0 ∧ s.cm.stationary = true
        t.cm.channels = emptied ∧ t.cm.evalTimer = some 20 ∧
        t.cm.blind = false ∧ t.cm.told = s.cm.told ∧ t.cm.counting = s.cm.counting ∧
        (x = 0 → t.cm.stationary = s.cm.stationary ∧ t.cm.stationaryTimer = s.cm.stationaryTimer) ∧
        (x ≠ 0 → t.cm.stationary = false ∧ t.cm.stationaryTimer = some a.bank.params.stopConfirm) ∧
        (s.cm.counting = false → t.cm.accumulator = s.cm.accumulator) ∧
        (s.cm.counting = true → ¬ crosses → t.cm.accumulator = total) ∧
        (¬ crosses → t.cm.crossed = s.cm.crossed ∧ t.events = s.events ∧
          (moved → t.mail.creepReports = s.mail.creepReports ++ [.decision false]) ∧
          (¬ moved → t.mail.creepReports = s.mail.creepReports)) ∧
        (crosses → t.cm.accumulator = 0 ∧ t.events.set = s.events.set ||| 1#16 <<< 4 ∧
          ∃ reports, (moved → t.mail.creepReports = s.mail.creepReports ++ .decision false :: reports) ∧
            (¬ moved → t.mail.creepReports = s.mail.creepReports ++ reports) ∧
            (s.cm.told = .holding → t.cm.crossed = true ∧ reports = [.crossing s.cm.crossed second]) ∧
            (s.cm.told = .handover ∨ s.cm.told = .parked ∨ s.cm.told = .secured →
              t.cm.crossed = s.cm.crossed ∧ reports = [.crossing true second])) ∧
        t = { s with cm := t.cm, events := t.events, mail := { s.mail with creepReports := t.mail.creepReports } })

/-- STATIONARY_TIMER_EXPIRY, STATE_REPORT and REFUSED_COUNT (R110, R114, R115): the decision becomes STATIONARY and is
reported where it was MOVING; a state report sets the told state, arms or disarms the accumulation, empties the
accumulator and at an episode's start clears the crossing count; a refused count is a channel's new baseline. -/
def Obligations.CreepMonitorTakesItsEvents : Prop :=
  ∀ s : State,
    (s.cm.stationaryTimer = some 0 →
      exec .stationaryTimerExpiry s = .next { s with
        cm := { s.cm with stationary := true, stationaryTimer := none }
        mail := { s.mail with
          creepReports := s.mail.creepReports ++ (if s.cm.stationary then [] else [.decision true]) } }) ∧
    (∀ r rest, s.mail.stateReports = r :: rest →
      exec .stateReport s = .next { s with
        cm := { s.cm with
          told := r.state
          counting := decide (r.state ∈ [HoldState.holding, .handover, .parked, .secured])
          accumulator := 0
          crossed := s.cm.crossed && !r.episode }
        mail := { s.mail with stateReports := rest } }) ∧
    (∀ (n : Fin 8) (count : Nat) (rest : List CreepDelivery), s.mail.toCreep = .refused n count :: rest →
      s.cm.channels.length = 8 →
      exec .refusedCount s = .next { s with
        cm := { s.cm with channels := s.cm.channels.set n { s.cm.channel n with baseline := some count } }
        mail := { s.mail with toCreep := rest } })

/-! ## Transmit Scheduler (chapter 9) -/

/-- QUEUE_OFFER (R148, R154, R155, R156, R161, R165, R186). A forwarding copy is refused for a port in BUS_OFF, which it
does not reach (log 15), and for Port B in panic; a demand frame takes the place and the space of the HOLD entry that
waits. Any other frame is refused at 32 entries or without space; else it is admitted into dedicated space, or into
shared space, behind the entries that wait, and the choice of R156 is applied. A refusal is counted as QUEUE_DROP. -/
def Obligations.QueueOfferAdmitsOrRefuses : Prop :=
  ∀ (p : Port) (cls : TxClass) (f : Frame) (reset : Bool) (s : State) (before after : List Offer),
    s.mail.offers = before ++ ⟨p, cls, f, reset⟩ :: after → (∀ o ∈ before, ¬ (o.port = p ∧ o.cls = cls)) →
    let q := queueOf s p
    let minimum := ((txBank s).minima.get p).get cls
    let space := decide (q.dedicatedCount cls < minimum)
    let full := 32 ≤ q.entries.length ∨ (minimum ≤ q.dedicatedCount cls ∧ (txBank s).sharedSpace p ≤ q.sharedCount)
    let panics := p = .b ∧ (txBank s).params.panicWatermark ≤ s.tx.owed
    let out := fun counts : List Counter =>
      { s.mail with offers := before ++ after, counts := s.mail.counts ++ counts }
    let refused := exec (.queueOffer p cls) s = .next { s with
      sr := { s.sr with resetPending := if reset then .due else s.sr.resetPending }
      mail := out [.queueDrop p] }
    (cls = .forward → (s.links.get p).busOff = true →
      exec (.queueOffer p cls) s = .next { s with mail := out [.queueDrop p] }) ∧
    (cls = .forward → (s.links.get p).busOff = false → panics → refused) ∧
    (cls = .hold → ∀ ahead e behind, q.waiting = ahead ++ e :: behind → e.cls = .hold → (∀ x ∈ ahead, x.cls ≠ .hold) →
      exec (.queueOffer p cls) s = .next { s with
        tx := { s.tx with
          queues := s.tx.queues.set p
            { q with waiting := ahead ++ ⟨.hold, e.dedicated, f, none, 0, false, reset⟩ :: behind } }
        mail := out [] }) ∧
    ((cls = .forward → (s.links.get p).busOff = false ∧ ¬ panics) → (cls = .hold → q.hasWaiting .hold = false) →
      (full → refused) ∧
      (¬ full → ∃ t, exec (.queueOffer p cls) s = .next t ∧ Sends p { s with
        tx := { s.tx with
          queues := s.tx.queues.set p { q with waiting := q.waiting ++ [⟨cls, space, f, none, 0, false, reset⟩] } }
        mail := out (if cls = .forward then [.forwarded p.other] else []) } t))

/-- TRANSMISSION_SUCCESS (R141, R156, R157, R162, R163, R166, R167, R186): the entry in transmission leaves and the waiting
ones stay, the port's error count is 0, and the choice of R156 is applied; a demand frame that is not from before an
activation advances the alive counter and settles what is owed; a Status Frame clears the events it carried that were not
raised again and advances its counter; the OK response of a RESET_PART makes the reset due. -/
def Obligations.TransmissionSuccessTakesTheEntryOut : Prop :=
  ∀ (p : Port) (s : State) (e : Entry), (queueOf s p).sending = some e →
    ∃ u t, exec (.transmissionSuccess p) s = .next t ∧ Sends p u t ∧
      u.tx.queues = s.tx.queues.set p ⟨(queueOf s p).waiting, none⟩ ∧
      u.links = s.links.set p { s.links.get p with errors := 0 } ∧ u.events.again = s.events.again ∧
      (e.cls ≠ .status → u.events.set = s.events.set) ∧
      (∀ c, e.cls = .hold → p = .b → e.stale = false → e.alive = some c →
        u.tx = { s.tx with
          queues := u.tx.queues, nextDemand := (c + 1) % 15, owed := 0, starved := false
          outstanding := (queueOf s .b).hasWaiting .hold }) ∧
      (e.cls = .hold → e.stale = true → u.tx = { s.tx with queues := u.tx.queues }) ∧
      (∀ c, e.cls = .status → e.alive = some c →
        u.events.set = s.events.set &&& ~~~(e.carried &&& ~~~s.events.again) ∧
        u.tx = { s.tx with
          queues := u.tx.queues, nextStatus := if e.stale then s.tx.nextStatus else (c + 1) % 15 }) ∧
      (e.cls = .forward ∨ e.cls = .service → u.tx = { s.tx with queues := u.tx.queues }) ∧
      u.sr = { s.sr with resetPending := if e.cls = .service ∧ e.reset = true then .due else s.sr.resetPending } ∧
      u = { s with tx := u.tx, links := u.links, events := u.events, sr := u.sr }

/-- TRANSMISSION_ERROR (R141, R142, R156, R158, R159, R165, R168, R186): the failed entry goes back before the entries that
wait, a STATUS frame from before an activation to start anew; but a demand frame gives way to a waiting one, and one
from before an activation, or on Port B in panic a FORWARD frame, is dropped and counted as QUEUE_DROP. TX_ERROR is
counted and the error count rises. Below the sixteenth error in a row the choice of R156 is applied. At the sixteenth
the port is in BUS_OFF for 500 ms and reports PORT_BUS_OFF, MAJOR on Port B; the waiting HOLD entries stay, and every other
entry is discarded and counted as QUEUE_DROP. -/
def Obligations.TransmissionErrorReturnsOrDrops : Prop :=
  ∀ (p : Port) (s : State) (e : Entry), (queueOf s p).sending = some e →
    let q := queueOf s p
    let again : Entry := if e.cls = .status ∧ e.stale = true then { e with alive := none, stale := false } else e
    let drops := (e.cls = .hold ∧ e.stale = true) ∨
      (e.cls = .forward ∧ p = .b ∧ (txBank s).params.panicWatermark ≤ s.tx.owed)
    let gives := e.cls = .hold ∧ e.stale = false ∧ ∃ x ∈ q.waiting, x.cls = .hold
    let errors := (s.links.get p).errors + 1
    ∀ (kept : List Entry) (dropped : List Counter),
      (drops → kept = q.waiting ∧ dropped = [.queueDrop p]) → (gives → kept = q.waiting ∧ dropped = []) →
      (¬ drops → ¬ gives → kept = again :: q.waiting ∧ dropped = []) →
      let counts := s.mail.counts ++ dropped ++ [.txError p]
      (errors < 16 → ∃ t, exec (.transmissionError p) s = .next t ∧ Sends p { s with
        tx := { s.tx with queues := s.tx.queues.set p ⟨kept, none⟩ }
        links := s.links.set p { s.links.get p with errors := errors }
        sr := { s.sr with resetPending := if e.reset then .due else s.sr.resetPending }
        mail := { s.mail with counts := counts } } t) ∧
      (16 ≤ errors →
        let held := kept.filter fun x => x.cls == .hold
        let gone := kept.filter fun x => x.cls != .hold
        exec (.transmissionError p) s = .next { s with
          tx := { s.tx with queues := s.tx.queues.set p ⟨held, none⟩ }
          links := s.links.set p ⟨true, errors, some 500⟩
          sr := { s.sr with resetPending := if e.reset || gone.any Entry.reset then .due else s.sr.resetPending }
          mail := { s.mail with
            counts := counts ++ List.replicate gone.length (.queueDrop p)
            faults := s.mail.faults ++ [⟨if p = .b then .major else .minor, .portBusOff, .port p, none⟩] } })

/-- RECOVERY_EXPIRY (R143, R156, R159): the port is ACTIVE with no errors in a row, raises no event and reports nothing,
and the choice of R156 is applied, a waiting HOLD entry first. -/
def Obligations.RecoveryReturnsThePort : Prop :=
  ∀ (p : Port) (s : State), (s.links.get p).recovery = some 0 →
    ∃ t, exec (.recoveryExpiry p) s = .next t ∧ Sends p { s with links := s.links.set p ⟨false, 0, none⟩ } t ∧
      (queueOf t p).entries.length = (queueOf s p).entries.length ∧ t.events.set = s.events.set ∧
      (s.loading = false → (queueOf s p).sending = none → (queueOf s p).hasWaiting .hold = true →
        ∃ e, (queueOf t p).sending = some e ∧ e.cls = .hold)

/-- DEMAND_PERIOD_EXPIRY (R155, R160, R161, R163 to R165, R187; DemandMade): the owed count rises by 1 where a demand was
outstanding; at the HP Watermark DEMAND_LATE is raised; at the generation that brings it to the Panic Watermark the waiting
FORWARD entries of Port B go, each counted as QUEUE_DROP, and at that watermark on an ACTIVE port a stretch's first
generation reports DEMAND_STARVED; the timer starts again. The new frame takes the place and the space of a waiting HOLD
entry; where none waits it is refused and counted at 32 entries or without space, and else admitted behind what the queue
holds, into dedicated or shared space, and the choice of R156 is applied; that the FORWARD entries go before it is offered
is the model's choice (log 34). On an idle Port B with the dedicated place free the frame is started, with the bytes of
R187. -/
def Obligations.DemandPeriodGeneratesADemand : Prop :=
  ∀ (s : State), s.tx.demandTimer = some 0 → ∃ t, exec .demandPeriodExpiry s = .next t ∧ DemandMade s t

/-- STATUS_PERIOD_EXPIRY (R155, R156, R166, R167, R187): with a Status Frame already waiting none is offered. Otherwise one
is refused at 32 entries or without space, counted as QUEUE_DROP with its events left in the set, or admitted behind what
the queue of Port C holds, into dedicated or shared space, and the choice of R156 is applied: on an idle port with an empty
queue and space it is started with the contents of the moment. The timer starts again. -/
def Obligations.StatusPeriodOffersAStatus : Prop :=
  ∀ (s : State), s.tx.statusTimer = some 0 →
    let params := (txBank s).params
    ((queueOf s .c).hasWaiting .status = true →
      exec .statusPeriodExpiry s = .next { s with tx := { s.tx with statusTimer := some params.statusPeriod } }) ∧
    ((queueOf s .c).hasWaiting .status = false →
      let q := queueOf s .c
      let minimum := (txBank s).minima.c.status
      let space := decide (q.dedicatedCount .status < minimum)
      let full := 32 ≤ q.entries.length ∨
        (minimum ≤ q.dedicatedCount .status ∧ (txBank s).sharedSpace .c ≤ q.sharedCount)
      (full → exec .statusPeriodExpiry s = .next { s with
        tx := { s.tx with statusTimer := some params.statusPeriod }
        mail := { s.mail with counts := s.mail.counts ++ [.queueDrop .c] } }) ∧
      (¬ full → ∃ t, exec .statusPeriodExpiry s = .next t ∧ Sends .c { s with
        tx := { s.tx with
          statusTimer := some params.statusPeriod
          queues := s.tx.queues.set .c { q with waiting := q.waiting ++
            [⟨.status, space, ⟨params.statusIdent, false, []⟩, none, 0, false, false⟩] } } } t)) ∧
    (s.loading = false → s.links.c.busOff = false → queueOf s .c = ⟨[], none⟩ → 0 < (txBank s).minima.c.status →
      let body := [byte (s.hc.state.code + 16 * Cause.code s.hc.cause + 64 * bit s.hc.degraded + 128 * bit s.sr.serviceMode),
        byte s.events.set.toNat, byte (s.events.set.toNat / 256)] ++ faultBytes s.fc.record ++ [byte s.tx.nextStatus]
      exec .statusPeriodExpiry s = .next { s with
        tx := { s.tx with
          statusTimer := some params.statusPeriod
          queues := s.tx.queues.set .c ⟨[], some ⟨.status, true,
            ⟨params.statusIdent, false, body ++ [byte (255 - (params.txSeed + byteSum body) % 256)]⟩,
            some s.tx.nextStatus, s.events.set, false, false⟩⟩ }
        events := { s.events with again := 0 } })

/-! ## Fault Capture (chapter 10) -/

/-- FAULT_REPORT and COUNTER_COUNT (R169, R170, R174): a report is captured into an empty record, or a MAJOR one over a
MINOR fault, with the hold state and the time count of the moment, and FAULT_CAPTURED is raised (a report made with a
change of hold state is taken with the state that R169 names, log 29); any other is a repeat.
A count adds 1 to its counter, up to 65,535, and to no other. -/
def Obligations.FaultCaptureTakesReportsAndCounts : Prop :=
  ∀ s : State,
    (∀ n r, s.mail.faults[n]? = some r →
      ((s.fc.record = none ∨ ∃ old, s.fc.record = some old ∧ old.severity = .minor ∧ r.severity = .major) →
        ∃ t, exec (.faultReport n) s = .next t ∧
          t.fc.record = some ⟨r.severity, r.kind, r.subject, r.state.getD s.hc.state, s.now, 0⟩ ∧
          t.events.set = s.events.set ||| 1#16 <<< 15 ∧
          t = { s with
            fc := { s.fc with record := t.fc.record }
            events := t.events
            mail := { s.mail with faults := s.mail.faults.eraseIdx n } }) ∧
      (∀ old, s.fc.record = some old → ¬ (old.severity = .minor ∧ r.severity = .major) →
        exec (.faultReport n) s = .next { s with
          fc := { s.fc with record := some { old with repeats := min 255 (old.repeats + 1) } }
          mail := { s.mail with faults := s.mail.faults.eraseIdx n } })) ∧
    (∀ c rest, s.mail.counts = c :: rest → s.fc.monitors.length = 24 →
      ∃ t, exec .counterCount s = .next t ∧ c.read t.fc = min 65535 (c.read s.fc + 1) ∧
        (∀ other, other ≠ c → other.read t.fc = other.read s.fc) ∧ t.fc.record = s.fc.record ∧
        t = { s with fc := t.fc, mail := { s.mail with counts := rest } })


/-! ## Service Responder (chapter 11) -/

/-- R177: while the store write is in flight or a reset is pending every request is answered BUSY and has no other
effect; otherwise a command byte that names no command, or a frame too short for its command's arguments, is answered
BAD_VALUE, the Service Idle timer starting again in service mode. A request without a command is discarded, under BUSY
too; that it leaves the Service Idle timer is deduced (log 13). -/
def Obligations.RequestsAnsweredBusyOrBadValue : Prop :=
  ∀ (p : Port) (s : State) (f : Frame) (rest : List Request), Asks p f rest s →
    ((f.remote = true ∨ f.data = []) →
      exec (.unknownCommandRequest p) s = .next { s with mail := { s.mail with requests := rest } }) ∧
    (∀ (code : Byte) (tail : List Byte) (c : Instr) (arguments : Nat), f.remote = false → f.data = code :: tail →
      (code.toNat, c, arguments) ∈ [(1, Instr.enterService p, 0), (2, .exitService p, 0), (3, .readEntry p, 4),
          (4, .writeField p, 7), (5, .activate p, 0), (6, .readSignal p, 1), (7, .readCounters p, 2),
          (8, .readFault p, 1), (9, .clearFault p, 0), (10, .readClaims p, 1), (11, .testHold p, 7),
          (12, .releaseTest p, 1), (13, .resetPart p, 0)] ∨
        (c = .unknownCommandRequest p ∧ arguments = 8 ∧ (code = 0 ∨ 13 < code.toNat)) →
      (¬ Ready s → exec c s = .next (answered p code.toNat .busy [0, 0, 0, 0, 0, 0]
        { s with mail := { s.mail with requests := rest } })) ∧
      (Ready s → tail.length < arguments →
        exec c s = .next (answered p code.toNat .badValue [0, 0, 0, 0, 0, 0] (taken rest s))))

/-- ENTER_SERVICE, EXIT_SERVICE and SERVICE_IDLE_EXPIRY (R176, R179, R180): entered from PARKED or OFF alone, with a
staging bank copied from the active one, or with every field at its default (R2, R4, R25, R41, R89, R90, R107, R124, R144,
R153), and 60 s of idle time; left by command or at the idle expiry,
the staging bank discarded, and only the leaving by command is answered. -/
def Obligations.ServiceModeBeginsAndEnds : Prop :=
  ∀ (p : Port) (s : State),
    let ended := fun (u : State) => { u with sr := { u.sr with serviceMode := false, staging := none, idle := none } }
    (∀ f tail rest, Asks p f rest s → Ready s → f.remote = false → f.data = 1 :: tail →
      (s.sr.serviceMode = false → (s.hc.state = .parked ∨ s.hc.state = .off) →
        ∃ t bank, exec (.enterService p) s = .next t ∧
          (∀ a, s.active = some a → bank = a.bank) ∧ (s.active = none → bank = Bank.default ∧ Defaults bank) ∧
          t = answered p 1 .ok [0, 0, 0, 0, 0, 0] { s with
            sr := { s.sr with serviceMode := true, staging := some bank, idle := some 60000 }
            mail := { s.mail with requests := rest } }) ∧
      (s.sr.serviceMode = true ∨ (s.hc.state ≠ .parked ∧ s.hc.state ≠ .off) →
        exec (.enterService p) s = .next (answered p 1 .refusedState [0, 0, 0, 0, 0, 0] (taken rest s)))) ∧
    (∀ f tail rest, Asks p f rest s → Ready s → f.remote = false → f.data = 2 :: tail →
      (s.sr.serviceMode = true →
        exec (.exitService p) s = .next (answered p 2 .ok [0, 0, 0, 0, 0, 0] (ended (taken rest s)))) ∧
      (s.sr.serviceMode = false →
        exec (.exitService p) s = .next (answered p 2 .refusedState [0, 0, 0, 0, 0, 0] (taken rest s)))) ∧
    (s.sr.idle = some 0 → exec .serviceIdleExpiry s = .next (ended s))

/-- READ_ENTRY (R24, R178, R188, R189): the selector, service mode, the active bank, the table, the index and the field are
tested in that order; the value answered is the field's, the running state of a frame monitor only from the active bank:
in fields 16 to 21, which read 0 for a monitor not in use, the minimum data length, the sync state, the good count, the
loss window, which reads 0 outside VALID, the counter baseline and the period timer, 0xFFFFFFFF where absent or not
running; in fields 22 to 24 the monitor's counters. Nothing else changes. -/
def Obligations.ReadEntryAnswersTheField : Prop :=
  ∀ (p : Port) (s : State) (f : Frame) (rest : List Request) (table index field selector : Byte) (tail : List Byte),
    Asks p f rest s → Ready s → f.remote = false → f.data = 3 :: table :: index :: field :: selector :: tail →
    let answer := fun (status : Status) (v : Word32) => exec (.readEntry p) s =
      .next (answered p 3 status [byte v.toNat, byte (v.toNat / 256), byte (v.toNat / 65536),
        byte (v.toNat / 16777216), 0, 0] (taken rest s))
    let judged := fun (value : Option Word32) =>
      (8 < table.toNat → answer .badTable 0) ∧
      (∀ n, tableSize table.toNat = some n →
        (n ≤ index.toNat → answer .badIndex 0) ∧
        (index.toNat < n → value = none → answer .badField 0) ∧
        (∀ v, index.toNat < n → value = some v → answer .ok v))
    (selector ≠ 0 → selector ≠ 1 → answer .badValue 0) ∧
    (selector = 1 → s.sr.serviceMode = false → answer .refusedState 0) ∧
    (selector = 0 → s.active = none → answer .notReady 0) ∧
    (∀ a, selector = 0 → s.active = some a → judged (readActive s a table.toNat index.toNat field.toNat)) ∧
    (∀ a v, selector = 0 → s.active = some a → (∀ n, tableSize table.toNat = some n → index.toNat < n) →
      table.toNat ≤ 8 → readStaging a.bank table.toNat index.toNat field.toNat = some v → answer .ok v) ∧
    (∀ a, selector = 0 → s.active = some a → table = 0 → index.toNat < 24 →
      let i := index.toNat
      let m := s.sm.state i
      let k := s.fc.monitor i
      let number := fun n : Nat => answer .ok (BitVec.ofNat 32 n)
      let optional := fun x : Option Nat => (x = none → answer .ok 0xFFFFFFFF) ∧ ∀ n, x = some n → number n
      ((a.bank.monitor i).inUse = false → 16 ≤ field.toNat → field.toNat ≤ 21 → number 0) ∧
      ((a.bank.monitor i).inUse = true →
        (field = 16 → number (a.minLength i)) ∧
        (field = 17 → (m.sync = .acquiring → number 0) ∧ (m.sync = .valid → number 1) ∧ (m.sync = .lost → number 2)) ∧
        (field = 18 → number m.good) ∧
        (field = 19 → m.sync ≠ .valid → number 0) ∧
        (field = 19 → m.sync = .valid → ∃ n, number n ∧ ∀ j, n.testBit j = m.window.getD j false) ∧
        (field = 20 → optional m.baseline) ∧ (field = 21 → optional m.timer)) ∧
      (field = 22 → number k.good) ∧ (field = 23 → number k.errors) ∧ (field = 24 → number k.losses) ∧
      ((11 ≤ field.toNat ∧ field.toNat ≤ 15) ∨ 25 ≤ field.toNat → answer .badField 0)) ∧
    (∀ b, selector = 1 → s.sr.serviceMode = true → s.sr.staging = some b →
      judged (readStaging b table.toNat index.toNat field.toNat) ∧
      (table = 0 → index.toNat < 24 → 11 ≤ field.toNat → answer .badField 0))

/-- WRITE_FIELD (R181, R188, R189): service mode, the table, the index, the field and the value are tested in that
order; when every test passes the staging bank alone changes. -/
def Obligations.WriteFieldTestsInOrder : Prop :=
  ∀ (p : Port) (s : State) (f : Frame) (rest : List Request) (table index field v0 v1 v2 v3 : Byte) (tail : List Byte),
    Asks p f rest s → Ready s → f.remote = false →
    f.data = 4 :: table :: index :: field :: v0 :: v1 :: v2 :: v3 :: tail →
    let value : Word32 := BitVec.ofNat 32 (v0.toNat + 256 * v1.toNat + 65536 * v2.toNat + 16777216 * v3.toNat)
    let refuses := fun (status : Status) =>
      exec (.writeField p) s = .next (answered p 4 status [0, 0, 0, 0, 0, 0] (taken rest s))
    (s.sr.serviceMode = false → refuses .refusedState) ∧
    (∀ b, s.sr.serviceMode = true → s.sr.staging = some b →
      (8 < table.toNat → refuses .badTable) ∧
      (∀ n, tableSize table.toNat = some n →
        (n ≤ index.toNat → refuses .badIndex) ∧
        (index.toNat < n → bankField table.toNat index.toNat field.toNat = none → refuses .badField) ∧
        (∀ spec, index.toNat < n → bankField table.toNat index.toNat field.toNat = some spec →
          (spec.put b value = none → refuses .badValue) ∧
          (∀ b', spec.put b value = some b' →
            exec (.writeField p) s = .next (answered p 4 .ok [0, 0, 0, 0, 0, 0]
              { taken rest s with sr := { s.sr with staging := some b', idle := some 60000 } })))))

/-- R181, R189: the fields of every table have the numbers and the ranges of their chapters: a value in range is written
and the entry holds it, another is refused with BAD_VALUE, and a number without a field with BAD_FIELD (entry 0 of the
rate table has none, its class 0 being unpoliced). A field written reads back as the value written, every other field of
the bank reads as before, and the tables keep their numbers of entries. -/
def Obligations.WrittenFieldReadsBack : Prop :=
  (∀ b : Bank, b.Shaped →
    (∀ i < 24, RowsHold monitorRows 0 i (fun x => x.monitors[i]?) b) ∧
    (∀ i < 64, RowsHold extractionRows 1 i (fun x => x.extractions[i]?) b) ∧
    (∀ i < 128, RowsHold forwardRows 2 i (fun x => x.forwarding[i]?) b) ∧
    (∀ n v, writeBank b 3 0 n v = .error .badField) ∧
    (∀ i < 7, RowsHold [.nat 0 1 255 RateRow.refill, .nat 1 1 255 RateRow.depth] 3 (i + 1) (fun x => x.rates[i]?) b) ∧
    (∀ i < 48, RowsHold [.nat 0 0 125 fun cell => cell] 4 i (fun x => x.cells[i]?) b) ∧
    RowsHold paramRows 5 0 (fun x => some x.params) b ∧
    (∀ i axle, [Axle.f1, .f2, .t1, .t2, .p][i]? = some axle →
      RowsHold [.nat 0 0 1500 AxleParams.rated, .nat 1 10 200 AxleParams.gain] 6 i (fun x => some (x.axles.get axle)) b) ∧
    RowsHold minimaRows 7 0 (fun x => some x.minima.c) b ∧ RowsHold minimaRows 7 1 (fun x => some x.minima.b) b ∧
    RowsHold (boundRows 8 400) 8 0 (fun x => some x.gradeBounds) b ∧
    RowsHold (boundRows 6 65535) 8 1 (fun x => some x.massBounds) b) ∧
  ∀ (b b' : Bank) (table index field : Nat) (value : Word32),
    b.Shaped → writeBank b table index field value = .ok b' →
    readStaging b' table index field = some value ∧ b'.Shaped ∧
    ∀ table' index' field' n, tableSize table' = some n → index' < n →
      (table', index', field') ≠ (table, index, field) →
      readStaging b' table' index' field' = readStaging b table' index' field'

/-- READ_SIGNAL, READ_FAULT and READ_CLAIMS (R84, R172, R178, R188): each answers with what the part holds when the
request is taken, and changes nothing of it. The seconds left to a claim are rounded up; that a claim whose timer stands
at 0, its expiry still to come, is answered with 1 second is deduced (log 26). -/
def Obligations.ReadsAnswerWhatIsHeld : Prop :=
  ∀ (p : Port) (s : State) (f : Frame) (rest : List Request) (which : Byte) (tail : List Byte),
    Asks p f rest s → Ready s → f.remote = false →
    let answer := fun (c : Instr) (code : Nat) (status : Status) (data : List Byte) =>
      exec c s = .next (answered p code status data (taken rest s))
    (f.data = 6 :: which :: tail →
      (28 < which.toNat → answer (.readSignal p) 6 .badIndex [0, 0, 0, 0, 0, 0]) ∧
      (∀ k : SignalKind, k.code = which.toNat →
        let w := (BitVec.ofInt 32 ((s.sm.entry k).value.getD 0)).toNat
        answer (.readSignal p) 6 .ok [byte (s.sm.entry k).validity.code, byte w, byte (w / 256), byte (w / 65536),
          byte (w / 16777216), 0])) ∧
    (f.data = 8 :: which :: tail →
      (1 < which.toNat → answer (.readFault p) 8 .badValue [0, 0, 0, 0, 0, 0]) ∧
      (which.toNat ≤ 1 → s.fc.record = none → answer (.readFault p) 8 .ok [0, 0, 0, 0, 0, 0]) ∧
      (∀ r, which = 0 → s.fc.record = some r → answer (.readFault p) 8 .ok
        [if r.severity = .major then 3 else 1, byte r.kind.code, byte r.subject.code, byte r.state.code,
          byte r.repeats, 0]) ∧
      (∀ r, which = 1 → s.fc.record = some r →
        let w := r.timestamp.toNat
        answer (.readFault p) 8 .ok [1, byte w, byte (w / 256), byte (w / 65536), byte (w / 16777216), 0])) ∧
    (f.data = 10 :: which :: tail → s.hc.claims.length = 6 →
      let part := tail.headD 0
      (5 < which.toNat → answer (.readClaims p) 10 .badIndex [0, 0, 0, 0, 0, 0]) ∧
      (which.toNat ≤ 5 → 1 < part.toNat → answer (.readClaims p) 10 .badValue [0, 0, 0, 0, 0, 0]) ∧
      (s.hc.claims[which.toNat]? = some none → part.toNat ≤ 1 →
        answer (.readClaims p) 10 .ok [0, 0, 0, 0, 0, 0]) ∧
      (∀ c, s.hc.claims[which.toNat]? = some (some c) → part = 0 →
        let floorA := c.floorA.getD 0
        let floorB := c.floorB.getD 0
        answer (.readClaims p) 10 .ok [byte c.source.code, byte c.tag, byte floorA, byte (floorA / 256),
          byte floorB, byte (floorB / 256)]) ∧
      (∀ c, s.hc.claims[which.toNat]? = some (some c) → part = 1 →
        let seconds := match c.timer with | some ms => max 1 ((ms + 999) / 1000) | none => 0xFFFF
        let w := c.granted.toNat
        answer (.readClaims p) 10 .ok [byte seconds, byte (seconds / 256), byte w, byte (w / 256), byte (w / 65536),
          byte (w / 16777216)]))

/-- READ_COUNTERS and CLEAR_FAULT (R172, R174, R175, R188): a group's counters in their order, each 16 bits, and with
the clear flag those counters alone are 0 afterwards; a group above 29 is answered BAD_INDEX and another clear flag than 0
or 1 BAD_VALUE, and that the group is tested first is the model's choice (log 35). CLEAR_FAULT empties the record alone. -/
def Obligations.CountersReadAndFaultCleared : Prop :=
  ∀ (p : Port) (s : State) (f : Frame) (rest : List Request),
    Asks p f rest s → Ready s → f.remote = false →
    (∀ group flag tail, f.data = 7 :: group :: flag :: tail →
      let low := fun n : Nat => byte n
      let high := fun n : Nat => byte (n / 256)
      let refuses := fun (status : Status) =>
        exec (.readCounters p) s = .next (answered p 7 status [0, 0, 0, 0, 0, 0] (taken rest s))
      (29 < group.toNat → refuses .badIndex) ∧
      (group.toNat ≤ 29 → 1 < flag.toNat → refuses .badValue) ∧
      (group.toNat ≤ 29 → flag.toNat ≤ 1 → s.fc.monitors.length = 24 →
        ∃ t x y z, exec (.readCounters p) s = .next t ∧
          ((groupCounters group.toNat).map (fun c => c.read s.fc) = [x, y, z] ∨
            (groupCounters group.toNat).map (fun c => c.read s.fc) = [x] ∧ y = 0 ∧ z = 0) ∧
          (∀ c, c.read t.fc = if c ∈ groupCounters group.toNat ∧ flag = 1 then 0 else c.read s.fc) ∧
          t.fc.record = s.fc.record ∧
          t = { answered p 7 .ok [low x, high x, low y, high y, low z, high z] (taken rest s) with fc := t.fc })) ∧
    (∀ tail, f.data = 9 :: tail →
      exec (.clearFault p) s = .next (answered p 9 .ok [0, 0, 0, 0, 0, 0]
        { taken rest s with fc := { s.fc with record := none } }))

/-- Claim requests (R48, R70, R72, R73, R75 to R81, R188). TEST_HOLD: the arguments, service mode and the hold state are
tested in that order; in HOLDING a new tag takes the lowest free slot from 1 to 5, the same tag refreshes its claim and
keeps the granted time, and a floor limited to the Maximum Pressure raises the demand; from INACTIVE or ARMED a granted
request starts HOLDING with its claim in slot 1, one that an entry condition bars is answered with the code of the first
that fails in the order of R48, and in RELEASING it returns to HOLDING from P_start. HC_PUBLICATION of a
signal source's kind, VALID at 1, with its latch IDLE makes the same request of that source, with no floor and no
expiry: an acceptance sets the latch to ASSERTED, a refusal to REFUSED with CLAIM_REFUSED; with the latch not IDLE, or
the kind not VALID, the set is only recorded. The tests of the hold state follow a set that leaves it; that they come after
the request, and that nothing more is taken once a request has changed the state, is the model's choice (log 10). A set
that carries other kinds besides is that of PublicationLeavesStarting and PublicationHandsOver. The degraded flag is
recorded with the set from the controller's own copies of its two conditions (R47; deduced: log 24). -/
def Obligations.TestHoldPlacesAServiceClaim : Prop :=
  (∀ (p : Port) (s : State) (f : Frame) (rest : List Request) (tag e0 e1 a0 a1 b0 b1 : Byte) (tail : List Byte),
    Asks p f rest s → Ready s → f.remote = false → f.data = 11 :: tag :: e0 :: e1 :: a0 :: a1 :: b0 :: b1 :: tail →
    let expiry := e0.toNat + 256 * e1.toNat
    let floorA := a0.toNat + 256 * a1.toNat
    let floorB := b0.toNat + 256 * b1.toNat
    let fits := 1 ≤ tag.toNat ∧ tag.toNat ≤ 3 ∧ 1 ≤ expiry ∧ expiry ≤ 600 ∧ floorA ≤ 1000 ∧ floorB ≤ 1000
    let present := fun n : Nat => if n = 0 then none else some n
    let claim := fun granted : Word32 => (⟨.service, tag.toNat, present floorA, present floorB, some expiry, granted,
      some (expiry * 1000)⟩ : Claim)
    let answer := fun (status : Status) (slot : Nat) => answered p 11 status [byte slot, 0, 0, 0, 0, 0] (taken rest s)
    let refuses := fun (status : Status) => exec (.testHold p) s = .next (answer status 0)
    let same := fun c : Claim => c.source = .service ∧ c.tag = tag.toNat
    (¬ fits → refuses .badValue) ∧
    (fits → s.sr.serviceMode = true → refuses .refusedState) ∧
    (fits → s.sr.serviceMode = false → s.active = none ∨ s.hc.state = .off ∨ s.hc.state = .starting →
      refuses .notReady) ∧
    (∀ a, fits → s.sr.serviceMode = false → s.active = some a →
      let top := a.bank.maxPressure
      let d := s.hc.demand.pressure
      let floored : Circuits → Circuits := fun x => ⟨max x.a (min floorA top.a), max x.b (min floorB top.b)⟩
      let places := fun (slot : Nat) (granted : Word32) =>
        exec (.testHold p) s = .next { answer .ok slot with
          hc := { s.hc with
            claims := s.hc.claims.set slot (some (claim granted))
            demand := { s.hc.demand with pressure := floored d } } }
      let begins := fun (start : Circuits) (episode : Bool) =>
        HoldBegun a.bank [none, some (claim s.now), none, none, none, none] (floored start) episode (answer .ok 1)
          (exec (.testHold p) s)
      (s.hc.state = .handover ∨ s.hc.state = .parked ∨ s.hc.state = .secured → refuses .satisfied) ∧
      (∀ status, (s.hc.state = .inactive ∨ s.hc.state = .armed) → EntryRefused a.bank s.hc status →
        refuses status) ∧
      ((s.hc.state = .inactive ∨ s.hc.state = .armed) → EntryHolds a.bank s.hc → s.hc.claims = noClaims →
        begins s.hc.resultPressure true) ∧
      (∀ ramp, s.hc.state = .releasing → s.hc.ramp = some ramp → s.hc.claims = noClaims →
        begins ⟨max ramp.start.a s.hc.resultPressure.a, max ramp.start.b s.hc.resultPressure.b⟩ false) ∧
      (s.hc.state = .holding → s.hc.resultPressure.within d → (s.hc.limitedFloors a.bank).within d →
        (∀ slot c, s.hc.claims[slot]? = some (some c) → same c →
          (∀ i x, s.hc.claims[i]? = some (some x) → same x → i = slot) → places slot c.granted) ∧
        ((∀ c, some c ∈ s.hc.claims → ¬ same c) →
          (∀ slot, 1 ≤ slot → slot ≤ 5 → s.hc.claims[slot]? = some none →
            (∀ i, 1 ≤ i → i < slot → s.hc.claims[i]? ≠ some none) → places slot s.now) ∧
          ((∀ i, 1 ≤ i → i ≤ 5 → s.hc.claims[i]? ≠ some none) → refuses .noSlot))))) ∧
  (∀ (s : State) (a : ActiveBank) (src : Source) (set : HcSet) (rest : List HcSet) (x : PubItem),
    s.active = some a → s.mail.toHc = set :: rest → set.items = [x] → src.SignalOf x.kind →
    (s.hc.state = .starting → set.allOnce ≠ some true) →
    let b := a.bank
    let u := withSet set rest s
    let r := exec .hcPublication s
    let asserted := { u with hc := u.hc.latched src .asserted }
    let refused := raisedIn 1 { u with hc := u.hc.latched src .refused }
    let same := fun c : Claim => c.source = src ∧ c.tag = 0
    let claims := [none, some (signalClaim src s.now), none, none, none, none]
    let placed := fun (slot : Nat) (granted : Word32) =>
      { asserted with hc := { asserted.hc with claims := s.hc.claims.set slot (some (signalClaim src granted)) } }
    let rises := x.validity = .valid ∧ x.value = some 1
    (¬ (x.validity = .valid ∧ x.value = some 0) → ¬ (rises ∧ s.hc.latch src = .idle) → StateTested b u r) ∧
    (rises → s.hc.latch src = .idle →
      (s.hc.state = .off ∨ s.hc.state = .starting → r = .next refused) ∧
      (s.hc.state = .inactive ∨ s.hc.state = .armed →
        (¬ EntryHolds b u.hc → StandTested b refused r) ∧
        (EntryHolds b u.hc → s.hc.claims = noClaims → HoldBegun b claims s.hc.resultPressure true asserted r)) ∧
      (s.hc.state = .holding → s.hc.resultPressure.within s.hc.demand.pressure →
        (s.hc.limitedFloors b).within s.hc.demand.pressure →
        (∀ slot c, s.hc.claims[slot]? = some (some c) → same c →
          (∀ i y, s.hc.claims[i]? = some (some y) → same y → i = slot) → HoldTested b (placed slot c.granted) r) ∧
        ((∀ c, some c ∈ s.hc.claims → ¬ same c) →
          (∀ slot, 1 ≤ slot → slot ≤ 5 → s.hc.claims[slot]? = some none →
            (∀ i, 1 ≤ i → i < slot → s.hc.claims[i]? ≠ some none) → HoldTested b (placed slot s.now) r) ∧
          ((∀ i, 1 ≤ i → i ≤ 5 → s.hc.claims[i]? ≠ some none) → HoldTested b refused r))) ∧
      (∀ ramp, s.hc.state = .releasing → s.hc.ramp = some ramp → s.hc.claims = noClaims →
        HoldBegun b claims ⟨max ramp.start.a s.hc.resultPressure.a, max ramp.start.b s.hc.resultPressure.b⟩ false
          asserted r) ∧
      (s.hc.state = .handover ∨ s.hc.state = .parked ∨ s.hc.state = .secured → r = .next asserted)))

/-- Claim releases (R73, R82, R85, R86). RELEASE_TEST: a tag out of range, or without a standing claim, changes nothing;
otherwise the claim leaves the table and the demand stays. With claims left the hold goes on unless a handover condition
now stands; the last one becomes a DRIVER claim where the driver is present, and otherwise the controller hands over.
HC_PUBLICATION of a signal source's kind, VALID at 0, sets its latch to IDLE and, where that was ASSERTED, takes the
source's claim out in the same way. The tests of the hold state follow a set that leaves it; that they come after the
release, and that nothing more is taken once it has changed the state, is the model's choice (log 10). A set that carries
other kinds besides is that of PublicationLeavesStarting and PublicationHandsOver. The degraded flag is recorded with the
set from the controller's own copies of its two conditions (R47; deduced: log 24). -/
def Obligations.ReleaseTestRemovesTheClaim : Prop :=
  (∀ (p : Port) (s : State) (f : Frame) (rest : List Request) (tag : Byte) (tail : List Byte),
    Asks p f rest s → Ready s → f.remote = false → f.data = 12 :: tag :: tail →
    let same := fun c : Claim => c.source = .service ∧ c.tag = tag.toNat
    let answer := fun (status : Status) => answered p 12 status [0, 0, 0, 0, 0, 0] (taken rest s)
    let r := exec (.releaseTest p) s
    (tag = 0 ∨ 3 < tag.toNat → r = .next (answer .badValue)) ∧
    (tag ≠ 0 → tag.toNat ≤ 3 → (s.active = none ∨ ∀ c, some c ∈ s.hc.claims → ¬ same c) →
      r = .next (answer .badIndex)) ∧
    (∀ a slot c, tag ≠ 0 → tag.toNat ≤ 3 → s.active = some a → s.hc.state = .holding → s.hc.claims.length = 6 →
      s.hc.claims[slot]? = some (some c) → same c →
      (∀ i x, s.hc.claims[i]? = some (some x) → same x → i = slot) → s.hc.resultPressure.within s.hc.demand.pressure →
      (s.hc.limitedFloors a.bank).within s.hc.demand.pressure →
      let left := s.hc.claims.set slot none
      let u := { answer .ok with hc := { s.hc with claims := left } }
      ((∃ x, some x ∈ left) → HoldTested a.bank u r) ∧
      ((∀ x, some x ∉ left) → ¬ Absent s.hc → r = .next (raisedIn 12 { u with
        hc := { u.hc with claims := driverAlone s.now, minHold := some a.bank.params.minHold, metMemory := false } })) ∧
      ((∀ x, some x ∉ left) → Absent s.hc →
        ∃ t, r = .next t ∧ Moved .handover none s.hc.demand.pressure u t ∧ HandoverStarted a.bank t.hc))) ∧
  (∀ (s : State) (a : ActiveBank) (src : Source) (set : HcSet) (rest : List HcSet) (x : PubItem),
    s.active = some a → s.mail.toHc = set :: rest → set.items = [x] → src.SignalOf x.kind →
    (s.hc.state = .starting → set.allOnce ≠ some true) → x.validity = .valid → x.value = some 0 →
    let b := a.bank
    let u := withSet set rest s
    let r := exec .hcPublication s
    let idle := { u with hc := u.hc.latched src .idle }
    let same := fun c : Claim => c.source = src ∧ c.tag = 0
    (s.hc.latch src ≠ .asserted ∨ (∀ c, some c ∈ s.hc.claims → ¬ same c) → StateTested b idle r) ∧
    (∀ slot c, s.hc.latch src = .asserted → s.hc.state = .holding → s.hc.claims.length = 6 →
      s.hc.claims[slot]? = some (some c) → same c →
      (∀ i y, s.hc.claims[i]? = some (some y) → same y → i = slot) → s.hc.resultPressure.within s.hc.demand.pressure →
      (s.hc.limitedFloors b).within s.hc.demand.pressure →
      let left := s.hc.claims.set slot none
      let v := { idle with hc := { idle.hc with claims := left } }
      ((∃ y, some y ∈ left) → HoldTested b v r) ∧
      ((∀ y, some y ∉ left) → ¬ Absent s.hc → HoldTested b (raisedIn 12 { v with
        hc := { v.hc with claims := driverAlone s.now, minHold := some b.params.minHold, metMemory := false } }) r) ∧
      ((∀ y, some y ∉ left) → Absent s.hc →
        ∃ t, r = .next t ∧ Moved .handover none s.hc.demand.pressure v t ∧ HandoverStarted b t.hc)))

/-! ## Invariants that every step keeps -/

/-- R44, R71, R125: a step keeps the Claim Table of six slots, occupied exactly in HOLDING, and the demand record of the
hold state. -/
def Obligations.StepKeepsTheClaimTableAndTheDemand : Prop :=
  ∀ s t : State, ClaimTableKept s → DemandRecordKept s → step s = .next t → ClaimTableKept t ∧ DemandRecordKept t

/-- R25, R44, R58, R59, R103, R118: a step never takes a pressure of the demand, of a result or of a ramp above the
Maximum Pressure of its circuit, in a state that keeps service mode, which is not set while the tables load (R185). -/
def Obligations.StepKeepsThePressuresInRange : Prop :=
  ∀ s t : State, PressuresKept s → ServiceModeKept s → step s = .next t → PressuresKept t

/-- R154, R155, R161: a step keeps each queue at 32 entries and one waiting HOLD entry, and while no load is under way
(R185) no class holds more dedicated space than its minimum. -/
def Obligations.StepKeepsTheQueues : Prop :=
  ∀ s t : State, QueuesKept s → step s = .next t →
    QueuesKept t ∧ (DedicatedKept s → s.loading = false → DedicatedKept t)

/-- R20, R109, R116, R162, R163, R166, R170, R174: a step keeps every counter and count to its width. -/
def Obligations.StepKeepsTheCountersInRange : Prop :=
  ∀ s t : State, CountersKept s → step s = .next t → CountersKept t

/-- R68, R138, R176, R180: a step keeps service mode to OFF, PARKED and SECURED, and the staging bank and the idle timer
to service mode. -/
def Obligations.StepKeepsServiceMode : Prop :=
  ∀ s t : State, ClaimTableKept s → ServiceModeKept s → step s = .next t → ServiceModeKept t

/-- R59: while HOLDING goes on no step lowers the demand of either circuit, whatever the results and the floors do. -/
def Obligations.DemandNeverFallsInHolding : Prop :=
  ∀ s t : State, PressuresKept s → step s = .next t → s.hc.state = .holding → t.hc.state = .holding →
    s.hc.demand.pressure.within t.hc.demand.pressure

/-- R170, R173: once the Fault Record holds a MAJOR fault, only CLEAR_FAULT and a power-on reset change anything of it
but its repeat count. -/
def Obligations.MajorFaultStays : Prop :=
  ∀ (s t : State) (r : FaultRecord), s.fc.record = some r → r.severity = .major → step s = .next t →
    (∀ p rest, s.pending ≠ .clearFault p :: rest) → (∀ pins rest, s.pending ≠ .powerOnReset pins :: rest) →
    ∃ n, t.fc.record = some { r with repeats := n } ∧ (r.repeats ≤ 255 → r.repeats ≤ n ∧ n ≤ 255)
end

