-- ==== Sys2Proof/Laws/Checks.lean ====
section
/-! SUPPORT. What each check of R182 examines: the first entry that a search answers, and each entry that fails a check,
as the model tests it and as the rule says it. -/

namespace Sys2Proof.Machine

/-! ## The first entry that fails -/

/-- Everything `firstBad` can answer. -/
theorem firstBad_some {α : Type} {f : List α → α → Bool} {seen l : List α} {i n : Nat}
    (hn : seen.length = i) :
    firstBad f seen i l = some n ↔ i ≤ n ∧ (∃ x, l[n - i]? = some x ∧ f (seen ++ l.take (n - i)) x = true) ∧
      ∀ j, i ≤ j → j < n → ∀ y, l[j - i]? = some y → f (seen ++ l.take (j - i)) y = false := by
  induction l generalizing seen i with
  | nil => simp [firstBad]
  | cons x xs ih =>
    rw [firstBad]
    by_cases hx : f seen x = true
    · rw [if_pos hx]
      constructor
      · intro h; cases h
        refine ⟨Nat.le_refl _, ⟨x, by simp, by simpa using hx⟩, fun j h1 h2 => by omega⟩
      · rintro ⟨h1, ⟨y, hy, hf⟩, hb⟩
        by_contra hne
        have hlt : i < n := by
          rcases Nat.lt_or_ge i n with h | h
          · exact h
          · exact absurd (by rw [show i = n by omega]) hne
        have := hb i (Nat.le_refl _) hlt x (by simp)
        simp [hx] at this
    · rw [if_neg hx, ih (by simp [hn])]
      have key : ∀ j, i + 1 ≤ j → (x :: xs)[j - i]? = xs[j - (i + 1)]? ∧
          seen ++ (x :: xs).take (j - i) = (seen ++ [x]) ++ xs.take (j - (i + 1)) := by
        intro j hj
        have : j - i = (j - (i + 1)) + 1 := by omega
        rw [this]; simp
      constructor
      · rintro ⟨h1, ⟨y, hy, hf⟩, hb⟩
        obtain ⟨k1, k2⟩ := key n h1
        refine ⟨by omega, ⟨y, by rw [k1]; exact hy, by rw [k2]; exact hf⟩, ?_⟩
        intro j h2 h3 z hz
        by_cases hj : j = i
        · subst hj; simp at hz; subst hz; simpa using hx
        · obtain ⟨k1, k2⟩ := key j (by omega)
          rw [k2]; exact hb j (by omega) h3 z (by rw [← k1]; exact hz)
      · rintro ⟨h1, ⟨y, hy, hf⟩, hb⟩
        have hlt : i + 1 ≤ n := by
          by_contra k
          have : n = i := by omega
          subst this
          simp at hy hf; subst hy; exact hx hf
        obtain ⟨k1, k2⟩ := key n hlt
        refine ⟨hlt, ⟨y, by rw [← k1]; exact hy, by rw [← k2]; exact hf⟩, ?_⟩
        intro j h2 h3 z hz
        obtain ⟨k1, k2⟩ := key j h2
        rw [← k2]; exact hb j (by omega) h3 z (by rw [k1]; exact hz)

/-- `firstBad` answers the first index with a property, and none where there is none. -/
theorem firstBad_spec {α : Type} {f : List α → α → Bool} {l : List α} {bad : Nat → Prop}
    (h : ∀ i, bad i ↔ ∃ x, l[i]? = some x ∧ f (l.take i) x = true) :
    (∀ i, firstBad f [] 0 l = some i → IsFirst bad i) ∧ (firstBad f [] 0 l = none ↔ ∀ i, ¬ bad i) := by
  have fs := fun n => firstBad_some (f := f) (seen := []) (l := l) (i := 0) (n := n) rfl
  simp only [Nat.zero_le, true_and, Nat.sub_zero, List.nil_append] at fs
  have one : ∀ i, firstBad f [] 0 l = some i ↔ IsFirst bad i := by
    intro i
    rw [fs i, IsFirst, h i]
    refine and_congr_right fun _ => ?_
    constructor
    · intro hb j hj hbad
      obtain ⟨x, hx, hf⟩ := (h j).mp hbad
      have := hb j trivial hj x hx
      simp [hf] at this
    · intro hb j _ hj y hy
      by_contra k
      exact hb j hj ((h j).mpr ⟨y, hy, by simpa using k⟩)
  refine ⟨fun i => (one i).mp, ?_⟩
  constructor
  · intro hn
    have : ∀ i, ¬ IsFirst bad i := fun i k => by rw [← one i, hn] at k; cases k
    intro i
    induction i using Nat.strong_induction_on with
    | _ i ih => intro hb; exact this i ⟨hb, ih⟩
  · intro hb
    cases hf : firstBad f [] 0 l with
    | none => rfl
    | some i => exact absurd ((one i).mp hf).1 (hb i)

theorem mem_take_iff {α : Type} {l : List α} {i : Nat} {y : α} : y ∈ l.take i ↔ ∃ j, j < i ∧ l[j]? = some y := by
  rw [List.mem_iff_getElem?]
  constructor
  · rintro ⟨j, hj⟩
    rw [List.getElem?_take] at hj
    split at hj
    · exact ⟨j, by assumption, hj⟩
    · cases hj
  · rintro ⟨j, h1, h2⟩
    exact ⟨j, by rw [List.getElem?_take, if_pos h1]; exact h2⟩

/-! ## The entries that fail each check -/

theorem v1Bad_iff (b : Bank) (i : Nat) :
    V1Bad b i ↔ ∃ x, b.forwarding[i]? = some x ∧
      ((b.forwarding.take i).any (forwardConflict x)) = true := by
  unfold V1Bad
  simp only [List.any_eq_true, mem_take_iff, forwardConflict, Bool.and_eq_true, Bool.or_eq_true, beq_iff_eq]
  constructor
  · rintro ⟨x, y, j, h1, h2, h3, h4, h5, h6, h7⟩
    exact ⟨x, h1, y, ⟨j, h2, h3⟩, ⟨⟨h4, h5⟩, h6⟩, by tauto⟩
  · rintro ⟨x, h1, y, ⟨j, h2, h3⟩, ⟨⟨h4, h5⟩, h6⟩, h7⟩
    exact ⟨x, y, j, h1, h2, h3, h4, h5, h6, by tauto⟩

theorem v2Bad_iff (b : Bank) (i : Nat) :
    V2Bad b i ↔ ∃ x, b.forwarding[i]? = some x ∧
      (x.inUse && x.action.watches && !(b.monitor x.monitor).inUse) = true := by
  unfold V2Bad
  have : ∀ a : Action, a.watches = true ↔ a = .watch ∨ a = .passWatch := by intro a; cases a <;> decide
  simp only [Bool.and_eq_true, this, Bool.not_eq_true', and_assoc]

theorem v3Unnamed_iff (b : Bank) (i : Nat) :
    V3Unnamed b i ↔ ∃ x, b.monitors[i]? = some x ∧
      (x.inUse && (b.extractionsOf (b.monitors.take i).length).isEmpty) = true := by
  unfold V3Unnamed
  constructor
  · rintro ⟨x, h1, h2, h3⟩
    have hl := (List.getElem?_eq_some_iff.mp h1).1
    refine ⟨x, h1, ?_⟩
    have : (b.monitors.take i).length = i := by simp; omega
    rw [this, h2]
    simp only [Bool.true_and, Bank.extractionsOf, List.isEmpty_iff, List.filter_eq_nil_iff, Bool.and_eq_true,
      Option.isSome_iff_ne_none, beq_iff_eq, not_and]
    exact h3
  · rintro ⟨x, h1, h2⟩
    have hl := (List.getElem?_eq_some_iff.mp h1).1
    have : (b.monitors.take i).length = i := by simp; omega
    rw [this] at h2
    simp only [Bool.and_eq_true, Bank.extractionsOf, List.isEmpty_iff, List.filter_eq_nil_iff,
      Option.isSome_iff_ne_none, beq_iff_eq, not_and] at h2
    exact ⟨x, h1, h2.1, h2.2⟩

theorem v3Dangling_iff (b : Bank) (i : Nat) :
    V3Dangling b i ↔ ∃ x, b.extractions[i]? = some x ∧
      (x.kind.isSome && !(b.monitor x.monitor).inUse) = true := by
  unfold V3Dangling
  simp only [Bool.and_eq_true, Option.isSome_iff_ne_none, Bool.not_eq_true']

theorem v4Bad_iff (b : Bank) (i : Nat) :
    V4Bad b i ↔ ∃ x, b.extractions[i]? = some x ∧
      (x.kind.isSome && (b.extractions.take i).any fun y => y.kind == x.kind) = true := by
  unfold V4Bad
  simp only [List.any_eq_true, mem_take_iff, Bool.and_eq_true, beq_iff_eq, Option.isSome_iff_ne_none]
  constructor
  · rintro ⟨x, y, j, h1, h2, h3, h4, h5⟩
    exact ⟨x, h1, h4, y, ⟨j, h2, h3⟩, h5⟩
  · rintro ⟨x, h1, h4, y, ⟨j, h2, h3⟩, h5⟩
    exact ⟨x, y, j, h1, h2, h3, h4, h5⟩

theorem rangesOverlap_iff {s1 n1 s2 n2 : Nat} (h1 : 1 ≤ n1) (h2 : 1 ≤ n2) :
    rangesOverlap s1 n1 s2 n2 = true ↔ Overlap s1 n1 s2 n2 := by
  simp only [rangesOverlap, Bool.and_eq_true, decide_eq_true_eq, Overlap]
  constructor
  · intro h; exact ⟨max s1 s2, by omega, by omega, by omega, by omega⟩
  · rintro ⟨bit, a, b, c, d⟩; omega

theorem counterWidth_pos (e : MonitorEntry) : 1 ≤ e.counterWidth := by
  unfold MonitorEntry.counterWidth
  split
  · decide
  · split <;> decide

theorem v6BadExtraction_iff (b : Bank) (hw : ∀ x ∈ b.extractions, 1 ≤ x.width) (i : Nat) :
    V6BadExtraction b i ↔ ∃ x, b.extractions[i]? = some x ∧ (x.kind.isSome && !extractionPlaced b x) = true := by
  unfold V6BadExtraction
  refine exists_congr fun x => and_congr_right fun hx => ?_
  have hw := hw x (List.mem_of_getElem? hx)
  simp only [Bool.and_eq_true, Option.isSome_iff_ne_none]
  refine and_congr_right fun _ => ?_
  have e1 := rangesOverlap_iff (s1 := x.start) (s2 := (b.monitor x.monitor).counterStart) hw
    (counterWidth_pos (b.monitor x.monitor))
  have e2 := rangesOverlap_iff (s1 := x.start) (s2 := 8 * (b.monitor x.monitor).checkPos) hw (by decide : 1 ≤ 8)
  simp only [extractionPlaced, Bool.not_eq_true', Bool.and_eq_false_iff, decide_eq_false_iff_not, Bool.or_eq_false_iff,
    beq_eq_false_iff_ne, Bool.not_eq_false', not_le, ← e1, ← e2, or_assoc]

theorem v6BadCounter_iff (b : Bank) (i : Nat) :
    V6BadCounter b i ↔ ∃ x, b.monitors[i]? = some x ∧
      (!counterPlaced x) = true := by
  unfold V6BadCounter
  refine exists_congr fun x => and_congr_right fun hx => ?_
  have e := rangesOverlap_iff (s1 := x.counterStart) (s2 := 8 * x.checkPos) (counterWidth_pos x) (by decide : 1 ≤ 8)
  simp only [counterPlaced, Bool.not_eq_true', Bool.and_eq_false_iff, decide_eq_false_iff_not, Bool.or_eq_false_iff,
    beq_eq_false_iff_ne, Bool.not_eq_false', not_le, e]

theorem v7Bad_iff (b : Bank) (i : Nat) :
    V7Bad b i ↔ ∃ x, b.monitors[i]? = some x ∧
      (x.inUse && decide (x.n ≤ x.m)) = true := by
  unfold V7Bad
  simp only [Bool.and_eq_true, decide_eq_true_eq, not_lt]

theorem strictlyIncreasing_iff (l : List Nat) : strictlyIncreasing l = true ↔ Increasing l := by
  induction l with
  | nil => simp [strictlyIncreasing, Increasing]
  | cons x xs ih =>
    cases xs with
    | nil => simp [strictlyIncreasing, Increasing]
    | cons y ys =>
      rw [strictlyIncreasing, Bool.and_eq_true, ih, decide_eq_true_eq]
      unfold Increasing
      constructor
      · rintro ⟨h, k⟩ i a c ha hc
        cases i with
        | zero => simp at ha hc; omega
        | succ i => exact k i a c (by simpa using ha) (by simpa using hc)
      · intro h
        refine ⟨h 0 x y rfl rfl, fun i a c ha hc => h (i + 1) a c (by simpa using ha) (by simpa using hc)⟩

theorem mapped_iff (b : Bank) (k : SignalKind) : b.mapped k = true ↔ Stands b k := by
  simp [Bank.mapped, Bank.extractionOf, Stands]

end Sys2Proof.Machine
end

