-- ==== Sys2Proof/Laws/State.lean ====
section
/-! SUPPORT. One lemma per field per named update of State, each true by unfolding. -/

namespace Sys2Proof.Machine

variable (s : State)

@[simp] theorem State.setPending_pending (x : List Instr) : (s.setPending x).pending = x := rfl
@[simp] theorem State.setPending_now (x : List Instr) : (s.setPending x).now = s.now := rfl
@[simp] theorem State.setPending_loading (x : List Instr) : (s.setPending x).loading = s.loading := rfl
@[simp] theorem State.setPending_active (x : List Instr) : (s.setPending x).active = s.active := rfl
@[simp] theorem State.setPending_sm (x : List Instr) : (s.setPending x).sm = s.sm := rfl
@[simp] theorem State.setPending_hpc (x : List Instr) : (s.setPending x).hpc = s.hpc := rfl
@[simp] theorem State.setPending_hc (x : List Instr) : (s.setPending x).hc = s.hc := rfl
@[simp] theorem State.setPending_cm (x : List Instr) : (s.setPending x).cm = s.cm := rfl
@[simp] theorem State.setPending_fe (x : List Instr) : (s.setPending x).fe = s.fe := rfl
@[simp] theorem State.setPending_links (x : List Instr) : (s.setPending x).links = s.links := rfl
@[simp] theorem State.setPending_tx (x : List Instr) : (s.setPending x).tx = s.tx := rfl
@[simp] theorem State.setPending_events (x : List Instr) : (s.setPending x).events = s.events := rfl
@[simp] theorem State.setPending_fc (x : List Instr) : (s.setPending x).fc = s.fc := rfl
@[simp] theorem State.setPending_sr (x : List Instr) : (s.setPending x).sr = s.sr := rfl
@[simp] theorem State.setPending_store (x : List Instr) : (s.setPending x).store = s.store := rfl
@[simp] theorem State.setPending_mail (x : List Instr) : (s.setPending x).mail = s.mail := rfl

@[simp] theorem State.setNow_pending (x : Word32) : (s.setNow x).pending = s.pending := rfl
@[simp] theorem State.setNow_now (x : Word32) : (s.setNow x).now = x := rfl
@[simp] theorem State.setNow_loading (x : Word32) : (s.setNow x).loading = s.loading := rfl
@[simp] theorem State.setNow_active (x : Word32) : (s.setNow x).active = s.active := rfl
@[simp] theorem State.setNow_sm (x : Word32) : (s.setNow x).sm = s.sm := rfl
@[simp] theorem State.setNow_hpc (x : Word32) : (s.setNow x).hpc = s.hpc := rfl
@[simp] theorem State.setNow_hc (x : Word32) : (s.setNow x).hc = s.hc := rfl
@[simp] theorem State.setNow_cm (x : Word32) : (s.setNow x).cm = s.cm := rfl
@[simp] theorem State.setNow_fe (x : Word32) : (s.setNow x).fe = s.fe := rfl
@[simp] theorem State.setNow_links (x : Word32) : (s.setNow x).links = s.links := rfl
@[simp] theorem State.setNow_tx (x : Word32) : (s.setNow x).tx = s.tx := rfl
@[simp] theorem State.setNow_events (x : Word32) : (s.setNow x).events = s.events := rfl
@[simp] theorem State.setNow_fc (x : Word32) : (s.setNow x).fc = s.fc := rfl
@[simp] theorem State.setNow_sr (x : Word32) : (s.setNow x).sr = s.sr := rfl
@[simp] theorem State.setNow_store (x : Word32) : (s.setNow x).store = s.store := rfl
@[simp] theorem State.setNow_mail (x : Word32) : (s.setNow x).mail = s.mail := rfl

@[simp] theorem State.setLoading_pending (x : Bool) : (s.setLoading x).pending = s.pending := rfl
@[simp] theorem State.setLoading_now (x : Bool) : (s.setLoading x).now = s.now := rfl
@[simp] theorem State.setLoading_loading (x : Bool) : (s.setLoading x).loading = x := rfl
@[simp] theorem State.setLoading_active (x : Bool) : (s.setLoading x).active = s.active := rfl
@[simp] theorem State.setLoading_sm (x : Bool) : (s.setLoading x).sm = s.sm := rfl
@[simp] theorem State.setLoading_hpc (x : Bool) : (s.setLoading x).hpc = s.hpc := rfl
@[simp] theorem State.setLoading_hc (x : Bool) : (s.setLoading x).hc = s.hc := rfl
@[simp] theorem State.setLoading_cm (x : Bool) : (s.setLoading x).cm = s.cm := rfl
@[simp] theorem State.setLoading_fe (x : Bool) : (s.setLoading x).fe = s.fe := rfl
@[simp] theorem State.setLoading_links (x : Bool) : (s.setLoading x).links = s.links := rfl
@[simp] theorem State.setLoading_tx (x : Bool) : (s.setLoading x).tx = s.tx := rfl
@[simp] theorem State.setLoading_events (x : Bool) : (s.setLoading x).events = s.events := rfl
@[simp] theorem State.setLoading_fc (x : Bool) : (s.setLoading x).fc = s.fc := rfl
@[simp] theorem State.setLoading_sr (x : Bool) : (s.setLoading x).sr = s.sr := rfl
@[simp] theorem State.setLoading_store (x : Bool) : (s.setLoading x).store = s.store := rfl
@[simp] theorem State.setLoading_mail (x : Bool) : (s.setLoading x).mail = s.mail := rfl

@[simp] theorem State.setActive_pending (x : Option ActiveBank) : (s.setActive x).pending = s.pending := rfl
@[simp] theorem State.setActive_now (x : Option ActiveBank) : (s.setActive x).now = s.now := rfl
@[simp] theorem State.setActive_loading (x : Option ActiveBank) : (s.setActive x).loading = s.loading := rfl
@[simp] theorem State.setActive_active (x : Option ActiveBank) : (s.setActive x).active = x := rfl
@[simp] theorem State.setActive_sm (x : Option ActiveBank) : (s.setActive x).sm = s.sm := rfl
@[simp] theorem State.setActive_hpc (x : Option ActiveBank) : (s.setActive x).hpc = s.hpc := rfl
@[simp] theorem State.setActive_hc (x : Option ActiveBank) : (s.setActive x).hc = s.hc := rfl
@[simp] theorem State.setActive_cm (x : Option ActiveBank) : (s.setActive x).cm = s.cm := rfl
@[simp] theorem State.setActive_fe (x : Option ActiveBank) : (s.setActive x).fe = s.fe := rfl
@[simp] theorem State.setActive_links (x : Option ActiveBank) : (s.setActive x).links = s.links := rfl
@[simp] theorem State.setActive_tx (x : Option ActiveBank) : (s.setActive x).tx = s.tx := rfl
@[simp] theorem State.setActive_events (x : Option ActiveBank) : (s.setActive x).events = s.events := rfl
@[simp] theorem State.setActive_fc (x : Option ActiveBank) : (s.setActive x).fc = s.fc := rfl
@[simp] theorem State.setActive_sr (x : Option ActiveBank) : (s.setActive x).sr = s.sr := rfl
@[simp] theorem State.setActive_store (x : Option ActiveBank) : (s.setActive x).store = s.store := rfl
@[simp] theorem State.setActive_mail (x : Option ActiveBank) : (s.setActive x).mail = s.mail := rfl

@[simp] theorem State.setSm_pending (x : SignalMonitor) : (s.setSm x).pending = s.pending := rfl
@[simp] theorem State.setSm_now (x : SignalMonitor) : (s.setSm x).now = s.now := rfl
@[simp] theorem State.setSm_loading (x : SignalMonitor) : (s.setSm x).loading = s.loading := rfl
@[simp] theorem State.setSm_active (x : SignalMonitor) : (s.setSm x).active = s.active := rfl
@[simp] theorem State.setSm_sm (x : SignalMonitor) : (s.setSm x).sm = x := rfl
@[simp] theorem State.setSm_hpc (x : SignalMonitor) : (s.setSm x).hpc = s.hpc := rfl
@[simp] theorem State.setSm_hc (x : SignalMonitor) : (s.setSm x).hc = s.hc := rfl
@[simp] theorem State.setSm_cm (x : SignalMonitor) : (s.setSm x).cm = s.cm := rfl
@[simp] theorem State.setSm_fe (x : SignalMonitor) : (s.setSm x).fe = s.fe := rfl
@[simp] theorem State.setSm_links (x : SignalMonitor) : (s.setSm x).links = s.links := rfl
@[simp] theorem State.setSm_tx (x : SignalMonitor) : (s.setSm x).tx = s.tx := rfl
@[simp] theorem State.setSm_events (x : SignalMonitor) : (s.setSm x).events = s.events := rfl
@[simp] theorem State.setSm_fc (x : SignalMonitor) : (s.setSm x).fc = s.fc := rfl
@[simp] theorem State.setSm_sr (x : SignalMonitor) : (s.setSm x).sr = s.sr := rfl
@[simp] theorem State.setSm_store (x : SignalMonitor) : (s.setSm x).store = s.store := rfl
@[simp] theorem State.setSm_mail (x : SignalMonitor) : (s.setSm x).mail = s.mail := rfl

@[simp] theorem State.setHpc_pending (x : Option Calculator) : (s.setHpc x).pending = s.pending := rfl
@[simp] theorem State.setHpc_now (x : Option Calculator) : (s.setHpc x).now = s.now := rfl
@[simp] theorem State.setHpc_loading (x : Option Calculator) : (s.setHpc x).loading = s.loading := rfl
@[simp] theorem State.setHpc_active (x : Option Calculator) : (s.setHpc x).active = s.active := rfl
@[simp] theorem State.setHpc_sm (x : Option Calculator) : (s.setHpc x).sm = s.sm := rfl
@[simp] theorem State.setHpc_hpc (x : Option Calculator) : (s.setHpc x).hpc = x := rfl
@[simp] theorem State.setHpc_hc (x : Option Calculator) : (s.setHpc x).hc = s.hc := rfl
@[simp] theorem State.setHpc_cm (x : Option Calculator) : (s.setHpc x).cm = s.cm := rfl
@[simp] theorem State.setHpc_fe (x : Option Calculator) : (s.setHpc x).fe = s.fe := rfl
@[simp] theorem State.setHpc_links (x : Option Calculator) : (s.setHpc x).links = s.links := rfl
@[simp] theorem State.setHpc_tx (x : Option Calculator) : (s.setHpc x).tx = s.tx := rfl
@[simp] theorem State.setHpc_events (x : Option Calculator) : (s.setHpc x).events = s.events := rfl
@[simp] theorem State.setHpc_fc (x : Option Calculator) : (s.setHpc x).fc = s.fc := rfl
@[simp] theorem State.setHpc_sr (x : Option Calculator) : (s.setHpc x).sr = s.sr := rfl
@[simp] theorem State.setHpc_store (x : Option Calculator) : (s.setHpc x).store = s.store := rfl
@[simp] theorem State.setHpc_mail (x : Option Calculator) : (s.setHpc x).mail = s.mail := rfl

@[simp] theorem State.setHc_pending (x : HoldController) : (s.setHc x).pending = s.pending := rfl
@[simp] theorem State.setHc_now (x : HoldController) : (s.setHc x).now = s.now := rfl
@[simp] theorem State.setHc_loading (x : HoldController) : (s.setHc x).loading = s.loading := rfl
@[simp] theorem State.setHc_active (x : HoldController) : (s.setHc x).active = s.active := rfl
@[simp] theorem State.setHc_sm (x : HoldController) : (s.setHc x).sm = s.sm := rfl
@[simp] theorem State.setHc_hpc (x : HoldController) : (s.setHc x).hpc = s.hpc := rfl
@[simp] theorem State.setHc_hc (x : HoldController) : (s.setHc x).hc = x := rfl
@[simp] theorem State.setHc_cm (x : HoldController) : (s.setHc x).cm = s.cm := rfl
@[simp] theorem State.setHc_fe (x : HoldController) : (s.setHc x).fe = s.fe := rfl
@[simp] theorem State.setHc_links (x : HoldController) : (s.setHc x).links = s.links := rfl
@[simp] theorem State.setHc_tx (x : HoldController) : (s.setHc x).tx = s.tx := rfl
@[simp] theorem State.setHc_events (x : HoldController) : (s.setHc x).events = s.events := rfl
@[simp] theorem State.setHc_fc (x : HoldController) : (s.setHc x).fc = s.fc := rfl
@[simp] theorem State.setHc_sr (x : HoldController) : (s.setHc x).sr = s.sr := rfl
@[simp] theorem State.setHc_store (x : HoldController) : (s.setHc x).store = s.store := rfl
@[simp] theorem State.setHc_mail (x : HoldController) : (s.setHc x).mail = s.mail := rfl

@[simp] theorem State.setCm_pending (x : CreepMonitor) : (s.setCm x).pending = s.pending := rfl
@[simp] theorem State.setCm_now (x : CreepMonitor) : (s.setCm x).now = s.now := rfl
@[simp] theorem State.setCm_loading (x : CreepMonitor) : (s.setCm x).loading = s.loading := rfl
@[simp] theorem State.setCm_active (x : CreepMonitor) : (s.setCm x).active = s.active := rfl
@[simp] theorem State.setCm_sm (x : CreepMonitor) : (s.setCm x).sm = s.sm := rfl
@[simp] theorem State.setCm_hpc (x : CreepMonitor) : (s.setCm x).hpc = s.hpc := rfl
@[simp] theorem State.setCm_hc (x : CreepMonitor) : (s.setCm x).hc = s.hc := rfl
@[simp] theorem State.setCm_cm (x : CreepMonitor) : (s.setCm x).cm = x := rfl
@[simp] theorem State.setCm_fe (x : CreepMonitor) : (s.setCm x).fe = s.fe := rfl
@[simp] theorem State.setCm_links (x : CreepMonitor) : (s.setCm x).links = s.links := rfl
@[simp] theorem State.setCm_tx (x : CreepMonitor) : (s.setCm x).tx = s.tx := rfl
@[simp] theorem State.setCm_events (x : CreepMonitor) : (s.setCm x).events = s.events := rfl
@[simp] theorem State.setCm_fc (x : CreepMonitor) : (s.setCm x).fc = s.fc := rfl
@[simp] theorem State.setCm_sr (x : CreepMonitor) : (s.setCm x).sr = s.sr := rfl
@[simp] theorem State.setCm_store (x : CreepMonitor) : (s.setCm x).store = s.store := rfl
@[simp] theorem State.setCm_mail (x : CreepMonitor) : (s.setCm x).mail = s.mail := rfl

@[simp] theorem State.setFe_pending (x : ForwardingEngine) : (s.setFe x).pending = s.pending := rfl
@[simp] theorem State.setFe_now (x : ForwardingEngine) : (s.setFe x).now = s.now := rfl
@[simp] theorem State.setFe_loading (x : ForwardingEngine) : (s.setFe x).loading = s.loading := rfl
@[simp] theorem State.setFe_active (x : ForwardingEngine) : (s.setFe x).active = s.active := rfl
@[simp] theorem State.setFe_sm (x : ForwardingEngine) : (s.setFe x).sm = s.sm := rfl
@[simp] theorem State.setFe_hpc (x : ForwardingEngine) : (s.setFe x).hpc = s.hpc := rfl
@[simp] theorem State.setFe_hc (x : ForwardingEngine) : (s.setFe x).hc = s.hc := rfl
@[simp] theorem State.setFe_cm (x : ForwardingEngine) : (s.setFe x).cm = s.cm := rfl
@[simp] theorem State.setFe_fe (x : ForwardingEngine) : (s.setFe x).fe = x := rfl
@[simp] theorem State.setFe_links (x : ForwardingEngine) : (s.setFe x).links = s.links := rfl
@[simp] theorem State.setFe_tx (x : ForwardingEngine) : (s.setFe x).tx = s.tx := rfl
@[simp] theorem State.setFe_events (x : ForwardingEngine) : (s.setFe x).events = s.events := rfl
@[simp] theorem State.setFe_fc (x : ForwardingEngine) : (s.setFe x).fc = s.fc := rfl
@[simp] theorem State.setFe_sr (x : ForwardingEngine) : (s.setFe x).sr = s.sr := rfl
@[simp] theorem State.setFe_store (x : ForwardingEngine) : (s.setFe x).store = s.store := rfl
@[simp] theorem State.setFe_mail (x : ForwardingEngine) : (s.setFe x).mail = s.mail := rfl

@[simp] theorem State.setLinks_pending (x : PerPort Link) : (s.setLinks x).pending = s.pending := rfl
@[simp] theorem State.setLinks_now (x : PerPort Link) : (s.setLinks x).now = s.now := rfl
@[simp] theorem State.setLinks_loading (x : PerPort Link) : (s.setLinks x).loading = s.loading := rfl
@[simp] theorem State.setLinks_active (x : PerPort Link) : (s.setLinks x).active = s.active := rfl
@[simp] theorem State.setLinks_sm (x : PerPort Link) : (s.setLinks x).sm = s.sm := rfl
@[simp] theorem State.setLinks_hpc (x : PerPort Link) : (s.setLinks x).hpc = s.hpc := rfl
@[simp] theorem State.setLinks_hc (x : PerPort Link) : (s.setLinks x).hc = s.hc := rfl
@[simp] theorem State.setLinks_cm (x : PerPort Link) : (s.setLinks x).cm = s.cm := rfl
@[simp] theorem State.setLinks_fe (x : PerPort Link) : (s.setLinks x).fe = s.fe := rfl
@[simp] theorem State.setLinks_links (x : PerPort Link) : (s.setLinks x).links = x := rfl
@[simp] theorem State.setLinks_tx (x : PerPort Link) : (s.setLinks x).tx = s.tx := rfl
@[simp] theorem State.setLinks_events (x : PerPort Link) : (s.setLinks x).events = s.events := rfl
@[simp] theorem State.setLinks_fc (x : PerPort Link) : (s.setLinks x).fc = s.fc := rfl
@[simp] theorem State.setLinks_sr (x : PerPort Link) : (s.setLinks x).sr = s.sr := rfl
@[simp] theorem State.setLinks_store (x : PerPort Link) : (s.setLinks x).store = s.store := rfl
@[simp] theorem State.setLinks_mail (x : PerPort Link) : (s.setLinks x).mail = s.mail := rfl

@[simp] theorem State.setTx_pending (x : Scheduler) : (s.setTx x).pending = s.pending := rfl
@[simp] theorem State.setTx_now (x : Scheduler) : (s.setTx x).now = s.now := rfl
@[simp] theorem State.setTx_loading (x : Scheduler) : (s.setTx x).loading = s.loading := rfl
@[simp] theorem State.setTx_active (x : Scheduler) : (s.setTx x).active = s.active := rfl
@[simp] theorem State.setTx_sm (x : Scheduler) : (s.setTx x).sm = s.sm := rfl
@[simp] theorem State.setTx_hpc (x : Scheduler) : (s.setTx x).hpc = s.hpc := rfl
@[simp] theorem State.setTx_hc (x : Scheduler) : (s.setTx x).hc = s.hc := rfl
@[simp] theorem State.setTx_cm (x : Scheduler) : (s.setTx x).cm = s.cm := rfl
@[simp] theorem State.setTx_fe (x : Scheduler) : (s.setTx x).fe = s.fe := rfl
@[simp] theorem State.setTx_links (x : Scheduler) : (s.setTx x).links = s.links := rfl
@[simp] theorem State.setTx_tx (x : Scheduler) : (s.setTx x).tx = x := rfl
@[simp] theorem State.setTx_events (x : Scheduler) : (s.setTx x).events = s.events := rfl
@[simp] theorem State.setTx_fc (x : Scheduler) : (s.setTx x).fc = s.fc := rfl
@[simp] theorem State.setTx_sr (x : Scheduler) : (s.setTx x).sr = s.sr := rfl
@[simp] theorem State.setTx_store (x : Scheduler) : (s.setTx x).store = s.store := rfl
@[simp] theorem State.setTx_mail (x : Scheduler) : (s.setTx x).mail = s.mail := rfl

@[simp] theorem State.setEvents_pending (x : EventSet) : (s.setEvents x).pending = s.pending := rfl
@[simp] theorem State.setEvents_now (x : EventSet) : (s.setEvents x).now = s.now := rfl
@[simp] theorem State.setEvents_loading (x : EventSet) : (s.setEvents x).loading = s.loading := rfl
@[simp] theorem State.setEvents_active (x : EventSet) : (s.setEvents x).active = s.active := rfl
@[simp] theorem State.setEvents_sm (x : EventSet) : (s.setEvents x).sm = s.sm := rfl
@[simp] theorem State.setEvents_hpc (x : EventSet) : (s.setEvents x).hpc = s.hpc := rfl
@[simp] theorem State.setEvents_hc (x : EventSet) : (s.setEvents x).hc = s.hc := rfl
@[simp] theorem State.setEvents_cm (x : EventSet) : (s.setEvents x).cm = s.cm := rfl
@[simp] theorem State.setEvents_fe (x : EventSet) : (s.setEvents x).fe = s.fe := rfl
@[simp] theorem State.setEvents_links (x : EventSet) : (s.setEvents x).links = s.links := rfl
@[simp] theorem State.setEvents_tx (x : EventSet) : (s.setEvents x).tx = s.tx := rfl
@[simp] theorem State.setEvents_events (x : EventSet) : (s.setEvents x).events = x := rfl
@[simp] theorem State.setEvents_fc (x : EventSet) : (s.setEvents x).fc = s.fc := rfl
@[simp] theorem State.setEvents_sr (x : EventSet) : (s.setEvents x).sr = s.sr := rfl
@[simp] theorem State.setEvents_store (x : EventSet) : (s.setEvents x).store = s.store := rfl
@[simp] theorem State.setEvents_mail (x : EventSet) : (s.setEvents x).mail = s.mail := rfl

@[simp] theorem State.setFc_pending (x : FaultCapture) : (s.setFc x).pending = s.pending := rfl
@[simp] theorem State.setFc_now (x : FaultCapture) : (s.setFc x).now = s.now := rfl
@[simp] theorem State.setFc_loading (x : FaultCapture) : (s.setFc x).loading = s.loading := rfl
@[simp] theorem State.setFc_active (x : FaultCapture) : (s.setFc x).active = s.active := rfl
@[simp] theorem State.setFc_sm (x : FaultCapture) : (s.setFc x).sm = s.sm := rfl
@[simp] theorem State.setFc_hpc (x : FaultCapture) : (s.setFc x).hpc = s.hpc := rfl
@[simp] theorem State.setFc_hc (x : FaultCapture) : (s.setFc x).hc = s.hc := rfl
@[simp] theorem State.setFc_cm (x : FaultCapture) : (s.setFc x).cm = s.cm := rfl
@[simp] theorem State.setFc_fe (x : FaultCapture) : (s.setFc x).fe = s.fe := rfl
@[simp] theorem State.setFc_links (x : FaultCapture) : (s.setFc x).links = s.links := rfl
@[simp] theorem State.setFc_tx (x : FaultCapture) : (s.setFc x).tx = s.tx := rfl
@[simp] theorem State.setFc_events (x : FaultCapture) : (s.setFc x).events = s.events := rfl
@[simp] theorem State.setFc_fc (x : FaultCapture) : (s.setFc x).fc = x := rfl
@[simp] theorem State.setFc_sr (x : FaultCapture) : (s.setFc x).sr = s.sr := rfl
@[simp] theorem State.setFc_store (x : FaultCapture) : (s.setFc x).store = s.store := rfl
@[simp] theorem State.setFc_mail (x : FaultCapture) : (s.setFc x).mail = s.mail := rfl

@[simp] theorem State.setSr_pending (x : ServiceResponder) : (s.setSr x).pending = s.pending := rfl
@[simp] theorem State.setSr_now (x : ServiceResponder) : (s.setSr x).now = s.now := rfl
@[simp] theorem State.setSr_loading (x : ServiceResponder) : (s.setSr x).loading = s.loading := rfl
@[simp] theorem State.setSr_active (x : ServiceResponder) : (s.setSr x).active = s.active := rfl
@[simp] theorem State.setSr_sm (x : ServiceResponder) : (s.setSr x).sm = s.sm := rfl
@[simp] theorem State.setSr_hpc (x : ServiceResponder) : (s.setSr x).hpc = s.hpc := rfl
@[simp] theorem State.setSr_hc (x : ServiceResponder) : (s.setSr x).hc = s.hc := rfl
@[simp] theorem State.setSr_cm (x : ServiceResponder) : (s.setSr x).cm = s.cm := rfl
@[simp] theorem State.setSr_fe (x : ServiceResponder) : (s.setSr x).fe = s.fe := rfl
@[simp] theorem State.setSr_links (x : ServiceResponder) : (s.setSr x).links = s.links := rfl
@[simp] theorem State.setSr_tx (x : ServiceResponder) : (s.setSr x).tx = s.tx := rfl
@[simp] theorem State.setSr_events (x : ServiceResponder) : (s.setSr x).events = s.events := rfl
@[simp] theorem State.setSr_fc (x : ServiceResponder) : (s.setSr x).fc = s.fc := rfl
@[simp] theorem State.setSr_sr (x : ServiceResponder) : (s.setSr x).sr = x := rfl
@[simp] theorem State.setSr_store (x : ServiceResponder) : (s.setSr x).store = s.store := rfl
@[simp] theorem State.setSr_mail (x : ServiceResponder) : (s.setSr x).mail = s.mail := rfl

@[simp] theorem State.setStore_pending (x : Store) : (s.setStore x).pending = s.pending := rfl
@[simp] theorem State.setStore_now (x : Store) : (s.setStore x).now = s.now := rfl
@[simp] theorem State.setStore_loading (x : Store) : (s.setStore x).loading = s.loading := rfl
@[simp] theorem State.setStore_active (x : Store) : (s.setStore x).active = s.active := rfl
@[simp] theorem State.setStore_sm (x : Store) : (s.setStore x).sm = s.sm := rfl
@[simp] theorem State.setStore_hpc (x : Store) : (s.setStore x).hpc = s.hpc := rfl
@[simp] theorem State.setStore_hc (x : Store) : (s.setStore x).hc = s.hc := rfl
@[simp] theorem State.setStore_cm (x : Store) : (s.setStore x).cm = s.cm := rfl
@[simp] theorem State.setStore_fe (x : Store) : (s.setStore x).fe = s.fe := rfl
@[simp] theorem State.setStore_links (x : Store) : (s.setStore x).links = s.links := rfl
@[simp] theorem State.setStore_tx (x : Store) : (s.setStore x).tx = s.tx := rfl
@[simp] theorem State.setStore_events (x : Store) : (s.setStore x).events = s.events := rfl
@[simp] theorem State.setStore_fc (x : Store) : (s.setStore x).fc = s.fc := rfl
@[simp] theorem State.setStore_sr (x : Store) : (s.setStore x).sr = s.sr := rfl
@[simp] theorem State.setStore_store (x : Store) : (s.setStore x).store = x := rfl
@[simp] theorem State.setStore_mail (x : Store) : (s.setStore x).mail = s.mail := rfl

@[simp] theorem State.setMail_pending (x : Mail) : (s.setMail x).pending = s.pending := rfl
@[simp] theorem State.setMail_now (x : Mail) : (s.setMail x).now = s.now := rfl
@[simp] theorem State.setMail_loading (x : Mail) : (s.setMail x).loading = s.loading := rfl
@[simp] theorem State.setMail_active (x : Mail) : (s.setMail x).active = s.active := rfl
@[simp] theorem State.setMail_sm (x : Mail) : (s.setMail x).sm = s.sm := rfl
@[simp] theorem State.setMail_hpc (x : Mail) : (s.setMail x).hpc = s.hpc := rfl
@[simp] theorem State.setMail_hc (x : Mail) : (s.setMail x).hc = s.hc := rfl
@[simp] theorem State.setMail_cm (x : Mail) : (s.setMail x).cm = s.cm := rfl
@[simp] theorem State.setMail_fe (x : Mail) : (s.setMail x).fe = s.fe := rfl
@[simp] theorem State.setMail_links (x : Mail) : (s.setMail x).links = s.links := rfl
@[simp] theorem State.setMail_tx (x : Mail) : (s.setMail x).tx = s.tx := rfl
@[simp] theorem State.setMail_events (x : Mail) : (s.setMail x).events = s.events := rfl
@[simp] theorem State.setMail_fc (x : Mail) : (s.setMail x).fc = s.fc := rfl
@[simp] theorem State.setMail_sr (x : Mail) : (s.setMail x).sr = s.sr := rfl
@[simp] theorem State.setMail_store (x : Mail) : (s.setMail x).store = s.store := rfl
@[simp] theorem State.setMail_mail (x : Mail) : (s.setMail x).mail = x := rfl

end Sys2Proof.Machine
end

