-- ==== Sys2Proof/Laws/Ops.lean ====
section
/-! SUPPORT. What the shared operations leave and what they do: one lemma of the fields each leaves, and one of the
field it changes. -/

namespace Sys2Proof.Machine

variable (s : State)

@[simp] theorem raise_frame (e : Event) :
    (raise e s).pending = s.pending ∧ (raise e s).now = s.now ∧ (raise e s).loading = s.loading ∧
    (raise e s).active = s.active ∧ (raise e s).sm = s.sm ∧ (raise e s).hpc = s.hpc ∧ (raise e s).hc = s.hc ∧
    (raise e s).cm = s.cm ∧ (raise e s).fe = s.fe ∧ (raise e s).links = s.links ∧ (raise e s).tx = s.tx ∧
    (raise e s).fc = s.fc ∧ (raise e s).sr = s.sr ∧ (raise e s).store = s.store ∧ (raise e s).mail = s.mail := by
  simp [raise]

@[simp] theorem report_frame (sev : Severity) (k : FaultKind) (x : Subject) :
    (report sev k x s).pending = s.pending ∧ (report sev k x s).now = s.now ∧
    (report sev k x s).loading = s.loading ∧ (report sev k x s).active = s.active ∧ (report sev k x s).sm = s.sm ∧
    (report sev k x s).hpc = s.hpc ∧ (report sev k x s).hc = s.hc ∧ (report sev k x s).cm = s.cm ∧
    (report sev k x s).fe = s.fe ∧ (report sev k x s).links = s.links ∧ (report sev k x s).tx = s.tx ∧
    (report sev k x s).events = s.events ∧ (report sev k x s).fc = s.fc ∧ (report sev k x s).sr = s.sr ∧
    (report sev k x s).store = s.store := by
  simp [report]

@[simp] theorem reportChange_frame (sev : Severity) (k : FaultKind) (x : Subject) :
    (reportChange sev k x s).pending = s.pending ∧ (reportChange sev k x s).now = s.now ∧
    (reportChange sev k x s).loading = s.loading ∧ (reportChange sev k x s).active = s.active ∧ (reportChange sev k x s).sm = s.sm ∧
    (reportChange sev k x s).hpc = s.hpc ∧ (reportChange sev k x s).hc = s.hc ∧ (reportChange sev k x s).cm = s.cm ∧
    (reportChange sev k x s).fe = s.fe ∧ (reportChange sev k x s).links = s.links ∧ (reportChange sev k x s).tx = s.tx ∧
    (reportChange sev k x s).events = s.events ∧ (reportChange sev k x s).fc = s.fc ∧ (reportChange sev k x s).sr = s.sr ∧
    (reportChange sev k x s).store = s.store := by
  simp [reportChange]

@[simp] theorem count_frame (c : Counter) :
    (count c s).pending = s.pending ∧ (count c s).now = s.now ∧ (count c s).loading = s.loading ∧
    (count c s).active = s.active ∧ (count c s).sm = s.sm ∧ (count c s).hpc = s.hpc ∧ (count c s).hc = s.hc ∧
    (count c s).cm = s.cm ∧ (count c s).fe = s.fe ∧ (count c s).links = s.links ∧ (count c s).tx = s.tx ∧
    (count c s).events = s.events ∧ (count c s).fc = s.fc ∧ (count c s).sr = s.sr ∧
    (count c s).store = s.store := by
  simp [count]

@[simp] theorem countTimes_frame (c : Counter) (n : Nat) :
    (countTimes c n s).pending = s.pending ∧ (countTimes c n s).now = s.now ∧
    (countTimes c n s).loading = s.loading ∧ (countTimes c n s).active = s.active ∧ (countTimes c n s).sm = s.sm ∧
    (countTimes c n s).hpc = s.hpc ∧ (countTimes c n s).hc = s.hc ∧ (countTimes c n s).cm = s.cm ∧
    (countTimes c n s).fe = s.fe ∧ (countTimes c n s).links = s.links ∧ (countTimes c n s).tx = s.tx ∧
    (countTimes c n s).events = s.events ∧ (countTimes c n s).fc = s.fc ∧ (countTimes c n s).sr = s.sr ∧
    (countTimes c n s).store = s.store := by
  simp [countTimes]

@[simp] theorem tellState_frame (h : HoldState) (b : Bool) :
    (tellState h b s).pending = s.pending ∧ (tellState h b s).now = s.now ∧
    (tellState h b s).loading = s.loading ∧ (tellState h b s).active = s.active ∧ (tellState h b s).sm = s.sm ∧
    (tellState h b s).hpc = s.hpc ∧ (tellState h b s).hc = s.hc ∧ (tellState h b s).cm = s.cm ∧
    (tellState h b s).fe = s.fe ∧ (tellState h b s).links = s.links ∧ (tellState h b s).tx = s.tx ∧
    (tellState h b s).events = s.events ∧ (tellState h b s).fc = s.fc ∧ (tellState h b s).sr = s.sr ∧
    (tellState h b s).store = s.store := by
  simp [tellState]

@[simp] theorem tellHold_frame (r : CreepReport) :
    (tellHold r s).pending = s.pending ∧ (tellHold r s).now = s.now ∧ (tellHold r s).loading = s.loading ∧
    (tellHold r s).active = s.active ∧ (tellHold r s).sm = s.sm ∧ (tellHold r s).hpc = s.hpc ∧
    (tellHold r s).hc = s.hc ∧ (tellHold r s).cm = s.cm ∧ (tellHold r s).fe = s.fe ∧
    (tellHold r s).links = s.links ∧ (tellHold r s).tx = s.tx ∧ (tellHold r s).events = s.events ∧
    (tellHold r s).fc = s.fc ∧ (tellHold r s).sr = s.sr ∧ (tellHold r s).store = s.store := by
  simp [tellHold]

@[simp] theorem tellCreep_frame (d : CreepDelivery) :
    (tellCreep d s).pending = s.pending ∧ (tellCreep d s).now = s.now ∧ (tellCreep d s).loading = s.loading ∧
    (tellCreep d s).active = s.active ∧ (tellCreep d s).sm = s.sm ∧ (tellCreep d s).hpc = s.hpc ∧
    (tellCreep d s).hc = s.hc ∧ (tellCreep d s).cm = s.cm ∧ (tellCreep d s).fe = s.fe ∧
    (tellCreep d s).links = s.links ∧ (tellCreep d s).tx = s.tx ∧ (tellCreep d s).events = s.events ∧
    (tellCreep d s).fc = s.fc ∧ (tellCreep d s).sr = s.sr ∧ (tellCreep d s).store = s.store := by
  simp [tellCreep]

@[simp] theorem postOffer_frame (o : Offer) :
    (postOffer o s).pending = s.pending ∧ (postOffer o s).now = s.now ∧ (postOffer o s).loading = s.loading ∧
    (postOffer o s).active = s.active ∧ (postOffer o s).sm = s.sm ∧ (postOffer o s).hpc = s.hpc ∧
    (postOffer o s).hc = s.hc ∧ (postOffer o s).cm = s.cm ∧ (postOffer o s).fe = s.fe ∧
    (postOffer o s).links = s.links ∧ (postOffer o s).tx = s.tx ∧ (postOffer o s).events = s.events ∧
    (postOffer o s).fc = s.fc ∧ (postOffer o s).sr = s.sr ∧ (postOffer o s).store = s.store := by
  simp [postOffer]

@[simp] theorem onHold_frame (f : HoldController → HoldController) :
    (onHold f s).pending = s.pending ∧ (onHold f s).now = s.now ∧ (onHold f s).loading = s.loading ∧
    (onHold f s).active = s.active ∧ (onHold f s).sm = s.sm ∧ (onHold f s).hpc = s.hpc ∧ (onHold f s).cm = s.cm ∧
    (onHold f s).fe = s.fe ∧ (onHold f s).links = s.links ∧ (onHold f s).tx = s.tx ∧
    (onHold f s).events = s.events ∧ (onHold f s).fc = s.fc ∧ (onHold f s).sr = s.sr ∧
    (onHold f s).store = s.store ∧ (onHold f s).mail = s.mail := by
  simp [onHold]

@[simp] theorem setQueue_frame (p : Port) (q : TxQueue) :
    (setQueue p q s).pending = s.pending ∧ (setQueue p q s).now = s.now ∧ (setQueue p q s).loading = s.loading ∧
    (setQueue p q s).active = s.active ∧ (setQueue p q s).sm = s.sm ∧ (setQueue p q s).hpc = s.hpc ∧
    (setQueue p q s).hc = s.hc ∧ (setQueue p q s).cm = s.cm ∧ (setQueue p q s).fe = s.fe ∧
    (setQueue p q s).links = s.links ∧ (setQueue p q s).events = s.events ∧ (setQueue p q s).fc = s.fc ∧
    (setQueue p q s).sr = s.sr ∧ (setQueue p q s).store = s.store ∧ (setQueue p q s).mail = s.mail := by
  simp [setQueue]

@[simp] theorem setLink_frame (p : Port) (l : Link) :
    (setLink p l s).pending = s.pending ∧ (setLink p l s).now = s.now ∧ (setLink p l s).loading = s.loading ∧
    (setLink p l s).active = s.active ∧ (setLink p l s).sm = s.sm ∧ (setLink p l s).hpc = s.hpc ∧
    (setLink p l s).hc = s.hc ∧ (setLink p l s).cm = s.cm ∧ (setLink p l s).fe = s.fe ∧
    (setLink p l s).tx = s.tx ∧ (setLink p l s).events = s.events ∧ (setLink p l s).fc = s.fc ∧
    (setLink p l s).sr = s.sr ∧ (setLink p l s).store = s.store ∧ (setLink p l s).mail = s.mail := by
  simp [setLink]

@[simp] theorem setMonitor_frame (i : Nat) (m : MonitorState) :
    (setMonitor i m s).pending = s.pending ∧ (setMonitor i m s).now = s.now ∧
    (setMonitor i m s).loading = s.loading ∧ (setMonitor i m s).active = s.active ∧
    (setMonitor i m s).hpc = s.hpc ∧ (setMonitor i m s).hc = s.hc ∧ (setMonitor i m s).cm = s.cm ∧
    (setMonitor i m s).fe = s.fe ∧ (setMonitor i m s).links = s.links ∧ (setMonitor i m s).tx = s.tx ∧
    (setMonitor i m s).events = s.events ∧ (setMonitor i m s).fc = s.fc ∧ (setMonitor i m s).sr = s.sr ∧
    (setMonitor i m s).store = s.store ∧ (setMonitor i m s).mail = s.mail := by
  simp [setMonitor]

@[simp] theorem setResponder_frame (f : ServiceResponder → ServiceResponder) :
    (setResponder f s).pending = s.pending ∧ (setResponder f s).now = s.now ∧
    (setResponder f s).loading = s.loading ∧ (setResponder f s).active = s.active ∧ (setResponder f s).sm = s.sm ∧
    (setResponder f s).hpc = s.hpc ∧ (setResponder f s).hc = s.hc ∧ (setResponder f s).cm = s.cm ∧
    (setResponder f s).fe = s.fe ∧ (setResponder f s).links = s.links ∧ (setResponder f s).tx = s.tx ∧
    (setResponder f s).events = s.events ∧ (setResponder f s).fc = s.fc ∧ (setResponder f s).store = s.store ∧
    (setResponder f s).mail = s.mail := by
  simp [setResponder]

@[simp] theorem onHold_hc (f : HoldController → HoldController) : (onHold f s).hc = f s.hc := rfl
@[simp] theorem setResponder_sr (f : ServiceResponder → ServiceResponder) : (setResponder f s).sr = f s.sr := rfl
@[simp] theorem raise_events (e : Event) : (raise e s).events = ⟨s.events.set ||| e.bit, s.events.again ||| e.bit⟩ := rfl
@[simp] theorem report_mail (sev : Severity) (k : FaultKind) (x : Subject) :
    (report sev k x s).mail = { s.mail with faults := s.mail.faults ++ [⟨sev, k, x, none⟩] } := rfl
@[simp] theorem reportChange_mail (sev : Severity) (k : FaultKind) (x : Subject) :
    (reportChange sev k x s).mail = { s.mail with faults := s.mail.faults ++ [⟨sev, k, x, some s.hc.state⟩] } := rfl
@[simp] theorem count_mail (c : Counter) : (count c s).mail = { s.mail with counts := s.mail.counts ++ [c] } := rfl
/-- A count made several times. -/
theorem countTimes_eq (c : Counter) (n : Nat) (s : State) : countTimes c n s = { s with
    mail := { s.mail with counts := s.mail.counts ++ List.replicate n c } } := rfl

@[simp] theorem countTimes_mail (c : Counter) (n : Nat) :
    (countTimes c n s).mail = { s.mail with counts := s.mail.counts ++ List.replicate n c } := rfl
@[simp] theorem tellState_mail (h : HoldState) (b : Bool) :
    (tellState h b s).mail = { s.mail with stateReports := s.mail.stateReports ++ [⟨h, b⟩] } := rfl
@[simp] theorem tellHold_mail (r : CreepReport) :
    (tellHold r s).mail = { s.mail with creepReports := s.mail.creepReports ++ [r] } := rfl
@[simp] theorem tellCreep_mail (d : CreepDelivery) :
    (tellCreep d s).mail = { s.mail with toCreep := s.mail.toCreep ++ [d] } := rfl
@[simp] theorem postOffer_mail (o : Offer) :
    (postOffer o s).mail = { s.mail with offers := s.mail.offers ++ [o] } := rfl
@[simp] theorem setMonitor_sm (i : Nat) (m : MonitorState) :
    (setMonitor i m s).sm = { s.sm with monitors := s.sm.monitors.set i m } := rfl
@[simp] theorem setLink_links (p : Port) (l : Link) : (setLink p l s).links = s.links.set p l := rfl
@[simp] theorem setQueue_tx (p : Port) (q : TxQueue) :
    (setQueue p q s).tx = { s.tx with queues := s.tx.queues.set p q } := rfl

/-! ## Things held per port, per axle and per class -/

@[simp] theorem PerPort.get_set {α : Type} (x : PerPort α) (p : Port) (v : α) : (x.set p v).get p = v := by
  cases p <;> rfl
@[simp] theorem PerPort.get_set_other {α : Type} (x : PerPort α) (p : Port) (v : α) :
    (x.set p v).get p.other = x.get p.other := by
  cases p <;> rfl
@[simp] theorem PerPort.set_get {α : Type} (x : PerPort α) (p : Port) : x.set p (x.get p) = x := by
  cases p <;> rfl
@[simp] theorem PerPort.set_set {α : Type} (x : PerPort α) (p : Port) (v w : α) : (x.set p v).set p w = x.set p w := by
  cases p <;> rfl
@[simp] theorem PerAxle.get_set {α : Type} (x : PerAxle α) (a : Axle) (v : α) : (x.set a v).get a = v := by
  cases a <;> rfl
@[simp] theorem queueOf_setQueue (p : Port) (q : TxQueue) : queueOf (setQueue p q s) p = q := by
  cases p <;> rfl
@[simp] theorem queueOf_setQueue_other (p : Port) (q : TxQueue) :
    queueOf (setQueue p q s) p.other = queueOf s p.other := by
  cases p <;> rfl

/-! ## Lists -/

theorem takeFirst_cons {α : Type} (f : α → Bool) (y : α) (ys : List α) :
    takeFirst f (y :: ys) =
      if f y then some (y, ys) else (takeFirst f ys).map fun z => (z.1, y :: z.2) := by
  rw [takeFirst]
  cases takeFirst f ys <;> rfl

/-- Everything `takeFirst` can answer. -/
theorem takeFirst_some {α : Type} {f : α → Bool} {l rest : List α} {x : α} :
    takeFirst f l = some (x, rest) ↔
      ∃ before after, l = before ++ x :: after ∧ f x = true ∧ (∀ y ∈ before, f y = false) ∧ rest = before ++ after := by
  induction l generalizing rest with
  | nil => simp [takeFirst]
  | cons y ys ih =>
    rw [takeFirst_cons]
    constructor
    · intro h
      by_cases hy : f y = true
      · simp only [hy, if_true, Option.some.injEq, Prod.mk.injEq] at h
        obtain ⟨rfl, rfl⟩ := h
        exact ⟨[], ys, rfl, hy, by simp, rfl⟩
      · simp only [hy, Bool.false_eq_true, if_false, Option.map_eq_some_iff, Prod.mk.injEq] at h
        obtain ⟨⟨z, zs⟩, hz, rfl, rfl⟩ := h
        obtain ⟨before, after, rfl, hx, hb, rfl⟩ := ih.mp hz
        exact ⟨y :: before, after, rfl, hx, by simpa [hy] using hb, rfl⟩
    · rintro ⟨before, after, h, hx, hb, rfl⟩
      cases before with
      | nil =>
        obtain ⟨rfl, rfl⟩ := List.cons.inj h
        simp [hx]
      | cons z zs =>
        obtain ⟨rfl, rfl⟩ := List.cons.inj h
        have hy := hb y (by simp)
        have := ih.mpr ⟨zs, after, rfl, hx, fun w hw => hb w (by simp [hw]), rfl⟩
        simpa [hy] using this

theorem takeFirst_none {α : Type} {f : α → Bool} {l : List α} : takeFirst f l = none ↔ ∀ x ∈ l, f x = false := by
  induction l with
  | nil => simp [takeFirst]
  | cons y ys ih =>
    rw [takeFirst_cons]
    by_cases hy : f y = true <;> simp [hy, ih]

theorem satAdd_le (cap a b : Nat) : satAdd cap a b ≤ cap := Nat.min_le_left _ _

/-! ## Every command has a next state -/

/-- No command ends in a fault or a refusal. -/
theorem exec_next (c : Instr) : ∃ t, exec c s = .next t := by
  cases c <;> exact ⟨_, rfl⟩

end Sys2Proof.Machine
end

