-- ==== Sys2Proof/Laws/Creep.lean ====
section
/-! SUPPORT. What a set of wheel pulses does to the channels' records (R109), and what the ranking of R113 answers. -/

namespace Sys2Proof.Machine

/-! ## Pulses (R109) -/

theorem channel_setChannel (c : CreepMonitor) (n m : Nat) (r : ChannelRec) (h : n < c.channels.length) :
    (c.setChannel n r).channel m = if m = n then r else c.channel m := by
  simp only [CreepMonitor.setChannel, CreepMonitor.channel, List.getElem?_set]
  by_cases hh : n = m
  · subst hh; simp [h]
  · simp [hh, Ne.symm hh]

theorem SignalKind.channel_eq (k : SignalKind) (n : Fin 8) : k.channel = some n ↔ k = .wheelPulse n := by
  cases k <;> simp [SignalKind.channel]

theorem takePulses_cons (x : PubItem) (xs : List PubItem) (c : CreepMonitor) :
    takePulses (x :: xs) c = takePulses xs (match x.kind.channel with
      | some n => c.setChannel n.val (takePulse (c.channel n.val) x)
      | none => c) := rfl

theorem takePulses_length (items : List PubItem) (c : CreepMonitor) :
    (takePulses items c).channels.length = c.channels.length := by
  induction items generalizing c with
  | nil => rfl
  | cons x xs ih =>
    rw [takePulses_cons, ih]
    split <;> simp [CreepMonitor.setChannel]

/-- A set reaches the channels' records alone. -/
theorem takePulses_frame (items : List PubItem) (c : CreepMonitor) :
    takePulses items c = { c with channels := (takePulses items c).channels } := by
  induction items generalizing c with
  | nil => rfl
  | cons x xs ih =>
    rw [takePulses_cons]
    split
    · rw [ih]; rfl
    · exact ih c

/-- A channel of which nothing is published keeps its record. -/
theorem takePulses_none (items : List PubItem) (c : CreepMonitor) (n : Fin 8) (hl : c.channels.length = 8)
    (h : items.filter (fun y => y.kind == .wheelPulse n) = []) : (takePulses items c).channel n = c.channel n := by
  induction items generalizing c with
  | nil => rfl
  | cons x xs ih =>
    simp only [List.filter_cons] at h
    split at h
    · cases h
    · rename_i hx
      rw [takePulses_cons]
      split
      · rename_i m hm
        rw [ih _ (by simp [CreepMonitor.setChannel, hl]) h, channel_setChannel _ _ _ _ (by omega), if_neg]
        intro he
        obtain rfl : n = m := Fin.ext he
        rw [SignalKind.channel_eq] at hm
        simp [hm] at hx
      · exact ih _ hl h

/-- A channel published once takes that pulse. -/
theorem takePulses_one (items : List PubItem) (c : CreepMonitor) (n : Fin 8) (x : PubItem)
    (hl : c.channels.length = 8) (h : items.filter (fun y => y.kind == .wheelPulse n) = [x]) :
    (takePulses items c).channel n = takePulse (c.channel n) x := by
  induction items generalizing c with
  | nil => cases h
  | cons y xs ih =>
    rw [takePulses_cons]
    simp only [List.filter_cons] at h
    split at h
    · rename_i hx
      obtain ⟨rfl, h2⟩ := List.cons.inj h
      have : y.kind.channel = some n := by rw [SignalKind.channel_eq]; simpa using hx
      rw [this]
      simp only
      rw [takePulses_none _ _ _ (by simp [CreepMonitor.setChannel, hl]) h2, channel_setChannel _ _ _ _ (by omega),
        if_pos rfl]
    · rename_i hx
      split
      · rename_i m hm
        rw [ih _ (by simp [CreepMonitor.setChannel, hl]) h, channel_setChannel _ _ _ _ (by omega), if_neg]
        intro he
        obtain rfl : n = m := Fin.ext he
        rw [SignalKind.channel_eq] at hm
        simp [hm] at hx
      · exact ih _ hl h

/-! ## The ranking (R113) -/

theorem Ranked.before_total (x y : Ranked) : x.before y = true ∨ y.before x = true := by
  simp only [Ranked.before, Bool.or_eq_true, Bool.and_eq_true, decide_eq_true_eq, beq_iff_eq]; omega

theorem Ranked.before_trans {x y z : Ranked} (h : x.before y = true) (k : y.before z = true) :
    x.before z = true := by
  simp only [Ranked.before, Bool.or_eq_true, Bool.and_eq_true, decide_eq_true_eq, beq_iff_eq] at *; omega

theorem Ranked.before_distance {x y : Ranked} (h : x.before y = true) : y.distance ≤ x.distance := by
  simp only [Ranked.before, Bool.or_eq_true, Bool.and_eq_true, decide_eq_true_eq, beq_iff_eq] at h; omega

theorem insertRanked_perm (x : Ranked) (l : List Ranked) : (insertRanked x l).Perm (x :: l) := by
  induction l with
  | nil => exact List.Perm.refl _
  | cons z zs ih =>
    unfold insertRanked
    split
    · exact List.Perm.refl _
    · exact (List.Perm.cons z ih).trans (List.Perm.swap x z zs)

theorem rankAll_perm (l : List Ranked) : (rankAll l).Perm l := by
  induction l with
  | nil => exact List.Perm.refl _
  | cons z zs ih => exact (insertRanked_perm _ _).trans (List.Perm.cons z ih)

theorem insertRanked_sorted {x : Ranked} {l : List Ranked} (h : l.Pairwise fun a b => a.before b = true) :
    (insertRanked x l).Pairwise fun a b => a.before b = true := by
  induction l with
  | nil => simp [insertRanked]
  | cons z zs ih =>
    unfold insertRanked
    have h' := List.pairwise_cons.mp h
    split
    · rename_i hb
      refine List.pairwise_cons.mpr ⟨fun w hw => ?_, h⟩
      rcases List.mem_cons.mp hw with rfl | hw
      · exact hb
      · exact Ranked.before_trans hb (h'.1 w hw)
    · rename_i hb
      refine List.pairwise_cons.mpr ⟨fun w hw => ?_, ih h'.2⟩
      rcases List.mem_cons.mp ((insertRanked_perm _ _).mem_iff.mp hw) with rfl | hw
      · exact (Ranked.before_total w z).resolve_left hb
      · exact h'.1 w hw

theorem rankAll_sorted (l : List Ranked) : (rankAll l).Pairwise fun a b => a.before b = true := by
  induction l with
  | nil => simp [rankAll]
  | cons z zs ih => exact insertRanked_sorted ih

/-- A channel as the ranking lists it. -/
def CreepMonitor.ranked (b : Bank) (c : CreepMonitor) (n : Fin 8) : Ranked :=
  let e := (b.extractionOf (.wheelPulse n)).getD .default
  ⟨(c.channel n.val).pending * e.distance, e.axle.code, n⟩

/-- The VALID channels in the order of their numbers. -/
def CreepMonitor.validChannels (c : CreepMonitor) : List (Fin 8) :=
  channelNumbers.filter fun n => decide ((c.channel n.val).validity = .valid)

theorem ranking_eq (b : Bank) (c : CreepMonitor) : ranking b c = rankAll (c.validChannels.map (c.ranked b)) := by
  unfold ranking CreepMonitor.validChannels
  congr 1
  generalize channelNumbers = l
  induction l with
  | nil => rfl
  | cons z zs ih =>
    simp only [List.filterMap_cons, List.filter_cons]
    by_cases h : (c.channel z.val).validity = .valid
    · simp [h, ih, CreepMonitor.ranked]
    · simp [h, ih]

theorem map_channel_eq (c : CreepMonitor) (h : c.channels.length = 8) :
    channelNumbers.map (fun n : Fin 8 => c.channel n.val) = c.channels := by
  obtain ⟨ch, _⟩ := c
  match ch, h with
  | [_, _, _, _, _, _, _, _], _ => rfl

theorem validChannels_length (c : CreepMonitor) (h : c.channels.length = 8) :
    c.validChannels.length = c.validCount := by
  unfold CreepMonitor.validCount countWhere
  rw [← map_channel_eq c h, List.filter_map, List.length_map]
  rfl

theorem mem_validChannels {c : CreepMonitor} {n : Fin 8} :
    n ∈ c.validChannels ↔ (c.channel n.val).validity = .valid := by
  have : n ∈ channelNumbers := by fin_cases n <;> decide
  simp [CreepMonitor.validChannels, this]

theorem Axle.code_inj {x y : Axle} (h : x.code = y.code) : x = y := by
  cases x <;> cases y <;> first | rfl | cases h

/-- Of two channels, the one before the other in the ranking outranks it. -/
theorem Ranked.before_outranks {b : Bank} {c : CreepMonitor} {m n : Fin 8}
    (h : (c.ranked b m).before (c.ranked b n) = true) (hne : m ≠ n) :
    Outranks (fun k : Fin 8 => (c.ranked b k).distance)
      (fun k : Fin 8 => ((b.extractionOf (.wheelPulse k)).getD .default).axle) m n := by
  simp only [Ranked.before, Bool.or_eq_true, Bool.and_eq_true, decide_eq_true_eq, beq_iff_eq] at h
  rcases h with h | ⟨h, h' | ⟨h1, h2⟩⟩
  · exact .inl h
  · exact .inr ⟨h, .inl h'⟩
  · exact .inr ⟨h, .inr ⟨Axle.code_inj h1, lt_of_le_of_ne h2 hne⟩⟩

/-- With two VALID channels the ranking has a first and a second, which outranks every other VALID channel (R113). -/
theorem ranking_second (b : Bank) (c : CreepMonitor) (hl : c.channels.length = 8) (hv : 2 ≤ c.validCount) :
    ∃ m n rest, ranking b c = c.ranked b m :: c.ranked b n :: rest ∧
      (c.channel m.val).validity = .valid ∧ (c.channel n.val).validity = .valid ∧
      Outranks (fun k : Fin 8 => (c.ranked b k).distance)
        (fun k : Fin 8 => ((b.extractionOf (.wheelPulse k)).getD .default).axle) m n ∧
      ∀ k : Fin 8, (c.channel k.val).validity = .valid → k ≠ m → k ≠ n →
        Outranks (fun k : Fin 8 => (c.ranked b k).distance)
          (fun k : Fin 8 => ((b.extractionOf (.wheelPulse k)).getD .default).axle) n k := by
  have hp := rankAll_perm (c.validChannels.map (c.ranked b))
  have hs := rankAll_sorted (c.validChannels.map (c.ranked b))
  rw [← ranking_eq] at hp hs
  have hn : c.validChannels.Nodup := List.Nodup.filter _ (by decide)
  have hlen : 2 ≤ (ranking b c).length := by rw [hp.length_eq, List.length_map, validChannels_length c hl]; exact hv
  match hR : ranking b c, hlen with
  | x :: y :: rest, _ =>
    rw [hR] at hp hs
    obtain ⟨m, hm, rfl⟩ := List.mem_map.mp (hp.mem_iff.mp (by simp : x ∈ x :: y :: rest))
    obtain ⟨n, hn', rfl⟩ := List.mem_map.mp (hp.mem_iff.mp (by simp : y ∈ _ :: y :: rest))
    have inj : Function.Injective (c.ranked b) := fun i j h => congrArg Ranked.channel h
    have hnd := hp.nodup_iff.mpr (hn.map inj)
    have hs1 := List.pairwise_cons.mp hs
    have hs2 := List.pairwise_cons.mp hs1.2
    refine ⟨m, n, rest, rfl, mem_validChannels.mp hm, mem_validChannels.mp hn',
      Ranked.before_outranks (hs1.1 _ (by simp)) ?_, fun k hk hkm hkn => ?_⟩
    · rintro rfl
      simp at hnd
    · have hk' := hp.mem_iff.mpr (List.mem_map_of_mem (f := c.ranked b) (mem_validChannels.mpr hk))
      rcases List.mem_cons.mp hk' with h | h
      · exact absurd (inj h) hkm
      · rcases List.mem_cons.mp h with h | h
        · exact absurd (inj h) hkn
        · exact Ranked.before_outranks (hs2.1 _ h) hkn.symm

end Sys2Proof.Machine
end

