-- ==== Sys2Proof/Laws/Signals.lean ====
section
/-! SUPPORT. The Signal Value Table and the monitors' states under the Signal Monitor's operations, and what entering
VALID and LOST do. -/

namespace Sys2Proof.Machine

theorem SignalKind.ofCode_code (k : SignalKind) : SignalKind.ofCode k.code = some k := by
  cases k <;> try rfl
  · rename_i x; cases x <;> rfl
  · rename_i x; fin_cases x <;> rfl

theorem SignalKind.code_injective {j k : SignalKind} (h : j.code = k.code) : j = k := by
  have hj := SignalKind.ofCode_code j
  rw [h, SignalKind.ofCode_code k] at hj
  exact (Option.some.inj hj).symm

theorem SignalKind.code_lt (k : SignalKind) : k.code < 29 := by
  have h := (List.getElem?_eq_some_iff.mp (SignalKind.ofCode_code k)).1
  simpa [SignalKind.all] using h

/-- No kind has a code above 28 (R6). -/
theorem SignalKind.ofCode_none {c : Nat} (h : 28 < c) : SignalKind.ofCode c = none := by
  simp [SignalKind.ofCode, SignalKind.all]; omega

/-! ## Entries and states -/

@[simp] theorem setEntry_monitors (k : SignalKind) (e : SvtEntry) (sm : SignalMonitor) :
    (setEntry k e sm).monitors = sm.monitors := rfl
@[simp] theorem setEntry_length (k : SignalKind) (e : SvtEntry) (sm : SignalMonitor) :
    (setEntry k e sm).svt.length = sm.svt.length := by
  simp [setEntry]

theorem entry_setEntry {sm : SignalMonitor} (h : sm.svt.length = 29) (k : SignalKind) (e : SvtEntry) :
    (setEntry k e sm).entry k = e := by
  simp [setEntry, SignalMonitor.entry, h, SignalKind.code_lt]

theorem entry_setEntry_ne {sm : SignalMonitor} {j k : SignalKind} (e : SvtEntry) (h : j ≠ k) :
    (setEntry k e sm).entry j = sm.entry j := by
  have : k.code ≠ j.code := fun hh => h (SignalKind.code_injective hh.symm)
  simp [setEntry, SignalMonitor.entry, this]

theorem entry_congr {x y : SignalMonitor} (h : x.svt = y.svt) (k : SignalKind) : x.entry k = y.entry k := by
  simp [SignalMonitor.entry, h]

theorem state_congr {x y : SignalMonitor} (h : x.monitors = y.monitors) (i : Nat) : x.state i = y.state i := by
  simp [SignalMonitor.state, h]

theorem state_setMonitor {s : State} (i : Fin 24) (m : MonitorState) (h : s.sm.monitors.length = 24) :
    (setMonitor i m s).sm.state i = m := by
  simp [SignalMonitor.state, h]

theorem state_setMonitor_ne {s : State} (i : Nat) (m : MonitorState) {j : Nat} (h : j ≠ i) :
    (setMonitor i m s).sm.state j = s.sm.state j := by
  simp [SignalMonitor.state, Ne.symm h]

theorem countWhere_id (w : List Bool) : countWhere id w = w.count true := by
  simp [countWhere, List.count, List.countP_eq_length_filter]
  congr

/-! ## Publication -/

/-- A publication delivers to the consumers and changes nothing else. -/
theorem publish_eq (old : SignalMonitor) (items : List PubItem) (s : State) :
    publish old items s = { s with mail := { s.mail with
      toCalc := (publish old items s).mail.toCalc
      toCreep := (publish old items s).mail.toCreep
      toHc := (publish old items s).mail.toHc } } := rfl

@[simp] theorem publish_sm (old : SignalMonitor) (items : List PubItem) (s : State) : (publish old items s).sm = s.sm := rfl
@[simp] theorem publish_events (old : SignalMonitor) (items : List PubItem) (s : State) :
    (publish old items s).events = s.events := rfl
@[simp] theorem publish_counts (old : SignalMonitor) (items : List PubItem) (s : State) :
    (publish old items s).mail.counts = s.mail.counts := rfl
@[simp] theorem publish_faults (old : SignalMonitor) (items : List PubItem) (s : State) :
    (publish old items s).mail.faults = s.mail.faults := rfl
@[simp] theorem publish_watch (old : SignalMonitor) (items : List PubItem) (s : State) :
    (publish old items s).mail.watch = s.mail.watch := rfl

/-! ## Entering LOST and VALID (R14, R15) -/

/-- R15: the kinds lost keep their values, and no other kind changes. -/
theorem loseAll_entries (kinds : List SignalKind) {sm : SignalMonitor} (h : sm.svt.length = 29) :
    (loseAll kinds sm).svt.length = 29 ∧ (loseAll kinds sm).monitors = sm.monitors ∧
      (∀ k ∈ kinds, (loseAll kinds sm).entry k = ⟨.lost, (sm.entry k).value, none⟩) ∧
      (∀ k, k ∉ kinds → (loseAll kinds sm).entry k = sm.entry k) := by
  induction kinds generalizing sm with
  | nil => simp [loseAll, h]
  | cons x xs ih =>
    obtain ⟨i1, i2, i3, i4⟩ := ih (sm := setEntry x ⟨.lost, (sm.entry x).value, none⟩ sm) (by simpa using h)
    refine ⟨i1, i2, fun k hk => ?_, fun k hk => ?_⟩ <;> change (loseAll xs _).entry k = _
    · by_cases hx : k ∈ xs
      · rw [i3 k hx]
        by_cases hkx : k = x
        · subst hkx; rw [entry_setEntry h]
        · rw [entry_setEntry_ne _ hkx]
      · obtain rfl : k = x := by simpa [hx] using hk
        rw [i4 k hx, entry_setEntry h]
    · have hk' : k ≠ x ∧ k ∉ xs := by simpa using hk
      rw [i4 k hk'.2, entry_setEntry_ne _ hk'.1]

/-- R14: every value is accepted as VALID without a candidate, and no other kind changes. -/
theorem acceptAll_entries (values : List (SignalKind × Bool × Int)) {sm : SignalMonitor} (h : sm.svt.length = 29) :
    (acceptAll values sm).svt.length = 29 ∧ (acceptAll values sm).monitors = sm.monitors ∧
      ((values.map fun x => x.1).Nodup →
        ∀ x ∈ values, (acceptAll values sm).entry x.1 = ⟨.valid, some x.2.2, none⟩) ∧
      (∀ k, k ∉ values.map (fun x => x.1) → (acceptAll values sm).entry k = sm.entry k) := by
  induction values generalizing sm with
  | nil => simp [acceptAll, h]
  | cons x xs ih =>
    obtain ⟨i1, i2, i3, i4⟩ := ih (sm := setEntry x.1 ⟨.valid, some x.2.2, none⟩ sm) (by simpa using h)
    refine ⟨i1, i2, fun hn y hy => ?_, fun k hk => ?_⟩
    · change (acceptAll xs _).entry y.1 = _
      rw [List.map_cons, List.nodup_cons] at hn
      rcases List.mem_cons.mp hy with rfl | hy
      · rw [i4 _ hn.1, entry_setEntry h]
      · exact i3 hn.2 y hy
    · change (acceptAll xs _).entry k = _
      rw [List.map_cons, List.mem_cons, not_or] at hk
      rw [i4 k hk.2, entry_setEntry_ne _ hk.1]

/-- Everything the entry to LOST does (R15), but for the publication. -/
theorem enterLost_spec (i : Fin 24) (b : Bank) {s : State} (hm : s.sm.monitors.length = 24) (hs : s.sm.svt.length = 29) :
    let t := enterLost i b s
    t.sm.state i = { s.sm.state i with sync := .lost, baseline := none } ∧
      (∀ j : Nat, j ≠ i.val → t.sm.state j = s.sm.state j) ∧
      (∀ k ∈ b.kindsOf i, t.sm.entry k = ⟨.lost, (s.sm.entry k).value, none⟩) ∧
      (∀ k, k ∉ b.kindsOf i → t.sm.entry k = s.sm.entry k) ∧
      t.events.set = s.events.set ||| 1#16 <<< 7 ∧ t.mail.counts = s.mail.counts ++ [.losses i] ∧
      t.mail.faults = s.mail.faults ++
        [⟨(lossReport (b.kindsOf i)).1, .signalLost, (lossReport (b.kindsOf i)).2, none⟩] := by
  obtain ⟨-, l2, l3, l4⟩ := loseAll_entries (b.kindsOf i)
    (sm := (setMonitor i { s.sm.state i with sync := .lost, baseline := none } s).sm) hs
  refine ⟨?_, fun j hj => ?_, fun k hk => l3 k hk, fun k hk => l4 k hk, ?_, ?_, ?_⟩
  · exact (state_congr l2 _).trans (state_setMonitor i _ hm)
  · exact (state_congr l2 _).trans (state_setMonitor_ne _ _ hj)
  · simp [enterLost, Event.bit, Event.code]
  · simp [enterLost]
  · simp [enterLost]

/-- Everything the entry to VALID does (R14, R16), but for the publication. -/
theorem enterValid_spec (i : Fin 24) (e : MonitorEntry) (good : Nat) (values : List (SignalKind × Bool × Int)) {s : State}
    (hm : s.sm.monitors.length = 24) (hs : s.sm.svt.length = 29) :
    let t := enterValid i e good values s
    t.sm.state i = { s.sm.state i with sync := .valid, good, window := List.replicate e.n false, beenValid := true } ∧
      (∀ j : Nat, j ≠ i.val → t.sm.state j = s.sm.state j) ∧
      ((values.map fun x => x.1).Nodup → ∀ x ∈ values, t.sm.entry x.1 = ⟨.valid, some x.2.2, none⟩) ∧
      (∀ k, k ∉ values.map (fun x => x.1) → t.sm.entry k = s.sm.entry k) ∧
      t.events.set = (if (s.sm.state i).beenValid then s.events.set ||| 1#16 <<< 8 else s.events.set) ∧
      t.mail.counts = s.mail.counts ∧
      t = { s with
        sm := t.sm
        events := t.events
        mail := { s.mail with toCalc := t.mail.toCalc, toHc := t.mail.toHc, toCreep := t.mail.toCreep } } := by
  obtain ⟨-, l2, l3, l4⟩ := acceptAll_entries values (sm := (setMonitor i { s.sm.state i with
    sync := .valid, good, window := List.replicate e.n false, beenValid := true } s).sm) hs
  cases hb : (s.sm.state i).beenValid
  all_goals
    refine ⟨?_, fun j hj => ?_, ?_, ?_, ?_, ?_, ?_⟩ <;> simp only [enterValid, hb, publish_sm, publish_events,
      publish_counts, if_true, if_false, Bool.false_eq_true, raise_frame, raise_events,
      State.setSm_sm, State.setSm_events, State.setSm_mail, setMonitor_frame]
    · exact (state_congr l2 _).trans (state_setMonitor i _ hm)
    · exact (state_congr l2 _).trans (state_setMonitor_ne _ _ hj)
    · exact l3
    · exact l4
    all_goals rfl

/-! ## The subjects of reports (R15, R53) -/

/-- A search of a list in rising order of code finds the lowest. -/
theorem find_lowest {l : List SignalKind} (hl : l.Pairwise fun x y => x.code < y.code) {f : SignalKind → Bool} {k : SignalKind}
    (h : l.find? f = some k) : IsLowest (fun x => x ∈ l ∧ f x = true) k := by
  obtain ⟨hf, before, after, rfl, hb⟩ := List.find?_eq_some_iff_append.mp h
  refine ⟨⟨by simp, hf⟩, fun k' ⟨hm, hk⟩ => ?_⟩
  rw [List.pairwise_append] at hl
  rcases List.mem_append.mp hm with h1 | h1
  · have := hb k' h1; simp [hk] at this
  · rcases List.mem_cons.mp h1 with rfl | h2
    · exact le_refl _
    · exact Nat.le_of_lt ((List.pairwise_cons.mp hl.2.1).1 k' h2)

/-- No two kinds are lowest. -/
theorem lowest_unique {f : SignalKind → Prop} {j k : SignalKind} (h1 : IsLowest f j) (h2 : IsLowest f k) : j = k :=
  SignalKind.code_injective (Nat.le_antisymm (h1.2 _ h2.1) (h2.2 _ h1.1))

/-- R15: the report at the entry to LOST. -/
theorem lossReport_reported (kinds : List SignalKind) : LossReported kinds ⟨(lossReport kinds).1, .signalLost, (lossReport kinds).2, none⟩ := by
  have ord : SignalKind.mandatory.Pairwise fun x y => x.code < y.code := by decide
  have ord' : SignalKind.all.Pairwise fun x y => x.code < y.code := by decide
  have all : ∀ k : SignalKind, k ∈ SignalKind.all := fun k => List.mem_of_getElem? (SignalKind.ofCode_code k)
  unfold lossReport
  cases h : SignalKind.mandatory.find? fun k => kinds.contains k with
  | some k =>
    have low := find_lowest ord h
    have low' : IsLowest (fun x => x ∈ kinds ∧ x ∈ SignalKind.mandatory) k := by
      simpa [and_comm] using low
    refine ⟨⟨rfl, rfl⟩, fun k' hk' => ⟨rfl, by rw [lowest_unique hk' low']⟩, fun hn => absurd low'.1.2 (hn _ low'.1.1)⟩
  | none =>
    rw [List.find?_eq_none] at h
    refine ⟨⟨rfl, rfl⟩, fun k hk => absurd (h k hk.1.2) (by simpa using hk.1.1), fun _ => ?_⟩
    · cases h2 : SignalKind.all.find? fun k => kinds.contains k with
      | some k =>
        refine ⟨rfl, fun k' hk' => ?_⟩
        have low := find_lowest ord' h2
        have : IsLowest (fun x => x ∈ kinds) k := by simpa [all] using low
        rw [lowest_unique hk' this]
      | none =>
        refine ⟨rfl, fun k' hk' => ?_⟩
        rw [List.find?_eq_none] at h2
        exact absurd (h2 k' (all _)) (by simpa using hk'.1)

/-- R53: the kind that the Start Window's report names. -/
theorem wanting_subject (sm : SignalMonitor) {k : SignalKind} (h : StartSubject sm k) : sm.wanting = some k := by
  have ord : SignalKind.mandatory.Pairwise fun x y => x.code < y.code := by decide
  have ord' : SignalKind.wheels.Pairwise fun x y => x.code < y.code := by decide
  have wh : ∀ x, x ∈ SignalKind.wheels ↔ ∃ n, x = .wheelPulse n := by
    refine fun x => ⟨fun h => ?_, ?_⟩
    · simp only [SignalKind.wheels, List.mem_cons, List.not_mem_nil, or_false] at h
      rcases h with h | h | h | h | h | h | h | h <;> exact ⟨_, h⟩
    · rintro ⟨n, rfl⟩
      fin_cases n <;> simp [SignalKind.wheels]
  have v : ∀ x, ((sm.validity x == .noData) = true) ↔ (sm.entry x).validity = .noData := by intro x; simp [SignalMonitor.validity]
  unfold SignalMonitor.wanting
  rcases h with h | ⟨hn, h⟩
  · cases hf : SignalKind.mandatory.find? fun k => sm.validity k == .noData with
    | some j =>
      have low := find_lowest ord hf
      simp only [v] at low
      simp only [lowest_unique low h]
    | none =>
      rw [List.find?_eq_none] at hf
      exact absurd ((v _).mpr h.1.2) (hf _ h.1.1)
  · have hf : (SignalKind.mandatory.find? fun k => sm.validity k == .noData) = none := by
      rw [List.find?_eq_none]; intro x hx k; exact hn x hx ((v x).mp k)
    simp only [hf]
    cases hg : SignalKind.wheels.find? fun k => sm.validity k == .noData with
    | some j =>
      have low := find_lowest ord' hg
      simp only [v, wh] at low
      rw [lowest_unique low h]
    | none =>
      rw [List.find?_eq_none] at hg
      exact absurd ((v _).mpr h.1.2) (hg _ ((wh _).mpr h.1.1))

end Sys2Proof.Machine
end

