-- ==== Sys2Proof/Laws/Fields.lean ====
section
/-! SUPPORT. Service access to the tables (R181, R189): a field written reads back, and every other field reads as
before. -/

namespace Sys2Proof.Machine

/-- A value written is the value read. -/
def FieldSpec.ReadsBack {α : Type} (f : FieldSpec α) : Prop := ∀ x v y, f.put x v = some y → f.get y = v

theorem readsBack_nat {α : Type} {lo hi : Nat} {get : α → Nat} {set : α → Nat → α}
    (h : ∀ x n, lo ≤ n → n ≤ hi → get (set x n) = n) :
    FieldSpec.ReadsBack (natField lo hi get set) := by
  intro x v y hp
  simp only [natField] at hp ⊢
  split at hp
  · cases hp; rename_i hh; rw [h _ _ hh.1 hh.2]; simp
  · cases hp
theorem readsBack_code {α : Type} {codes : List Nat} {get : α → Nat} {set : α → Nat → α} (h : ∀ x n, get
    (set x n) = n) :
    FieldSpec.ReadsBack (codeField codes get set) := by
  intro x v y hp
  simp only [codeField] at hp ⊢
  split at hp
  · cases hp; rw [h]; simp
  · cases hp
theorem readsBack_int {α : Type} {lo hi : Int} {get : α → Int} {set : α → Int → α} (h : ∀ x n, get (set x n) = n) :
    FieldSpec.ReadsBack (intField lo hi get set) := by
  intro x v y hp
  simp only [intField] at hp ⊢
  split at hp
  · cases hp; rw [h]; simp
  · cases hp
theorem readsBack_bool {α : Type} {get : α → Bool} {set : α → Bool → α} (h : ∀ x n, get (set x n) = n) :
    FieldSpec.ReadsBack (boolField get set) := by
  apply readsBack_nat
  intro x n h0 h1
  rw [h]; interval_cases n <;> rfl
theorem readsBack_ident {α : Type} {get : α → Ident} {set : α → Ident → α} (h : ∀ x n, get (set x n) = n) :
    FieldSpec.ReadsBack (identField get set) := by
  intro x v y hp
  simp only [identField] at hp ⊢
  split at hp
  · cases hp; rw [h]; simp
  · cases hp
theorem readsBack_format {α : Type} {get : α → Ident} {set : α → Ident → α} (h : ∀ x n, get (set x n) = n) :
    FieldSpec.ReadsBack (formatField get set) := by
  intro x v y hp
  simp only [formatField] at hp ⊢
  split at hp
  · split at hp
    · cases hp; rw [h]; rename_i h1 _
      have : v.toNat = 0 ∨ v.toNat = 1 := by omega
      apply BitVec.eq_of_toNat_eq
      rcases this with h | h <;> simp [h, bit]
    · cases hp
  · cases hp
theorem readsBack_within {α β : Type} {f : FieldSpec α} (hf : FieldSpec.ReadsBack f) {get : β → α}
    {set : β → α → β} (h : ∀ x a, get (set x a) = a) :
    FieldSpec.ReadsBack (f.within get set) := by
  intro x v y hp
  simp only [FieldSpec.within, Option.map_eq_some_iff] at hp ⊢
  obtain ⟨a, ha, rfl⟩ := hp
  rw [h]; exact hf _ _ _ ha

theorem SignalKind.code_ofCode {n : Nat} {k : SignalKind} (h : SignalKind.ofCode n = some k) : k.code = n := by
  have hn : n < 29 := by
    simp only [SignalKind.ofCode] at h
    have := (List.getElem?_eq_some_iff.mp h).1
    simpa [SignalKind.all] using this
  interval_cases n <;> (cases h; rfl)

theorem readsBack_monitor {i f} (h : monitorField i = some f) : FieldSpec.ReadsBack f := by
  unfold monitorField at h
  split at h <;> cases h
  all_goals first
    | exact readsBack_bool (fun _ _ => rfl) | exact readsBack_format (fun _ _ => rfl)
    | exact readsBack_ident (fun _ _ => rfl)
    | exact readsBack_nat (fun _ _ _ _ => rfl) | exact readsBack_code (fun _ _ => rfl)
theorem readsBack_extraction {i f} (h : extractionField i = some f) : FieldSpec.ReadsBack f := by
  unfold extractionField at h
  split at h <;> cases h
  all_goals first
    | exact readsBack_bool (fun _ _ => rfl) | exact readsBack_nat (fun _ _ _ _ => rfl)
    | exact readsBack_int (fun _ _ => rfl) | skip
  · intro x v y hp
    simp only at hp ⊢
    split at hp
    · cases hp; rename_i h; apply BitVec.eq_of_toNat_eq; simp [kindCode, h]
    · simp only [Option.map_eq_some_iff] at hp
      obtain ⟨k, hk, rfl⟩ := hp
      apply BitVec.eq_of_toNat_eq; simp [kindCode, SignalKind.code_ofCode hk]
  · apply readsBack_nat
    intro x n h0 h1
    interval_cases n <;> rfl
theorem readsBack_forward {i f} (h : forwardField i = some f) : FieldSpec.ReadsBack f := by
  unfold forwardField at h
  split at h <;> cases h
  all_goals first
    | exact readsBack_bool (fun _ _ => rfl) | exact readsBack_format (fun _ _ => rfl)
    | exact readsBack_ident (fun _ _ => rfl)
    | exact readsBack_nat (fun _ _ _ _ => rfl) | skip
  all_goals (apply readsBack_nat; intro x n h0 h1; interval_cases n <;> rfl)
theorem readsBack_param {i f} (h : paramField i = some f) : FieldSpec.ReadsBack f := by
  unfold paramField at h
  split at h <;> cases h
  all_goals first
    | exact readsBack_bool (fun _ _ => rfl) | exact readsBack_format (fun _ _ => rfl)
    | exact readsBack_ident (fun _ _ => rfl)
    | exact readsBack_nat (fun _ _ _ _ => rfl)
theorem readsBack_rate {i f} (h : rateField i = some f) : FieldSpec.ReadsBack f := by
  unfold rateField at h
  split at h <;> cases h
  all_goals exact readsBack_nat (fun _ _ _ _ => rfl)
theorem readsBack_axle {i f} (h : axleField i = some f) : FieldSpec.ReadsBack f := by
  unfold axleField at h
  split at h <;> cases h
  all_goals exact readsBack_nat (fun _ _ _ _ => rfl)
theorem readsBack_minima {i f} (h : minimaField i = some f) : FieldSpec.ReadsBack f := by
  unfold minimaField at h
  split at h <;> cases h
  all_goals exact readsBack_nat (fun _ _ _ _ => rfl)

/-- A write of one field leaves what another reads. -/
def FieldSpec.Apart {α : Type} (f g : FieldSpec α) : Prop := ∀ x v y, f.put x v = some y → g.get y = g.get x

theorem apart_nat {α : Type} {lo hi : Nat} {get : α → Nat} {set : α → Nat → α} {g : FieldSpec α}
    (h : ∀ x n, g.get (set x n) = g.get x) :
    FieldSpec.Apart (natField lo hi get set) g := by
  intro x v y hp
  simp only [natField] at hp
  split at hp
  · cases hp; exact h _ _
  · cases hp
theorem apart_code {α : Type} {codes : List Nat} {get : α → Nat} {set : α → Nat → α} {g : FieldSpec α}
    (h : ∀ x n, g.get (set x n) = g.get x) :
    FieldSpec.Apart (codeField codes get set) g := by
  intro x v y hp
  simp only [codeField] at hp
  split at hp
  · cases hp; exact h _ _
  · cases hp
theorem apart_int {α : Type} {lo hi : Int} {get : α → Int} {set : α → Int → α} {g : FieldSpec α}
    (h : ∀ x n, g.get (set x n) = g.get x) :
    FieldSpec.Apart (intField lo hi get set) g := by
  intro x v y hp
  simp only [intField] at hp
  split at hp
  · cases hp; exact h _ _
  · cases hp
theorem apart_bool {α : Type} {get : α → Bool} {set : α → Bool → α} {g : FieldSpec α}
    (h : ∀ x n, g.get (set x n) = g.get x) :
    FieldSpec.Apart (boolField get set) g :=
  apart_nat (fun x _ => h x _)
theorem apart_ident {α : Type} {get : α → Ident} {set : α → Ident → α} {g : FieldSpec α}
    (h : ∀ x (n : Ident), n.ext = (get x).ext → g.get (set x n) = g.get x) :
    FieldSpec.Apart (identField get set) g := by
  intro x v y hp
  simp only [identField] at hp
  split at hp
  · cases hp; exact h _ _ rfl
  · cases hp
theorem apart_format {α : Type} {get : α → Ident} {set : α → Ident → α} {g : FieldSpec α}
    (h : ∀ x (n : Ident), n.value = (get x).value → g.get (set x n) = g.get x) :
    FieldSpec.Apart (formatField get set) g := by
  intro x v y hp
  simp only [formatField] at hp
  split at hp
  · split at hp
    · cases hp; exact h _ _ rfl
    · cases hp
  · cases hp

theorem apart_monitor {i j f g} (hi : monitorField i = some f) (hj : monitorField j = some g) (hne : i ≠ j) :
    FieldSpec.Apart f g := by
  have hi' : i < 11 := by
    by_contra h
    have : monitorField i = none := (match i, h with | n+11, h => rfl)
    rw [this] at hi
    cases hi
  have hj' : j < 11 := by
    by_contra h
    have : monitorField j = none := (match j, h with | n+11, h => rfl)
    rw [this] at hj
    cases hj
  interval_cases i <;> cases hi <;> interval_cases j <;> (first | exact absurd rfl hne | skip) <;> cases hj <;>
   first
     | exact apart_nat (fun _ _ => rfl) | exact apart_bool (fun _ _ => rfl) | exact apart_code (fun _ _ => rfl)
     | exact apart_ident (fun _ _ h => by first | rfl | simp [formatField, h])
     | exact apart_format (fun _ _ h => by first | rfl | simp [identField, h])
theorem apart_extraction {i j f g} (hi : extractionField i = some f) (hj : extractionField j = some g) (hne : i ≠ j) :
    FieldSpec.Apart f g := by
  have hi' : i < 13 := by
    by_contra h
    have : extractionField i = none := (match i, h with | n+13, h => rfl)
    rw [this] at hi
    cases hi
  have hj' : j < 13 := by
    by_contra h
    have : extractionField j = none := (match j, h with | n+13, h => rfl)
    rw [this] at hj
    cases hj
  interval_cases i <;> cases hi <;> interval_cases j <;> (first | exact absurd rfl hne | skip) <;> cases hj <;>
   first
     | exact apart_nat (fun _ _ => rfl) | exact apart_bool (fun _ _ => rfl) | exact apart_int (fun _ _ => rfl)
     | (intro x v y hp
        simp only at hp
        split at hp
        · cases hp; rfl
        · simp only [Option.map_eq_some_iff] at hp
          obtain ⟨k, hk, rfl⟩ := hp
          rfl)
theorem apart_forward {i j f g} (hi : forwardField i = some f) (hj : forwardField j = some g) (hne : i ≠ j) :
    FieldSpec.Apart f g := by
  have hi' : i < 7 := by
    by_contra h
    have : forwardField i = none := (match i, h with | n+7, h => rfl)
    rw [this] at hi
    cases hi
  have hj' : j < 7 := by
    by_contra h
    have : forwardField j = none := (match j, h with | n+7, h => rfl)
    rw [this] at hj
    cases hj
  interval_cases i <;> cases hi <;> interval_cases j <;> (first | exact absurd rfl hne | skip) <;> cases hj <;>
   first
     | exact apart_nat (fun _ _ => rfl) | exact apart_bool (fun _ _ => rfl) | exact apart_code (fun _ _ => rfl)
     | exact apart_ident (fun _ _ h => by first | rfl | simp [formatField, h])
     | exact apart_format (fun _ _ h => by first | rfl | simp [identField, h])
/-- The readings of the single parameters, in the order of their fields. -/
def Params.readings (p : Params) : List Word32 :=
  (List.range 34).map fun j => ((paramField j).map fun f => f.get p).getD 0

theorem Params.readings_get {j : Nat} {g : FieldSpec Params} (h : paramField j = some g) (p : Params) :
    p.readings[j]? = some (g.get p) := by
  have hj : j < 34 := by
    by_contra hh
    have : paramField j = none := (match j, hh with | n+34, hh => rfl)
    rw [this] at h
    cases h
  simp [Params.readings, hj, h]

theorem readings_param {i : Nat} {f : FieldSpec Params} (h : paramField i = some f) (x y : Params) (v : Word32)
    (hp : f.put x v = some y) : ∃ w, y.readings = x.readings.set i w := by
  unfold paramField at h
  split at h <;> cases h
  all_goals
    first
    | (simp only [natField, boolField] at hp; split at hp
       · cases hp; exact ⟨_, rfl⟩
       · cases hp)
    | (simp only [identField] at hp; split at hp
       · cases hp; exact ⟨_, rfl⟩
       · cases hp)
    | (simp only [formatField] at hp; split at hp
       · split at hp
         · cases hp; exact ⟨_, rfl⟩
         · cases hp
       · cases hp)

theorem apart_param {i j f g} (hi : paramField i = some f) (hj : paramField j = some g) (hne : i ≠ j) :
    FieldSpec.Apart f g := by
  intro x v y hp
  obtain ⟨w, hw⟩ := readings_param hi x y v hp
  have h1 := Params.readings_get hj y
  rw [hw, List.getElem?_set_ne hne, Params.readings_get hj x] at h1
  exact (Option.some.inj h1).symm

theorem apart_rate {i j f g} (hi : rateField i = some f) (hj : rateField j = some g) (hne : i ≠ j) :
    FieldSpec.Apart f g := by
  have hi' : i < 2 := by
    by_contra h
    have : rateField i = none := (match i, h with | n+2, h => rfl)
    rw [this] at hi
    cases hi
  have hj' : j < 2 := by
    by_contra h
    have : rateField j = none := (match j, h with | n+2, h => rfl)
    rw [this] at hj
    cases hj
  interval_cases i <;> cases hi <;> interval_cases j <;> (first | exact absurd rfl hne | skip) <;> cases hj <;>
    exact apart_nat (fun _ _ => rfl)
theorem apart_axle {i j f g} (hi : axleField i = some f) (hj : axleField j = some g) (hne : i ≠ j) :
    FieldSpec.Apart f g := by
  have hi' : i < 2 := by
    by_contra h
    have : axleField i = none := (match i, h with | n+2, h => rfl)
    rw [this] at hi
    cases hi
  have hj' : j < 2 := by
    by_contra h
    have : axleField j = none := (match j, h with | n+2, h => rfl)
    rw [this] at hj
    cases hj
  interval_cases i <;> cases hi <;> interval_cases j <;> (first | exact absurd rfl hne | skip) <;> cases hj <;>
    exact apart_nat (fun _ _ => rfl)
theorem apart_minima {i j f g} (hi : minimaField i = some f) (hj : minimaField j = some g) (hne : i ≠ j) :
    FieldSpec.Apart f g := by
  have hi' : i < 4 := by
    by_contra h
    have : minimaField i = none := (match i, h with | n+4, h => rfl)
    rw [this] at hi
    cases hi
  have hj' : j < 4 := by
    by_contra h
    have : minimaField j = none := (match j, h with | n+4, h => rfl)
    rw [this] at hj
    cases hj
  interval_cases i <;> cases hi <;> interval_cases j <;> (first | exact absurd rfl hne | skip) <;> cases hj <;>
    exact apart_nat (fun _ _ => rfl)

/-- What a write of a field of a list's element writes. -/
theorem put_listElement {α : Type} {spec : FieldSpec α} {get : Bank → List α} {set : Bank → List α → Bank} {d : α}
    {i : Nat} {b b' : Bank} {v : Word32}
  (h : (spec.within (fun b => ((get b)[i]?).getD d) (fun b x => set b ((get b).set i x))).put b v = some b') :
  ∃ x, spec.put (((get b)[i]?).getD d) v = some x ∧ b' = set b ((get b).set i x) := by
  simp only [FieldSpec.within, Option.map_eq_some_iff] at h
  obtain ⟨x, hx, rfl⟩ := h
  exact ⟨x, hx, rfl⟩

theorem put_listField {α : Type} {fs : Option (FieldSpec α)} {get : Bank → List α} {set : Bank → List α → Bank}
    {d : α} {i : Nat} {b b' : Bank} {v : Word32} {spec}
  (h : listField fs get set d i = some spec) (hp : spec.put b v = some b') :
  ∃ f x, fs = some f ∧ f.put (((get b)[i]?).getD d) v = some x ∧ b' = set b ((get b).set i x) := by
  simp only [listField, Option.map_eq_some_iff] at h
  obtain ⟨f, rfl, rfl⟩ := h
  obtain ⟨x, hx, rfl⟩ := put_listElement hp
  exact ⟨f, x, rfl, hx, rfl⟩

theorem get_listField {α : Type} {fs : Option (FieldSpec α)} {get : Bank → List α} {set : Bank → List α → Bank}
    {d : α} {i : Nat} {b : Bank} :
   (listField fs get set d i).map (fun spec => spec.get b) = fs.map fun f => f.get (((get b)[i]?).getD d) := by
  simp [listField, FieldSpec.within]; rfl

/-- A write in a list: the field written reads the value, every other field of every element reads as before. -/
theorem reads_after_set {α : Type} {fs : Nat → Option (FieldSpec α)} {d : α} {l : List α} {x : α} {i fl : Nat}
    {f : FieldSpec α} {v : Word32}
  (hg : FieldSpec.ReadsBack f) (ha : ∀ j g, fs j = some g → fl ≠ j → FieldSpec.Apart f g) (hf : fs fl = some f)
  (hi : i < l.length) (hp : f.put ((l[i]?).getD d) v = some x) :
  ((fs fl).map fun f => f.get (((l.set i x)[i]?).getD d)) = some v ∧
  ∀ i' fl', (i', fl') ≠ (i, fl) → ((fs fl').map fun f => f.get (((l.set i x)[i']?).getD d)) =
  ((fs fl').map fun f => f.get ((l[i']?).getD d)) := by
  refine ⟨?_, ?_⟩
  · simp [hf, hi]; exact hg _ _ _ hp
  · intro i' fl' hne
    by_cases h : i = i'
    · subst h
      have hfl : fl ≠ fl' := by rintro rfl; exact hne rfl
      cases hg' : fs fl' with
      | none => rfl
      | some g => simp [hi]; have := ha fl' g hg' hfl _ _ _ hp; simpa [hi] using this
    · simp [h]

/-- Fields of a table are read from that table alone. -/
theorem readStaging_congr {b c : Bank} (t i f : Nat) (h : t < 9)
  (h0 : t = 0 → b.monitors = c.monitors) (h1 : t = 1 → b.extractions = c.extractions)
  (h2 : t = 2 → b.forwarding = c.forwarding)
  (h3 : t = 3 → b.rates = c.rates) (h4 : t = 4 → b.cells = c.cells) (h5 : t = 5 → b.params = c.params)
  (h6 : t = 6 → b.axles = c.axles)
  (h7 : t = 7 → b.minima = c.minima)
  (h8 : t = 8 → b.gradeBounds = c.gradeBounds ∧ b.massBounds = c.massBounds) : readStaging b t i f = readStaging c t i f := by
  interval_cases t
  · simp only [readStaging, bankField, get_listField, h0]
  · simp only [readStaging, bankField, get_listField, h1]
  · simp only [readStaging, bankField, get_listField, h2]
  · simp only [readStaging, bankField]; split
    · rfl
    · simp only [get_listField, h3]
  · simp only [readStaging, bankField]; split
    · simp only [get_listField, h4]
    · rfl
  · simp only [readStaging, bankField, FieldSpec.within, Option.map_map, Function.comp_def, h5]
  · simp only [readStaging, bankField, FieldSpec.within, Option.map_map, Function.comp_def, h6]
  · simp only [readStaging, bankField, FieldSpec.within, Option.map_map, Function.comp_def, h7]
  · simp only [readStaging, bankField]; split
    · split
      · simp only [get_listField, (h8 rfl).1]
      · rfl
    · split
      · simp only [get_listField, (h8 rfl).2]
      · rfl

end Sys2Proof.Machine
end

