-- ==== Sys2Proof/Laws/Hold.lean ====
section
/-! SUPPORT. What the Hold Controller's shared operations do: the largest floors, the ratchet, and each entry into a
state. -/

namespace Sys2Proof.Machine

/-! ## Pressures -/

theorem Circuits.eq_of {x y : Circuits} (ha : x.a = y.a) (hb : x.b = y.b) : x = y := by
  cases x; cases y; simp_all

@[simp] theorem Circuits.sup_a (x y : Circuits) : (x.sup y).a = max x.a y.a := rfl
@[simp] theorem Circuits.sup_b (x y : Circuits) : (x.sup y).b = max x.b y.b := rfl
@[simp] theorem Circuits.inf_a (x y : Circuits) : (x.inf y).a = min x.a y.a := rfl
@[simp] theorem Circuits.inf_b (x y : Circuits) : (x.inf y).b = min x.b y.b := rfl
@[simp] theorem Circuits.sub_a (x y : Circuits) : (x.sub y).a = x.a - y.a := rfl
@[simp] theorem Circuits.sub_b (x y : Circuits) : (x.sub y).b = x.b - y.b := rfl

theorem Circuits.within_refl (x : Circuits) : x.within x := ⟨le_refl _, le_refl _⟩

theorem Circuits.within_trans {x y z : Circuits} (h : x.within y) (k : y.within z) : x.within z :=
  ⟨h.1.trans k.1, h.2.trans k.2⟩

theorem Circuits.sup_within {x y z : Circuits} : (x.sup y).within z ↔ x.within z ∧ y.within z := by
  simp [Circuits.within]; tauto

theorem Circuits.inf_within (x y : Circuits) : (x.inf y).within y := ⟨Nat.min_le_right _ _, Nat.min_le_right _ _⟩

theorem Circuits.zero_within (x : Circuits) : Circuits.zero.within x := ⟨Nat.zero_le _, Nat.zero_le _⟩

/-! ## The largest floors (R58, R59) -/

theorem foldl_sup_within {top n : Circuits} (l : List Claim) (acc : Circuits) :
    (l.foldl (fun acc c => acc.sup (c.floors.inf top)) acc).within n ↔
      acc.within n ∧ ∀ c ∈ l, (c.floors.inf top).within n := by
  induction l generalizing acc with
  | nil => simp
  | cons c cs ih => simp [ih, Circuits.sup_within, and_assoc]

/-- The limited floors are the least pressures no limited floor of a standing claim is above. -/
theorem limitedFloors_within {b : Bank} {h : HoldController} {n : Circuits} :
    (h.limitedFloors b).within n ↔ ∀ c, some c ∈ h.claims → (c.floors.inf b.maxPressure).within n := by
  simp [HoldController.limitedFloors, foldl_sup_within, HoldController.standing, Circuits.zero_within]

theorem limitedFloors_within_max (b : Bank) (h : HoldController) : (h.limitedFloors b).within b.maxPressure :=
  limitedFloors_within.mpr fun _ _ => Circuits.inf_within _ _

/-- Pressures that stand between the parts of a largest value and above all of them are that value. -/
theorem Circuits.eq_of_within {x y : Circuits} (h : x.within y) (k : y.within x) : x = y :=
  Circuits.eq_of (Nat.le_antisymm h.1 k.1) (Nat.le_antisymm h.2 k.2)

theorem Circuits.within_sup_left (x y : Circuits) : x.within (x.sup y) := ⟨Nat.le_max_left _ _, Nat.le_max_left _ _⟩
theorem Circuits.within_sup_right (x y : Circuits) : y.within (x.sup y) := ⟨Nat.le_max_right _ _, Nat.le_max_right _ _⟩

/-! ## The Claim Table -/

theorem mem_standing {h : HoldController} {c : Claim} : c ∈ h.standing ↔ some c ∈ h.claims := by
  simp [HoldController.standing]

theorem noClaim_iff {h : HoldController} : h.noClaim = true ↔ ∀ c, some c ∉ h.claims := by
  simp only [HoldController.noClaim, List.isEmpty_iff, List.eq_nil_iff_forall_not_mem, mem_standing]

/-- The ratchet changes the demand's pressures alone, and only upwards (R59). -/
theorem ratchet_eq (b : Bank) (h : HoldController) : ratchet b h = { h with demand := { h.demand with
    pressure := (h.demand.pressure.sup h.resultPressure).sup (h.limitedFloors b) } } := rfl

/-- Where no result and no floor stands above the demand, the ratchet leaves it. -/
theorem ratchet_of_within {b : Bank} {h : HoldController} (hr : h.resultPressure.within h.demand.pressure)
    (hf : (h.limitedFloors b).within h.demand.pressure) : ratchet b h = h := by
  have : (h.demand.pressure.sup h.resultPressure).sup (h.limitedFloors b) = h.demand.pressure :=
    Circuits.eq_of_within (Circuits.sup_within.mpr ⟨Circuits.sup_within.mpr ⟨Circuits.within_refl _, hr⟩, hf⟩)
      (Circuits.within_trans (Circuits.within_sup_left _ _) (Circuits.within_sup_left _ _))
  rw [ratchet_eq, this]

theorem ratchet_rises (b : Bank) (h : HoldController) : h.demand.pressure.within (ratchet b h).demand.pressure :=
  Circuits.within_trans (Circuits.within_sup_left _ _) (Circuits.within_sup_left _ _)

/-- A removal leaves the claims without the property, and never lowers the demand (R59). -/
theorem removeClaims_claims (b : Bank) (f : Claim → Bool) (h : HoldController) :
    (removeClaims b f h).claims = h.claims.map fun c => c.filter fun x => !f x := by
  unfold removeClaims; simp only; split <;> rfl

/-- Where no result and no floor stands above the demand, a removal changes the table alone. -/
theorem removeClaims_of_within {b : Bank} {f : Claim → Bool} {h : HoldController}
    (hr : h.resultPressure.within h.demand.pressure) (hf : (h.limitedFloors b).within h.demand.pressure) :
    removeClaims b f h = { h with claims := h.claims.map fun c => c.filter fun x => !f x } := by
  unfold removeClaims
  simp only
  split
  · refine ratchet_of_within hr (limitedFloors_within.mpr ?_)
    intro c hc
    obtain ⟨x, hx, hxc⟩ := List.mem_map.mp hc
    obtain ⟨rfl, _⟩ := Option.filter_eq_some_iff.mp hxc
    exact limitedFloors_within.mp hf c hx
  · rfl

/-- The slot of a key, where exactly one slot holds it. -/
theorem slotOf_eq {claims : List (Option Claim)} {src : Source} {tag slot : Nat} {c : Claim}
    (h : claims[slot]? = some (some c)) (hs : c.source = src) (ht : c.tag = tag)
    (only : ∀ i x, claims[i]? = some (some x) → x.source = src → x.tag = tag → i = slot) :
    slotOf claims src tag = some slot := by
  have hl : slot < claims.length := (List.getElem?_eq_some_iff.mp h).1
  rw [slotOf, List.findIdx?_eq_some_iff_getElem]
  refine ⟨hl, ?_, ?_⟩
  · rw [List.getElem?_eq_getElem hl] at h
    simp [Option.some.inj h, Claim.hasKey, hs, ht]
  · intro j hj
    have hjl : j < claims.length := by omega
    cases hx : claims[j] with
    | none => simp
    | some x =>
      by_contra hk
      have hk : x.source = src ∧ x.tag = tag := by simpa [Claim.hasKey] using hk
      have := only j x (by rw [List.getElem?_eq_getElem hjl, hx]) hk.1 hk.2
      omega

theorem slotOf_none {claims : List (Option Claim)} {src : Source} {tag : Nat} :
    slotOf claims src tag = none ↔ ∀ c, some c ∈ claims → ¬ (c.source = src ∧ c.tag = tag) := by
  simp only [slotOf, List.findIdx?_eq_none_iff]
  constructor
  · intro h c hc
    have := h _ hc
    simpa [Claim.hasKey] using this
  · intro h x hx
    cases x with
    | none => rfl
    | some c =>
      have := h c hx
      simpa [Claim.hasKey] using this

/-! ## Changes of state (R44, R49) -/

/-- A change of state changes the Hold Controller's record, raises STATE_CHANGE and tells the Creep Monitor. -/
theorem changeState_eq (b : Bank) (new : HoldState) (cause : Option Cause) (asked : Circuits) (episode : Bool)
    (s : State) : changeState b new cause asked episode s = { s with
      hc := enterRecord b new cause asked s.hc
      events := ⟨s.events.set ||| 1#16, s.events.again ||| 1#16⟩
      mail := { s.mail with stateReports := s.mail.stateReports ++ [⟨new, episode⟩] } } := rfl

/-- Entry to HANDOVER: as a change of state, with the phase and its timers by SPRING_STATE (R126). -/
theorem enterHandover_eq (b : Bank) (held : Circuits) (s : State) : enterHandover b held s = { s with
      hc := { enterRecord b .handover none held s.hc with
        handoverConfirm := some b.params.handoverConfirm
        phase := some (if s.hc.springApplied then .overlap else .awaiting)
        overlapTimer := if s.hc.springApplied then some b.params.overlapTime else none }
      events := ⟨s.events.set ||| 1#16, s.events.again ||| 1#16⟩
      mail := { s.mail with stateReports := s.mail.stateReports ++ [⟨.handover, false⟩] } } := by
  cases h : s.hc.springApplied
  all_goals
    have h' : (enterRecord b .handover none held s.hc).springApplied = s.hc.springApplied := rfl
    simp only [enterHandover, changeState_eq, onHold, State.setHc, startOverlap, HoldController.springApplied] at *
    simp [h, enterRecord]

/-- Entry to SECURED: as a change of state, with the quiet test of R137. -/
theorem enterSecured_eq (b : Bank) (cause : Cause) (s : State) : enterSecured b cause s = { s with
      hc := { enterRecord b .secured (some cause) .zero s.hc with
        quiet := if s.hc.springApplied ∧ s.hc.stationary then some 2000 else none }
      events := ⟨s.events.set ||| 1#16, s.events.again ||| 1#16⟩
      mail := { s.mail with stateReports := s.mail.stateReports ++ [⟨.secured, false⟩] } } := by
  by_cases h : s.hc.springApplied = true <;> by_cases k : s.hc.stationary = true
  all_goals
    simp only [enterSecured, changeState_eq, onHold, State.setHc, startQuiet, HoldController.quietTest,
      HoldController.springApplied, Config.quietTime] at *
    simp [h, k, enterRecord]

/-- Entry to HANDOVER leaves what R49 and R126 say. -/
theorem enterHandover_entered (b : Bank) (held : Circuits) (s : State) :
    Entered .handover none held false s (enterHandover b held s) := by
  rw [enterHandover_eq]; exact ⟨rfl, rfl, rfl, rfl, rfl⟩

theorem enterHandover_started (b : Bank) (held : Circuits) (s : State) :
    HandoverStarted b (enterHandover b held s).hc := by
  rw [enterHandover_eq]; exact ⟨rfl, rfl, rfl, rfl, rfl, rfl, rfl⟩

/-- Entry to PARKED is the change of state alone (R132). -/
theorem enterParked_eq (b : Bank) (s : State) : enterParked b s = { s with
      hc := enterRecord b .parked none .zero s.hc
      events := ⟨s.events.set ||| 1#16, s.events.again ||| 1#16⟩
      mail := { s.mail with stateReports := s.mail.stateReports ++ [⟨.parked, false⟩] } } := rfl

/-- Entry to ARMED starts the confirmation (R55). -/
theorem enterArmed_eq (b : Bank) (s : State) : enterArmed b s = { s with
      hc := { enterRecord b .armed none .zero s.hc with armedConfirm := some b.params.stopConfirm }
      events := ⟨s.events.set ||| 1#16, s.events.again ||| 1#16⟩
      mail := { s.mail with stateReports := s.mail.stateReports ++ [⟨.armed, false⟩] } } := rfl

/-- A truck that moves stays in INACTIVE (R54). -/
theorem inactiveTest_moving {b : Bank} {s : State} (h : s.hc.stationary = false) : inactiveTest b s = s := by
  have hp : s.hc.parkCondition = false := by simp [HoldController.parkCondition, h]
  have hl : s.hc.leaveCondition = false := by simp [HoldController.leaveCondition, h]
  have ha : s.hc.armCondition b = false := by
    simp only [HoldController.armCondition, Bool.and_eq_false_iff]
    left; left
    unfold HoldController.entryRefusal
    simp only [h, Bool.not_false, if_true]
    repeat' split
    all_goals rfl
  simp [inactiveTest, hp, hl, ha]

/-- Entry to INACTIVE by a truck that moves is the change of state alone. -/
theorem enterInactive_moving {b : Bank} {s : State} (h : s.hc.stationary = false) : enterInactive b s = { s with
      hc := enterRecord b .inactive none .zero s.hc
      events := ⟨s.events.set ||| 1#16, s.events.again ||| 1#16⟩
      mail := { s.mail with stateReports := s.mail.stateReports ++ [⟨.inactive, false⟩] } } :=
  inactiveTest_moving (s := changeState b .inactive none .zero false s) h

/-- An event of the controller out of STARTING is that event under the active bank (R51, R160). -/
theorem holdEvent_eq {f : Bank → State → State} {s : State} {a : ActiveBank} (h : s.active = some a)
    (hs : s.hc.state ≠ .starting) : holdEvent f s = f a.bank s := by
  simp [holdEvent, h, withStart, hs]

/-- An event that starts out of STARTING, or ends in it, generates no frame (R160). -/
theorem withStart_eq {before : HoldState} {s : State} (h : before ≠ .starting ∨ s.hc.state = .starting) :
    withStart before s = s := by
  unfold withStart
  rw [if_neg]
  rintro ⟨h1, h2, _⟩
  exact h.elim (fun h => h h1) (fun h => h2 h)

/-- Outside HOLDING the drive-off criterion is not acted on (R95). -/
theorem evaluateCriterion_out {b : Bank} {s : State} (h : s.hc.state ≠ .holding) : evaluateCriterion b s = s := by
  unfold evaluateCriterion
  rw [if_neg]
  rintro ⟨h1, _⟩
  exact h h1

/-- A set that does not publish a source's kind leaves its latch (R73). -/
theorem latchStep_none {b : Bank} {items : List PubItem} {src : Source} {s : State}
    (h : ∀ x ∈ items, x.kind ≠ src.kind) : latchStep b items src s = s := by
  unfold latchStep
  rw [if_neg]
  simp only [List.any_eq_true, not_exists, not_and]
  intro x hx
  simpa using h x hx

/-- In HOLDING without a handover condition the handover test does nothing. -/
theorem handoverTest_none {b : Bank} {s : State} (h : s.hc.handoverCondition = false) : handoverTest b s = s := by
  simp [handoverTest, h]

/-- In HOLDING a handover condition hands over with the demand held (R45, R62). -/
theorem handoverTest_some {b : Bank} {s : State} (hs : s.hc.state = .holding) (h : s.hc.handoverCondition = true) :
    handoverTest b s = enterHandover b s.hc.demand.pressure s := by
  simp [handoverTest, h, hs]

/-- Entry to HOLDING where no handover condition stands (R58, R60, R61): the demand starts at the largest of the start
value, the result in hand and the limited floors. -/
theorem enterHolding_eq {s : State} (h : s.hc.handoverCondition = false) (b : Bank) (start : Circuits)
    (episode : Bool) : enterHolding b start episode s = { s with
      hc := { enterRecord b .holding none ((start.sup s.hc.resultPressure).sup (s.hc.limitedFloors b)) s.hc with
        minHold := some b.params.minHold
        maxHold := some (b.params.maxServiceHold * 1000)
        reapply := if episode then 0 else s.hc.reapply }
      events := ⟨s.events.set ||| 1#16, s.events.again ||| 1#16⟩
      mail := { s.mail with stateReports := s.mail.stateReports ++ [⟨.holding, episode⟩] } } := by
  simp only [enterHolding, handoverTest]
  rw [if_neg]
  · rfl
  · rintro ⟨-, h'⟩
    exact absurd (h.symm.trans h') (by decide)

end Sys2Proof.Machine
end

