-- ==== Sys2Proof/Laws/Tested.lean ====
section
/-! SUPPORT. The Hold Controller's tests and entries, each as the rules give it: the conditions of the record, the tests
of R54, R55 and R62, the entry to HOLDING, the rollback test and the drive-off criterion. -/

namespace Sys2Proof.Machine

/-! ## The conditions -/

theorem Sig.is_iff {x : Sig} {v : Int} : x.is v = true ↔ x = ⟨.valid, some v⟩ := by
  cases x with
  | mk y z => cases z <;> simp [Sig.is]

theorem Sig.valid?_iff {x : Sig} {v : Int} : x.valid? = some v ↔ x = ⟨.valid, some v⟩ := by
  cases x with
  | mk y z => cases y <;> simp [Sig.valid?]

theorem absent_iff {h : HoldController} : h.driverAbsent = true ↔ Absent h := by
  simp [HoldController.driverAbsent, Absent, Sig.is_iff]

theorem applied_iff {h : HoldController} : h.springApplied = true ↔ Applied h := Sig.is_iff

theorem parks_iff {h : HoldController} : h.parkCondition = true ↔ Parks h := by
  simp [HoldController.parkCondition, Parks, applied_iff, and_assoc]

theorem leaves_iff {h : HoldController} : h.leaveCondition = true ↔ Leaves h := by
  simp [HoldController.leaveCondition, Leaves, ← applied_iff, ← absent_iff, HoldController.ignitionOff, Sig.is_iff,
    and_assoc]

theorem entryHolds_iff {b : Bank} {h : HoldController} : h.entryRefusal b = none ↔ EntryHolds b h := by
  unfold HoldController.entryRefusal
  constructor
  · intro k
    repeat' split at k
    all_goals first | (cases k; done) | skip
    refine ⟨?_, ?_, ?_, ?_, ?_⟩ <;> simp_all
  · rintro ⟨h1, h2, h3, h4, h5⟩
    simp [h1, h2, h3, h4, h5]

/-- The refusal is the code of the first entry condition that fails (R48). -/
theorem entryRefused_iff {b : Bank} {h : HoldController} {status : Status} :
    EntryRefused b h status ↔ h.entryRefusal b = some status := by
  unfold HoldController.entryRefusal EntryRefused
  cases b.params.holdEnable <;> cases h.missing <;> cases h.blind <;> cases h.stationary <;> cases h.guard <;>
    simp [eq_comm]

theorem arms_iff {b : Bank} {h : HoldController} : h.armCondition b = true ↔ Arms b h := by
  have hg : h.gradeAtLeast b.params.gradeThreshold = true ↔
      ∃ g, h.image.grade = ⟨.valid, some g⟩ ∧ b.params.gradeThreshold ≤ g.natAbs := by
    unfold HoldController.gradeAtLeast
    split
    · rename_i g hg
      rw [Sig.valid?_iff] at hg
      simp [hg]
    · rename_i hn
      simp only [Bool.false_eq_true, false_iff, not_exists, not_and]
      intro g hg
      exact absurd (hn ▸ Sig.valid?_iff.mpr hg) (by simp)
  simp [HoldController.armCondition, Arms, hg, ← entryHolds_iff, HoldController.pedalPressed, Sig.is_iff, and_assoc]

theorem handsOver_iff {h : HoldController} : h.handoverCondition = true ↔ HandsOver h := by
  have hc : ((h.result.map CalcResult.capacity).getD false) = true ↔ ∃ r, h.result = some r ∧ r.capacity = true := by
    cases h.result <;> simp
  have ho : (h.standing.any fun c => c.source.outside) = false ↔
      ∀ c, some c ∈ h.claims → c.source = .driver ∨ c.source = .monitor := by
    rw [List.any_eq_false]
    constructor
    · intro k c hc
      have := k c (mem_standing.mpr hc)
      cases hs : c.source <;> simp_all [Source.outside]
    · intro k c hc
      rcases k c (mem_standing.mp hc) with hs | hs <;> simp [hs, Source.outside]
  simp only [HoldController.handoverCondition, HandsOver, Bool.or_eq_true, Bool.and_eq_true, Bool.not_eq_true', hc, ho,
    absent_iff, HoldController.ignitionOff, HoldController.parkSet, Sig.is_iff, or_assoc]

theorem rollsBack_iff {b : Bank} {h : HoldController} {fwd : Bool} : h.rollback b fwd = true ↔ RollsBack b fwd h := by
  unfold HoldController.rollback RollsBack
  split
  · rename_i v hv
    rw [Sig.valid?_iff] at hv
    cases fwd <;> simp [hv, intentSign]
  · rename_i hn
    simp only [Bool.false_eq_true, false_iff, not_exists, not_and]
    intro v hv
    exact absurd (hn ▸ Sig.valid?_iff.mpr hv) (by simp)

/-! ## Entries -/

theorem enterHandover_moved (b : Bank) (held : Circuits) (s : State) :
    Moved .handover none held s (enterHandover b held s) :=
  ⟨enterHandover_entered b held s, by rw [enterHandover_eq]; constructor <;> rfl, by rw [enterHandover_eq]; rfl,
    by rw [enterHandover_eq]⟩

theorem enterParked_moved (b : Bank) (s : State) : Moved .parked none ⟨0, 0⟩ s (enterParked b s) :=
  ⟨⟨rfl, rfl, rfl, rfl, rfl⟩, by constructor <;> rfl, rfl, rfl⟩

theorem enterSecured_moved (b : Bank) (c : Cause) (s : State) :
    Moved .secured (some c) b.maxPressure s (enterSecured b c s) := by
  rw [enterSecured_eq]
  exact ⟨⟨rfl, rfl, rfl, rfl, rfl⟩, by constructor <;> rfl, rfl, rfl⟩

/-- In INACTIVE the tests of R54. -/
theorem inactiveTest_tested {b : Bank} {s : State} (hs : s.hc.state = .inactive) :
    StandTested b s (.next (inactiveTest b s)) := by
  unfold inactiveTest
  by_cases h1 : s.hc.parkCondition = true
  · rw [if_pos h1]
    rw [parks_iff] at h1
    exact ⟨fun _ => ⟨_, rfl, enterParked_moved b s⟩, fun h => absurd h1 h, fun _ h => absurd h1 h,
      fun _ h => absurd h1 h, fun h => absurd h1 h⟩
  rw [if_neg h1]
  rw [parks_iff] at h1
  by_cases h2 : s.hc.leaveCondition = true
  · rw [if_pos h2]
    rw [leaves_iff] at h2
    exact ⟨fun h => absurd h h1, fun _ _ => ⟨_, rfl, enterHandover_moved _ _ _, enterHandover_started _ _ _⟩,
      fun _ _ h => absurd h2 h, fun _ _ h => absurd h2 h, fun _ h => absurd h2 h⟩
  rw [if_neg h2]
  rw [leaves_iff] at h2
  by_cases h3 : s.hc.armCondition b = true
  · rw [if_pos h3]
    rw [arms_iff] at h3
    refine ⟨fun h => absurd h h1, fun _ h => absurd h h2, fun _ _ _ _ => ⟨_, rfl, ?_, rfl, rfl⟩,
      fun h => by simp [hs] at h, ?_⟩
    · exact ⟨⟨rfl, rfl, rfl, rfl, rfl⟩, by constructor <;> rfl, rfl, rfl⟩
    · rintro _ _ (⟨_, h⟩ | ⟨h, _⟩)
      · exact absurd h3 h
      · simp [hs] at h
  · rw [if_neg h3]
    rw [arms_iff] at h3
    exact ⟨fun h => absurd h h1, fun _ h => absurd h h2, fun _ _ _ h => absurd h h3, fun h => by simp [hs] at h,
      fun _ _ _ => rfl⟩

/-- In ARMED the tests of R55. -/
theorem armedTest_tested {b : Bank} {s : State} (hs : s.hc.state = .armed) :
    StandTested b s (.next (armedTest b s)) := by
  unfold armedTest
  by_cases h1 : s.hc.parkCondition = true
  · rw [if_pos h1]
    rw [parks_iff] at h1
    exact ⟨fun _ => ⟨_, rfl, enterParked_moved b s⟩, fun h => absurd h1 h, fun _ h => absurd h1 h,
      fun _ h => absurd h1 h, fun h => absurd h1 h⟩
  rw [if_neg h1]
  have p1 := h1
  rw [parks_iff] at h1
  by_cases h2 : s.hc.leaveCondition = true
  · rw [if_pos h2]
    rw [leaves_iff] at h2
    exact ⟨fun h => absurd h h1, fun _ _ => ⟨_, rfl, enterHandover_moved _ _ _, enterHandover_started _ _ _⟩,
      fun _ _ h => absurd h2 h, fun _ _ h => absurd h2 h, fun _ h => absurd h2 h⟩
  rw [if_neg h2]
  have p2 := h2
  rw [leaves_iff] at h2
  by_cases h3 : s.hc.armCondition b = true
  · rw [if_pos h3]
    rw [arms_iff] at h3
    refine ⟨fun h => absurd h h1, fun _ h => absurd h h2, fun h => by simp [hs] at h,
      fun _ _ _ h => absurd h3 h, fun _ _ _ => rfl⟩
  · rw [if_neg h3]
    have p3 := h3
    rw [arms_iff] at h3
    refine ⟨fun h => absurd h h1, fun _ h => absurd h h2, fun h => by simp [hs] at h, fun _ _ _ _ => ?_, ?_⟩
    · have e : enterInactive b s = changeState b .inactive none .zero false s := by
        unfold enterInactive inactiveTest
        rw [if_neg (by exact p1), if_neg (by exact p2), if_neg (by exact p3)]
      rw [e]
      exact ⟨_, rfl, ⟨⟨rfl, rfl, rfl, rfl, rfl⟩, by constructor <;> rfl, rfl, rfl⟩, by constructor <;> rfl, rfl, rfl⟩
    · rintro _ _ (⟨h, _⟩ | ⟨_, h⟩)
      · simp [hs] at h
      · exact absurd h h3

theorem standTest_tested {b : Bank} {s : State} (hs : s.hc.state = .inactive ∨ s.hc.state = .armed) :
    StandTested b s (.next (standTest b s)) := by
  unfold standTest
  rcases hs with hs | hs <;> simp only [hs]
  · exact inactiveTest_tested hs
  · exact armedTest_tested hs

/-- In HOLDING the handover test of R62 to R64. -/
theorem handoverTest_tested {b : Bank} {s : State} (hs : s.hc.state = .holding) :
    HoldTested b s (.next (handoverTest b s)) := by
  by_cases h : s.hc.handoverCondition = true
  · rw [handoverTest_some hs h]
    rw [handsOver_iff] at h
    exact ⟨fun _ => ⟨_, rfl, enterHandover_moved _ _ _, enterHandover_started _ _ _⟩, fun k => absurd h k⟩
  · rw [handoverTest_none (by simpa using h)]
    rw [handsOver_iff] at h
    exact ⟨fun k => absurd k h, fun _ => rfl⟩

/-- Entry to HOLDING (R58), the claims being in the table. -/
theorem enterHolding_begun {b : Bank} {s u : State} {start : Circuits} {claims : List (Option Claim)} {episode : Bool}
    {asked : Circuits} (hs : s = { u with hc := { u.hc with claims := claims } })
    (ha : (start.sup s.hc.resultPressure).sup (s.hc.limitedFloors b) = asked) :
    HoldBegun b claims asked episode u (.next (enterHolding b start episode s)) := by
  have hc : s.hc = { u.hc with claims := claims } := by rw [hs]
  by_cases h : s.hc.handoverCondition = true
  · have h' := h
    rw [handsOver_iff, hc] at h'
    refine ⟨fun k => absurd h' k, fun _ => ?_⟩
    have e : enterHolding b start episode s = enterHandover b asked
        (onHold (fun h => { h with
          minHold := some b.params.minHold, maxHold := some (b.params.maxServiceHold * 1000)
          reapply := if episode then 0 else h.reapply }) (changeState b .holding none asked episode s)) := by
      rw [← ha]
      exact handoverTest_some rfl h
    rw [e, enterHandover_eq]
    refine ⟨_, rfl, rfl, rfl, rfl, by constructor <;> rfl, ?_, ?_, ?_, ?_, ?_, ?_⟩
    all_goals subst hs
    · simp [onHold, changeState_eq, State.setHc, BitVec.or_assoc]
    · simp [onHold, changeState_eq, State.setHc]
    · rfl
    · constructor <;> rfl
    · rfl
    · rfl
  · rw [enterHolding_eq (by simpa using h), ha]
    rw [handsOver_iff, hc] at h
    refine ⟨fun _ => ?_, fun k => absurd k h⟩
    subst hs
    exact ⟨_, rfl, ⟨rfl, rfl, rfl, rfl, rfl⟩, rfl, rfl, rfl, rfl, rfl, rfl, rfl, rfl, by constructor <;> rfl, rfl, rfl⟩

/-! ## Release (R95 to R103) -/

theorem raise_raisedIn (e : Event) (s : State) : raise e s = raisedIn e.code s := rfl

/-- A Claim Table that a drive-off or an expiry has emptied (R71). -/
theorem noClaims_of_noClaim {h : HoldController} (hl : h.claims.length = 6) (hn : h.noClaim = true) :
    h.claims = noClaims := by
  have : ∀ c ∈ h.claims, c = none := by
    intro c hc
    cases c with
    | none => rfl
    | some x => exact absurd hc (noClaim_iff.mp hn x)
  have := List.eq_replicate_iff.mpr ⟨hl, this⟩
  exact this

theorem limitedFloors_driver {b : Bank} {h : HoldController} {now : Word32} (hc : h.claims = driverAlone now) :
    h.limitedFloors b = .zero := by
  simp [HoldController.limitedFloors, HoldController.standing, hc, driverAlone, Claim.floors, Circuits.inf,
    Circuits.sup, Circuits.zero]

/-- In RELEASING the rollback test of R101 to R103. -/
theorem rollbackTest_tested {b : Bank} {s : State} {ramp : Ramp} (hr : s.hc.ramp = some ramp)
    (hc : s.hc.claims = noClaims) : RollbackTested b ramp s (.next (rollbackTest b s)) := by
  have hb : rollbackTest b s = if s.hc.rollback b ramp.forward then takeRollback b ramp s else s := by
    simp [rollbackTest, hr]
  rw [hb]
  by_cases h : s.hc.rollback b ramp.forward = true
  · rw [if_pos h]
    rw [rollsBack_iff] at h
    refine ⟨fun k => absurd h k, fun _ hl => ?_, fun _ hl => ?_⟩
    · have e : takeRollback b ramp s = enterHolding b
          ((⟨ceilDiv (ramp.start.a * (100 + b.params.reapplyBoost)) 100,
            ceilDiv (ramp.start.b * (100 + b.params.reapplyBoost)) 100⟩ : Circuits).inf b.maxPressure) false
          (placeDriver (raise .rollbackReapply (onHold (fun h => { h with reapply := h.reapply + 1 }) s))) :=
        if_pos hl
      rw [e]
      have hp : (putClaim 1 (driverClaim s.now) { s.hc with reapply := s.hc.reapply + 1 }).claims = driverAlone s.now := by
        simp [putClaim, hc, noClaims, driverAlone, driverClaim]
      refine enterHolding_begun (claims := driverAlone s.now) ?_ ?_
      · unfold placeDriver
        rw [raise_raisedIn]
        simp only [onHold, State.setHc, raisedIn]
        congr 1
        simp [putClaim, hc, noClaims, driverAlone, driverClaim]
      · rw [limitedFloors_driver (now := s.now) (by exact hp)]
        refine Circuits.eq_of ?_ ?_
        · show max (max (min _ b.params.maxPressureA) s.hc.resultPressure.a) 0 = _
          rw [min_comm, Nat.max_zero]
        · show max (max (min _ b.params.maxPressureB) s.hc.resultPressure.b) 0 = _
          rw [min_comm, Nat.max_zero]
    · have e : takeRollback b ramp s = enterHandover b ramp.start
          (raise .rollbackReapply (onHold (fun h => { h with reapply := h.reapply + 1 }) s)) :=
        if_neg (by show ¬ s.hc.reapply + 1 < _; omega)
      rw [e, enterHandover_eq]
      refine ⟨_, rfl, by constructor <;> rfl, rfl, rfl, ⟨rfl, rfl, rfl, rfl, rfl⟩, by constructor <;> rfl, rfl, rfl⟩
  · rw [if_neg h]
    rw [rollsBack_iff] at h
    exact ⟨fun _ => rfl, fun k => absurd k h, fun k => absurd k h⟩

/-- The release ramp of a known intent (R98). -/
theorem rampOf_eq {b : Bank} {h : HoldController} {fwd : Bool} (hi : h.intent = some fwd) :
    let p := h.demand.pressure
    let time := if (match h.image.grade.valid? with | some g => uphill fwd g | none => false) then
      b.params.uphillRamp else b.params.downhillRamp
    rampOf b h = ⟨p, fwd, time,
      ⟨ceilDiv (p.a * b.params.demandPeriod) time, ceilDiv (p.b * b.params.demandPeriod) time⟩⟩ := by
  unfold rampOf
  rw [hi]
  rfl

/-- In HOLDING the evaluation of the drive-off criterion (R95, R96, R98). -/
theorem evaluateCriterion_tested {b : Bank} {s : State} (hs : s.hc.state = .holding) :
    CriterionTested b s (.next (evaluateCriterion b s)) := by
  have act : s.hc.criterionActive b = true ↔ s.hc.minHold = none ∨ b.params.minHold = 0 := by
    simp [HoldController.criterionActive]
  have go : ∀ (_ : s.hc.minHold = none ∨ b.params.minHold = 0), evaluateCriterion b s =
      if s.hc.criterion b then
        if s.hc.metMemory then s else takeDriveOff b (onHold (fun h => { h with metMemory := true }) s)
      else onHold (fun h => { h with metMemory := false }) s :=
    fun h => if_pos ⟨hs, act.mpr h⟩
  have gone : (fun c : Claim => !(c.source == .driver || c.source == .monitor)) = fun c => !c.drivenOff := rfl
  refine ⟨fun h1 h2 => ?_, fun h hc => ?_, fun h hc hm => ?_, fun h hc hm hx hr hf => ?_,
    fun h hc hm hx hl hr fwd hi => ?_⟩
  · unfold evaluateCriterion
    rw [if_neg]
    rintro ⟨_, h⟩
    rcases act.mp h with h | h
    · simp [h] at h1
    · exact h2 h
  · rw [go h, if_neg (by simp [hc])]
    rfl
  · rw [go h, if_pos hc, if_pos hm]
  · rw [go h, if_pos hc, if_neg (by simp [hm])]
    obtain ⟨c, hcm, hcd⟩ := hx
    have er := removeClaims_of_within (b := b) (f := fun c : Claim => c.source == .driver || c.source == .monitor)
      (h := { s.hc with metMemory := true }) hr hf
    rw [gone] at er
    have hn : ¬ (removeClaims b (fun c : Claim => c.source == .driver || c.source == .monitor)
        { s.hc with metMemory := true }).noClaim = true := by
      rw [noClaim_iff, er]
      intro k
      refine k c (List.mem_map.mpr ⟨some c, hcm, ?_⟩)
      simp [hcd]
    have e : takeDriveOff b (onHold (fun h => { h with metMemory := true }) s) = handoverTest b (raise .driveOffBlocked
        (onHold (removeClaims b fun c => c.source == .driver || c.source == .monitor)
          (onHold (fun h => { h with metMemory := true }) s))) := if_neg hn
    rw [e]
    have e2 : raise .driveOffBlocked (onHold (removeClaims b fun c => c.source == .driver || c.source == .monitor)
        (onHold (fun h => { h with metMemory := true }) s)) = raisedIn 3 { s with hc := { s.hc with
          claims := s.hc.claims.map fun c => c.filter fun x => !x.drivenOff, metMemory := true } } := by
      rw [raise_raisedIn]
      show raisedIn 3 { s with hc := removeClaims b _ { s.hc with metMemory := true } } = _
      rw [er]
    rw [e2]
    exact handoverTest_tested hs
  · have g := go h
    rw [if_pos hc, if_neg (by simp [hm])] at g
    rw [g]
    set r1 : HoldController := removeClaims b (fun c : Claim => c.source == .driver || c.source == .monitor)
      { s.hc with metMemory := true } with hr1
    have hcl : r1.claims = s.hc.claims.map fun c => c.filter fun x => !x.drivenOff := removeClaims_claims _ _ _
    have hn : r1.noClaim = true := by
      rw [noClaim_iff, hcl]
      intro c k
      obtain ⟨x, hx', hxc⟩ := List.mem_map.mp k
      obtain ⟨rfl, hd⟩ := Option.filter_eq_some_iff.mp hxc
      simp [hx c hx'] at hd
    have hno : r1.claims = noClaims := noClaims_of_noClaim (by rw [hcl]; simpa using hl) hn
    have hlf : ∀ k : HoldController, k.claims = noClaims → k.limitedFloors b = .zero := by
      intro k hk; simp [HoldController.limitedFloors, HoldController.standing, hk, noClaims]
    have hreq : r1 = { s.hc with metMemory := true, claims := noClaims } := by
      rw [← hno, hr1]
      unfold removeClaims
      simp only
      split
      · rw [ratchet_of_within]
        · exact hr
        · rw [hlf _ (by rw [← hno, hr1, removeClaims_claims])]
          exact Circuits.zero_within _
      · rfl
    have e : takeDriveOff b (onHold (fun h => { h with metMemory := true }) s) =
        enterReleasing b { s with hc := r1 } := if_pos hn
    rw [e, hreq]
    set w := onHold (fun h => { h with ramp := some (rampOf b s.hc), rampStep := some b.params.demandPeriod })
      (changeState b .releasing none s.hc.demand.pressure false
        { s with hc := { s.hc with metMemory := true, claims := noClaims } }) with hw
    have er : enterReleasing b { s with hc := { s.hc with metMemory := true, claims := noClaims } } =
        rollbackTest b w := rfl
    have hramp : w.hc.ramp = _ := congrArg some (rampOf_eq hi)
    rw [er]
    refine ⟨w, ⟨?_, ?_, rfl, rfl⟩, rfl, hramp, rfl, rfl, rfl, rfl, rollbackTest_tested hramp rfl⟩
    · exact ⟨rfl, rfl, rfl, rfl, rfl⟩
    · constructor <;> rfl

end Sys2Proof.Machine
end

