-- ==== Sys2Proof/Laws/Publication.lean ====
section
/-! SUPPORT. A publication set at the Hold Controller: one that carries no signal source's kind, and one that carries
one signal source's kind alone; the lowest free slot of a request. -/

namespace Sys2Proof.Machine

theorem HcSet.has_iff {set : HcSet} {k : SignalKind} : set.has k = true ↔ Carries set k := by simp [HcSet.has, Carries]

/-- A set of no signal source's kind acts by the hold state in which it stands. -/
theorem hcPublication_noSource {s : State} {a : ActiveBank} {set : HcSet} {rest : List HcSet} (ha : s.active = some a)
    (hm : s.mail.toHc = set :: rest) (hn : NoSource set) : exec .hcPublication s =
      .next (withStart s.hc.state (setInState a.bank set (withSet set rest s))) := by
  have l : takeLatches a.bank set.items (withSet set rest s) = withSet set rest s := by
    unfold takeLatches
    rw [latchStep_none (src := .pendantRear) fun x hx => (hn x hx).1,
      latchStep_none (src := .pendantSide) fun x hx => (hn x hx).2.1,
      latchStep_none (src := .discharge) fun x hx => (hn x hx).2.2]
  have e : takeHcItems a.bank set (s.setMail { s.mail with toHc := rest }) =
      setInState a.bank set (withSet set rest s) := by
    have u : onHold (takeImage set) (s.setMail { s.mail with toHc := rest }) = withSet set rest s := rfl
    unfold takeHcItems
    simp only [u, l, if_true]
  simp only [exec, execHcPublication, holdEvent, ha, takeHcSet, hm, e]

theorem setLatch_eq {h : HoldController} {src : Source} {k : SignalKind} {l : Latch} (hk : src.SignalOf k) :
    h.setLatch src l = h.latched src l ∧ src.kind = k := by
  rcases hk with ⟨rfl, rfl⟩ | ⟨rfl, rfl⟩ | ⟨rfl, rfl⟩ <;> exact ⟨rfl, rfl⟩

/-- A set of one signal source's kind alone: its latch first, then the tests of a state that is not left (R73). -/
theorem hcPublication_signal {s : State} {a : ActiveBank} {set : HcSet} {rest : List HcSet} {src : Source} {x : PubItem}
    (ha : s.active = some a) (hm : s.mail.toHc = set :: rest) (hi : set.items = [x]) (hk : src.SignalOf x.kind) :
    let u := withSet set rest s
    let v := latchStep a.bank [x] src u
    exec .hcPublication s =
      .next (withStart s.hc.state (if v.hc.state = u.hc.state then setInState a.bank set v else v)) ∧
    u.hc.latchSig src = ⟨x.validity, x.value⟩ := by
  intro u v
  have l : takeLatches a.bank set.items u = v := by
    unfold takeLatches
    rw [hi]
    rcases hk with ⟨rfl, hk⟩ | ⟨rfl, hk⟩ | ⟨rfl, hk⟩
    · rw [latchStep_none (src := .discharge) (by simp [hk, Source.kind]),
        latchStep_none (src := .pendantSide) (by simp [hk, Source.kind])]
    · rw [latchStep_none (src := .discharge) (by simp [hk, Source.kind]),
        latchStep_none (src := .pendantRear) (by simp [hk, Source.kind])]
    · rw [latchStep_none (src := .pendantSide) (by simp [hk, Source.kind]),
        latchStep_none (src := .pendantRear) (by simp [hk, Source.kind])]
  constructor
  · have e : takeHcItems a.bank set (s.setMail { s.mail with toHc := rest }) =
        if v.hc.state = u.hc.state then setInState a.bank set v else v := by
      have w : onHold (takeImage set) (s.setMail { s.mail with toHc := rest }) = withSet set rest s := rfl
      unfold takeHcItems
      simp only [w]
      rw [l]
    simp only [exec, execHcPublication, holdEvent, ha, takeHcSet, hm, e]
  · rcases hk with ⟨rfl, hk⟩ | ⟨rfl, hk⟩ | ⟨rfl, hk⟩ <;>
      simp [u, withSet, recorded, hi, HcImage.take, hk, HoldController.latchSig]

/-- Such a set carries nothing else that a hold state looks at. -/
theorem HcSet.has_single {set : HcSet} {src : Source} {x : PubItem} (hi : set.items = [x]) (hk : src.SignalOf x.kind) :
    set.has .springState = false ∧ set.has .parkSwitch = false ∧ set.has .brakePedal = false ∧
      set.has .ignition = false ∧ set.has .outputSpeed = false ∧ set.movesCriterion = false := by
  rcases hk with ⟨rfl, hk⟩ | ⟨rfl, hk⟩ | ⟨rfl, hk⟩ <;> simp [HcSet.has, HcSet.movesCriterion, hi, hk]

/-- After its latch, such a set brings the tests of INACTIVE, ARMED and HOLDING and nothing else. -/
theorem setInState_single {v : State} {b : Bank} {set : HcSet} {src : Source} {x : PubItem} (hi : set.items = [x])
    (hk : src.SignalOf x.kind) (hstart : v.hc.state = .starting → (set.allOnce.isSome && v.hc.allOnce) = false) :
    setInState b set v = match v.hc.state with
      | .inactive => standTest b v
      | .armed => standTest b v
      | .holding => handoverTest b v
      | _ => v := by
  obtain ⟨h1, h2, h3, h4, h5, h6⟩ := HcSet.has_single hi hk
  have hc : onHold (clearParkExit set) v = v := by simp [onHold, clearParkExit, h1, h2, State.setHc]
  unfold setInState
  cases hs : v.hc.state <;> simp [h1, h2, h3, h4, h5, h6, hc, exitTested]
  have := hstart hs
  simp at this
  intro h
  cases hh : set.allOnce <;> simp_all

/-- What follows a set of one signal source's kind that leaves the hold state. -/
theorem setInState_tested {v : State} {b : Bank} {set : HcSet} {src : Source} {x : PubItem} (hi : set.items = [x])
    (hk : src.SignalOf x.kind) (hstart : v.hc.state = .starting → (set.allOnce.isSome && v.hc.allOnce) = false) :
    StateTested b v (.next (withStart v.hc.state (setInState b set v))) := by
  rw [setInState_single hi hk hstart]
  refine ⟨fun h => ?_, fun h => ?_, fun h1 h2 h3 => ?_⟩
  · have := standTest_tested (b := b) h
    rcases h with h | h <;> simp only [h] <;> rw [withStart_eq (.inl (by decide))] <;> exact this
  · simp only [h]
    rw [withStart_eq (.inl (by decide))]
    exact handoverTest_tested h
  · cases h : v.hc.state <;> simp_all [withStart]

/-- A set that does not complete the second condition of R7 does not end STARTING. -/
theorem allOnce_none {set : HcSet} {rest : List HcSet} {s : State}
    (h : s.hc.state = .starting → set.allOnce ≠ some true) : (withSet set rest s).hc.state = .starting →
      (set.allOnce.isSome && (withSet set rest s).hc.allOnce) = false := by
  intro hs
  have := h hs
  cases hso : set.allOnce with
  | none => rfl
  | some v =>
    simp only [withSet, recorded, hso]
    cases v <;> simp_all

/-! ## The lowest free slot (R70) -/

theorem freeSlot_some {claims : List (Option Claim)} {slot : Nat} (h1 : 1 ≤ slot) (h5 : slot ≤ 5)
    (he : claims[slot]? = some none) (hb : ∀ i, 1 ≤ i → i < slot → claims[i]? ≠ some none) :
    freeSlot claims = some slot := by
  have n : slot = 1 ∨ slot = 2 ∨ slot = 3 ∨ slot = 4 ∨ slot = 5 := by omega
  have f : ∀ i, 1 ≤ i → i < slot → (claims[i]? == some none) = false := fun i h1 h2 => by simpa using hb i h1 h2
  unfold freeSlot
  rcases n with rfl | rfl | rfl | rfl | rfl
  · simp [List.find?, he]
  · simp [List.find?, he, f 1]
  · simp [List.find?, he, f 1, f 2]
  · simp [List.find?, he, f 1, f 2, f 3]
  · simp [List.find?, he, f 1, f 2, f 3, f 4]

theorem freeSlot_none {claims : List (Option Claim)} (hb : ∀ i, 1 ≤ i → i ≤ 5 → claims[i]? ≠ some none) :
    freeSlot claims = none := by
  unfold freeSlot
  rw [List.find?_eq_none]
  intro i hi
  simp at hi
  simpa using hb i (by omega) (by omega)

/-! ## The requests and releases of the signal sources (R73) -/

/-- A set at the Hold Controller: its signal sources first, then the hold state, where they have not changed it. -/
theorem hcPublication_eq {s : State} {a : ActiveBank} {set : HcSet} {rest : List HcSet} (ha : s.active = some a)
    (hm : s.mail.toHc = set :: rest) :
    let v := takeLatches a.bank set.items (withSet set rest s)
    exec .hcPublication s = .next (withStart s.hc.state (if v.hc.state = s.hc.state then setInState a.bank set v else v)) := by
  intro v
  have e : takeHcItems a.bank set (s.setMail { s.mail with toHc := rest }) =
      if v.hc.state = s.hc.state then setInState a.bank set v else v := rfl
  simp only [exec, execHcPublication, holdEvent, ha, takeHcSet, hm, e]

/-- The latches play no part in an entry to HOLDING. -/
theorem enterHolding_setLatch (b : Bank) (start : Circuits) (episode : Bool) (src : Source) (l : Latch) (s : State) :
    onHold (fun h => h.setLatch src l) (enterHolding b start episode s) =
      enterHolding b start episode (onHold (fun h => h.setLatch src l) s) := by
  have hc : (onHold (fun h => h.setLatch src l) s).hc.handoverCondition = s.hc.handoverCondition := by cases src <;> rfl
  by_cases h : s.hc.handoverCondition = true
  · have e : ∀ x : State, x.hc.handoverCondition = true → enterHolding b start episode x =
        enterHandover b ((start.sup x.hc.resultPressure).sup (x.hc.limitedFloors b))
          (onHold (fun h => { h with
            minHold := some b.params.minHold, maxHold := some (b.params.maxServiceHold * 1000)
            reapply := if episode then 0 else h.reapply })
            (changeState b .holding none ((start.sup x.hc.resultPressure).sup (x.hc.limitedFloors b)) episode x)) :=
      fun x hx => handoverTest_some rfl hx
    rw [e s h, e _ (hc.trans h), enterHandover_eq, enterHandover_eq]
    cases src <;> rfl
  · rw [enterHolding_eq (by simpa using h), enterHolding_eq (by rw [hc]; simpa using h)]
    cases src <;> rfl

/-- A granted request enters HOLDING with its claim in slot 1 and its latch ASSERTED (R58, R76, R78). -/
theorem signal_begun {b : Bank} {u : State} {src : Source} {start asked : Circuits} {episode : Bool}
    (hk : src.SignalOf src.kind) (hn : u.hc.claims = noClaims)
    (ha : (max start.a u.hc.resultPressure.a) = asked.a ∧ (max start.b u.hc.resultPressure.b) = asked.b) :
    HoldBegun b [none, some (signalClaim src u.now), none, none, none, none] asked episode
      { u with hc := u.hc.latched src .asserted }
      (.next (onHold (fun h => h.setLatch src .asserted) (enterHolding b start episode
        (onHold (putClaim 1 ((⟨src, 0, none, none, none⟩ : ClaimRequest).claim u.now)) u)))) := by
  rw [enterHolding_setLatch]
  refine enterHolding_begun ?_ ?_
  · rw [← (setLatch_eq hk).1]
    cases src <;> simp [onHold, State.setHc, putClaim, hn, noClaims, HoldController.setLatch, signalClaim,
      ClaimRequest.claim]
  · have f : (onHold (fun h => h.setLatch src .asserted)
        (onHold (putClaim 1 ((⟨src, 0, none, none, none⟩ : ClaimRequest).claim u.now)) u)).hc.limitedFloors b = .zero := by
      cases src <;> simp [HoldController.limitedFloors, HoldController.standing, onHold, State.setHc, putClaim, hn,
        noClaims, HoldController.setLatch, ClaimRequest.claim, Claim.floors, Circuits.inf, Circuits.sup, Circuits.zero]
    have p : (onHold (fun h => h.setLatch src .asserted)
        (onHold (putClaim 1 ((⟨src, 0, none, none, none⟩ : ClaimRequest).claim u.now)) u)).hc.resultPressure =
        u.hc.resultPressure := by cases src <;> rfl
    rw [f, p]
    refine Circuits.eq_of ?_ ?_
    · show max (max _ _) 0 = _; rw [Nat.max_zero]; exact ha.1
    · show max (max _ _) 0 = _; rw [Nat.max_zero]; exact ha.2

/-- Everything a signal source's request can do. -/
theorem signalRise_requested (b : Bank) {src : Source} (hk : src.SignalOf src.kind) (u : State) :
    Requested b src u (signalRise b src u) := by
  have no : ∀ st, st ≠ Status.ok → st ≠ .satisfied → requestClaim b ⟨src, 0, none, none, none⟩ u = (⟨st, none⟩, u) →
      signalRise b src u = raisedIn 1 { u with hc := u.hc.latched src .refused } := by
    intro st h1 h2 h
    unfold signalRise
    simp only [h]
    rw [if_neg (by simp [h1, h2]), ← (setLatch_eq hk).1]
    rfl
  have yes : ∀ st w, st = Status.ok ∨ st = .satisfied → ∀ o, requestClaim b ⟨src, 0, none, none, none⟩ u = (⟨st, o⟩, w) →
      signalRise b src u = onHold (fun h => h.setLatch src .asserted) w := by
    intro st w h o h'
    unfold signalRise
    simp only [h']
    rw [if_pos h]
  have latch : ∀ c : List (Option Claim), onHold (fun h => h.setLatch src .asserted) { u with hc := { u.hc with claims := c } } =
      { u with hc := { u.hc.latched src .asserted with claims := c } } := by
    intro c
    rw [← (setLatch_eq (l := .asserted) hk).1]
    cases src <;> rfl
  refine ⟨fun h => ?_, fun h k => ?_, fun h k hn => ?_, fun h hr hf slot c hs h1 h2 hu => ?_,
    fun h hn slot l1 l5 he hb => ?_, fun h hn hf => ?_, fun h ramp hr hn => ?_, fun h => ?_⟩
  · refine no .notReady (by decide) (by decide) ?_
    rcases h with h | h <;> simp [requestClaim, h]
  · obtain ⟨st, hst⟩ : ∃ st, u.hc.entryRefusal b = some st := by
      cases hh : u.hc.entryRefusal b with
      | none => exact absurd (entryHolds_iff.mp hh) k
      | some st => exact ⟨st, rfl⟩
    have hst' : st ≠ .ok ∧ st ≠ .satisfied := by
      unfold HoldController.entryRefusal at hst
      repeat' split at hst
      all_goals first | (cases hst; done) | (cases hst; exact ⟨by decide, by decide⟩)
    refine no st hst'.1 hst'.2 ?_
    rcases h with h | h <;> simp [requestClaim, h, hst]
  · have := yes .ok (enterHolding b u.hc.resultPressure true
      (onHold (putClaim 1 ((⟨src, 0, none, none, none⟩ : ClaimRequest).claim u.now)) u)) (.inl rfl) (some 1) (by
        rw [← entryHolds_iff] at k
        rcases h with h | h <;> simp [requestClaim, h, k])
    rw [this]
    exact signal_begun hk hn ⟨Nat.max_self _, Nat.max_self _⟩
  · have hso := slotOf_eq hs h1 h2 hu
    rw [yes .ok (onHold (putClaim slot ((⟨src, 0, none, none, none⟩ : ClaimRequest).claim c.granted)) u) (.inl rfl)
      (some slot) ?_]
    · exact latch _
    · have e : requestClaim b ⟨src, 0, none, none, none⟩ u = (⟨.ok, some slot⟩, onHold (fun x => ratchet b
          (putClaim slot ((⟨src, 0, none, none, none⟩ : ClaimRequest).claim c.granted) x)) u) := by
        have g : ((u.hc.claims[slot]?).join.map Claim.granted).getD u.now = c.granted := by rw [hs]; rfl
        simp only [requestClaim, h, requestInHolding, hso]
        rw [g]
      rw [e]
      congr 1
      show u.setHc (ratchet b (putClaim slot _ u.hc)) = u.setHc (putClaim slot _ u.hc)
      rw [ratchet_of_within]
      · exact hr
      · refine limitedFloors_within.mpr fun x hx => ?_
        rcases List.mem_or_eq_of_mem_set hx with hx | hx
        · exact limitedFloors_within.mp hf x hx
        · cases hx
          exact Circuits.within_trans ⟨Nat.min_le_left _ _, Nat.min_le_left _ _⟩ ⟨Nat.zero_le _, Nat.zero_le _⟩
  · have hso : slotOf u.hc.claims src 0 = none := slotOf_none.mpr hn
    rw [yes .ok (onHold (putClaim slot ((⟨src, 0, none, none, none⟩ : ClaimRequest).claim u.now)) u) (.inl rfl)
      (some slot) ?_]
    · exact latch _
    · simp only [requestClaim, h, requestInHolding, hso, freeSlot_some l1 l5 he hb]
      rfl
  · have hso : slotOf u.hc.claims src 0 = none := slotOf_none.mpr hn
    exact no .noSlot (by decide) (by decide) (by simp [requestClaim, h, requestInHolding, hso, freeSlot_none hf])
  · have := yes .ok (enterHolding b ramp.start false
      (onHold (putClaim 1 ((⟨src, 0, none, none, none⟩ : ClaimRequest).claim u.now)) u)) (.inl rfl) (some 1)
        (by simp [requestClaim, h, hr])
    rw [this]
    exact signal_begun hk hn ⟨rfl, rfl⟩
  · rw [yes .satisfied u (.inr rfl) none (by rcases h with h | h | h <;> simp [requestClaim, h]),
      ← (setLatch_eq hk).1]
    rfl

/-- Everything a signal source's release can do. -/
theorem signalFall_released (b : Bank) {src : Source} (hk : src.SignalOf src.kind) (u : State) :
    Released b src u (signalFall b src u) := by
  have idle : onHold (fun h => h.setLatch src .idle) u = { u with hc := u.hc.latched src .idle } := by
    rw [← (setLatch_eq hk).1]; rfl
  set w : State := { u with hc := u.hc.latched src .idle } with hw
  have wc : w.hc.claims = u.hc.claims := by cases src <;> rfl
  have go : signalFall b src u = if u.hc.latch src = .asserted ∧ w.hc.hasClaim src 0 = true then
      afterRemoval b (onHold (removeClaims b fun c => c.hasKey src 0) w) else w := by
    unfold signalFall
    simp only [idle]
  have has : w.hc.hasClaim src 0 = false ↔ ∀ c, some c ∈ u.hc.claims → ¬ (c.source = src ∧ c.tag = 0) := by
    unfold HoldController.hasClaim
    rw [wc, ← slotOf_none]
    simp
  refine ⟨fun h => ?_, fun ha hs hl slot c hc h1 h2 hu hr hf => ?_⟩
  · rw [go, if_neg]
    rintro ⟨k1, k2⟩
    rcases h with h | h
    · exact h k1
    · rw [has.mpr h] at k2; cases k2
  · have hh : w.hc.hasClaim src 0 = true := by
      by_contra k
      exact has.mp (by simpa using k) c (List.mem_of_getElem? hc) ⟨h1, h2⟩
    rw [go, if_pos ⟨ha, hh⟩]
    have er : removeClaims b (fun c => c.hasKey src 0) w.hc = { w.hc with claims := u.hc.claims.set slot none } := by
      rw [removeClaims_of_within (h := w.hc) (by cases src <;> exact hr)
        (by cases src <;> exact hf), wc]
      congr 1
      refine List.ext_getElem? fun i => ?_
      rw [List.getElem?_map, List.getElem?_set]
      by_cases hi : slot = i
      · subst hi
        simp [hc, Claim.hasKey, h1, h2, hl]
        have := (List.getElem?_eq_some_iff.mp hc).1
        omega
      · rw [if_neg hi]
        cases hx : u.hc.claims[i]? with
        | none => rfl
        | some o =>
          cases o with
          | none => rfl
          | some x =>
            have : ¬ (x.source = src ∧ x.tag = 0) := fun k => hi (hu i x hx k.1 k.2).symm
            simp [Option.filter, Claim.hasKey, this]
    have ew : onHold (removeClaims b fun c => c.hasKey src 0) w =
        { u with hc := { u.hc.latched src .idle with claims := u.hc.claims.set slot none } } := by
      show { w with hc := removeClaims b _ w.hc } = _
      rw [er]
    rw [ew]
    intro left v
    have vs : v.hc.state = .holding := by cases src <;> exact hs
    have vn : v.hc.noClaim = true ↔ ∀ x, some x ∉ left := noClaim_iff
    have va : v.hc.driverAbsent = true ↔ Absent u.hc := by rw [← absent_iff]; cases src <;> exact Iff.rfl
    refine ⟨fun ⟨x, hx⟩ => ?_, fun hn hp => ?_, fun hn hp => ?_⟩
    · have e : afterRemoval b v = handoverTest b v := by
        unfold afterRemoval
        rw [if_pos vs, if_neg (fun k => vn.mp k x hx)]
      show HoldTested b v (.next (afterRemoval b v))
      rw [e]
      exact handoverTest_tested vs
    · show afterRemoval b v = _
      unfold afterRemoval
      rw [if_pos vs, if_pos (vn.mpr hn), if_neg (fun k => hp (va.mp k)), raise_raisedIn]
      have hl' : v.hc.claims = noClaims := noClaims_of_noClaim (by show (u.hc.claims.set slot none).length = 6; simpa using hl) (vn.mpr hn)
      unfold placeDriver onHold State.setHc putClaim
      rw [hl']
      rfl
    · have e : afterRemoval b v = enterHandover b v.hc.demand.pressure v := by
        unfold afterRemoval
        rw [if_pos vs, if_pos (vn.mpr hn), if_pos (va.mpr hp)]
      show Moved .handover none _ v (afterRemoval b v) ∧ HandoverStarted b (afterRemoval b v).hc
      rw [e]
      have : v.hc.demand.pressure = u.hc.demand.pressure := by cases src <;> rfl
      rw [← this]
      exact ⟨enterHandover_moved _ _ _, enterHandover_started _ _ _⟩

/-- Everything a publication set can do to one signal source. -/
theorem latchStep_taken (b : Bank) (set : HcSet) {src : Source} (hk : src.SignalOf src.kind) (u : State) :
    SourceTaken b set src u (latchStep b set.items src u) := by
  have carries : (set.items.any fun x => x.kind == src.kind) = true ↔ Carries set src.kind := HcSet.has_iff
  refine ⟨fun h => ?_, fun h0 h1 => ?_, fun hc h1 hi => ?_, fun hc h0 => ?_⟩
  · unfold latchStep
    rw [if_neg (fun k => h (carries.mp k))]
  · unfold latchStep
    split
    · split
      · rename_i k
        rw [Sig.is_iff] at k
        rw [if_neg (fun hi => h1 ⟨k, hi⟩)]
      · rw [if_neg (fun k => h0 (Sig.is_iff.mp k))]
    · rfl
  · unfold latchStep
    rw [if_pos (carries.mpr hc), if_pos (Sig.is_iff.mpr h1), if_pos hi]
    exact signalRise_requested b hk u
  · unfold latchStep
    rw [if_pos (carries.mpr hc), if_neg (by rw [Sig.is_iff, h0]; simp), if_pos (Sig.is_iff.mpr h0)]
    exact signalFall_released b hk u

/-- A set's signal sources are taken one after the other (log 10). -/
theorem takeLatches_taken (b : Bank) (set : HcSet) (u : State) : SourcesTaken b set u (takeLatches b set.items u) :=
  ⟨_, _, latchStep_taken b set (.inl ⟨rfl, rfl⟩) u, latchStep_taken b set (.inr (.inl ⟨rfl, rfl⟩)) _,
    latchStep_taken b set (.inr (.inr ⟨rfl, rfl⟩)) _⟩

end Sys2Proof.Machine
end

