-- ==== Sys2Proof/Laws/Queue.lean ====
section
/-! SUPPORT. What starting a transmission, offering a frame, generating a demand frame and an activation do to the queues,
and what they leave. -/

namespace Sys2Proof.Machine

theorem takeFirst_length {α : Type} {f : α → Bool} {l rest : List α} {x : α} (h : takeFirst f l = some (x, rest)) :
    l.length = rest.length + 1 ∧ ∀ y ∈ rest, y ∈ l := by
  obtain ⟨b, a, rfl, _, _, rfl⟩ := takeFirst_some.mp h
  refine ⟨by simp; omega, fun y hy => ?_⟩
  simp at hy ⊢
  tauto

/-- A start leaves an entry's class, its space and whether it is from before an activation (R156, R162, R166). -/
theorem startEntry_keeps (s : State) (e : Entry) :
    (startEntry s e).cls = e.cls ∧ (startEntry s e).dedicated = e.dedicated ∧ (startEntry s e).stale = e.stale := by
  unfold startEntry
  cases h : e.cls <;> simp only
  · split <;> simp [h]
  all_goals simp [h]

/-- The chosen entry is the oldest waiting of its class, which is not held back (R156, R164). -/
theorem choose_some {s : State} {p : Port} {e : Entry} {rest : List Entry} (h : choose s p = some (e, rest)) :
    takeFirst (fun x => x.cls == e.cls) (queueOf s p).waiting = some (e, rest) ∧ heldBack s p e.cls = false := by
  unfold choose at h
  simp only at h
  split at h
  · rename_i c hc
    have hh := List.find?_some hc
    obtain ⟨b, a, _, hx, _⟩ := takeFirst_some.mp h
    simp only [beq_iff_eq] at hx
    subst hx
    simp at hh
    exact ⟨h, hh.2⟩
  · cases h

/-- Everything a start can do (R156): nothing, or on an ACTIVE and idle port out of the load the chosen entry goes into
transmission. -/
theorem trySend_cases (p : Port) (s : State) :
    trySend p s = s ∨
      ∃ e rest, (s.loading = false ∧ (s.links.get p).busOff = false ∧ (queueOf s p).sending = none) ∧
        choose s p = some (e, rest) ∧
        trySend p s = { s with
          tx := { s.tx with queues := s.tx.queues.set p ⟨rest, some (startEntry s e)⟩ }
          events := if e.cls = .status then { s.events with again := 0 } else s.events } := by
  unfold trySend
  split
  · exact .inl rfl
  · rename_i hg
    simp only [Bool.or_eq_true, not_or, Bool.not_eq_true, Option.isSome_eq_false_iff,
      Option.isNone_iff_eq_none] at hg
    split
    · exact .inl rfl
    · rename_i e rest hc
      refine .inr ⟨e, rest, ⟨hg.1.1, hg.1.2, hg.2⟩, hc, ?_⟩
      unfold noteStart
      split <;> simp [setQueue, State.setTx, State.setEvents]

/-- What a start leaves: the number of entries, the other port's queue, the event set and all but the queues. -/
structure StartKept (p : Port) (s t : State) : Prop where
  len : (queueOf t p).entries.length = (queueOf s p).entries.length
  other : queueOf t p.other = queueOf s p.other
  sub : ∀ x ∈ (queueOf t p).waiting, x ∈ (queueOf s p).waiting
  eset : t.events.set = s.events.set
  frame : t = { s with
    tx := { s.tx with queues := t.tx.queues }
    events := { s.events with again := t.events.again } }

theorem trySend_kept (p : Port) (s : State) : StartKept p s (trySend p s) := by
  rcases trySend_cases p s with h | ⟨e, rest, hg, hc, h⟩
  · rw [h]; exact ⟨rfl, rfl, fun _ h => h, rfl, rfl⟩
  · rw [h]
    have hl := takeFirst_length (choose_some hc).1
    refine ⟨?_, ?_, ?_, ?_, ?_⟩
    · simp [queueOf, TxQueue.entries] at hl ⊢
      have := hg.2.2
      simp [queueOf] at this
      simp [this, hl.1]
    · simp [queueOf]
    · intro x hx
      simp [queueOf] at hx
      exact hl.2 x hx
    · simp only
      split <;> rfl
    · simp only
      split <;> rfl

/-! ## The choice of R156 -/

theorem heldBack_iff {s : State} {p : Port} {cls : TxClass} : heldBack s p cls = true ↔ HeldBack s p cls := by
  cases p <;> cases cls <;> simp [heldBack, HeldBack]

/-- The entry of R156 is the one that is chosen. -/
theorem choose_chosen {s : State} {p : Port} {before after : List Entry} {e : Entry} (h : Chosen s p before e after) :
    choose s p = some (e, before ++ after) := by
  have hf : ([TxClass.hold, .forward, .status, .service].find? fun c => (queueOf s p).hasWaiting c && !heldBack s p c) =
      some e.cls := by
    have mine : ((queueOf s p).hasWaiting e.cls && !heldBack s p e.cls) = true := by
      have hf := h.free
      rw [← heldBack_iff] at hf
      simp [TxQueue.hasWaiting, h.waiting, hf]
    have lower : ∀ c, rankOf c < rankOf e.cls → ((queueOf s p).hasWaiting c && !heldBack s p c) = false := by
      intro c hc
      rw [Bool.and_eq_false_iff]
      by_contra k
      simp only [not_or, Bool.not_eq_false, TxQueue.hasWaiting, List.any_eq_true] at k
      obtain ⟨⟨x, hx, hxc⟩, hh⟩ := k
      simp only [beq_iff_eq] at hxc
      subst hxc
      have := heldBack_iff.mpr (h.first x hx hc)
      simp [this] at hh
    cases he : e.cls <;> rw [he] at mine lower
    · simp [List.find?, mine]
    · simp [List.find?, mine, lower .hold (by decide)]
    · simp [List.find?, mine, lower .hold (by decide), lower .forward (by decide)]
    · simp [List.find?, mine, lower .hold (by decide), lower .forward (by decide), lower .status (by decide)]
  unfold choose
  simp only [hf]
  rw [takeFirst_some]
  exact ⟨before, after, h.waiting, by simp, fun x hx => by simpa using h.oldest x hx, rfl⟩

/-- What a start makes of an entry (R162, R166). -/
theorem startEntry_started (s : State) (e : Entry) : Started s e (startEntry s e) := by
  unfold startEntry
  refine ⟨?_, ?_, ?_, ?_, ?_⟩
  · cases h : e.cls <;> simp only
    · split <;> simp [h]
    all_goals simp [h]
  · rintro (h | h) <;> simp [h]
  · intro h k
    obtain ⟨x, hx⟩ := Option.ne_none_iff_exists'.mp k
    simp [h, hx]
  · intro h k
    simp [h, k]
  · intro h
    simp [h]

/-- A start is the choice of R156. -/
theorem trySend_sends (p : Port) (s : State) : Sends p s (trySend p s) := by
  have k := trySend_kept p s
  refine ⟨fun h => ?_, fun h => ?_, fun hi before e after hc => ?_, k.other, k.frame⟩
  · unfold trySend
    rw [if_pos]
    simp only [Idle, not_and_or] at h
    simp only [Bool.or_eq_true]
    rcases h with h | h | h
    · simp [h]
    · simp [h]
    · right; exact Option.isSome_iff_ne_none.mpr h
  · rcases trySend_cases p s with h' | ⟨e, rest, hg, hc, _⟩
    · exact h'
    · obtain ⟨h1, h2⟩ := choose_some hc
      have := takeFirst_some.mp h1
      obtain ⟨b, a, hw, _, _, _⟩ := this
      have := heldBack_iff.mpr (h e (by simp [hw]))
      simp [this] at h2
  · unfold trySend
    rw [if_neg (by simp [hi.1, hi.2.1, hi.2.2])]
    simp only [choose_chosen hc]
    refine ⟨startEntry s e, startEntry_started s e, ?_, ?_⟩
    · unfold noteStart; split <;> simp [queueOf, setQueue, State.setTx, State.setEvents]
    · unfold noteStart; split <;> simp [setQueue, State.setTx, State.setEvents]

/-! ## The OK response of a RESET_PART (R186) -/

theorem noteResetOut_eq (e : Entry) (s : State) : noteResetOut e s = { s with
    sr := { s.sr with resetPending := if e.reset then .due else s.sr.resetPending } } := by
  unfold noteResetOut
  cases e.reset <;> rfl

/-- Discarding entries reaches the reset pending alone. -/
theorem noteResetOut_foldl (l : List Entry) (s : State) :
    ∃ x, l.foldl (fun s e => noteResetOut e s) s = { s with sr := { s.sr with resetPending := x } } := by
  induction l generalizing s with
  | nil => exact ⟨s.sr.resetPending, rfl⟩
  | cons e es ih =>
    obtain ⟨x, hx⟩ := ih (noteResetOut e s)
    exact ⟨x, by rw [List.foldl_cons, hx, noteResetOut_eq]⟩

/-! ## Offers and demand frames (R155, R160) -/

/-- An offer reaches the queues, the mark of events raised again, the reset pending and the counts, and nothing else. -/
theorem offer_frame (p : Port) (e : Entry) (s : State) : (offer p e s).2 = { s with
    tx := { s.tx with queues := (offer p e s).2.tx.queues }
    events := { s.events with again := (offer p e s).2.events.again }
    sr := { s.sr with resetPending := (offer p e s).2.sr.resetPending }
    mail := { s.mail with counts := (offer p e s).2.mail.counts } } := by
  unfold offer
  simp only
  split
  · rfl
  · split
    · simp only [refuseOffer, noteResetOut_eq]; rfl
    · split
      · simp only [refuseOffer, noteResetOut_eq]; rfl
      · rename_i d _
        have k := (trySend_kept p (setQueue p { queueOf s p with
          waiting := (queueOf s p).waiting ++ [{ e with dedicated := d }] } s)).frame
        set t := trySend p _
        have hr : t.sr = s.sr := by rw [k]; rfl
        have hm : t.mail = s.mail := by rw [k]; rfl
        show t = { s with
          tx := { s.tx with queues := t.tx.queues }
          events := { s.events with again := t.events.again }
          sr := { s.sr with resetPending := t.sr.resetPending }
          mail := { s.mail with counts := t.mail.counts } }
        rw [hr, hm]
        exact k

/-- The watermarks reach the queues, the starved mark, the event set, the counts and the fault reports (R164, R165). -/
theorem watermarks_frame (n : Nat) (s : State) : watermarks n s = { s with
    tx := { s.tx with queues := (watermarks n s).tx.queues, starved := (watermarks n s).tx.starved }
    events := (watermarks n s).events
    mail := { s.mail with counts := (watermarks n s).mail.counts, faults := (watermarks n s).mail.faults } } := by
  have h1 : ∃ ev, (if (txBank s).params.hpWatermark ≤ s.tx.owed then raise .demandLate s else s) =
      { s with events := ev } := by
    split
    · exact ⟨_, rfl⟩
    · exact ⟨s.events, rfl⟩
  unfold watermarks
  simp only
  obtain ⟨ev, h1⟩ := h1
  rw [h1]
  split <;> split <;> rfl

/-- The reports of the watermarks are of DEMAND_STARVED (R165). -/
theorem watermarks_faults (n : Nat) (s : State) :
    ∃ more, (watermarks n s).mail.faults = s.mail.faults ++ more ∧ ∀ r ∈ more, r.kind = .demandStarved := by
  by_cases h3 : (txBank s).params.panicWatermark ≤ s.tx.owed ∧ s.links.b.busOff = false ∧ s.tx.starved = false
  · refine ⟨[⟨.major, .demandStarved, .none, none⟩], ?_, by simp⟩
    unfold watermarks
    simp only [h3, if_true, and_self]
    split <;> split <;> rfl
  · refine ⟨[], ?_, by simp⟩
    unfold watermarks
    simp only [if_neg h3]
    split <;> split <;> simp [discardForward]

/-- A HOLD frame takes the place and the space of the waiting one (R161). -/
theorem offer_hold {s : State} {f : Frame} {before after : List Entry} {e : Entry}
    (hw : (queueOf s .b).waiting = before ++ e :: after) (he : e.cls = .hold) (hb : ∀ x ∈ before, x.cls ≠ .hold) :
    (offer .b (newEntry .hold f false) s).2 = setQueue .b { queueOf s .b with
      waiting := before ++ { newEntry .hold f false with dedicated := e.dedicated } :: after } s := by
  have h : (queueOf s .b).hasWaiting .hold = true := by simp [TxQueue.hasWaiting, hw, he]
  unfold offer
  simp only
  rw [if_pos ⟨rfl, h⟩, hw]
  have : ∀ (l : List Entry), (∀ x ∈ l, x.cls ≠ .hold) → ∀ g : Entry → Entry, replaceFirst (fun x => x.cls == .hold) g (l ++ e :: after) = l ++ g e :: after := by
    intro l hl g
    induction l with
    | nil => simp [replaceFirst, he]
    | cons z zs ih => simp [replaceFirst, hl z (by simp), ih (fun x hx => hl x (by simp [hx]))]
  rw [this _ hb]

/-- Any other offer is refused and counted, or admitted behind what waits and the choice of R156 applied (R155). -/
theorem offer_space {s : State} {p : Port} {e : Entry} (hr : e.reset = false)
    (h1 : e.cls = .hold → (queueOf s p).hasWaiting .hold = false) (h2 : e.cls ≠ .forward) :
    let q := queueOf s p
    let minimum := ((txBank s).minima.get p).get e.cls
    let full := 32 ≤ q.entries.length ∨ (minimum ≤ q.dedicatedCount e.cls ∧ (txBank s).sharedSpace p ≤ q.sharedCount)
    (full → (offer p e s).2 = { s with mail := { s.mail with counts := s.mail.counts ++ [.queueDrop p] } }) ∧
    (¬ full → (offer p e s).2 = trySend p (setQueue p { q with
      waiting := q.waiting ++ [{ e with dedicated := decide (q.dedicatedCount e.cls < minimum) }] } s)) := by
  intro q minimum full
  have go : offer p e s = match spaceFor s p e.cls with
      | none => (false, refuseOffer p e s)
      | some d => (true, trySend p (setQueue p { q with waiting := q.waiting ++ [{ e with dedicated := d }] } s)) := by
    exact (if_neg (by rintro ⟨h, k⟩; rw [h1 h] at k; cases k)).trans (if_neg (by rintro ⟨h, _⟩; exact h2 h))
  constructor
  · rintro hf
    have : spaceFor s p e.cls = none := by
      unfold spaceFor
      rcases hf with hf | ⟨hf, hg⟩
      · exact if_pos hf
      · simp only
        split
        · rfl
        · rw [if_neg (by show ¬ q.dedicatedCount e.cls < minimum; omega), if_neg (by show ¬ q.sharedCount < _; omega)]
    rw [go, this]
    simp [refuseOffer, noteResetOut, hr, count, State.setMail]
  · intro hf
    simp only [full, not_or, not_and] at hf
    have : spaceFor s p e.cls = some (decide (q.dedicatedCount e.cls < minimum)) := by
      unfold spaceFor
      simp only
      rw [if_neg (show ¬ Config.queueSize ≤ q.entries.length from hf.1)]
      by_cases h : q.dedicatedCount e.cls < minimum
      · rw [if_pos h]; simp [h]
      · rw [if_neg h, if_pos (show q.sharedCount < _ by have := hf.2 (by omega); omega)]; simp [h]
    rw [go, this]

/-- The timers of the two periods play no part in a start. -/
theorem trySend_timers (p : Port) (s : State) (d st : Timer) :
    (trySend p s).setTx { (trySend p s).tx with demandTimer := d, statusTimer := st } =
      trySend p (s.setTx { s.tx with demandTimer := d, statusTimer := st }) := by
  unfold trySend
  have h : choose (s.setTx { s.tx with demandTimer := d, statusTimer := st }) p = choose s p := rfl
  simp only [h]
  split
  · rw [if_pos (by assumption)]
  · rw [if_neg (by assumption)]
    split
    · rfl
    · unfold noteStart
      split <;> rfl

/-- The watermarks at a generation (R164, R165). -/
theorem watermarks_eq (n : Nat) (s : State) : watermarks n s = { s with
    tx := { s.tx with
      queues := if n < (txBank s).params.panicWatermark ∧ (txBank s).params.panicWatermark ≤ s.tx.owed then
        s.tx.queues.set .b { queueOf s .b with waiting := (queueOf s .b).waiting.filter fun e => e.cls != .forward }
        else s.tx.queues
      starved := if (txBank s).params.panicWatermark ≤ s.tx.owed ∧ s.links.b.busOff = false ∧ s.tx.starved = false then
        true else s.tx.starved }
    events := if (txBank s).params.hpWatermark ≤ s.tx.owed then
      ⟨s.events.set ||| 1#16 <<< 11, s.events.again ||| 1#16 <<< 11⟩ else s.events
    mail := { s.mail with
      counts := s.mail.counts ++ (if n < (txBank s).params.panicWatermark ∧ (txBank s).params.panicWatermark ≤ s.tx.owed then
        List.replicate ((queueOf s .b).waiting.filter fun e => e.cls == .forward).length (.queueDrop .b) else [])
      faults := s.mail.faults ++
        (if (txBank s).params.panicWatermark ≤ s.tx.owed ∧ s.links.b.busOff = false ∧ s.tx.starved = false then
          [⟨.major, .demandStarved, .none, none⟩] else []) } } := by
  unfold watermarks
  by_cases h1 : (txBank s).params.hpWatermark ≤ s.tx.owed
  · by_cases h2 : n < (txBank s).params.panicWatermark ∧ (txBank s).params.panicWatermark ≤ s.tx.owed
    · by_cases h3 : (txBank s).params.panicWatermark ≤ s.tx.owed ∧ s.links.b.busOff = false ∧ s.tx.starved = false
      · simp only [if_pos h1, if_pos h2, if_pos h3]
        try rfl
      · simp only [if_pos h1, if_pos h2, if_neg h3, List.append_nil]
        try rfl
    · by_cases h3 : (txBank s).params.panicWatermark ≤ s.tx.owed ∧ s.links.b.busOff = false ∧ s.tx.starved = false
      · simp only [if_pos h1, if_neg h2, if_pos h3, List.append_nil]
        try rfl
      · simp only [if_pos h1, if_neg h2, if_neg h3, List.append_nil]
        try rfl
  · by_cases h2 : n < (txBank s).params.panicWatermark ∧ (txBank s).params.panicWatermark ≤ s.tx.owed
    · by_cases h3 : (txBank s).params.panicWatermark ≤ s.tx.owed ∧ s.links.b.busOff = false ∧ s.tx.starved = false
      · simp only [if_neg h1, if_pos h2, if_pos h3]
        try rfl
      · simp only [if_neg h1, if_pos h2, if_neg h3, List.append_nil]
        try rfl
    · by_cases h3 : (txBank s).params.panicWatermark ≤ s.tx.owed ∧ s.links.b.busOff = false ∧ s.tx.starved = false
      · simp only [if_neg h1, if_neg h2, if_pos h3, List.append_nil]
        try rfl
      · simp only [if_neg h1, if_neg h2, if_neg h3, List.append_nil]
        try rfl

/-- What a generation of a demand frame leaves and does (R160). -/
structure DemandGenerated (s t : State) : Prop where
  hc : t.hc = s.hc
  toHc : t.mail.toHc = s.mail.toHc
  reports : t.mail.stateReports = s.mail.stateReports
  active : t.active = s.active
  outstanding : t.tx.outstanding = true
  timer : t.tx.demandTimer = some (txBank s).params.demandPeriod
  faults : ∃ more, t.mail.faults = s.mail.faults ++ more ∧ ∀ r ∈ more, r.kind = .demandStarved

theorem runDemandPeriod_generated (s : State) : DemandGenerated s (runDemandPeriod s) := by
  have w := watermarks_frame s.tx.owed (oweDemand s)
  have wf := watermarks_faults s.tx.owed (oweDemand s)
  set s1 := watermarks s.tx.owed (oweDemand s) with hs1
  have k := offer_frame .b (newEntry .hold (demandFrame s1) false) s1
  set t := (offer .b (newEntry .hold (demandFrame s1) false) s1).2 with ht
  have go : runDemandPeriod s = t.setTx { t.tx with demandTimer := some (txBank s).params.demandPeriod } := rfl
  rw [go]
  refine ⟨?_, ?_, ?_, ?_, ?_, rfl, ?_⟩
  · show t.hc = _; rw [k, w]; rfl
  · show t.mail.toHc = _; rw [k, w]; rfl
  · show t.mail.stateReports = _; rw [k, w]; rfl
  · show t.active = _; rw [k, w]; rfl
  · show t.tx.outstanding = _; rw [k, w]; rfl
  · have : t.mail.faults = s1.mail.faults := by rw [k]
    show ∃ more, t.mail.faults = _ ∧ _
    rw [this]; exact wf

/-! ## An activation (R168) -/

theorem dedicatedIn_cons (cls : TxClass) (x : Entry) (l : List Entry) :
    dedicatedIn cls (x :: l) = (if x.cls = cls ∧ x.dedicated = true then 1 else 0) + dedicatedIn cls l := by
  unfold dedicatedIn
  by_cases h : x.cls = cls ∧ x.dedicated = true
  · simp [h]; omega
  · rw [if_neg h]
    simp only [List.filter_cons, Bool.and_eq_true, beq_iff_eq, h, if_false, Nat.zero_add]

/-- What becomes of an entry under new minima, `kept` being the dedicated entries before the list (R168). -/
theorem reassign_spec (minima : PerClass Nat) (kept : PerClass Nat) (es : List Entry) :
    (reassign minima kept es).length = es.length ∧
    ∀ before e after, es = before ++ e :: after → (reassign minima kept es)[before.length]? = some { e with
      dedicated := e.dedicated && decide (kept.get e.cls + dedicatedIn e.cls before < minima.get e.cls) } := by
  induction es generalizing kept with
  | nil => simp [reassign]
  | cons x es ih =>
    unfold reassign
    split
    · rename_i hk
      have hc : ∀ cls, (kept.oneMore x.cls).get cls = kept.get cls + if x.cls = cls then 1 else 0 := by
        intro cls; cases x.cls <;> cases cls <;> simp [PerClass.get, PerClass.oneMore]
      obtain ⟨h1, h2⟩ := ih (kept.oneMore x.cls)
      refine ⟨by simp [h1], ?_⟩
      rintro (_ | ⟨y, before⟩) e after h
      · obtain ⟨rfl, rfl⟩ := List.cons.inj h
        have : (x.dedicated && decide (kept.get x.cls < minima.get x.cls)) = x.dedicated := by simp [hk]
        simp [dedicatedIn, this]
      · obtain ⟨rfl, rfl⟩ := List.cons.inj h
        simp only [List.length_cons, List.getElem?_cons_succ]
        rw [h2 before e after rfl, dedicatedIn_cons, hc]
        simp [hk.1, Nat.add_assoc]
    · rename_i hk
      obtain ⟨h1, h2⟩ := ih kept
      refine ⟨by simp [h1], ?_⟩
      rintro (_ | ⟨y, before⟩) e after h
      · obtain ⟨rfl, rfl⟩ := List.cons.inj h
        have : (x.dedicated && decide (kept.get x.cls < minima.get x.cls)) = false := by
          simpa using hk
        simp [dedicatedIn, this]
      · obtain ⟨rfl, rfl⟩ := List.cons.inj h
        simp only [List.length_cons, List.getElem?_cons_succ]
        rw [h2 before e after rfl, dedicatedIn_cons]
        congr 3
        by_cases hx : x.cls = e.cls ∧ x.dedicated = true
        · rw [if_pos hx]
          have : ¬ kept.get e.cls < minima.get e.cls := fun h => hk ⟨hx.2, hx.1 ▸ h⟩
          simp; omega
        · rw [if_neg hx]; simp

/-- A queue at an activation (R168). -/
theorem requeue_requeued (minima : PerClass Nat) (q : TxQueue) : Requeued minima q q.waiting (requeue minima q) := by
  obtain ⟨h1, h2⟩ := reassign_spec minima ⟨0, 0, 0, 0⟩ q.entries
  have hz : ∀ cls, (⟨0, 0, 0, 0⟩ : PerClass Nat).get cls = 0 := by intro cls; cases cls <;> rfl
  simp only [hz, Nat.zero_add] at h2
  unfold requeue
  cases hs : q.sending with
  | none =>
    simp only [TxQueue.entries, hs, Option.toList_none, List.nil_append] at h1 h2 ⊢
    refine ⟨fun _ => rfl, fun _ h => by simp [hs] at h, by simp [h1], fun before e after h => ?_⟩
    simp only [List.getElem?_map, h2 before e after h, keepsSpace, hs, Option.toList_none, List.nil_append, Option.map_some]
    split <;> rfl
  | some x =>
    simp only [TxQueue.entries, hs, Option.toList_some, List.cons_append, List.nil_append] at h1 h2 ⊢
    have h0 := h2 [] x q.waiting rfl
    generalize reassign minima ⟨0, 0, 0, 0⟩ (x :: q.waiting) = moved at h1 h2 h0 ⊢
    cases moved with
    | nil => simp at h1
    | cons y ys =>
      simp only [List.length_nil, List.getElem?_cons_zero, Option.some.injEq] at h0
      simp only [List.length_cons, Nat.add_right_cancel_iff] at h1
      refine ⟨fun h => by simp [hs] at h, fun e he => ?_, by simp [h1], fun before e after h => ?_⟩
      · rw [hs] at he
        obtain rfl := Option.some.inj he
        simp [h0, keepsSpace]
      · have := h2 (x :: before) e after (by rw [h]; rfl)
        simp only [List.length_cons, List.getElem?_cons_succ] at this
        simp only [List.getElem?_map, this, keepsSpace, hs, Option.toList_some, List.cons_append, List.nil_append,
          Option.map_some]
        split <;> rfl
/-- The scheduler at an activation (R168): its record, the queues, the discarded HOLD entries counted, Port B's choice. -/
theorem activateScheduler_sends (s : State) :
    let b := txBank s
    let waits := (queueOf s .b).waiting
    ∃ qc qb, Requeued b.minima.c (queueOf s .c) (queueOf s .c).waiting qc ∧
      Requeued b.minima.b (queueOf s .b) (waits.filter fun e => e.cls != .hold) qb ∧
      Sends .b { s with
        tx := ⟨⟨qc, qb⟩, 0, false, false, 0, 0, none, some b.params.statusPeriod⟩
        mail := { s.mail with
          counts := s.mail.counts ++ List.replicate (waits.filter fun e => e.cls == .hold).length (.queueDrop .b) } }
        (activateScheduler s) := by
  intro b waits
  have e : discardHold s = { s with
      tx := { s.tx with queues := ⟨s.tx.queues.c, ⟨waits.filter fun e => e.cls != .hold, (queueOf s .b).sending⟩⟩ }
      mail := { s.mail with
        counts := s.mail.counts ++ List.replicate (waits.filter fun e => e.cls == .hold).length (.queueDrop .b) } } := by
    unfold discardHold
    rw [countTimes_eq]
    rfl
  have r := requeue_requeued b.minima.b ⟨waits.filter fun e => e.cls != .hold, (queueOf s .b).sending⟩
  refine ⟨_, _, requeue_requeued _ _, ⟨r.idle, r.sending, r.length, r.waits⟩, ?_⟩
  unfold activateScheduler
  rw [e]
  exact trySend_sends .b _

end Sys2Proof.Machine
end

