-- ==== Sys2Proof/Laws/Rows.lean ====
section
/-! SUPPORT. The rows of R189 beside the model's fields: each table's numbers and ranges agree, and what a written entry
holds. -/

namespace Sys2Proof.Machine

/-- A row of R189 and a field of the model agree: a value that fits is put and held, another is not put. -/
structure Agrees {α : Type} (row : FieldRow α) (spec : FieldSpec α) : Prop where
  ok : ∀ x v, row.fits x v → ∃ y, spec.put x v = some y ∧ row.holds y v
  bad : ∀ x v, ¬ row.fits x v → spec.put x v = none

theorem agrees_nat {α : Type} {n lo hi : Nat} {get : α → Nat} {set : α → Nat → α} (h : ∀ x v, get (set x v) = v) :
    Agrees (.nat n lo hi get) (natField lo hi get set) := by
  constructor
  · intro x v hf
    exact ⟨set x v.toNat, if_pos hf, h _ _⟩
  · intro x v hf; exact if_neg hf

theorem agrees_bool {α : Type} {n : Nat} {get : α → Bool} {set : α → Bool → α} (h : ∀ x v, get (set x v) = v) :
    Agrees (.flag n get) (boolField get set) := by
  have key : ∀ v : Word32, (v = 0 ∨ v = 1) ↔ (0 ≤ v.toNat ∧ v.toNat ≤ 1) := by
    intro v; constructor
    · rintro (rfl | rfl) <;> decide
    · intro hh; have := hh.2; have : v.toNat = 0 ∨ v.toNat = 1 := by omega
      rcases this with h | h
      · left; exact BitVec.eq_of_toNat_eq h
      · right; exact BitVec.eq_of_toNat_eq h
  constructor
  · intro x v hf
    refine ⟨_, if_pos ((key v).mp hf), ?_⟩
    show get (set x (v.toNat == 1)) = true ↔ v = 1
    rw [h]
    rcases hf with rfl | rfl <;> decide
  · intro x v hf; exact if_neg (fun k => hf ((key v).mpr k))

theorem agrees_int {α : Type} {n : Nat} {lo hi : Int} {get : α → Int} {set : α → Int → α} (h : ∀ x v, get (set x v) = v) :
    Agrees (.int n lo hi get) (intField lo hi get set) := by
  constructor
  · intro x v hf
    exact ⟨set x v.toInt, if_pos hf, h _ _⟩
  · intro x v hf; exact if_neg hf

theorem agrees_ident {α : Type} {n : Nat} {get : α → Ident} {set : α → Ident → α} (h : ∀ x v, get (set x v) = v) :
    Agrees (.ident n get) (identField get set) := by
  have key : ∀ (x : α) (v : Word32), (⟨(get x).ext, v.toNat⟩ : Ident).wf = true ↔
      v.toNat ≤ if (get x).ext then 0x1FFFFFFF else 0x7FF := by
    intro x v; unfold Ident.wf; cases (get x).ext <;> simp <;> omega
  constructor
  · intro x v hf
    exact ⟨_, if_pos ((key x v).mpr hf), by show (get (set x _)).value = _; rw [h]⟩
  · intro x v hf; exact if_neg (fun k => hf ((key x v).mp k))

theorem agrees_format {α : Type} {n : Nat} {get : α → Ident} {set : α → Ident → α} (h : ∀ x v, get (set x v) = v) :
    Agrees (.format n get) (formatField get set) := by
  constructor
  · intro x v hf
    rcases hf with ⟨rfl, hv⟩ | ⟨rfl, hv⟩
    · refine ⟨set x ⟨false, (get x).value⟩, ?_, by show (get (set x _)).ext = true ↔ _; rw [h]; simp⟩
      show (if (0 : Word32).toNat ≤ 1 then _ else none) = _
      rw [if_pos (by decide)]
      exact if_pos (by simp [Ident.wf]; omega)
    · refine ⟨set x ⟨true, (get x).value⟩, ?_, by show (get (set x _)).ext = true ↔ _; rw [h]; simp⟩
      show (if (1 : Word32).toNat ≤ 1 then _ else none) = _
      rw [if_pos (by decide)]
      exact if_pos (by simp [Ident.wf]; omega)
  · intro x v hf
    show (if v.toNat ≤ 1 then _ else none) = _
    split
    · rename_i hl
      refine if_neg (fun k => hf ?_)
      have : v.toNat = 0 ∨ v.toNat = 1 := by omega
      rcases this with h | h
      · left; refine ⟨BitVec.eq_of_toNat_eq h, ?_⟩; simp [h, Ident.wf] at k; omega
      · right; refine ⟨BitVec.eq_of_toNat_eq h, ?_⟩; simp [h, Ident.wf] at k; omega
    · rfl

/-- The rows of a table and its fields agree, number by number. -/
def RowsAgree {α : Type} (rows : List (FieldRow α)) (field : Nat → Option (FieldSpec α)) : Prop :=
  (∀ row ∈ rows, ∃ spec, field row.number = some spec ∧ Agrees row spec) ∧
    ∀ n, (∀ row ∈ rows, row.number ≠ n) → field n = none

/-- The fields of one entry whose owner the model reads and writes whole. -/
theorem rowsHold_of {α : Type} {rows : List (FieldRow α)} {field : Nat → Option (FieldSpec α)} {table index n : Nat}
    {owner : Bank → Option α} {b : Bank} {get : Bank → α} {set : Bank → α → Bank} (ra : RowsAgree rows field)
    (hb : ∀ f, bankField table index f = (field f).map fun spec => spec.within get set)
    (ht : tableSize table = some n) (hi : index < n) (ho : ∀ x, owner b = some x → get b = x)
    (hs : ∀ y, owner b ≠ none → owner (set b y) = some y) : RowsHold rows table index owner b := by
  have hw : ∀ f v, writeBank b table index f v = match bankField table index f with
      | none => .error .badField
      | some spec => match spec.put b v with | none => .error .badValue | some b' => .ok b' := by
    intro f v
    unfold writeBank
    simp only [ht]
    exact if_neg (by omega)
  constructor
  · intro row hr x v hx hf
    obtain ⟨spec, h1, ag⟩ := ra.1 row hr
    obtain ⟨y, hy, hh⟩ := ag.ok x v hf
    refine ⟨set b y, y, ?_, hs _ (by simp [hx]), hh⟩
    rw [hw, hb, h1]
    simp only [Option.map_some, FieldSpec.within, ho x hx, hy]
  · intro row hr x v hx hf
    obtain ⟨spec, h1, ag⟩ := ra.1 row hr
    rw [hw, hb, h1]
    simp only [Option.map_some, FieldSpec.within, ho x hx, ag.bad x v hf, Option.map_none]
  · intro f v hf
    rw [hw, hb, ra.2 f hf]; rfl

theorem monitorRows_agree : RowsAgree monitorRows monitorField := by
  constructor
  · intro row hr
    simp only [monitorRows, List.mem_cons, List.not_mem_nil, or_false] at hr
    rcases hr with rfl | rfl | rfl | rfl | rfl | rfl | rfl | rfl | rfl | rfl | rfl
    · exact ⟨_, rfl, agrees_bool fun _ _ => rfl⟩
    · exact ⟨_, rfl, agrees_format fun _ _ => rfl⟩
    · exact ⟨_, rfl, agrees_ident fun _ _ => rfl⟩
    · exact ⟨_, rfl, agrees_nat fun _ _ => rfl⟩
    · exact ⟨_, rfl, agrees_nat fun _ _ => rfl⟩
    · refine ⟨_, rfl, ⟨fun x v hf => ⟨_, if_pos (by simpa using hf), rfl⟩, fun x v hf => if_neg (by simpa using hf)⟩⟩
    · exact ⟨_, rfl, agrees_nat fun _ _ => rfl⟩
    · exact ⟨_, rfl, agrees_nat fun _ _ => rfl⟩
    · exact ⟨_, rfl, agrees_nat fun _ _ => rfl⟩
    · refine ⟨_, rfl, ⟨fun x v hf => ⟨_, if_pos (by simpa using hf), rfl⟩, fun x v hf => if_neg (by simpa using hf)⟩⟩
    · exact ⟨_, rfl, agrees_nat fun _ _ => rfl⟩
  · intro n h
    simp [monitorRows, FieldRow.nat, FieldRow.flag, FieldRow.format, FieldRow.ident] at h
    unfold monitorField
    split <;> first | rfl | (exfalso; omega)

theorem extractionRows_agree : RowsAgree extractionRows extractionField := by
  constructor
  · intro row hr
    simp only [extractionRows, List.mem_cons, List.not_mem_nil, or_false] at hr
    rcases hr with rfl | rfl | rfl | rfl | rfl | rfl | rfl | rfl | rfl | rfl | rfl | rfl | rfl
    · refine ⟨_, rfl, ?_⟩
      have hc : ∀ m : Nat, m ≤ 28 → ∃ k, SignalKind.ofCode m = some k ∧ k.code = m := by decide
      have hn : ∀ m : Nat, 28 < m → SignalKind.ofCode m = none := by
        intro m hm; simp [SignalKind.ofCode, SignalKind.all]; omega
      constructor
      · intro x v hf
        by_cases h : v.toNat = 255
        · exact ⟨_, if_pos h, h⟩
        · have hf : v.toNat ≤ 28 := by rcases hf with hf | hf; exact hf; exact absurd hf h
          obtain ⟨k, hk, hkc⟩ := hc _ hf
          refine ⟨{x with kind := some k}, ?_, hkc⟩
          show (if v.toNat = 255 then _ else _) = _
          rw [if_neg h, hk]; rfl
      · intro x v hf
        simp only [not_or, not_le] at hf
        show (if v.toNat = 255 then _ else _) = _
        rw [if_neg hf.2, hn _ hf.1]; rfl
    · exact ⟨_, rfl, agrees_nat fun _ _ => rfl⟩
    · exact ⟨_, rfl, agrees_nat fun _ _ => rfl⟩
    · exact ⟨_, rfl, agrees_nat fun _ _ => rfl⟩
    · exact ⟨_, rfl, agrees_bool fun _ _ => rfl⟩
    · exact ⟨_, rfl, agrees_nat fun _ _ => rfl⟩
    · exact ⟨_, rfl, agrees_nat fun _ _ => rfl⟩
    · exact ⟨_, rfl, agrees_int fun _ _ => rfl⟩
    · exact ⟨_, rfl, agrees_int fun _ _ => rfl⟩
    · exact ⟨_, rfl, agrees_int fun _ _ => rfl⟩
    · exact ⟨_, rfl, agrees_bool fun _ _ => rfl⟩
    · refine ⟨_, rfl, ⟨fun x v hf => ⟨_, if_pos ⟨Nat.zero_le _, hf⟩, ?_⟩, fun x v hf => if_neg (fun k => hf k.2)⟩⟩
      have : ∀ m : Nat, m ≤ 4 → [Axle.f1, .f2, .t1, .t2, .p][m]? = some (axleOfCode m) := by decide
      exact this _ hf
    · exact ⟨_, rfl, agrees_nat fun _ _ => rfl⟩
  · intro n h
    simp [extractionRows, FieldRow.nat, FieldRow.flag, FieldRow.int] at h
    unfold extractionField
    split <;> first | rfl | (exfalso; omega)

theorem forwardRows_agree : RowsAgree forwardRows forwardField := by
  constructor
  · intro row hr
    simp only [forwardRows, List.mem_cons, List.not_mem_nil, or_false] at hr
    rcases hr with rfl | rfl | rfl | rfl | rfl | rfl | rfl
    · exact ⟨_, rfl, agrees_bool fun _ _ => rfl⟩
    · exact ⟨_, rfl, agrees_format fun _ _ => rfl⟩
    · exact ⟨_, rfl, agrees_ident fun _ _ => rfl⟩
    · refine ⟨_, rfl, ⟨fun x v hf => ⟨_, if_pos ⟨Nat.zero_le _, hf⟩, ?_⟩, fun x v hf => if_neg (fun k => hf k.2)⟩⟩
      have : ∀ m : Nat, m ≤ 2 → [ArrivalPort.c, .b, .either][m]? = some (arrivalPortOf m) := by decide
      exact this _ hf
    · refine ⟨_, rfl, ⟨fun x v hf => ⟨_, if_pos ⟨Nat.zero_le _, hf⟩, ?_⟩, fun x v hf => if_neg (fun k => hf k.2)⟩⟩
      have : ∀ m : Nat, m ≤ 3 → [Action.pass, .passWatch, .watch, .block][m]? = some (actionOf m) := by decide
      exact this _ hf
    · exact ⟨_, rfl, agrees_nat fun _ _ => rfl⟩
    · exact ⟨_, rfl, agrees_nat fun _ _ => rfl⟩
  · intro n h
    simp [forwardRows, FieldRow.nat, FieldRow.flag, FieldRow.format, FieldRow.ident] at h
    unfold forwardField
    split <;> first | rfl | (exfalso; omega)

theorem paramRows_agree : RowsAgree paramRows paramField := by
  constructor
  · intro row hr
    simp only [paramRows, List.mem_cons, List.not_mem_nil, or_false] at hr
    rcases hr with rfl | rfl | rfl | rfl | rfl | rfl | rfl | rfl | rfl | rfl | rfl | rfl | rfl | rfl | rfl | rfl | rfl |
      rfl | rfl | rfl | rfl | rfl | rfl | rfl | rfl | rfl | rfl | rfl | rfl | rfl | rfl | rfl | rfl | rfl
    all_goals
      first
      | exact ⟨_, rfl, agrees_nat fun _ _ => rfl⟩
      | exact ⟨_, rfl, agrees_bool fun _ _ => rfl⟩
      | exact ⟨_, rfl, agrees_ident fun _ _ => rfl⟩
      | exact ⟨_, rfl, agrees_format fun _ _ => rfl⟩
  · intro n h
    simp [paramRows, FieldRow.nat, FieldRow.flag, FieldRow.format, FieldRow.ident] at h
    unfold paramField
    split <;> first | rfl | (exfalso; omega)

/-- The fields of one entry of a table that the bank holds as a list. -/
theorem rowsHold_list {α : Type} {rows : List (FieldRow α)} {field : Nat → Option (FieldSpec α)} {l : Bank → List α}
    {st : Bank → List α → Bank} {d : α} {table index i n : Nat} {b : Bank} (ra : RowsAgree rows field)
    (hb : ∀ f, bankField table index f = listField (field f) l st d i) (ht : tableSize table = some n)
    (hi : index < n) (hl : ∀ b x, l (st b x) = x) : RowsHold rows table index (fun x => (l x)[i]?) b := by
  refine rowsHold_of ra (get := fun b => ((l b)[i]?).getD d) (set := fun b x => st b ((l b).set i x)) (fun f => hb f) ht hi ?_ ?_
  · intro x hx; simp [hx]
  · intro y hy
    simp only [hl]
    have : i < (l b).length := by
      by_contra k; exact hy (List.getElem?_eq_none (by omega))
    simp [this]

end Sys2Proof.Machine
end

