-- ==== Sys2Proof/Laws/Samples.lean ====
section
/-! SUPPORT. What a publication delivers, what a good sample in VALID publishes, and what the extraction test finds. -/

namespace Sys2Proof.Machine

theorem SignalKind.of_all {P : SignalKind → Prop} (h : ∀ k ∈ SignalKind.all, P k) (k : SignalKind) : P k :=
  h k (List.mem_iff_getElem?.mpr ⟨k.code, SignalKind.ofCode_code k⟩)

/-- The consumers of a kind by their codes (R6). -/
theorem forCalculator_eq (k : SignalKind) : k.forCalculator = k.toCalculator :=
  SignalKind.of_all (P := fun k => k.forCalculator = k.toCalculator) (by decide) k
theorem forCreepMonitor_eq (k : SignalKind) : k.forCreepMonitor = k.isWheel :=
  SignalKind.of_all (P := fun k => k.forCreepMonitor = k.isWheel) (by decide) k
theorem forHoldController_eq (k : SignalKind) : k.forHoldController = k.toHoldController :=
  SignalKind.of_all (P := fun k => k.forHoldController = k.toHoldController) (by decide) k

theorem handRefused_eq (l : List (Fin 8 × Nat)) (s : State) : handRefused l s =
    { s with mail := { s.mail with toCreep := s.mail.toCreep ++ l.map fun x => .refused x.1 x.2 } } := by
  induction l generalizing s with
  | nil => simp [handRefused]
  | cons x xs ih =>
    show handRefused xs _ = _
    rw [ih]
    simp [tellCreep]

/-- What a publication delivers (R17, R43, R110). -/
theorem publish_published {s u : State} {items : List PubItem} {refused : List (Fin 8 × Nat)}
    (hcalc : u.mail.toCalc = s.mail.toCalc) (hhc : u.mail.toHc = s.mail.toHc)
    (hcreep : u.mail.toCreep = s.mail.toCreep ++ refused.map fun x => .refused x.1 x.2) :
    Published items refused s (publish s.sm items u) := by
  have e1 : (fun x : PubItem => x.kind.forCalculator) = fun x => x.kind.toCalculator := by
    funext x; exact forCalculator_eq _
  have e2 : (fun x : PubItem => x.kind.forCreepMonitor) = fun x => x.kind.isWheel := by
    funext x; exact forCreepMonitor_eq _
  have e3 : (fun x : PubItem => x.kind.forHoldController) = fun x => x.kind.toHoldController := by
    funext x; exact forHoldController_eq _
  refine ⟨?_, ?_, fun h1 h2 h3 => ?_, fun h => ?_⟩
  · simp [publish, e1, hcalc]
  · simp [publish, e2, hcreep]
  · rw [e3] at h1
    simp only [publish_sm] at h2 h3
    simp [publish, h1, h2, h3, changed, hhc]
  · rw [e3] at h ⊢
    refine ⟨⟨_, changed s.sm.missing u.sm.missing, changed s.sm.allOnce u.sm.allOnce, s.sm.wanting⟩, ?_, rfl,
      if_congr eq_comm rfl rfl, if_congr eq_comm rfl rfl⟩
    simp only [publish_sm] at h
    simp only [publish, State.setMail, hhc]
    congr 1
    rw [if_neg]
    simp only [Bool.and_eq_true, List.isEmpty_iff, Option.isNone_iff_eq_none, not_and, changed]
    rintro ⟨a, b⟩ c
    rcases h with h | h | h
    · exact h a
    · simp [Ne.symm h] at b
    · simp [Ne.symm h] at c

/-- What a good sample in VALID accepts and publishes (R17, R18). -/
theorem acceptGood_spec (values : List (SignalKind × Bool × Int)) {sm : SignalMonitor} (h : sm.svt.length = 29) :
    let r := acceptGood values sm
    r.2.svt.length = 29 ∧ r.2.monitors = sm.monitors ∧
      (∀ k, k ∉ values.map (fun x => x.1) → r.2.entry k = sm.entry k) ∧
      (∀ y ∈ r.1, ∃ x ∈ values, y = ⟨x.1, .valid, some x.2.2, false⟩) ∧
      ((values.map fun x => x.1).Nodup → ∀ x ∈ values,
        r.2.entry x.1 = (acceptValue x.1 x.2.1 x.2.2 (sm.entry x.1)).1 ∧
        ((⟨x.1, .valid, some x.2.2, false⟩ : PubItem) ∈ r.1 ↔
          (acceptValue x.1 x.2.1 x.2.2 (sm.entry x.1)).2 = true)) := by
  induction values generalizing sm with
  | nil => simp [acceptGood, h]
  | cons x xs ih =>
    obtain ⟨k, deb, d⟩ := x
    obtain ⟨i1, i2, i3, i4, i5⟩ := ih (sm := setEntry k (acceptValue k deb d (sm.entry k)).1 sm) (by simpa using h)
    refine ⟨i1, i2, fun j hj => ?_, fun y hy => ?_, fun hn y hy => ?_⟩
    · rw [List.map_cons, List.mem_cons, not_or] at hj
      exact (i3 j hj.2).trans (entry_setEntry_ne _ hj.1)
    · simp only [acceptGood] at hy
      split at hy
      · rcases List.mem_cons.mp hy with rfl | hy
        · exact ⟨_, List.mem_cons_self .., rfl⟩
        · obtain ⟨z, hz, e⟩ := i4 y hy; exact ⟨z, List.mem_cons_of_mem _ hz, e⟩
      · obtain ⟨z, hz, e⟩ := i4 y hy; exact ⟨z, List.mem_cons_of_mem _ hz, e⟩
    · rw [List.map_cons, List.nodup_cons] at hn
      rcases List.mem_cons.mp hy with rfl | hy
      · refine ⟨(i3 k hn.1).trans (entry_setEntry h ..), ?_⟩
        have hno : (⟨k, .valid, some d, false⟩ : PubItem) ∉
            (acceptGood xs (setEntry k (acceptValue k deb d (sm.entry k)).1 sm)).1 := by
          intro hm
          obtain ⟨z, hz, e⟩ := i4 _ hm
          exact hn.1 (List.mem_map.mpr ⟨z, hz, (congrArg PubItem.kind e).symm⟩)
        simp only [acceptGood]
        split <;> simp_all
      · have hne : y.1 ≠ k := fun e => hn.1 (e ▸ List.mem_map.mpr ⟨y, hy, rfl⟩)
        obtain ⟨j1, j2⟩ := i5 hn.2 y hy
        rw [entry_setEntry_ne _ hne] at j1 j2
        refine ⟨j1, ?_⟩
        simp only [acceptGood]
        split
        · rw [List.mem_cons, ← j2]
          refine or_iff_right fun e => hne (congrArg PubItem.kind e)
        · exact j2

/-- The conditions of R7 depend on the Signal Value Table alone. -/
theorem conditions_congr {x y : SignalMonitor} (h : x.svt = y.svt) :
    x.missing = y.missing ∧ x.allOnce = y.allOnce := by
  have hv : x.validity = y.validity :=
    funext fun k => by rw [SignalMonitor.validity, SignalMonitor.validity, entry_congr h]
  unfold SignalMonitor.missing SignalMonitor.allOnce
  rw [hv]
  exact ⟨rfl, rfl⟩

/-- A publication's delivery, the refused counts of the sample handed on before it (R110). -/
theorem Published.handed {items : List PubItem} {refused : List (Fin 8 × Nat)} {s u t : State}
    (h : Published items [] u t) (hc : u.mail.toCalc = s.mail.toCalc) (hh : u.mail.toHc = s.mail.toHc)
    (hk : u.mail.toCreep = s.mail.toCreep ++ refused.map fun x => .refused x.1 x.2) (hs : u.sm.svt = s.sm.svt) :
    Published items refused s t := by
  obtain ⟨hm, ha⟩ := conditions_congr hs
  obtain ⟨p1, p2, p3, p4⟩ := h
  rw [hm, ha] at p3 p4
  rw [hh] at p3 p4
  exact ⟨by rw [p1, hc], by rw [p2, hk]; simp, p3, p4⟩

/-- A sample that publishes nothing and leaves every kind. -/
theorem Published.nothing {s t : State} (hc : t.mail.toCalc = s.mail.toCalc) (hh : t.mail.toHc = s.mail.toHc)
    (hk : t.mail.toCreep = s.mail.toCreep) (hs : t.sm.svt = s.sm.svt) : Published [] [] s t := by
  obtain ⟨hm, ha⟩ := conditions_congr hs
  exact ⟨by simp [hc], by simp [hk], fun _ _ _ => hh, fun h => by simp [hm, ha] at h⟩

/-- R15: the report is MAJOR exactly where the monitor carries a mandatory kind. -/
theorem lossReport_major (kinds : List SignalKind) :
    (lossReport kinds).1 = .major ↔ ∃ k ∈ kinds, k ∈ SignalKind.mandatory := by
  simp only [lossReport]
  split
  · rename_i k hk
    simp only [true_iff]
    exact ⟨k, by simpa using List.find?_some hk, List.mem_of_find?_eq_some hk⟩
  · rename_i hk
    have : ¬ ∃ k ∈ kinds, k ∈ SignalKind.mandatory := by
      rintro ⟨k, h1, h2⟩
      simpa [h1] using List.find?_eq_none.mp hk k h2
    split <;> simp only [reduceCtorEq, false_iff] <;> exact this

/-- The entry to LOST publishes every kind carried, with its held value (R15). -/
theorem enterLost_published (i : Fin 24) (b : Bank) {s : State} (hs : s.sm.svt.length = 29) :
    Published ((b.kindsOf i).map fun k => ⟨k, .lost, (s.sm.entry k).value, false⟩) [] s (enterLost i b s) := by
  obtain ⟨-, -, l3, -⟩ := loseAll_entries (b.kindsOf i)
    (sm := (setMonitor i { s.sm.state i with sync := .lost, baseline := none } s).sm) hs
  have hi : ((b.kindsOf i).map fun k => (⟨k, .lost, (s.sm.entry k).value, false⟩ : PubItem)) =
      (b.kindsOf i).map fun k => ⟨k, .lost, ((loseAll (b.kindsOf i)
        (setMonitor i { s.sm.state i with sync := .lost, baseline := none } s).sm).entry k).value, false⟩ :=
    List.map_congr_left fun k hk => by rw [l3 k hk]; rfl
  rw [hi]
  exact publish_published rfl rfl (by simp [report, count, raise])

theorem enterLost_frame (i : Fin 24) (b : Bank) (s : State) : enterLost i b s = { s with
    sm := (enterLost i b s).sm
    events := (enterLost i b s).events
    mail := { s.mail with
      counts := (enterLost i b s).mail.counts, faults := (enterLost i b s).mail.faults
      toCalc := (enterLost i b s).mail.toCalc, toHc := (enterLost i b s).mail.toHc
      toCreep := (enterLost i b s).mail.toCreep } } := by
  rfl

/-- Everything an error sample does (R13 to R16, R20). -/
theorem takeError_spec (i : Fin 24) (b : Bank) {s : State} (hm : s.sm.monitors.length = 24)
    (hs : s.sm.svt.length = 29) :
    let e := b.monitor i
    let m := s.sm.state i
    let window := m.window.tail ++ [true]
    let t := takeError i b s
    (∀ j : Nat, j ≠ i.val → t.sm.state j = s.sm.state j) ∧
    (m.sync ≠ .valid ∨ window.count true < e.m →
      Published [] [] s t ∧ t.sm.svt = s.sm.svt ∧ t.events = s.events ∧ t.mail.counts = s.mail.counts ++ [.errors i] ∧
      t.mail.faults = s.mail.faults ∧ (m.sync = .acquiring → t.sm.state i = { m with good := 0 }) ∧
      (m.sync = .lost → t.sm.state i = m) ∧ (m.sync = .valid → t.sm.state i = { m with window := window })) ∧
    (m.sync = .valid → e.m ≤ window.count true →
      Published ((b.kindsOf i).map fun k => ⟨k, .lost, (s.sm.entry k).value, false⟩) [] s t ∧
      t.sm.state i = { m with sync := .lost, window := window, baseline := none } ∧
      (∀ k ∈ b.kindsOf i, t.sm.entry k = ⟨.lost, (s.sm.entry k).value, none⟩) ∧
      (∀ k, k ∉ b.kindsOf i → t.sm.entry k = s.sm.entry k) ∧
      t.events.set = s.events.set ||| 1#16 <<< 7 ∧ t.mail.counts = s.mail.counts ++ [.errors i, .losses i] ∧
      t.mail.faults = s.mail.faults ++
        [⟨(lossReport (b.kindsOf i)).1, .signalLost, (lossReport (b.kindsOf i)).2, none⟩]) ∧
    t = { s with
      sm := t.sm
      events := t.events
      mail := { s.mail with
        counts := t.mail.counts, faults := t.mail.faults, toCalc := t.mail.toCalc, toHc := t.mail.toHc
        toCreep := t.mail.toCreep } } := by
  intro e m window t
  have hc : t = takeError i b s := rfl
  have hm' : (count (.errors i) s).sm.monitors.length = 24 := hm
  cases hsync : m.sync with
  | acquiring =>
    have ht : t = setMonitor i { m with good := 0 } (count (.errors i) s) := by
      rw [hc]; simp only [takeError]; rw [show (s.sm.state i).sync = .acquiring from hsync]
    rw [ht]
    refine ⟨fun j hj => state_setMonitor_ne _ _ hj, fun _ => ⟨.nothing rfl rfl rfl rfl, rfl, rfl, rfl, rfl,
      fun _ => by rw [state_setMonitor i _ hm', hsync], nofun, nofun⟩, nofun, rfl⟩
  | lost =>
    have ht : t = count (.errors i) s := by
      rw [hc]; simp only [takeError]; rw [show (s.sm.state i).sync = .lost from hsync]
    rw [ht]
    exact ⟨fun j hj => rfl, fun _ => ⟨.nothing rfl rfl rfl rfl, rfl, rfl, rfl, rfl, nofun, fun _ => rfl, nofun⟩,
      nofun, rfl⟩
  | valid =>
    have ht : t = if e.m ≤ window.count true then
        enterLost i b (setMonitor i { m with window := window } (count (.errors i) s))
        else setMonitor i { m with window := window } (count (.errors i) s) := by
      rw [hc]; simp only [takeError]; rw [show (s.sm.state i).sync = .valid from hsync]
      simp only [countWhere_id]; rfl
    by_cases hw : e.m ≤ window.count true
    · rw [if_pos hw] at ht
      obtain ⟨e1, e2, e3, e4, e5, e6, e7⟩ := enterLost_spec i b
        (s := setMonitor i { m with window := window } (count (.errors i) s)) (by simp [hm]) (by simp [hs])
      have hp := enterLost_published i b (s := setMonitor i { m with window := window } (count (.errors i) s))
        (by simp [hs])
      rw [ht]
      refine ⟨fun j hj => (e2 j hj).trans (state_setMonitor_ne _ _ hj), ?_, fun _ _ => ⟨?_, ?_, e3, e4, e5, ?_, e7⟩, ?_⟩
      · rintro (h | h)
        · exact absurd rfl h
        · omega
      · exact hp.handed rfl rfl (by simp) rfl
      · rw [e1, state_setMonitor i _ hm']
      · rw [e6]; simp
      · exact enterLost_frame _ _ _
    · rw [if_neg hw] at ht
      rw [ht]
      exact ⟨fun j hj => state_setMonitor_ne _ _ hj, fun _ => ⟨.nothing rfl rfl rfl rfl, rfl, rfl, rfl, rfl,
        nofun, nofun, fun _ => by rw [state_setMonitor i _ hm', hsync]⟩, fun _ h => absurd h hw, rfl⟩

/-- The entry to VALID publishes every value carried (R14). -/
theorem enterValid_published (i : Fin 24) (e : MonitorEntry) (good : Nat) (values : List (SignalKind × Bool × Int))
    (s : State) :
    Published (values.map fun x => ⟨x.1, .valid, some x.2.2, true⟩) [] s (enterValid i e good values s) := by
  refine publish_published ?_ ?_ ?_ <;> split <;> simp

/-- What is published and accepted depends on the Signal Value Table alone. -/
theorem acceptGood_congr (values : List (SignalKind × Bool × Int)) {x y : SignalMonitor} (h : x.svt = y.svt) :
    (acceptGood values x).1 = (acceptGood values y).1 ∧ (acceptGood values x).2.svt = (acceptGood values y).2.svt := by
  induction values generalizing x y with
  | nil => exact ⟨rfl, h⟩
  | cons v vs ih =>
    obtain ⟨k, deb, d⟩ := v
    simp only [acceptGood]
    rw [entry_congr h]
    obtain ⟨i1, i2⟩ := ih (x := setEntry k (acceptValue k deb d (y.entry k)).1 x)
      (y := setEntry k (acceptValue k deb d (y.entry k)).1 y) (by simp [setEntry, h])
    rw [i1]
    exact ⟨rfl, i2⟩

/-- Everything a good sample does (R13, R14, R16 to R18, R20). -/
theorem takeGood_spec (i : Fin 24) (b : Bank) (values : List (SignalKind × Bool × Int)) {s : State}
    (hm : s.sm.monitors.length = 24) (hs : s.sm.svt.length = 29) :
    let e := b.monitor i
    let m := s.sm.state i
    let t := takeGood i b values s
    (∀ j : Nat, j ≠ i.val → t.sm.state j = s.sm.state j) ∧ t.mail.counts = s.mail.counts ++ [.good i] ∧
    (t.sm.state i).timer = m.timer ∧ (t.sm.state i).baseline = m.baseline ∧
    (m.sync = .acquiring → m.good + 1 < e.k →
      t.sm.state i = { m with good := m.good + 1 } ∧ t.sm.svt = s.sm.svt ∧ t.events = s.events ∧
      t.mail.toCalc = s.mail.toCalc ∧ t.mail.toHc = s.mail.toHc ∧ t.mail.toCreep = s.mail.toCreep) ∧
    ((m.sync = .acquiring ∧ e.k ≤ m.good + 1) ∨ (m.sync = .lost ∧ e.k ≤ 1) →
      (t.sm.state i).sync = .valid ∧ (t.sm.state i).window = List.replicate e.n false ∧
      ((values.map fun x => x.1).Nodup → ∀ x ∈ values, t.sm.entry x.1 = ⟨.valid, some x.2.2, none⟩) ∧
      (∀ k, k ∉ values.map (fun x => x.1) → t.sm.entry k = s.sm.entry k) ∧
      Published (values.map fun x => ⟨x.1, .valid, some x.2.2, true⟩) [] s t ∧
      t.events.set = if m.beenValid then s.events.set ||| 1#16 <<< 8 else s.events.set) ∧
    (m.sync = .lost → 1 < e.k →
      t.sm.state i = { m with sync := .acquiring, good := 1 } ∧ t.sm.svt = s.sm.svt ∧ t.events = s.events ∧
      t.mail.toCalc = s.mail.toCalc ∧ t.mail.toHc = s.mail.toHc ∧ t.mail.toCreep = s.mail.toCreep) ∧
    (m.sync = .valid →
      t.sm.state i = { m with window := m.window.tail ++ [false] } ∧ t.events = s.events ∧
      Published (acceptGood values s.sm).1 [] s t ∧
      ∀ k, t.sm.entry k = (acceptGood values s.sm).2.entry k) ∧
    t = { s with
      sm := t.sm
      events := t.events
      mail := { s.mail with
        counts := t.mail.counts, toCalc := t.mail.toCalc, toHc := t.mail.toHc, toCreep := t.mail.toCreep } } := by
  intro e m t
  have hc : t = takeGood i b values s := rfl
  have hm' : (count (.good i) s).sm.monitors.length = 24 := hm
  have enters : ∀ good, t = enterValid i e good values (count (.good i) s) →
      (∀ j : Nat, j ≠ i.val → t.sm.state j = s.sm.state j) ∧ t.mail.counts = s.mail.counts ++ [.good i] ∧
      (t.sm.state i).timer = m.timer ∧ (t.sm.state i).baseline = m.baseline ∧
      ((t.sm.state i).sync = .valid ∧ (t.sm.state i).window = List.replicate e.n false ∧
        ((values.map fun x => x.1).Nodup → ∀ x ∈ values, t.sm.entry x.1 = ⟨.valid, some x.2.2, none⟩) ∧
        (∀ k, k ∉ values.map (fun x => x.1) → t.sm.entry k = s.sm.entry k) ∧
        Published (values.map fun x => ⟨x.1, .valid, some x.2.2, true⟩) [] s t ∧
        t.events.set = if m.beenValid then s.events.set ||| 1#16 <<< 8 else s.events.set) ∧
      t = { s with
        sm := t.sm
        events := t.events
        mail := { s.mail with
          counts := t.mail.counts, toCalc := t.mail.toCalc, toHc := t.mail.toHc, toCreep := t.mail.toCreep } } := by
    intro good ht
    obtain ⟨v1, v2, v3, v4, v5, v6, v7⟩ := enterValid_spec i e good values hm' hs
    have hp := enterValid_published i e good values (count (.good i) s)
    rw [← ht] at v1 v2 v3 v4 v5 v6 v7 hp
    refine ⟨v2, by rw [v6]; simp, by rw [v1]; rfl, by rw [v1]; rfl, ⟨by rw [v1], by rw [v1], v3, v4,
      hp.handed rfl rfl (by simp) rfl, v5⟩, ?_⟩
    rw [v6, v7]
    rfl
  cases hsync : m.sync with
  | acquiring =>
    by_cases hk : e.k ≤ m.good + 1
    · obtain ⟨h1, h2, h3, h4, h5, h6⟩ := enters (m.good + 1) (by
        rw [hc]; simp only [takeGood]; rw [show (s.sm.state i).sync = .acquiring from hsync]; exact if_pos hk)
      exact ⟨h1, h2, h3, h4, fun _ h => by omega, fun _ => h5, nofun, nofun, h6⟩
    · have ht : t = setMonitor i { m with good := m.good + 1 } (count (.good i) s) := by
        rw [hc]; simp only [takeGood]; rw [show (s.sm.state i).sync = .acquiring from hsync]; exact if_neg hk
      have h1 : t.sm.state i = { m with good := m.good + 1 } := by rw [ht]; exact state_setMonitor i _ hm'
      refine ⟨fun j hj => by rw [ht]; exact state_setMonitor_ne _ _ hj, by rw [ht]; simp, by rw [h1], by rw [h1],
        fun _ _ => ⟨by rw [h1, hsync], ?_⟩, ?_, nofun, nofun, ?_⟩
      · rw [ht]; exact ⟨rfl, rfl, rfl, rfl, rfl⟩
      · rintro (⟨_, h⟩ | ⟨h, _⟩)
        · exact absurd h hk
        · cases h
      · rw [ht]; rfl
  | lost =>
    by_cases hk : e.k ≤ 1
    · obtain ⟨h1, h2, h3, h4, h5, h6⟩ := enters 1 (by
        rw [hc]; simp only [takeGood]; rw [show (s.sm.state i).sync = .lost from hsync]; exact if_pos hk)
      exact ⟨h1, h2, h3, h4, nofun, fun _ => h5, fun _ h => by omega, nofun, h6⟩
    · have ht : t = setMonitor i { m with sync := .acquiring, good := 1 } (count (.good i) s) := by
        rw [hc]; simp only [takeGood]; rw [show (s.sm.state i).sync = .lost from hsync]; exact if_neg hk
      have h1 : t.sm.state i = { m with sync := .acquiring, good := 1 } := by rw [ht]; exact state_setMonitor i _ hm'
      refine ⟨fun j hj => by rw [ht]; exact state_setMonitor_ne _ _ hj, by rw [ht]; simp, by rw [h1], by rw [h1],
        nofun, ?_, fun _ _ => ⟨h1, ?_⟩, nofun, ?_⟩
      · rintro (⟨h, _⟩ | ⟨_, h⟩)
        · cases h
        · exact absurd h hk
      · rw [ht]; exact ⟨rfl, rfl, rfl, rfl, rfl⟩
      · rw [ht]; rfl
  | valid =>
    let u := setMonitor i { m with window := m.window.tail ++ [false] } (count (.good i) s)
    have ht : t = publish s.sm (acceptGood values u.sm).1 (u.setSm (acceptGood values u.sm).2) := by
      have hx : (s.sm.state i).sync = .valid := hsync
      rw [hc]
      simp only [takeGood]
      split
      · rename_i h; rw [hx] at h; cases h
      · rfl
      · rename_i h; rw [hx] at h; cases h
    obtain ⟨c1, c2⟩ := acceptGood_congr values (x := u.sm) (y := s.sm) rfl
    obtain ⟨-, a2, -⟩ := acceptGood_spec values (sm := u.sm) hs
    have h1 : t.sm.state i = { m with window := m.window.tail ++ [false] } := by
      rw [ht]; exact (state_congr a2 _).trans (state_setMonitor i _ hm')
    refine ⟨fun j hj => ?_, by rw [ht]; simp [u], by rw [h1], by rw [h1], nofun, ?_, nofun,
      fun _ => ⟨by rw [h1, hsync], by rw [ht]; rfl, ?_, fun k => ?_⟩, by rw [ht]; rfl⟩
    · rw [ht]; exact (state_congr a2 _).trans (state_setMonitor_ne _ _ hj)
    · rintro (⟨h, _⟩ | ⟨h, _⟩) <;> cases h
    · rw [ht, c1]; exact publish_published rfl rfl (by simp [u])
    · rw [ht]; exact entry_congr c2 k

/-- A frame that passes every test has no refused counts. -/
theorem refused_nil {a : ActiveBank} {i : Nat} {m : MonitorState} {cm : CreepMonitor} {data : List Byte}
    (h : (testFrame a i m cm data).error = none) : (testFrame a i m cm data).refused = [] := by
  unfold testFrame at h ⊢
  simp only at h ⊢
  split at h
  · cases h
  split at h
  · cases h
  rename_i h1 h2
  rw [if_neg h1, if_neg h2]
  have key : ∀ exts valid b, (extractionTest exts valid cm b data).error = none →
      (extractionTest exts valid cm b data).refused = [] := by
    intro exts valid b h
    have gen : ∀ c r : Bool, (if (c || !r) then some SampleError.range else none) = none → r = true := by decide
    exact List.isEmpty_iff.mp (gen _ _ h)
  by_cases h3 : (a.bank.monitor i).counterMod = 0
  · rw [if_pos h3] at h ⊢; exact key _ _ _ h
  · rw [if_neg h3] at h ⊢
    generalize counterTest _ _ _ = ct at h ⊢
    rcases ct with ⟨_ | er, bl⟩
    · exact key _ _ _ h
    · cases h

/-! ## What the extraction test finds (R5, R8, R11, R110) -/

theorem decodeRaw_eq (x : Extraction) (data : List Byte) : decodeRaw x data = decodedValue x data := by
  unfold decodeRaw decodedValue rawField toSigned
  by_cases h : x.signed = true <;> simp [h]

theorem decodeExtraction_some {k : SignalKind} {x : Extraction} {data : List Byte} {v : Int} :
    decodeExtraction k x data = some v ↔ Accepts k x data ∧ v = acceptedValue k x data := by
  have hc : codeOk k (decodedValue x data) = true ↔ ∀ codes, k.codes = some codes → decodedValue x data ∈ codes := by
    unfold codeOk
    split <;> rename_i h <;> simp [h]
  unfold decodeExtraction Accepts acceptedValue
  simp only [decodeRaw_eq, hc]
  split
  · rename_i h; rw [Option.some.injEq]; exact ⟨fun e => ⟨h, e.symm⟩, fun e => e.2.symm⟩
  · rename_i h; exact ⟨nofun, fun e => absurd e.1 h⟩

theorem implausible_iff {cm : CreepMonitor} {n : Fin 8} {x : Extraction} {data : List Byte} :
    implausible cm n (decodeRaw x data) = true ↔ Implausible true cm (.wheelPulse n) x data := by
  have hb : (cm.channels[n.val]?).bind ChannelRec.baseline = (cm.channel n).baseline := by
    unfold CreepMonitor.channel
    cases cm.channels[n.val]? <;> rfl
  unfold implausible Implausible
  rw [hb, decodeRaw_eq]
  simp only [true_and, SignalKind.wheelPulse.injEq]
  split
  · rename_i base h
    constructor
    · exact fun h' => ⟨n, base, rfl, h, of_decide_eq_true h'⟩
    · rintro ⟨_, b, rfl, h1, h2⟩
      rw [h] at h1; cases h1; exact decide_eq_true h2
  · rename_i h
    simp only [Bool.false_eq_true, false_iff, not_exists, not_and]
    rintro _ b rfl h'
    rw [h] at h'; cases h'

theorem mem_refusedCounts {cm : CreepMonitor} {exts : List Extraction} {data : List Byte} {n : Fin 8} {count : Nat} :
    (n, count) ∈ refusedCounts cm exts data ↔ ∃ x ∈ exts, x.kind = some (.wheelPulse n) ∧
      Implausible true cm (.wheelPulse n) x data ∧ count = (decodedValue x data % 65536).toNat := by
  unfold refusedCounts
  simp only [List.mem_filterMap]
  refine exists_congr fun x => and_congr_right fun _ => ?_
  split
  · rename_i m hk
    simp only [decodeRaw_eq, hk, Option.some.injEq, SignalKind.wheelPulse.injEq]
    split
    · rename_i h
      rw [← decodeRaw_eq, implausible_iff] at h
      simp only [Option.some.injEq, Prod.mk.injEq]
      constructor
      · rintro ⟨rfl, rfl⟩; exact ⟨rfl, h, rfl⟩
      · rintro ⟨rfl, _, rfl⟩; exact ⟨rfl, rfl⟩
    · rename_i h
      rw [← decodeRaw_eq, implausible_iff] at h
      simp only [reduceCtorEq, false_iff, not_and]
      rintro rfl h'; exact absurd h' h
  · rename_i h
    simp only [reduceCtorEq, false_iff, not_and]
    intro hk; exact absurd hk (h n)

/-- The extraction test finds what R5, R8 and R110 say. -/
theorem extractionTest_tested (exts : List Extraction) (valid : Bool) (cm : CreepMonitor) (baseline : Option Nat)
    (data : List Byte) : ExtractionTested exts valid cm data (extractionTest exts valid cm baseline data) := by
  have hr : ∀ n count, (n, count) ∈ (extractionTest exts valid cm baseline data).refused ↔
      ∃ x ∈ exts, x.kind = some (.wheelPulse n) ∧ Implausible valid cm (.wheelPulse n) x data ∧
        count = (decodedValue x data % 65536).toNat := by
    intro n count
    cases valid
    · simp [extractionTest, Implausible]
    · simp only [extractionTest, if_true]; exact mem_refusedCounts
  have hd : ((decodeAll exts data).any fun d => d.2.2.isNone) = false ↔
      ∀ x ∈ exts, ∀ k, x.kind = some k → Accepts k x data := by
    simp only [List.any_eq_false, decodeAll, List.mem_filterMap, Option.map_eq_some_iff]
    constructor
    · intro h x hx k hk
      have := h (k, x.debounce, decodeExtraction k x data) ⟨x, hx, k, hk, rfl⟩
      simp only [Option.isNone_iff_eq_none] at this
      obtain ⟨v, hv⟩ := Option.ne_none_iff_exists'.mp this
      exact (decodeExtraction_some.mp hv).1
    · rintro h _ ⟨x, hx, k, hk, rfl⟩
      simp [decodeExtraction_some.mpr ⟨h x hx k hk, rfl⟩]
  have hn : (extractionTest exts valid cm baseline data).refused = [] ↔
      ∀ x ∈ exts, ∀ k, x.kind = some k → ¬ Implausible valid cm k x data := by
    rw [List.eq_nil_iff_forall_not_mem]
    constructor
    · intro h x hx k hk himp
      obtain ⟨hv, n, base, rfl, hrest⟩ := himp
      exact h (n, _) ((hr n _).mpr ⟨x, hx, hk, ⟨hv, n, base, rfl, hrest⟩, rfl⟩)
    · rintro h ⟨n, count⟩ hm
      obtain ⟨x, hx, hk, himp, _⟩ := (hr n count).mp hm
      exact h x hx _ hk himp
  have he : (extractionTest exts valid cm baseline data).error = none ↔
      ((decodeAll exts data).any fun d => d.2.2.isNone) = false ∧
        (extractionTest exts valid cm baseline data).refused = [] := by
    simp only [extractionTest]
    generalize (decodeAll exts data).any _ = p
    generalize (if valid = true then _ else _ : List (Fin 8 × Nat)) = q
    cases p <;> cases q <;> simp
  refine ⟨?_, ?_, fun h => ?_, hr⟩
  · rw [he, hd, hn]
    exact ⟨fun h x hx k hk => ⟨h.1 x hx k hk, h.2 x hx k hk⟩,
      fun h => ⟨fun x hx k hk => (h x hx k hk).1, fun x hx k hk => (h x hx k hk).2⟩⟩
  · simp only [extractionTest]; split <;> simp
  · rw [he, hd] at h
    simp only [extractionTest, decodeAll, List.filterMap_filterMap]
    refine List.filterMap_congr fun x hx => ?_
    cases hk : x.kind with
    | none => rfl
    | some k => simp [decodeExtraction_some.mpr ⟨h.1 x hx k hk, rfl⟩]

end Sys2Proof.Machine
end

