-- ==== Sys2Proof/Laws/Service.lean ====
section
/-! SUPPORT. What the Service Responder's shared operations do with the oldest request of a port. -/

namespace Sys2Proof.Machine

@[simp] theorem taken_hc (rest : List Request) (s : State) : (taken rest s).hc = s.hc := rfl
@[simp] theorem taken_fc (rest : List Request) (s : State) : (taken rest s).fc = s.fc := rfl
@[simp] theorem taken_sm (rest : List Request) (s : State) : (taken rest s).sm = s.sm := rfl
@[simp] theorem taken_active (rest : List Request) (s : State) : (taken rest s).active = s.active := rfl
@[simp] theorem taken_mail (rest : List Request) (s : State) :
    (taken rest s).mail = { s.mail with requests := rest } := rfl
@[simp] theorem taken_serviceMode (rest : List Request) (s : State) :
    (taken rest s).sr.serviceMode = s.sr.serviceMode := by
  by_cases h : s.sr.serviceMode = true <;> simp [taken, h]
@[simp] theorem taken_node (rest : List Request) (s : State) : (taken rest s).sr.node = s.sr.node := by
  by_cases h : s.sr.serviceMode = true <;> simp [taken, h]
@[simp] theorem taken_staging (rest : List Request) (s : State) : (taken rest s).sr.staging = s.sr.staging := by
  by_cases h : s.sr.serviceMode = true <;> simp [taken, h]

/-- The oldest request of a port, taken where it is wanted. -/
theorem takeRequest_asks {p : Port} {f : Frame} {rest : List Request} {s : State} (h : Asks p f rest s)
    (want : Frame → Bool) :
    takeRequest p want s = if want f then some (f, s.setMail { s.mail with requests := rest }) else none := by
  obtain ⟨before, after, hm, hb, rfl⟩ := h
  have : takeFirst (fun r => r.port == p) s.mail.requests = some (⟨p, f⟩, before ++ after) :=
    takeFirst_some.mpr ⟨before, after, hm, by simp, by simpa using hb, rfl⟩
  simp [takeRequest, this]

theorem isBusy_eq_false_iff {s : State} : isBusy s = false ↔ Ready s := by
  cases h : s.sr.storeWrite <;> simp [isBusy, Ready, h]

/-- A request that is long enough is carried out on the state with the request taken. -/
theorem serve_asks {p : Port} {f : Frame} {rest : List Request} {s : State} {code n : Nat} {c : Byte} {tail : List Byte}
    (act : Frame → State → State) (h : Asks p f rest s) (hr : Ready s) (hm : f.remote = false) (hd : f.data = c :: tail)
    (hc : c.toNat = code) (hn : n ≤ tail.length) : serve code n p act s = act f (taken rest s) := by
  have hw : isCommand code f = true := by simp [isCommand, hasCommand, argByte, hm, hd, hc]
  have hb : isBusy (s.setMail { s.mail with requests := rest }) = false := isBusy_eq_false_iff.mpr hr
  have hl : ¬ f.data.length ≤ n := by rw [hd]; simp; omega
  simp only [serve, takeRequest_asks h, hw, if_true, hb, hl]
  by_cases hs : s.sr.serviceMode = true <;>
    simp [restartIdle, taken, setResponder, State.setSr, State.setMail, hs, Config.serviceIdle]

/-- A response as a tool sees it. -/
theorem respond_eq (p : Port) (code : Nat) (a : Answer) (data : List Byte) (s : State) (h : padTo 6 a.data = data) :
    respond p code a false s = answered p code a.status data s := by
  simp [respond, answered, postOffer, State.setMail, responseFrame, responseIdent, h]

/-- A command answered at once: its effect on the state with the request taken, and its answer. -/
theorem serveNow_asks {p : Port} {f : Frame} {rest : List Request} {s : State} {code n : Nat} {c : Byte}
    {tail : List Byte} (act : Frame → State → Answer × State) (h : Asks p f rest s) (hr : Ready s)
    (hm : f.remote = false) (hd : f.data = c :: tail) (hc : c.toNat = code) (hn : n ≤ tail.length) :
    serveNow code n p act s = answered p code (act f (taken rest s)).1.status
      (padTo 6 (act f (taken rest s)).1.data) (act f (taken rest s)).2 := by
  rw [serveNow, serve_asks _ h hr hm hd hc hn]
  exact respond_eq p code _ _ _ rfl

end Sys2Proof.Machine
end

