-- ==== Sys2Proof/Laws/Start.lean ====
section
/-! SUPPORT. What the blocks hold at their start under a bank (R26, R36, R39, R42, R43, R123), the minimum data length (R3),
the bank of defaults (R179), and the band of a value in the Release Table (R93). -/

namespace Sys2Proof.Machine

/-- A fresh image entry as the blocks' starts write it. -/
theorem freshSig_eq (b : Bank) (k : SignalKind) : freshSig b k = Sig.start (b.mapped k) := by
  simp only [freshSig, Sig.start]; split <;> rfl

/-- The calculator's start computation (R39). -/
theorem calcStart_started (b : Bank) (t : State) (h1 : t.hpc = some (Calculator.start b)) (h2 : t.hc = .start b (Calculator.start b).result) :
    CalcStarted b t := by
  have nv : ∀ k, (Sig.start (b.mapped k)).valid? = none := by
    intro k; simp only [Sig.start]; split <;> rfl
  have nv' : ∀ k v, (Sig.start (b.mapped k)).is v = false := by
    intro k v; simp only [Sig.start]; split <;> rfl
  have load : ∀ x, loadUsed b (.start b) x = (b.axles.get x).rated := by
    intro x; cases x <;> simp [loadUsed, CalcImage.start, PerAxle.get, nv]
  have fin : ∀ x, finalLoad b (.start b) x = (b.axles.get x).rated := by
    intro x; unfold finalLoad; split
    · rfl
    · exact load x
  have pus : (CalcImage.start b).pusherCounted = false := by
    simp only [CalcImage.pusherCounted, CalcImage.start, Sig.start]
    split
    · split at * <;> simp_all [Sig.unmapped, Sig.noData]
    · rfl
    · rfl
    · split at * <;> split <;> simp_all [Sig.unmapped, Sig.noData, Sig.valid?]; split at * <;> simp_all
  have cnt : (CalcImage.start b).counted = [.f1, .f2, .t1, .t2] := by simp [CalcImage.counted, pus]
  have cl : ∀ f t v, Clamped f t v (clampPressure f t v) := by
    intro f t v h; unfold clampPressure; split
    · show t = min t (max f v); omega
    · show max f v = _; omega
  refine ⟨_, h1, by rw [h2]; rfl, ?_, rfl, ?_, ?_, ?_, ?_, ?_, cnt, fin, ?_, ?_, ?_, rfl, rfl, cl _ _ _, cl _ _ _⟩
  · intro x; cases x <;> rfl
  · intro x; rw [freshSig_eq]; cases x <;> rfl
  · rw [freshSig_eq]; rfl
  · rw [freshSig_eq]; rfl
  · rw [freshSig_eq]; rfl
  · rw [freshSig_eq]; rfl
  · show totalLoad b (.start b) = _
    simp [totalLoad, cnt, sumOver, fin, PerAxle.get]; omega
  · show gradeUsed (.start b) = 400
    simp [gradeUsed, CalcImage.start, nv]; rfl
  · show drumMargin b (.start b) = _
    simp [drumMargin, CalcImage.start, nv]

/-- The Hold Controller at its entry to STARTING (R42, R43). -/
theorem holdStart_started (b : Bank) (r : CalcResult) : HoldStarted b (.start b r) := by
  constructor <;> try simp only [freshSig_eq]
  all_goals first | rfl | exact ⟨rfl, rfl, rfl⟩ | exact ⟨rfl, rfl, rfl, rfl⟩ | exact ⟨rfl, rfl, rfl, rfl, rfl⟩ | exact ⟨rfl, rfl, rfl, rfl, rfl, rfl⟩

/-- The Creep Monitor at its start (R123). -/
theorem creepStart_started (b : Bank) : CreepStarted b (.start b) := by
  show CreepMonitor.start b = _
  have : (CreepMonitor.start b).channels = (List.finRange 8).map fun n => (⟨(freshSig b (.wheelPulse n)).validity, none, 0⟩ : ChannelRec) := rfl
  rw [← this]; rfl

/-- Every block at its start under a bank (R183, R185). -/
theorem runOn_eq (b : Bank) (s : State) : runOn b s = { s with
    active := some b.toActive, sm := .start b, hpc := some (.start b), hc := .start b (Calculator.start b).result
    cm := .start b, fe := .start b, events := ⟨s.events.set ||| 1#16, s.events.again ||| 1#16⟩
    mail := { s.mail with stateReports := s.mail.stateReports ++ [⟨.starting, false⟩] } } := rfl

/-- An activation: the blocks started, then the scheduler (R183, R168). -/
theorem activateBank_eq (p : Port) (b : Bank) (s : State) : activateBank p b s = activateScheduler { s with
    active := some b.toActive, sm := .start b, hpc := some (.start b), hc := .start b (Calculator.start b).result
    cm := .start b, fe := .start b, fc := clearMonitorCounters s.fc
    sr := { s.sr with serviceMode := false, staging := none, idle := none, storeWrite := some p }
    events := ⟨s.events.set ||| 1#16 <<< 14 ||| 1#16, s.events.again ||| 1#16 <<< 14 ||| 1#16⟩
    mail := { s.mail.activated with stateReports := [⟨.starting, false⟩] } } :=
  congrArg activateScheduler (runOn_eq b _)

/-! ## The minimum data length (R3) -/

theorem foldl_max_spec (l : List Nat) (z : Nat) :
    (∀ m ∈ l, m ≤ l.foldl Nat.max z) ∧ z ≤ l.foldl Nat.max z ∧ (l.foldl Nat.max z = z ∨ l.foldl Nat.max z ∈ l) := by
  induction l generalizing z with
  | nil => simp
  | cons x l ih =>
    have hm : Nat.max z x = max z x := rfl
    obtain ⟨h1, h2, h3⟩ := ih (Nat.max z x)
    simp only [List.foldl_cons, List.mem_cons, forall_eq_or_imp]
    refine ⟨⟨by omega, h1⟩, by omega, ?_⟩
    rcases h3 with h | h
    · rw [h]; omega
    · exact .inr (.inr h)

/-- The minimum data length is the largest of the bytes the fields end in. -/
theorem minLength_isMin (b : Bank) (i : Nat) : IsMinLength b i (b.minLength i) := by
  obtain ⟨h1, -, h3⟩ := foldl_max_spec ((b.extractionsOf i).map fun x => ceilDiv (x.start + x.width) 8) 0
  have hx : ∀ m, (∃ x ∈ b.extractions, x.kind ≠ none ∧ x.monitor = i ∧ m = (x.start + x.width + 7) / 8) ↔
      m ∈ (b.extractionsOf i).map fun x => ceilDiv (x.start + x.width) 8 := by
    intro m
    simp only [Bank.extractionsOf, List.mem_map, List.mem_filter, Bool.and_eq_true, beq_iff_eq,
      Option.isSome_iff_ne_none, ceilDiv]
    constructor
    · rintro ⟨x, hm, hk, hi, rfl⟩; exact ⟨x, ⟨hm, hk, hi⟩, rfl⟩
    · rintro ⟨x, ⟨hm, hk, hi⟩, rfl⟩; exact ⟨x, hm, hk, hi, rfl⟩
  have hv : b.minLength i = max (((b.extractionsOf i).map fun x => ceilDiv (x.start + x.width) 8).foldl Nat.max 0)
      (max (if (b.monitor i).counterMod = 0 then 0
        else ((b.monitor i).counterStart + counterBits (b.monitor i).counterMod + 7) / 8)
      (if (b.monitor i).checkPos = 0 then 0 else (b.monitor i).checkPos + 1)) := rfl
  simp only [IsMinLength, FieldEnds, hx, hv]
  generalize (b.extractionsOf i).map (fun x => ceilDiv (x.start + x.width) 8) = l at h1 h3 ⊢
  generalize ((b.monitor i).counterStart + counterBits (b.monitor i).counterMod + 7) / 8 = c
  generalize (b.monitor i).counterMod = md
  generalize (b.monitor i).checkPos = k
  have hn : (∀ m, ¬ m ∈ l) ∨ l.foldl Nat.max 0 ∈ l := by
    rcases h3 with h | h
    · cases l with
      | nil => exact .inl (by simp)
      | cons x l => right; have := h1 x (by simp); rw [h] at this ⊢; simp_all
    · exact .inr h
  generalize l.foldl Nat.max 0 = f at h1 h3 hn ⊢
  constructor
  · rintro m (h | ⟨h, rfl⟩ | ⟨h, rfl⟩)
    · have := h1 m h; omega
    · simp only [h, if_false]; omega
    · simp only [h, if_false]; omega
  · have hf : (∀ m, m ∉ l) → f = 0 := fun h => h3.resolve_right (h f)
    by_cases hm : md = 0 <;> by_cases hk : k = 0 <;> simp only [hm, hk, if_true, if_false, ne_eq, not_true_eq_false,
      not_false_eq_true, false_and, true_and, or_false, false_or, Nat.max_zero, Nat.zero_max]
    · rcases hn with h | h
      · exact .inr ⟨hf h, h⟩
      · exact .inl h
    all_goals
      left
      rcases hn with h | h
      · have := hf h; omega
      · rcases Nat.le_total (k + 1) f with h5 | h5 <;> rcases Nat.le_total c f with h4 | h4 <;>
          rcases Nat.le_total c (k + 1) with h6 | h6 <;>
          simp [h4, h5, h6, h]

/-- A bank of defaults (R179). -/
theorem default_defaults : Defaults Bank.default := by
  constructor <;> first | rfl | exact ⟨rfl, rfl⟩ | exact ⟨rfl, rfl, rfl⟩ | exact ⟨rfl, rfl, rfl, rfl, rfl, rfl⟩ | exact ⟨rfl, rfl, rfl, rfl, rfl, rfl, rfl⟩

/-- The band of a value is the one of R93. -/
theorem bandOf_eq {l : List Nat} {v i : Nat} (h : IsBand l v i) : bandOf l v = i := by
  obtain ⟨hl, hb, ht⟩ := h
  unfold bandOf
  cases h : l.findIdx? fun x => decide (v ≤ x) with
  | some j =>
    obtain ⟨hj, h1, h2⟩ := List.findIdx?_eq_some_iff_getElem.mp h
    simp only [decide_eq_true_eq] at h1
    show j = i
    rcases lt_trichotomy j i with h' | h' | h'
    · have := hb j _ h' (List.getElem?_eq_getElem hj); omega
    · exact h'
    · have := h2 i h'
      rcases ht _ (List.getElem?_eq_getElem hl) with h3 | h3
      · simp at this; omega
      · omega
  | none =>
    rw [List.findIdx?_eq_none_iff] at h
    have := h _ (List.getElem_mem hl)
    rcases ht _ (List.getElem?_eq_getElem hl) with h3 | h3
    · simp at this; omega
    · show l.length - 1 = i; omega

end Sys2Proof.Machine
end

