-- ==== Sys2Proof/Tests/Slice0.lean ====
section
/-! SUPPORT. Tests on a small truck, with values of the spec's worked cases and sequences (each test names its source),
and for every statement with hypotheses a witness that meets them, clause by clause. -/

namespace Sys2Proof.Tests

-- The theorems are checked one after another: each holds a kernel evaluation, and many at once need many stacks.
set_option Elab.async false

open Sys2Proof Sys2Proof.Machine

/-! ## The truck of the spec's worked sequences -/

/-- An extraction of a kind: frame monitor, start bit, width. -/
def ext (k : SignalKind) (monitor start width : Nat) (signed : Bool := false) : Extraction :=
  { Extraction.default with kind := some k, monitor, start, width, signed, min := -32768, max := 65535 }

/-- A wheel pulse extraction with its axle position and distance per pulse (chapter 6's bank). -/
def wheel (n : Fin 8) (monitor start : Nat) (axle : Axle) (distance : Nat) : Extraction :=
  { ext (.wheelPulse n) monitor start 16 with axle, distance }

/-- A frame monitor in use. -/
def mon (ident : Nat) : MonitorEntry := { MonitorEntry.default with inUse := true, ident := .std ident, period := 20 }

/-- The grade frame of chapter 1's worked sequence. -/
def gradeMon : MonitorEntry := { mon 0x18F with counterStart := 48, counterMod := 16, checkPos := 7, checkSeed := 0x21 }

def monitors : List MonitorEntry :=
  [mon 0x100, mon 0x101, .default, gradeMon, mon 0x200, mon 0x2A4, .default, mon 0x102, mon 0x108, .default,
   mon 0x110, mon 0x111, mon 0x112] ++ List.replicate 11 .default

def extractions : List Extraction :=
  [ext (.axleLoad .f1) 0 0 16, ext (.axleLoad .f2) 0 16 16, ext (.axleLoad .t1) 0 32 16, ext (.axleLoad .t2) 0 48 16,
   ext (.axleLoad .p) 4 0 16, { ext .grade 3 0 16 true with min := -600, max := 600 }, ext .drumSpeed 5 0 16 true,
   ext .dischargeActive 5 16 1, ext .engineTorque 1 0 8, ext .drivePedal 1 8 8, ext .outputSpeed 1 16 16 true,
   ext .gearDirection 1 32 2, ext .brakePedal 1 34 1, { ext .parkSwitch 7 0 1 with debounce := true },
   ext .ignition 7 1 1, ext .springState 12 0 2, ext .pendantRear 8 0 1, ext .pendantSide 8 1 1, ext .doorOpen 8 2 1,
   ext .seatOccupied 8 3 1, ext .pusherDown 7 2 1, wheel 0 10 0 .f1 52, wheel 1 10 16 .f1 52, wheel 2 11 0 .t1 50,
   wheel 3 11 16 .t1 50, wheel 4 11 32 .t2 50, wheel 5 11 48 .t2 50] ++ List.replicate 37 .default

def fwd (ident : Nat) (port : ArrivalPort) (rateClass monitor : Nat) : ForwardEntry :=
  ⟨true, .std ident, port, .passWatch, rateClass, monitor⟩

/-- Entries 12 to 14 are those of chapter 8's worked sequence. -/
def forwarding : List ForwardEntry :=
  [fwd 0x100 .c 0 0, fwd 0x101 .c 0 1, fwd 0x200 .c 0 4, fwd 0x102 .c 0 7, fwd 0x108 .c 0 8, fwd 0x110 .b 0 10,
   fwd 0x111 .b 0 11, { fwd 0x112 .b 0 12 with action := .watch }] ++ List.replicate 4 .default ++
  [fwd 0x2A4 .c 3 5, fwd 0x18F .either 0 3, ⟨true, .std 0x3A0, .c, .block, 0, 0⟩] ++ List.replicate 113 .default

def bank : Bank :=
  { Bank.default with
    monitors, extractions, forwarding
    rates := [⟨10, 20⟩, ⟨10, 20⟩, ⟨2, 3⟩, ⟨10, 20⟩, ⟨10, 20⟩, ⟨10, 20⟩, ⟨10, 20⟩] }

theorem test_the_bank_passes_the_checks : checkBank bank = none := by decide +kernel

def act : ActiveBank := bank.toActive

/-- A state under the bank, node number 2, right after the load, nothing under way. -/
def run : State :=
  { State.reset with
    loading := false, active := some act, sm := .start bank, hpc := some (.start bank)
    hc := .start bank ⟨⟨800, 800⟩, false, 37000⟩, cm := .start bank, fe := .start bank
    tx := { Scheduler.reset with statusTimer := some 100 }
    sr := .reset 2, store := ⟨.holds bank true, .empty, false⟩ }

def mailed (s : State) (f : Mail → Mail) : State := { s with mail := f s.mail }

/-- The driver in the seat, FORWARD gear, ignition on, on the ramp of +180. -/
def sitting : HcImage :=
  { grade := ⟨.valid, some 180⟩, torque := ⟨.valid, some 0⟩, drivePedal := ⟨.valid, some 0⟩
    brakePedal := ⟨.valid, some 0⟩, gear := ⟨.valid, some 1⟩, outputSpeed := ⟨.valid, some 0⟩
    discharge := ⟨.valid, some 0⟩, pendantRear := ⟨.valid, some 0⟩, pendantSide := ⟨.valid, some 0⟩
    parkSwitch := ⟨.valid, some 0⟩, doorOpen := ⟨.valid, some 0⟩, seat := ⟨.valid, some 1⟩
    ignition := ⟨.valid, some 1⟩, spring := ⟨.valid, some 0⟩ }

def ready : HoldController :=
  { run.hc with
    state := .inactive, image := sitting, result := some ⟨⟨515, 519⟩, false, 36000⟩, missing := false, allOnce := true
    stationary := true, blind := false, degraded := false, startWindow := none }

/-- A change to the Hold Controller's record. -/
def holdWith (f : HoldController → HoldController) (s : State) : State := { s with hc := f s.hc }

/-- INACTIVE, standing, the Creep Monitor with six VALID channels. -/
def inactive : State :=
  { run with
    hc := ready
    cm := { run.cm with
      channels := [⟨.valid, some 100, 1⟩, ⟨.valid, some 100, 1⟩, ⟨.valid, some 65535, 1⟩, ⟨.valid, some 100, 1⟩,
        ⟨.valid, some 100, 1⟩, ⟨.valid, some 100, 1⟩, ⟨.unmapped, none, 0⟩, ⟨.unmapped, none, 0⟩]
      blind := false, stationary := true, told := .inactive } }

def driverOnly : List (Option Claim) := [none, some ⟨.driver, 0, none, none, none, 0, none⟩, none, none, none, none]

/-- HOLDING on a DRIVER claim at 515 / 519, the Min Hold timer expired. -/
def holding : State :=
  { holdWith (fun h => { h with
      state := .holding, demand := ⟨.hold, ⟨515, 519⟩, false⟩, claims := driverOnly, maxHold := some 299000 }) inactive with
    cm := { inactive.cm with told := .holding, counting := true } }

/-- HANDOVER in a phase, at 557 / 562. -/
def handover (p : Phase) : State :=
  holdWith (fun h => { h with
    state := .handover, demand := ⟨.hold, ⟨557, 562⟩, true⟩, phase := some p, handoverConfirm := some 0
    overlapTimer := if p = .overlap then some 0 else none }) inactive

/-- PARKED with SPRING_STATE applied. -/
def parked : State :=
  holdWith (fun h => { h with
    state := .parked, demand := ⟨.parkOnly, ⟨0, 0⟩, true⟩, image := { sitting with spring := ⟨.valid, some 1⟩ } }) inactive

/-- SECURED after a rollaway, SPRING_STATE applied. -/
def secured : State :=
  holdWith (fun h => { h with
    state := .secured, cause := some .rollaway, demand := ⟨.max, ⟨800, 800⟩, true⟩
    image := { sitting with spring := ⟨.valid, some 1⟩ } }) inactive

/-- RELEASING from 515 / 519 uphill, steps of 18 kPa (chapter 5's worked sequence). -/
def releasing : State :=
  holdWith (fun h => { h with
    state := .releasing, demand := ⟨.ramp, ⟨515, 519⟩, false⟩
    ramp := some ⟨⟨515, 519⟩, true, 600, ⟨18, 18⟩⟩, rampStep := some 0 }) inactive

/-- PARKED in service mode, with a staging bank. -/
def serving (b : Bank) : State :=
  { parked with sr := { parked.sr with serviceMode := true, staging := some b, idle := some 30000 } }

/-- The Service Idle timer has run out. -/
def idled (s : State) : State := { s with sr := { s.sr with idle := some 0 } }

/-- A request to node 2 waiting at Port C. -/
def ask (data : List Byte) (s : State) : State :=
  mailed s fun m => { m with requests := [⟨.c, ⟨.std 0x6F2, false, data⟩⟩] }

/-- The frame of such a request. -/
def req (data : List Byte) : Frame := ⟨.std 0x6F2, false, data⟩

theorem asks_ask (data : List Byte) (s : State) : Asks .c (req data) [] (ask data s) :=
  ⟨[], [], rfl, by simp, rfl⟩

/-- What a step's next state shows; nothing where there is none. -/
def see {α : Type} (f : State → α) : Host.Outcome State Fault Refusal → Option α
  | .next t => some (f t)
  | _ => none

/-- The response a service request is answered with. -/
def answers (c : Instr) (data : List Byte) (s : State) : Option (List (List Byte)) :=
  see (fun t => t.mail.offers.map fun o => o.frame.data) (exec c (ask data s))

/-! ## Which commands can be sent (R69, R140, R144) -/

theorem test_wf_refuses_a_12_bit_identifier : (Instr.arrival .c ⟨.std 0x800, false, []⟩).wf = false := by decide
theorem test_wf_refuses_a_30_bit_identifier :
    (Instr.arrival .c ⟨⟨true, 0x20000000⟩, false, []⟩).wf = false := by decide
theorem test_wf_refuses_nine_bytes : (Instr.arrival .b ⟨.std 0x100, false, [0, 0, 0, 0, 0, 0, 0, 0, 0]⟩).wf = false := by
  decide
theorem test_wf_refuses_data_in_a_remote_frame : (Instr.arrival .b ⟨.std 0x100, true, [0]⟩).wf = false := by decide
theorem test_wf_refuses_tag_0 : (Instr.claimExpiry 0).wf = false := by decide
theorem test_wf_takes_the_largest : (Instr.arrival .c ⟨⟨true, 0x1FFFFFFF⟩, false, [0, 1, 2, 3, 4, 5, 6, 7]⟩).wf = true := by
  decide

/-! ## Chapter 1 -/

/-- R5's example: −100 × 5 / 2 is −250. -/
theorem test_extraction_truncates_toward_zero :
    decodeRaw { ext .grade 0 0 12 true with multiplier := 5, divisor := 2 } [0x9C, 0x0F] = -250 ∧
      decodeRaw { ext .grade 0 0 12 true with multiplier := 5, divisor := 2 } [0x9B, 0x0F] = -252 := by decide

/-- R9's example: seed 0x21, check byte 0x24. -/
theorem test_check_byte : checkOk 7 0x21 [0xB0, 0, 0, 0, 0, 0, 0x0A, 0x24] = true ∧
    checkOk 7 0x21 [0xB0, 0, 0, 0, 0, 0, 0x0A, 0x25] = false := by decide

/-- The minimum data length of the grade frame is 8. -/
theorem test_min_length : act.minLength 3 = 8 := by decide +kernel

/-- The frame with counter 10 and grade 176 of R9 and of the worked sequence. -/
def grade176 : Frame := ⟨.std 0x18F, false, [0xB0, 0, 0, 0, 0, 0, 0x0A, 0x24]⟩
/-- Counter 13, grade 178, check byte 255 − 224. -/
def grade178 : Frame := ⟨.std 0x18F, false, [0xB2, 0, 0, 0, 0, 0, 0x0D, 0x1F]⟩

/-- Frame monitor 3 in a state of its own, a frame waiting for it. -/
def gradeState (m : MonitorState) (v : SvtEntry) (f : Frame) : State :=
  { inactive with
    sm := { monitors := inactive.sm.monitors.set 3 m, svt := inactive.sm.svt.set 5 v }
    mail := { inactive.mail with watch := [⟨3, f⟩] } }

def acquiring (good : Nat) : MonitorState := ⟨.acquiring, good, [], some 9, some 10, false⟩
def validOnce (errors : List Bool) : MonitorState := ⟨.valid, 2, errors, some 11, some 10, true⟩

/-- Worked sequence, 25 ms: the second good sample enters VALID and publishes 176. -/
theorem test_watch_copy_enters_valid :
    see (fun t => (t.sm.state 3, t.sm.entry .grade, t.mail.toCalc))
        (exec (.watchCopy 3) (gradeState (acquiring 1) ⟨.noData, none, none⟩ grade176)) =
      some (⟨.valid, 2, [false, false, false, false, false], some 10, some 30, true⟩, ⟨.valid, some 176, none⟩,
        [[⟨.grade, .valid, some 176, true⟩]]) := by decide +kernel

/-- Worked sequence, 65 ms: the counter skips 12; baseline 13, nothing published. -/
theorem test_watch_copy_counter_jump :
    see (fun t => (t.sm.state 3, t.sm.entry .grade, t.mail.toCalc, t.events.set))
        (exec (.watchCopy 3)
          (gradeState (validOnce [false, false, false, false, false]) ⟨.valid, some 177, none⟩ grade178)) =
      some (⟨.valid, 2, [false, false, false, false, true], some 13, some 30, true⟩, ⟨.valid, some 177, none⟩, [],
        1#16 <<< 9) := by decide +kernel

/-- Worked sequence, 85 ms in effect: the second error of the window, GRADE LOST at its held value, a MAJOR fault. -/
theorem test_period_timeout_enters_lost :
    see (fun t => ((t.sm.state 3).sync, t.sm.entry .grade, t.mail.faults, t.mail.counts))
        (exec (.periodTimeout 3)
          (gradeState { validOnce [false, false, false, false, true] with timer := some 0 } ⟨.valid, some 177, none⟩
            grade178)) =
      some (.lost, ⟨.lost, some 177, none⟩, [⟨.major, .signalLost, .signal .grade, none⟩], [.errors 3, .losses 3]) := by
  decide +kernel

/-- Worked sequence, 115 ms: a TIMEOUT in LOST only restarts the timer, with one period. -/
theorem test_period_timeout_in_lost :
    see (fun t => (t.sm.state 3, t.mail.faults))
        (exec (.periodTimeout 3) (gradeState ⟨.lost, 2, [], none, some 0, true⟩ ⟨.lost, some 177, none⟩ grade178)) =
      some (⟨.lost, 2, [], none, some 20, true⟩, []) := by decide +kernel

/-- R11, R110: a count beyond its extraction's maximum fails R5, and is tested against its baseline and refused too. -/
theorem test_refused_count_out_of_range :
    let narrow := { bank with extractions := bank.extractions.set 21 { wheel 0 10 0 .f1 52 with max := 50000 } }
    let test := testFrame narrow.toActive 10 (validOnce []) inactive.cm [0x60, 0xEA, 101, 0]
    test.error = some .range ∧ test.refused = [(0, 60000)] := by decide +kernel

/-- The debounced park switch: candidate, accepted at the second, a lone reading discarded. -/
theorem test_debounce :
    acceptValue .parkSwitch true 0 ⟨.valid, some 1, none⟩ = (⟨.valid, some 1, some 0⟩, false) ∧
      acceptValue .parkSwitch true 0 ⟨.valid, some 1, some 0⟩ = (⟨.valid, some 0, none⟩, true) ∧
      acceptValue .parkSwitch true 0 ⟨.valid, some 0, some 1⟩ = (⟨.valid, some 0, none⟩, false) ∧
      acceptValue .ignition false 0 ⟨.valid, some 1, none⟩ = (⟨.valid, some 0, none⟩, true) := by decide

/-! ## Chapter 2 -/

/-- The image of the worked case. -/
def ramp18 : CalcImage :=
  { loads := ⟨⟨.valid, some 720⟩, ⟨.valid, some 740⟩, ⟨.valid, some 1060⟩, ⟨.valid, some 1080⟩, ⟨.valid, some 0⟩⟩
    grade := ⟨.valid, some 180⟩, drum := ⟨.valid, some 120⟩, discharge := ⟨.valid, some 0⟩, pusher := ⟨.valid, some 0⟩ }

/-- A publication set waiting for the calculator of the worked case. -/
def calcState (items : List PubItem) : State :=
  { inactive with
    hpc := some ⟨ramp18, ⟨⟨515, 519⟩, false, 36000⟩, ⟨false, false, false, false, false⟩, false⟩
    mail := { inactive.mail with toCalc := [items] } }

/-- 2.7: the shares and the result. -/
theorem test_worked_case :
    [Axle.f1, .f2, .t1, .t2].map (fun x => (axleShare bank ramp18 x, axlePressure bank ramp18 x)) =
        [(19008, 501), (19536, 515), (27983, 509), (28511, 519)] ∧
      holdForce bank ramp18 = 95036 ∧ resultOf bank ramp18 false = ⟨⟨515, 519⟩, false, 36000⟩ := by decide +kernel

/-- 2.8, step 1: the grade lost. -/
theorem test_calc_publication_grade_lost :
    see (fun t => (t.mail.results, t.mail.faults, t.events.set))
        (exec .calcPublication (calcState [⟨.grade, .lost, some 180, false⟩])) =
      some ([⟨⟨800, 800⟩, true, 36000⟩], [⟨.minor, .capacity, .none, none⟩], 1#16 <<< 6) := by decide +kernel

/-- 2.8, step 4: the pusher lowered, part of the load discharged. -/
theorem test_calc_publication_pusher :
    see (fun t => (t.mail.results, t.mail.faults))
        (exec .calcPublication (calcState
          [⟨.pusherDown, .valid, some 1, false⟩, ⟨.axleLoad .f1, .valid, some 700, false⟩,
           ⟨.axleLoad .f2, .valid, some 720, false⟩, ⟨.axleLoad .t1, .valid, some 900, false⟩,
           ⟨.axleLoad .t2, .valid, some 920, false⟩, ⟨.axleLoad .p, .valid, some 380, false⟩])) =
      some ([⟨⟨501, 442⟩, false, 36200⟩], []) := by decide +kernel

/-! ## Chapters 3 to 5 and 7 -/

/-- A publication set waiting for the Hold Controller. -/
def hcState (items : List PubItem) (s : State) : State :=
  mailed s fun m => { m with toHc := [⟨items, none, none, none⟩] }

/-- A result waiting for the Hold Controller. -/
def resultState (r : CalcResult) (s : State) : State := mailed s fun m => { m with results := [r] }

/-- A report of the Creep Monitor waiting for the Hold Controller. -/
def creepState (r : CreepReport) (s : State) : State := mailed s fun m => { m with creepReports := [r] }

/-- The hold state and the demand. -/
def holds (s : State) : HoldState × Demand := (s.hc.state, s.hc.demand)

/-- Chapter 3, 1,400 ms: stationary is reported with the pedal pressed: ARMED, confirmed in 200 ms. -/
theorem test_decision_report_arms :
    see (fun t => (t.hc.state, t.hc.armedConfirm, t.mail.stateReports))
        (exec .decisionReport (creepState (.decision true)
          (holdWith (fun h => { h with image := { sitting with brakePedal := ⟨.valid, some 1⟩ }, stationary := false })
            inactive))) =
      some (.armed, some 200, [⟨.armed, false⟩]) := by decide +kernel

def armed : State :=
  holdWith (fun h => { h with
    state := .armed, image := { sitting with brakePedal := ⟨.valid, some 1⟩ }, armedConfirm := some 0 }) inactive

/-- Chapter 3, 1,600 ms: HOLDING at 515 / 519 on a DRIVER claim in slot 1. -/
theorem test_armed_confirm_expiry :
    see (fun t => (holds t, t.hc.claims, t.hc.minHold, t.hc.maxHold)) (exec .armedConfirmExpiry armed) =
      some ((.holding, ⟨.hold, ⟨515, 519⟩, false⟩), driverOnly, some 1000, some 300000) := by decide +kernel

/-- Chapter 3, 1,850 and 1,870 ms: the ratchet rises to 557 / 562 and stays. -/
theorem test_calc_result_ratchets :
    see holds (exec .calcResult (resultState ⟨⟨557, 562⟩, false, 36000⟩ holding)) =
        some (.holding, ⟨.hold, ⟨557, 562⟩, false⟩) ∧
      see holds (exec .calcResult (resultState ⟨⟨487, 432⟩, false, 32000⟩ holding)) =
        some (.holding, ⟨.hold, ⟨515, 519⟩, false⟩) := by decide +kernel

/-- Chapter 3, 2,600 ms: the criterion is not met, and the hold stands. -/
theorem test_min_hold_expiry :
    see (fun t => (holds t, t.hc.minHold))
        (exec .minHoldExpiry (holdWith (fun h => { h with minHold := some 0 }) holding)) =
      some ((.holding, ⟨.hold, ⟨515, 519⟩, false⟩), none) := by decide +kernel

/-- Chapter 3: with no other event the hold ends at the Max Service Hold expiry, in HANDOVER. -/
theorem test_max_service_hold_expiry :
    see (fun t => (holds t, t.hc.claims))
        (exec .maxServiceHoldExpiry (holdWith (fun h => { h with maxHold := some 0 }) holding)) =
      some ((.handover, ⟨.hold, ⟨515, 519⟩, true⟩), [none, none, none, none, none, none]) := by decide +kernel

/-- R1: with 299 s of the timer left nothing expires. -/
theorem test_expiry_before_the_time_has_run : see (· == holding) (exec .maxServiceHoldExpiry holding) = some true := by
  decide +kernel

/-- Chapter 4, 5,000 ms: DISCHARGE takes slot 2 and the demand stays. -/
theorem test_hc_publication_discharge :
    see (fun t => (holds t, (t.hc.claims.map (·.map Claim.source)), t.hc.latchDischarge))
        (exec .hcPublication (hcState [⟨.dischargeActive, .valid, some 1, false⟩] holding)) =
      some ((.holding, ⟨.hold, ⟨515, 519⟩, false⟩), [none, some .driver, some .discharge, none, none, none],
        .asserted) := by decide +kernel

/-- Chapter 5, 4,050 ms: torque 74 % at a cell of 71 % with pedal 12 %: RELEASING, steps of 18 kPa. -/
theorem test_hc_publication_drives_off :
    bank.releaseCell 180 36000 = 71 ∧
      see (fun t => (holds t, t.hc.ramp, t.hc.rampStep))
          (exec .hcPublication (hcState [⟨.engineTorque, .valid, some 74, false⟩]
            (holdWith (fun h => { h with image := { sitting with drivePedal := ⟨.valid, some 12⟩ } }) holding))) =
        some ((.releasing, ⟨.ramp, ⟨515, 519⟩, false⟩), some ⟨⟨515, 519⟩, true, 600, ⟨18, 18⟩⟩, some 20) := by
  decide +kernel

/-- Chapter 5, 4,070 ms and the last step: 497 / 501, and INACTIVE with the Re-entry Guard of 2,000 ms. -/
theorem test_ramp_step_expiry :
    see holds (exec .rampStepExpiry releasing) = some (.releasing, ⟨.ramp, ⟨497, 501⟩, false⟩) ∧
      see (fun t => (holds t, t.hc.guard))
          (exec .rampStepExpiry (holdWith (fun h => { h with demand := ⟨.ramp, ⟨9, 14⟩, false⟩ }) releasing)) =
        some ((.inactive, ⟨.none, ⟨0, 0⟩, false⟩), some 2000) := by decide +kernel

/-- Chapter 5, 4,165 ms: rollback at −22 rpm re-applies the hold at 618 / 623. -/
theorem test_rollback :
    see (fun t => (holds t, t.hc.reapply, t.hc.claims, t.hc.minHold))
        (exec .hcPublication (hcState [⟨.outputSpeed, .valid, some (-22), false⟩] releasing)) =
      some ((.holding, ⟨.hold, ⟨618, 623⟩, false⟩), 1, driverOnly, some 1000) := by decide +kernel

/-- Chapter 7, 10,010 ms: the park switch hands over at 557 / 562. -/
theorem test_park_switch_hands_over :
    see (fun t => (holds t, t.hc.phase, t.hc.handoverConfirm))
        (exec .hcPublication (hcState [⟨.parkSwitch, .valid, some 1, false⟩]
          (holdWith (fun h => { h with demand := ⟨.hold, ⟨557, 562⟩, false⟩ }) holding))) =
      some ((.handover, ⟨.hold, ⟨557, 562⟩, true⟩), some .awaiting, some 2000) := by decide +kernel

/-- Chapter 7, 12,010 ms without a confirmation: SECURED at 800 kPa, a MAJOR fault of SPRING_STATE. -/
theorem test_handover_confirm_expiry :
    see (fun t => (holds t, t.hc.cause, t.hc.quiet, t.mail.faults)) (exec .handoverConfirmExpiry (handover .awaiting)) =
      some ((.secured, ⟨.max, ⟨800, 800⟩, true⟩), some .handoverFailed, none,
        [⟨.major, .handoverFailed, .signal .springState, some .secured⟩]) := by decide +kernel

/-- Chapter 7, 11,690 ms: PARKED. -/
theorem test_overlap_expiry :
    see holds (exec .overlapExpiry (handover .overlap)) = some (.parked, ⟨.parkOnly, ⟨0, 0⟩, true⟩) := by decide +kernel

/-- Chapter 7: the Quiet expiry parks with the cause absent. -/
theorem test_quiet_expiry :
    see (fun t => (holds t, t.hc.cause)) (exec .quietExpiry (holdWith (fun h => { h with quiet := some 0 }) secured)) =
      some ((.parked, ⟨.parkOnly, ⟨0, 0⟩, true⟩), none) := by decide +kernel

/-- Chapter 7, 96,410 ms: the park switch released without the pedal is refused. -/
theorem test_park_exit_refused :
    see (fun t => (t.hc.state, t.events.set))
        (exec .hcPublication (hcState [⟨.parkSwitch, .valid, some 0, false⟩] parked)) =
      some (.parked, 1#16 <<< 13) := by decide +kernel

/-- Chapter 7, 97,110 ms: the pedal pressed with the switch released arms, with the park-exit mark. -/
theorem test_park_exit_arms :
    see (fun t => (t.hc.state, t.hc.parkExit, t.hc.demand))
        (exec .hcPublication (hcState [⟨.brakePedal, .valid, some 1, false⟩] parked)) =
      some (.armed, true, ⟨.none, ⟨0, 0⟩, false⟩) := by decide +kernel

/-- Chapter 4, workshop floor: the claim of tag 1 lapses, and the controller hands over at 600 / 400. -/
theorem test_claim_expiry :
    see (fun t => (holds t, t.events.set))
        (exec (.claimExpiry 1) (holdWith (fun h => { h with
          claims := [none, some ⟨.service, 1, some 550, some 400, some 30, 0, some 0⟩, none, none, none, none]
          demand := ⟨.hold, ⟨600, 400⟩, false⟩, result := some ⟨⟨120, 120⟩, false, 36000⟩ }) holding)) =
      some ((.handover, ⟨.hold, ⟨600, 400⟩, true⟩), 1#16 <<< 2 ||| 1#16) := by decide +kernel

/-- R54, R65: at the guard's end with the pedal pressed the controller arms. -/
theorem test_reentry_guard_expiry :
    see (fun t => (t.hc.state, t.hc.guard))
        (exec .reentryGuardExpiry (holdWith (fun h => { h with
          guard := some 0, image := { sitting with brakePedal := ⟨.valid, some 1⟩ } }) inactive)) =
      some (.armed, none) := by decide +kernel

/-- STARTING, moving, under the bank. -/
def starting : State := holdWith (fun h => { h with startWindow := some 0 }) run

/-- R53: the Start Window ends the wait with a MAJOR SIGNAL_LOST of the lowest-coded kind still NO_DATA. -/
theorem test_start_window_expiry :
    see (fun t => (t.hc.state, t.mail.faults)) (exec .startWindowExpiry starting) =
      some (.inactive, [⟨.major, .signalLost, .signal (.axleLoad .f1), some .inactive⟩]) := by decide +kernel

/-- R53, R54, R169: a standing truck with the spring brake applied is PARKED at once, and the report names INACTIVE. -/
theorem test_start_window_expiry_parks :
    see (fun t => (t.hc.state, t.mail.faults)) (exec .startWindowExpiry (holdWith (fun h => { h with
        stationary := true, image := { h.image with spring := ⟨.valid, some 1⟩ } }) starting)) =
      some (.parked, [⟨.major, .signalLost, .signal (.axleLoad .f1), some .inactive⟩]) := by decide +kernel

/-- R64: BLIND in HOLDING hands over. -/
theorem test_blind_report :
    see (fun t => (holds t, t.hc.degraded)) (exec .blindReport (creepState (.blind true) holding)) =
      some ((.handover, ⟨.hold, ⟨515, 519⟩, true⟩), true) := by decide +kernel

/-- Chapter 6, 2,480 ms: the escalation's floors are 644 / 649. -/
theorem test_crossing_report_escalates :
    see (fun t => (holds t, t.hc.claims[0]?)) (exec .crossingReport (creepState (.crossing false 1) holding)) =
      some ((.holding, ⟨.hold, ⟨644, 649⟩, false⟩),
        some (some ⟨.monitor, 0, some 644, some 649, none, 0, none⟩)) := by decide +kernel

/-- R119: a rollaway in HOLDING secures. -/
theorem test_crossing_report_rollaway :
    see (fun t => (holds t, t.hc.cause, t.mail.faults)) (exec .crossingReport (creepState (.crossing true 1) holding)) =
      some ((.secured, ⟨.max, ⟨800, 800⟩, true⟩), some .rollaway,
        [⟨.major, .rollaway, .signal (.wheelPulse 1), some .secured⟩]) := by decide +kernel

/-! ## Chapter 6 -/

/-- 2,020 ms: the increment is 52, of channel 1, and the decision turns to MOVING. -/
theorem test_evaluation :
    see (fun t => (t.cm.accumulator, t.cm.stationary, t.cm.stationaryTimer, t.mail.creepReports))
        (exec .evaluation { holding with cm := { holding.cm with evalTimer := some 0 } }) =
      some (52, false, some 200, [.decision false]) := by decide +kernel

/-- 2,480 ms: 1,196 and 52 reach 1,200, and an escalation is sent with channel 1. -/
theorem test_evaluation_crosses :
    see (fun t => (t.cm.accumulator, t.cm.crossed, t.mail.creepReports, t.events.set))
        (exec .evaluation { holding with
          cm := { holding.cm with evalTimer := some 0, accumulator := 1196, stationary := false } }) =
      some (0, true, [.crossing false 1], 1#16 <<< 4) := by decide +kernel

/-- Channel 2 passes from 65,535 to 0: a delta of 1. -/
theorem test_creep_publication_wraps :
    see (fun t => t.cm.channel 2)
        (exec .creepPublication (mailed holding fun m =>
          { m with toCreep := [.publication [⟨.wheelPulse 2, .valid, some 0, false⟩]] })) =
      some ⟨.valid, some 0, 2⟩ := by decide +kernel

/-- 1,310 ms: the refused count is the new baseline, the pending sum stays. -/
theorem test_refused_count :
    see (fun t => t.cm.channel 0)
        (exec .refusedCount (mailed holding fun m => { m with toCreep := [.refused 0 40362] })) =
      some ⟨.valid, some 40362, 1⟩ := by decide +kernel

/-- 2,700 ms: STATIONARY is reported. -/
theorem test_stationary_timer_expiry :
    see (fun t => (t.cm.stationary, t.mail.creepReports))
        (exec .stationaryTimerExpiry { holding with
          cm := { holding.cm with stationary := false, stationaryTimer := some 0 } }) =
      some (true, [.decision true]) := by decide +kernel

/-- R115: told HOLDING at the start of an episode, the monitor counts from 0. -/
theorem test_state_report :
    see (fun t => (t.cm.told, t.cm.counting, t.cm.accumulator, t.cm.crossed))
        (exec .stateReport { mailed inactive (fun m => { m with stateReports := [⟨.holding, true⟩] }) with
          cm := { inactive.cm with accumulator := 900, crossed := true } }) =
      some (.holding, true, 0, false) := by decide +kernel

/-! ## Chapters 8 and 9 -/

def drumFrame : Frame := ⟨.std 0x2A4, false, [0x78, 0x00, 0x00]⟩

/-- Class 3 with some tokens. -/
def tokens (n : Nat) (s : State) : State := { s with fe := { s.fe with buckets := s.fe.buckets.set 2 n } }

/-- The refill timer has run out. -/
def refilling (s : State) : State := { s with fe := { s.fe with refill := some 0 } }

/-- Chapter 8, 10 ms: a token taken, the watch copy to monitor 5, the forwarding copy to Port B. -/
theorem test_arrival_forwards :
    see (fun t => (t.fe.tokens 3, t.mail.watch, t.mail.offers, t.mail.counts)) (exec (.arrival .c drumFrame) run) =
      some (2, [⟨5, drumFrame⟩], [⟨.b, .forward, drumFrame, false⟩], [.rx .c]) := by decide +kernel

/-- Chapter 8, 70 ms: policed, and watched all the same. -/
theorem test_arrival_policed :
    see (fun t => (t.fe.tokens 3, t.mail.watch, t.mail.offers, t.mail.counts))
        (exec (.arrival .c drumFrame) (tokens 0 run)) =
      some (0, [⟨5, drumFrame⟩], [], [.rx .c, .policed .c]) := by decide +kernel

/-- Chapter 8: 0x3A0 is blocked at Port C and passes at Port B; 0x0C8 at Port C is an identifier conflict. -/
theorem test_arrival_blocked_passed_conflict :
    see (fun t => (t.mail.offers, t.mail.counts)) (exec (.arrival .c ⟨.std 0x3A0, false, []⟩) run) =
        some ([], [.rx .c, .blocked .c]) ∧
      see (fun t => t.mail.offers) (exec (.arrival .b ⟨.std 0x3A0, false, []⟩) run) =
        some [⟨.c, .forward, ⟨.std 0x3A0, false, []⟩, false⟩] ∧
      see (fun t => (t.mail.offers, t.mail.faults, t.events.set)) (exec (.arrival .c ⟨.std 0x0C8, false, []⟩) run) =
        some ([], [⟨.minor, .idConflict, .port .c, none⟩], 1#16 <<< 10) := by decide +kernel

/-- Chapter 8, 100 ms: the refill brings class 3 from 0 to 2. -/
theorem test_refill_expiry :
    see (fun t => (t.fe.tokens 3, t.fe.tokens 1, t.fe.refill)) (exec .refillExpiry (refilling (tokens 0 run))) =
      some (2, 20, some 100) := by decide +kernel

/-- The state of chapter 12's example, the next alive counter 9. -/
def example12 : State :=
  { holdWith (fun h => { h with demand := ⟨.hold, ⟨557, 562⟩, false⟩ }) holding with
    tx := { holding.tx with nextDemand := 9, demandTimer := some 0 } }

/-- Chapter 12: the bytes of the demand frame as it starts. -/
theorem test_demand_period_expiry :
    see (fun t => (t.tx.queues.b.sending.map fun e => (e.frame, e.alive), t.tx.outstanding, t.tx.demandTimer))
        (exec .demandPeriodExpiry example12) =
      some (some (⟨.std 0x0C8, false, [0x01, 0x04, 0x2D, 0x02, 0x32, 0x02, 0x09, 0x52]⟩, some 9), true, some 20) := by
  decide +kernel

/-- A demand frame as chapter 9's sequence has it. -/
def demandEntry (alive : Option Nat) (dedicated : Bool) : Entry :=
  ⟨.hold, dedicated, ⟨.std 0x0C8, false, [0x01, 0x04, 0x03, 0x02, 0x07, 0x02, 0x08, 0xA8]⟩, alive, 0, false, false⟩

/-- Port B with a queue, errors in a row, an owed count and the mark set, in HOLDING. -/
def portB (q : TxQueue) (errors owed : Nat) : State :=
  { holding with
    links := { holding.links with b := ⟨false, errors, none⟩ }
    tx := { holding.tx with
      queues := ⟨.empty, q⟩, owed, outstanding := true, nextDemand := 8, demandTimer := some 0 } }

/-- Chapter 9, 40 ms: D2 waits behind D1 in shared space, and 1 is owed. -/
theorem test_demand_waits_in_shared_space :
    see (fun t => (t.tx.queues.b.waiting.map fun e => (e.cls, e.dedicated), t.tx.owed, t.events.set))
        (exec .demandPeriodExpiry (portB ⟨[], some (demandEntry (some 8) true)⟩ 5 0)) =
      some ([(.hold, false)], 1, 0) := by decide +kernel

/-- Chapter 9, 41 ms: D1 fails and gives way to D2, which starts with the counter 8 in its shared place. -/
theorem test_transmission_error_replaces :
    see (fun t => (t.tx.queues.b.sending.map fun e => (e.alive, e.dedicated), t.tx.queues.b.waiting.length,
          t.links.b.errors, t.mail.counts))
        (exec (.transmissionError .b)
          (portB ⟨[{ demandEntry none false with frame := ⟨.std 0x0C8, false, [1, 4, 3, 2, 7, 2]⟩ }],
            some (demandEntry (some 8) true)⟩ 5 1)) =
      some (some (some 8, false), 0, 6, [.txError .b]) := by decide +kernel

/-- Chapter 8: the sixteenth error takes Port B to BUS_OFF, a MAJOR fault, and keeps the demand. -/
theorem test_transmission_error_bus_off :
    see (fun t => (t.links.b, t.tx.queues.b.entries.map Entry.cls, t.mail.faults))
        (exec (.transmissionError .b)
          (portB ⟨[⟨.forward, true, drumFrame, none, 0, false, false⟩], some (demandEntry (some 8) true)⟩ 15 1)) =
      some (⟨true, 16, some 500⟩, [.hold], [⟨.major, .portBusOff, .port .b, none⟩]) := by decide +kernel

/-- Chapter 9, 76 ms: the success settles what is owed; the next counter is 9. -/
theorem test_transmission_success :
    see (fun t => (t.tx.nextDemand, t.tx.owed, t.tx.outstanding, t.links.b.errors, t.tx.queues.b))
        (exec (.transmissionSuccess .b) (portB ⟨[], some (demandEntry (some 8) true)⟩ 14 2)) =
      some (9, 0, false, 0, ⟨[], none⟩) := by decide +kernel

/-- R143: the port returns and its waiting demand starts. -/
theorem test_recovery_expiry :
    see (fun t => (t.links.b, t.tx.queues.b.sending.map Entry.cls))
        (exec (.recoveryExpiry .b) { portB ⟨[demandEntry (some 8) true], none⟩ 16 30 with
          links := ⟨.start, ⟨true, 16, some 0⟩⟩ }) = some (⟨false, 0, none⟩, some .hold) := by decide +kernel

/-- R155: an offered frame starts on an idle port, in dedicated space. -/
theorem test_queue_offer :
    see (fun t => (t.tx.queues.b.sending, t.mail.offers, t.mail.counts))
        (exec (.queueOffer .b .forward) (mailed run fun m =>
          { m with offers := [⟨.b, .forward, drumFrame, false⟩] })) =
      some (some ⟨.forward, true, drumFrame, none, 0, false, false⟩, [], [.forwarded .c]) := by decide +kernel

/-- R187: the Status Frame in PARKED with no fault and no event: 255 − (0x3C + 7) mod 256 is 0xBC. -/
theorem test_status_period_expiry :
    see (fun t => (t.tx.queues.c.sending.map Entry.frame, t.tx.statusTimer))
        (exec .statusPeriodExpiry { parked with tx := { parked.tx with statusTimer := some 0 } }) =
      some (some ⟨.std 0x3E0, false, [7, 0, 0, 0, 0, 0, 0, 0xBC]⟩, some 100) := by decide +kernel

/-! ## Chapter 10 -/

def capacityRecord : FaultRecord := ⟨.minor, .capacity, .none, .inactive, 2140, 1⟩

/-- 41,050 ms: a MAJOR report over a MINOR fault. -/
theorem test_fault_report_overwrites :
    see (fun t => (t.fc.record, t.events.set))
        (exec (.faultReport 0) { mailed holding (fun m => { m with faults := [⟨.major, .monitorBlind, .none, none⟩] }) with
          now := 41050, fc := { holding.fc with record := some capacityRecord } }) =
      some (some ⟨.major, .monitorBlind, .none, .holding, 41050, 0⟩, 1#16 <<< 15) := by decide +kernel

/-- R174: a counter stops at 65,535. -/
theorem test_counter_count_saturates :
    see (fun t => t.fc.ports.b.rx)
        (exec .counterCount { mailed holding (fun m => { m with counts := [.rx .b] }) with
          fc := { holding.fc with ports := ⟨.zero, { PortCounters.zero with rx := 65535 }⟩ } }) = some 65535 := by
  decide +kernel

/-! ## Chapter 11 -/

/-- Workshop, 0 ms: service mode, a copy of the active bank, 60 s of idle time, and OK. -/
theorem test_enter_service :
    see (fun t => (t.sr.serviceMode, t.sr.staging == some bank, t.sr.idle, t.mail.offers.map fun o => (o.port, o.frame)))
        (exec (.enterService .c) (ask [1] parked)) =
      some (true, true, some 60000, [(.c, ⟨.std 0x6FA, false, [1, 0, 0, 0, 0, 0, 0, 0]⟩)]) := by decide +kernel

/-- R180: out of service mode EXIT_SERVICE is REFUSED_STATE. -/
theorem test_exit_service : answers (.exitService .c) [2] parked = some [[2, 3, 0, 0, 0, 0, 0, 0]] ∧
    answers (.exitService .c) [2] (serving bank) = some [[2, 0, 0, 0, 0, 0, 0, 0]] := by decide +kernel

/-- R180: the idle expiry ends service mode, and answers nothing. -/
theorem test_service_idle_expiry :
    see (fun t => (t.sr.serviceMode, t.sr.staging.isSome, t.mail.offers)) (exec .serviceIdleExpiry (idled (serving bank))) =
      some (false, false, []) := by decide +kernel

/-- R189: the Demand Frame Identifier and the Transmit Seed read from the active bank. -/
theorem test_read_entry : answers (.readEntry .c) [3, 5, 0, 29, 0] parked = some [[3, 0, 0x3C, 0, 0, 0, 0, 0]] ∧
    answers (.readEntry .c) [3, 9, 0, 0, 0] parked = some [[3, 9, 0, 0, 0, 0, 0, 0]] := by decide +kernel

/-- Workshop, 900 ms: a loss window of 2 is BAD_VALUE, and the staging bank stays; 700 ms: a monitor index is written. -/
theorem test_write_field :
    answers (.writeField .c) [4, 0, 14, 9, 2, 0, 0, 0] (serving bank) = some [[4, 12, 0, 0, 0, 0, 0, 0]] ∧
      answers (.writeField .c) [4, 1, 20, 1, 14, 0, 0, 0] (serving bank) = some [[4, 0, 0, 0, 0, 0, 0, 0]] := by
  decide +kernel

/-- The bank of 500 ms: monitor 14 in use and named by no extraction. -/
def unnamed : Bank := { bank with monitors := bank.monitors.set 14 { mon 0x2B0 with period := 100 } }

/-- Workshop, 500 ms: CHECK_FAILED, V3, index 14, table 0. -/
theorem test_activate_check_failed :
    answers (.activate .c) [5] (serving unnamed) = some [[5, 13, 3, 14, 0, 0, 0, 0]] := by decide +kernel

/-- Workshop, 1,600 ms: STARTING, out of service mode, the store write in flight, no response yet. -/
theorem test_activate :
    see (fun t => (t.hc.state, t.sr.serviceMode, t.sr.storeWrite, t.mail.offers, t.events.set))
        (exec (.activate .c) (ask [5] (serving bank))) =
      some (.starting, false, some .c, [], 1#16 ||| 1#16 <<< 14) := by decide +kernel

/-- Workshop, 1,750 ms: the OK for the ACTIVATE, the new bank current; and 1,650 ms: BUSY before it. -/
theorem test_store_write_complete :
    see (fun t => (t.store.current == .holds bank true, t.mail.offers.map fun o => o.frame.data))
        (exec (.storeWriteComplete true) { run with
          sr := { run.sr with storeWrite := some .c }, store := ⟨.empty, .empty, false⟩ }) =
        some (true, [[5, 0, 0, 0, 0, 0, 0, 0]]) ∧
      answers (.readSignal .c) [6, 28] { run with sr := { run.sr with storeWrite := some .c } } =
        some [[6, 2, 0, 0, 0, 0, 0, 0]] := by decide +kernel

/-- R178: GRADE held at −180 after a loss: validity 3, two's complement; code 29 is BAD_INDEX. -/
theorem test_read_signal :
    answers (.readSignal .c) [6, 5] { parked with
        sm := { parked.sm with svt := parked.sm.svt.set 5 ⟨.lost, some (-180), none⟩ } } =
        some [[6, 0, 3, 0x4C, 0xFF, 0xFF, 0xFF, 0]] ∧
      answers (.readSignal .c) [6, 29] parked = some [[6, 10, 0, 0, 0, 0, 0, 0]] := by decide +kernel

/-- R175: group 3 is RX, FORWARDED and POLICED of Port B, read and cleared. -/
theorem test_read_counters :
    let s := { parked with fc := { parked.fc with ports := ⟨.zero, ⟨0x0102, 3, 4, 5, 6, 7, 8⟩⟩ } }
    answers (.readCounters .c) [7, 3, 1] s = some [[7, 0, 0x02, 0x01, 3, 0, 4, 0]] ∧
      see (fun t => t.fc.ports.b) (exec (.readCounters .c) (ask [7, 3, 1] s)) = some ⟨0, 0, 0, 5, 6, 7, 8⟩ := by
  decide +kernel

/-- Chapter 10, 60,000 ms: part 1 answers the timestamp 41,050; 61,000 ms: CLEAR_FAULT empties the record. -/
theorem test_read_fault_and_clear_fault :
    let s := { secured with fc := { secured.fc with record := some ⟨.major, .monitorBlind, .none, .holding, 41050, 2⟩ } }
    answers (.readFault .c) [8, 1] s = some [[8, 0, 1, 0x5A, 0xA0, 0, 0, 0]] ∧
      answers (.readFault .c) [8, 0] s = some [[8, 0, 3, 5, 0xFF, 4, 2, 0]] ∧
      see (fun t => t.fc.record) (exec (.clearFault .c) (ask [9] s)) = some none := by decide +kernel

/-- The workshop floor of chapter 4, in HOLDING on a SERVICE claim. -/
def tested (timer : Nat) : State :=
  holdWith (fun h => { h with
    claims := [none, some ⟨.service, 1, some 600, none, some 120, 0, some timer⟩, none, none, none, none]
    demand := ⟨.hold, ⟨600, 120⟩, false⟩, result := some ⟨⟨120, 120⟩, false, 36000⟩ }) holding

/-- R84: the claim of slot 1, and its 110 s left. -/
theorem test_read_claims :
    answers (.readClaims .c) [10, 1, 0] (tested 109001) = some [[10, 0, 6, 1, 0x58, 0x02, 0, 0]] ∧
      answers (.readClaims .c) [10, 1, 1] (tested 109001) = some [[10, 0, 110, 0, 0, 0, 0, 0]] := by decide +kernel

/-- Chapter 4, workshop floor, 0 s: slot 1, HOLDING at 600 / 120. -/
theorem test_test_hold_enters :
    see (fun t => (holds t, t.mail.offers.map fun o => o.frame.data))
        (exec (.testHold .c) (ask [11, 1, 120, 0, 0x58, 0x02, 0, 0]
          (holdWith (fun h => { h with result := some ⟨⟨120, 120⟩, false, 36000⟩ }) inactive))) =
      some ((.holding, ⟨.hold, ⟨600, 120⟩, false⟩), [[11, 0, 1, 0, 0, 0, 0, 0]]) := by decide +kernel

/-- 10 s: the refresh raises circuit B to 400; 20 s: an expiry of 0 is BAD_VALUE. -/
theorem test_test_hold_refreshes :
    see holds (exec (.testHold .c) (ask [11, 1, 30, 0, 0x26, 0x02, 0x90, 0x01] (tested 110000))) =
        some (.holding, ⟨.hold, ⟨600, 400⟩, false⟩) ∧
      answers (.testHold .c) [11, 2, 0, 0, 0, 0, 0, 0] (tested 100000) = some [[11, 12, 0, 0, 0, 0, 0, 0]] := by
  decide +kernel

/-- 39 s: the driver present, the removal leaves a DRIVER claim; 45 s: no claim is BAD_INDEX. -/
theorem test_release_test :
    see (fun t => (holds t, t.hc.claims, t.events.set)) (exec (.releaseTest .c) (ask [12, 1] (tested 1000))) =
        some ((.holding, ⟨.hold, ⟨600, 120⟩, false⟩), driverOnly, 1#16 <<< 12) ∧
      answers (.releaseTest .c) [12, 1] (handover .awaiting) = some [[12, 10, 0, 0, 0, 0, 0, 0]] := by decide +kernel

/-- R186: accepted in PARKED, refused in HOLDING. -/
theorem test_reset_part : answers (.resetPart .c) [13] parked = some [[13, 0, 0, 0, 0, 0, 0, 0]] ∧
    answers (.resetPart .c) [13] holding = some [[13, 3, 0, 0, 0, 0, 0, 0]] := by decide +kernel

/-- R186: the reset keeps the Fault Record, and reads the node number. -/
theorem test_pending_reset_taken :
    see (fun t => (t.hc.state, t.loading, t.fc.record, t.sr.node))
        (exec (.pendingResetTaken 5) { parked with
          sr := { parked.sr with resetPending := .due }, fc := { parked.fc with record := some capacityRecord } }) =
      some (.off, true, some capacityRecord, 5) := by decide +kernel

/-- R185: a power-on reset empties the Fault Record. -/
theorem test_power_on_reset :
    see (fun t => (t.hc.state, t.loading, t.fc.record, t.sr.node))
        (exec (.powerOnReset 7) { parked with fc := { parked.fc with record := some capacityRecord } }) =
      some (.off, true, none, 7) := by decide +kernel

/-- R185: the load of the bank, and of an empty store. -/
theorem test_store_load_end :
    see (fun t => (t.hc.state, t.active == some act, t.tx.statusTimer))
        (exec .storeLoadEnd { State.reset with store := ⟨.holds bank true, .empty, false⟩ }) =
        some (.starting, true, some 100) ∧
      see (fun t => (t.hc.state, t.active.isSome, t.mail.faults)) (exec .storeLoadEnd State.reset) =
        some (.off, false, [⟨.major, .tablesInvalid, .none, none⟩]) := by decide +kernel

/-- R177: command byte 14 is BAD_VALUE, and a request without data is not answered. -/
theorem test_unknown_command_request :
    answers (.unknownCommandRequest .c) [14] parked = some [[14, 12, 0, 0, 0, 0, 0, 0]] ∧
      answers (.unknownCommandRequest .c) [] parked = some [] := by decide +kernel

/-! ## Witnesses: states that meet the hypotheses of the statements, clause by clause -/

/-- A claim table with one claim, in slot 1, has no other. -/
theorem only_slot_one (c : Claim) (i : Nat) (x : Claim)
    (h : [none, some c, none, none, none, none][i]? = some (some x)) : i = 1 := by
  rcases i with _ | _ | _ | _ | _ | _ | i <;> simp at h ⊢

theorem witness_StepRunsTheFrontCommand :
    (∃ s : State, s.pending = [.refillExpiry, .evaluation]) ∧ (∃ s : State, s.pending = []) ∧
      (.refillExpiry, some 100) ∈ expiries run ∧ (.stationaryTimerExpiry, none) ∈ expiries run ∧
      ∀ c, some c ∈ (tested 500).hc.claims → c.source = .service → c.tag = (1 : Fin 4).val → c.timer ≠ some 0 := by
  refine ⟨⟨run.setPending _, rfl⟩, ⟨run, rfl⟩, ?_, ?_, fun c h _ _ => ?_⟩
  · decide +kernel
  · decide +kernel
  · simp [tested, holdWith] at h
    simp [h]

theorem witness_LoadThatPassesStartsEveryBlock :
    let s : State := { State.reset with store := ⟨.holds bank true, .empty, false⟩ }
    s.loading = true ∧ s.store.current = .holds bank true ∧ checkBank bank = none ∧
      bank.params.pressureFloor ≤ bank.params.maxPressureA ∧ bank.params.pressureFloor ≤ bank.params.maxPressureB ∧
      (bank.monitor 3).inUse = true ∧ FieldEnds bank 3 7 ∧ FieldEnds bank 3 8 ∧ act.minLength 3 = 8 ∧
      (bank.monitor 12).inUse = true ∧ FieldEnds bank 12 1 ∧ act.minLength 12 = 1 := by
  simp only [FieldEnds]
  exact ⟨rfl, rfl, test_the_bank_passes_the_checks, by decide, by decide, rfl, .inr (.inl ⟨by decide, by decide⟩),
    .inr (.inr ⟨by decide, by decide⟩), by decide +kernel, rfl,
    .inl ⟨ext .springState 12 0 2, by decide +kernel, by decide, rfl, by decide⟩, by decide +kernel⟩

/-- An empty store, and a bank of defaults, which fails V5. -/
theorem witness_LoadThatFailsReportsTablesInvalid :
    let s : State := { State.reset with store := ⟨.holds .default true, .empty, false⟩ }
    (State.reset.loading = true ∧ ∀ b, State.reset.store.current = .holds b true → checkBank b ≠ none) ∧
      s.loading = true ∧ ∀ b, s.store.current = .holds b true → checkBank b ≠ none := by
  refine ⟨⟨rfl, fun b h => by cases h⟩, rfl, fun b h => ?_⟩
  cases h
  decide +kernel

theorem witness_ActivateReportsTheFirstFailedCheck :
    (∀ b ∈ [bank, unnamed], ∀ x ∈ b.extractions, 1 ≤ x.width) ∧
    (let s := ask [5] parked; Asks .c (req [5]) [] s ∧ Ready s ∧ s.sr.serviceMode = false) ∧
    (let s := ask [5] (serving .default)
     Asks .c (req [5]) [] s ∧ Ready s ∧ s.sr.serviceMode = true ∧ s.sr.staging = some .default ∧
       checkBank .default = some ⟨5, none⟩) ∧
    (let s := ask [5] (serving unnamed)
     Asks .c (req [5]) [] s ∧ Ready s ∧ s.sr.serviceMode = true ∧ s.sr.staging = some unnamed ∧
       checkBank unnamed = some ⟨3, some (14, 0)⟩) :=
  ⟨by decide +kernel, ⟨asks_ask _ _, ⟨rfl, rfl⟩, rfl⟩, ⟨asks_ask _ _, ⟨rfl, rfl⟩, rfl, rfl, by decide +kernel⟩,
    ⟨asks_ask _ _, ⟨rfl, rfl⟩, rfl, rfl, by decide +kernel⟩⟩

theorem witness_StoreWriteCompletes :
    let s : State := { run with sr := { run.sr with storeWrite := some .c } }
    s.sr.storeWrite = some .c ∧ s.active = some act := ⟨rfl, rfl⟩

theorem witness_ResetPartIsAnswered :
    (∀ s ∈ [parked, { State.reset with loading := false }, { secured with sr := (serving bank).sr }],
      Asks .c (req [13]) [] (ask [13] s) ∧ Ready (ask [13] s)) ∧
    (parked.hc.state = .parked ∧ State.reset.hc.state = .off ∧ (serving bank).sr.serviceMode = true) ∧
    (Asks .c (req [13]) [] (ask [13] holding) ∧ Ready (ask [13] holding) ∧ holding.hc.state ≠ .parked ∧
      holding.hc.state ≠ .off ∧ holding.sr.serviceMode = false) := by
  refine ⟨fun s h => ⟨asks_ask _ _, ?_⟩, ⟨rfl, rfl, rfl⟩, asks_ask _ _, ⟨rfl, rfl⟩, by decide, by decide, rfl⟩
  simp only [List.mem_cons, List.not_mem_nil, or_false] at h
  rcases h with rfl | rfl | rfl <;> exact ⟨rfl, rfl⟩

theorem witness_PendingResetKeepsRecordAndCounters :
    ({ parked with sr := { parked.sr with resetPending := .due } } : State).sr.resetPending = .due ∧
      parked.sr.resetPending ≠ .due := ⟨rfl, by decide⟩

/-- The load, BUS_OFF, each own identifier under a bank and in pass-through, and the request identifier of node 2. -/
theorem witness_ArrivalDroppedOrSteered :
    let off : State := { run with links := ⟨⟨true, 16, some 500⟩, .start⟩ }
    let pass : State := { State.reset with loading := false }
    let takes := fun (s : State) => s.loading = false ∧ (s.links.get .c).busOff = false
    State.reset.loading = true ∧ (off.links.get .c).busOff = true ∧ takes run ∧ takes pass ∧
      run.active = some act ∧ pass.active = none ∧
      Ident.std 0x0C8 = act.bank.params.demandIdent ∧ Ident.std 0x3E0 = act.bank.params.statusIdent ∧
      Ident.std 0x6FA = .std (0x6F8 + run.sr.node.toNat) ∧ Ident.std 0x6F2 = .std (0x6F0 + run.sr.node.toNat) ∧
      (∀ a, run.active = some a → Ident.std 0x6F2 ≠ a.bank.params.demandIdent ∧
        Ident.std 0x6F2 ≠ a.bank.params.statusIdent) ∧
      (⟨.std 0x6F2, false, [1]⟩ : Frame).wf = true := by
  refine ⟨rfl, rfl, ⟨rfl, rfl⟩, ⟨rfl, rfl⟩, rfl, rfl, rfl, rfl, rfl, rfl, fun a h => ?_, rfl⟩
  cases h
  decide

/-- A frame matched by an entry: watched, blocked, forwarded by class 3 with a token and without, unpoliced (entry 13),
and with the other port in BUS_OFF. -/
theorem witness_ArrivalMatchedByAnEntry :
    let meets := fun (p : Port) (f : Frame) (s : State) (e : ForwardEntry) =>
      f.wf = true ∧ s.loading = false ∧ (s.links.get p).busOff = false ∧ s.active = some act ∧ f.remote = false ∧
      f.ident ≠ act.bank.params.demandIdent ∧ f.ident ≠ act.bank.params.statusIdent ∧
      f.ident ≠ .std (0x6F8 + s.sr.node.toNat) ∧ f.ident ≠ .std (0x6F0 + s.sr.node.toNat) ∧
      act.bank.forwarding.find? (fun x => x.inUse && x.ident == f.ident && x.port.matches p) = some e
    let off : State := { run with links := ⟨.start, ⟨true, 16, some 500⟩⟩ }
    meets .b ⟨.std 0x112, false, [1]⟩ run ⟨true, .std 0x112, .b, .watch, 0, 12⟩ ∧
      meets .c ⟨.std 0x3A0, false, []⟩ run ⟨true, .std 0x3A0, .c, .block, 0, 0⟩ ∧
      meets .c drumFrame run ⟨true, .std 0x2A4, .c, .passWatch, 3, 5⟩ ∧ run.fe.buckets[3 - 1]? = some 3 ∧
      (run.links.get Port.c.other).busOff = false ∧
      meets .c drumFrame (tokens 0 run) ⟨true, .std 0x2A4, .c, .passWatch, 3, 5⟩ ∧
      (tokens 0 run).fe.buckets[3 - 1]? = some 0 ∧
      meets .b grade176 run ⟨true, .std 0x18F, .either, .passWatch, 0, 3⟩ ∧
      (run.links.get Port.b.other).busOff = false ∧
      meets .c grade176 off ⟨true, .std 0x18F, .either, .passWatch, 0, 3⟩ ∧
      (off.links.get Port.c.other).busOff = true := by
  refine ⟨⟨?_, rfl, ?_, rfl, ?_⟩, ⟨?_, rfl, ?_, rfl, ?_⟩, ⟨?_, rfl, ?_, rfl, ?_⟩, ?_, ?_, ⟨?_, rfl, ?_, rfl, ?_⟩, ?_,
    ⟨?_, rfl, ?_, rfl, ?_⟩, ?_, ⟨?_, rfl, ?_, rfl, ?_⟩, ?_⟩ <;> decide +kernel

/-- No entry: blocked by default at Port C, passed at Port B and in pass-through, a remote frame, and BUS_OFF beyond. -/
theorem witness_ArrivalMatchedByNoEntry :
    let meets := fun (p : Port) (f : Frame) (s : State) =>
      f.wf = true ∧ s.loading = false ∧ (s.links.get p).busOff = false ∧
      (∀ a, s.active = some a → f.ident ≠ a.bank.params.demandIdent ∧ f.ident ≠ a.bank.params.statusIdent ∧
        (f.remote = true ∨ ∀ x ∈ a.bank.forwarding, x.inUse = true → x.ident = f.ident → x.port.matches p = false)) ∧
      (s.active = none → f.ident ≠ .std 0x3E0) ∧
      f.ident ≠ .std (0x6F8 + s.sr.node.toNat) ∧ f.ident ≠ .std (0x6F0 + s.sr.node.toNat)
    let off : State := { run with links := ⟨⟨true, 16, some 500⟩, .start⟩ }
    let pass : State := { State.reset with loading := false }
    meets .c ⟨.std 0x7FF, false, []⟩ run ∧ act.bank.params.blockDefaultC = true ∧
      meets .b ⟨.std 0x3A0, false, []⟩ run ∧ act.bank.params.blockDefaultB = false ∧
      (run.links.get Port.b.other).busOff = false ∧
      meets .b ⟨.std 0x2A4, true, []⟩ run ∧
      meets .b ⟨.std 0x3A0, false, []⟩ off ∧ (off.links.get Port.b.other).busOff = true ∧
      meets .c ⟨.std 0x18F, false, []⟩ pass ∧ pass.active = none := by
  refine ⟨⟨?_, rfl, ?_, ?_, ?_, ?_⟩, ?_, ⟨?_, rfl, ?_, ?_, ?_, ?_⟩, ?_, ?_, ⟨?_, rfl, ?_, ?_, ?_, ?_⟩,
    ⟨?_, rfl, ?_, ?_, ?_, ?_⟩, ?_, ⟨?_, rfl, ?_, ?_, ?_, ?_⟩, rfl⟩ <;>
    decide +kernel

theorem witness_RefillFillsTheBuckets :
    (refilling run).active = some act ∧ (refilling run).fe.refill = some 0 ∧ (refilling run).fe.buckets.length = 7 := by
  refine ⟨rfl, rfl, ?_⟩
  decide

/-- The bank with the counter of the grade frame modulo 15, which a frame's counter of 15 reaches. -/
def fifteen : Bank := { bank with monitors := bank.monitors.set 3 { gradeMon with counterMod := 15 } }

/-- A frame of seven bytes, one with a wrong check byte and one with the right one; then no counter, a counter at the
modulus, and the counter 10 with no baseline, as a repeat, as the successor of 9 and as a jump from 11. -/
theorem witness_FrameTestsInTheirOrder :
    let short : List Byte := [0xB0, 0, 0, 0, 0, 0, 0x0A]
    let high : List Byte := [0xB0, 0, 0, 0, 0, 0, 0x0F, 0x1F]
    let e := act.bank.monitor 3
    let good := fun (data : List Byte) (v : Byte) =>
      v.toNat = 255 - (e.checkSeed + byteSum (data.take e.checkPos)) % 256
    let counter := fun (data : List Byte) => leNat data / 2 ^ e.counterStart % 2 ^ e.counterWidth
    let top := fifteen.monitor 3
    short.length < act.minLength 3 ∧ act.minLength 3 ≤ (short ++ [0x25]).length ∧ e.checkPos ≠ 0 ∧
      (short ++ [0x25])[e.checkPos]? = some 0x25 ∧ ¬ good (short ++ [0x25]) 0x25 ∧
      act.minLength 3 ≤ grade176.data.length ∧ grade176.data[e.checkPos]? = some 0x24 ∧ good grade176.data 0x24 ∧
      ((act.bank.monitor 0).counterMod = 0 ∧ (act.bank.monitor 0).checkPos = 0 ∧ act.minLength 0 ≤ 8) ∧
      (fifteen.toActive.minLength 3 ≤ high.length ∧ high[top.checkPos]? = some 0x1F ∧
        0x1F = 255 - (top.checkSeed + byteSum (high.take top.checkPos)) % 256 ∧ top.counterMod ≠ 0 ∧
        top.counterMod ≤ leNat high / 2 ^ top.counterStart % 2 ^ top.counterWidth) ∧
      e.counterMod ≠ 0 ∧ counter grade176.data < e.counterMod ∧ counter grade176.data = 10 ∧
      10 = (9 + 1) % e.counterMod ∧ (10 ≠ 11 ∧ 10 ≠ (11 + 1) % e.counterMod) := by
  decide +kernel

/-- The bank with K = 1 for the grade frame. -/
def quick : Bank := { bank with monitors := bank.monitors.set 3 { gradeMon with k := 1 } }

/-- A copy of another identifier, and of a monitor not in use; then good samples in ACQUIRING below and at K, in LOST
with K = 1 and K = 2, and in VALID. The body controller's frame in VALID: the park switch, which differs, with no
candidate and with one that agrees; the ignition, which differs, and is not debounced; the pusher, which is the same. -/
theorem witness_WatchCopyTakesAGoodSample :
    let fresh : MonitorState := ⟨.acquiring, 0, [], none, none, false⟩
    let lost : MonitorState := ⟨.lost, 2, [], none, some 20, true⟩
    let state := fun (m : MonitorState) => gradeState m ⟨.noData, none, none⟩ grade176
    let meets := fun (a : ActiveBank) (m : MonitorState) =>
      let s := { state m with active := some a }
      s.mail.watch = [] ++ ⟨3, grade176⟩ :: [] ∧ s.sm.monitors.length = 24 ∧ s.sm.svt.length = 29 ∧
      (a.bank.monitor 3).inUse = true ∧ grade176.ident = (a.bank.monitor 3).ident ∧ s.sm.state 3 = m ∧
      (testFrame a 3 (s.sm.state 3) s.cm grade176.data).error = none ∧
      ((testFrame a 3 (s.sm.state 3) s.cm grade176.data).values.map fun x => x.1) = [.grade]
    let body := testFrame act 7 (validOnce []) inactive.cm [0]
    (SignalKind.grade.codes = none ∧ body.error = none ∧
        body.values = [(.parkSwitch, true, 0), (.ignition, false, 0), (.pusherDown, false, 0)] ∧
        (body.values.map fun x => x.1).Nodup ∧
        ∀ k ∈ [SignalKind.parkSwitch, .ignition, .pusherDown], k.codes ≠ none) ∧
      (∀ candidate ∈ [none, some (0 : Int)],
        (({ inactive.sm with svt := inactive.sm.svt.set SignalKind.parkSwitch.code ⟨.valid, some 1, candidate⟩ } :
          SignalMonitor).entry .parkSwitch) = ⟨.valid, some 1, candidate⟩) ∧
      (gradeState fresh ⟨.noData, none, none⟩ drumFrame).mail.watch = [] ++ ⟨3, drumFrame⟩ :: [] ∧
      drumFrame.ident ≠ (act.bank.monitor 3).ident ∧ (act.bank.monitor 2).inUse = false ∧
      meets act fresh ∧ fresh.good + 1 < (act.bank.monitor 3).k ∧
      meets act (acquiring 1) ∧ (act.bank.monitor 3).k ≤ (acquiring 1).good + 1 ∧
      meets quick.toActive lost ∧ (quick.monitor 3).k ≤ 1 ∧ meets act lost ∧ 1 < (act.bank.monitor 3).k ∧
      meets act { validOnce [false, false, false, false, true] with baseline := some 9 } := by
  refine ⟨?_, ?_, ?_⟩ <;> decide +kernel

/-- ACQUIRING, LOST, VALID with the first error and VALID with the second, at a timeout; and a frame with a wrong check
byte in each, and a jump of the counter in VALID. -/
theorem witness_PeriodTimeoutTakesAnErrorSample :
    let bad : Frame := { grade176 with data := [0xB0, 0, 0, 0, 0, 0, 0x0A, 0x25] }
    let state := fun (m : MonitorState) (f : Frame) => gradeState { m with timer := some 0 } ⟨.valid, some 177, none⟩ f
    let meets := fun (m : MonitorState) => ((state m bad).sm.state 3).timer = some 0 ∧
      ((state m bad).sm.state 3).sync = m.sync ∧
      (state m bad).sm.monitors.length = 24 ∧ (state m bad).sm.svt.length = 29 ∧
      (testFrame act 3 ((state m bad).sm.state 3) (state m bad).cm bad.data).error = some .check
    let lost : MonitorState := ⟨.lost, 2, [], none, some 10, true⟩
    let one := validOnce [false, false, false, false, false]
    let two := validOnce [false, false, false, false, true]
    (∀ m f, (state m f).active = some act ∧ (state m f).mail.watch = [] ++ ⟨(3 : Fin 24).val, f⟩ :: []) ∧
      ((act.bank.monitor 3).inUse = true ∧ bad.ident = (act.bank.monitor 3).ident ∧
        grade178.ident = (act.bank.monitor 3).ident) ∧
      meets (acquiring 1) ∧ meets lost ∧
      meets one ∧ (one.window.tail ++ [true]).count true < (act.bank.monitor 3).m ∧
      meets two ∧ (act.bank.monitor 3).m ≤ (two.window.tail ++ [true]).count true ∧
      (testFrame act 3 ((state one grade178).sm.state 3) (state one grade178).cm grade178.data).error =
        some .counterJump := by
  refine ⟨fun _ _ => ⟨rfl, rfl⟩, ?_⟩
  decide +kernel

/-- The report of a loss (LossReported): the grade's monitor carries a mandatory kind, that of two wheel pulses none. -/
theorem witness_LossReported :
    IsLowest (fun x => x ∈ bank.kindsOf 3 ∧ x ∈ SignalKind.mandatory) .grade ∧
      (∀ k ∈ bank.kindsOf 10, k ∉ SignalKind.mandatory) ∧ IsLowest (fun x => x ∈ bank.kindsOf 10) (.wheelPulse 0) := by
  have h3 : bank.kindsOf 3 = [.grade] := by decide +kernel
  have h10 : bank.kindsOf 10 = [.wheelPulse 0, .wheelPulse 1] := by decide +kernel
  rw [h3, h10]
  refine ⟨⟨by decide, fun k h => ?_⟩, by decide, ⟨by decide, fun k h => ?_⟩⟩
  · rw [List.mem_singleton.mp h.1]
  · simp only [List.mem_cons, List.not_mem_nil, or_false] at h
    rcases h with rfl | rfl <;> decide

/-- The worked case, and a truck of no load whose Rated Loads are 0. -/
theorem witness_SharesAndPressures :
    let empty : Bank := { bank with axles := ⟨⟨0, 38⟩, ⟨0, 38⟩, ⟨0, 55⟩, ⟨0, 55⟩, ⟨0, 45⟩⟩ }
    let bare := { ramp18 with loads := ⟨.noData, .noData, .noData, .noData, .noData⟩ }
    let light := { ramp18 with loads := ramp18.loads.set .f2 ⟨.valid, some 0⟩ }
    (.f1 ∈ ramp18.counted ∧ totalLoad bank ramp18 ≠ 0 ∧ 0 < (bank.axles.get .f1).gain) ∧
      (.f1 ∈ bare.counted ∧ totalLoad empty bare = 0) ∧
      (.f2 ∈ light.counted ∧ finalLoad bank light .f2 = 0 ∧ totalLoad bank light ≠ 0 ∧ axleShare bank light .f2 = 0) := by
  decide +kernel

/-- The threshold itself, one below it, a drum that is not VALID, the discharge, and both kinds of grade. -/
theorem witness_DrumMarginAndGrade :
    let slow := { ramp18 with drum := ⟨.valid, some (-19)⟩ }
    bank.params.drumThreshold ≤ (-20 : Int).natAbs ∧ (-19 : Int).natAbs < bank.params.drumThreshold ∧
      slow.drum = ⟨.valid, some (-19)⟩ ∧ slow.discharge ≠ ⟨.valid, some 1⟩ ∧
      ({ ramp18 with drum := ⟨.lost, some 0⟩ } : CalcImage).drum.validity ≠ .valid ∧
      ({ slow with discharge := ⟨.valid, some 1⟩ } : CalcImage).discharge = ⟨.valid, some 1⟩ ∧
      ramp18.grade = ⟨.valid, some 180⟩ ∧
      ({ ramp18 with grade := ⟨.lost, some 180⟩ } : CalcImage).grade.validity ≠ .valid := by
  decide +kernel

/-- The grade lost, with the pusher raised and lowered; loads of 0 on every axle; a load lost. -/
theorem witness_CalcPublicationComputesOnce :
    let items := [(⟨.grade, .lost, some 180, false⟩ : PubItem)]
    let s := calcState items
    let down := { ramp18 with pusher := ⟨.valid, some 1⟩ }
    let empty := { ramp18 with
      loads := ⟨⟨.valid, some 0⟩, ⟨.valid, some 0⟩, ⟨.valid, some (-5)⟩, ⟨.valid, some 0⟩, .noData⟩ }
    let broken := { ramp18 with loads := ramp18.loads.set .f1 ⟨.lost, some 720⟩ }
    s.active = some act ∧
      s.hpc = some ⟨ramp18, ⟨⟨515, 519⟩, false, 36000⟩, ⟨false, false, false, false, false⟩, false⟩ ∧
      s.mail.toCalc = items :: [] ∧ act.bank.params.pressureFloor ≤ act.bank.params.maxPressureA ∧
      act.bank.params.pressureFloor ≤ act.bank.params.maxPressureB ∧ .f1 ∈ ramp18.counted ∧
      down.pusher = ⟨.valid, some 1⟩ ∧ ramp18.pusher ≠ ⟨.valid, some 1⟩ ∧ ramp18.pusher.validity ≠ .unmapped ∧
      (ramp18.counted.map (loadUsed bank ramp18)).sum ≠ 0 ∧ (empty.counted.map (loadUsed bank empty)).sum = 0 ∧
      ramp18.loads.get .f1 = ⟨.valid, some 720⟩ ∧ (broken.loads.get .f1).validity ≠ .valid := by
  refine ⟨rfl, rfl, rfl, ?_⟩
  decide +kernel

/-- The DRIVER claim alone. -/
theorem driver_only (c : Claim) (h : some c ∈ driverOnly) : c.source = .driver ∨ c.source = .monitor := by
  simp [driverOnly] at h
  simp [h]

/-- The drive-off of chapter 5's worked sequence, at 4,050 ms. -/
def pulling : HcImage := { sitting with drivePedal := ⟨.valid, some 12⟩, torque := ⟨.valid, some 74⟩ }

/-- The criterion uphill, the cell of 71 % exactly met, and downhill; the bound of a band, and a value past the last. -/
theorem witness_DriveOffCriterion :
    { ready with image := { pulling with torque := ⟨.valid, some 71⟩ } }.criterion bank = true ∧
      { ready with image := { pulling with torque := ⟨.valid, some 70⟩ } }.criterion bank = false ∧
      { ready with image := { pulling with gear := ⟨.valid, some 2⟩ } }.criterion bank = true ∧
      IsBand bank.gradeBounds 160 4 ∧ IsBand bank.gradeBounds 161 5 ∧ IsBand bank.gradeBounds 401 7 ∧
      IsBand bank.massBounds 36000 4 ∧ bank.cells[5 * 6 + 4]? = some 71 ∧
      ready.result = some ⟨⟨515, 519⟩, false, 36000⟩ := by
  refine ⟨by decide +kernel, by decide +kernel, by decide +kernel, ?_, ?_, ?_, ?_, by decide, rfl⟩
  all_goals
    refine ⟨by decide, fun j x hj hx => ?_, fun x hx => ?_⟩
    · interval_cases j <;> simp [bank, Bank.default] at hx <;> omega
    · simp [bank, Bank.default] at hx ⊢ <;> omega

/-- A publication set of one kind. -/
def one (x : PubItem) : HcSet := ⟨[x], none, none, none⟩

/-- A kind published VALID with a value, not at its monitor's entry to VALID. -/
def valid (k : SignalKind) (v : Int) : PubItem := ⟨k, .valid, some v, false⟩

/-- A state of the Hold Controller with the set recorded and out of its channel. -/
def taking (x : PubItem) (s : State) : State := withSet (one x) [] (hcState [x] s)

/-- The hold states' tests of R54 and R55 (StandTested): the spring brake applied, the driver gone, the pedal, nothing;
in ARMED with the pedal and without it. -/
theorem witness_StandTested :
    let h := fun (img : HcImage) => { inactive.hc with image := img }
    let pedal := { sitting with brakePedal := ⟨.valid, some 1⟩ }
    let gone := { sitting with doorOpen := ⟨.valid, some 1⟩, seat := ⟨.valid, some 0⟩ }
    inactive.hc.state = .inactive ∧ armed.hc.state = .armed ∧ Parks (h { sitting with spring := ⟨.valid, some 1⟩ }) ∧
      (¬ Parks (h gone) ∧ Leaves (h gone)) ∧
      (¬ Parks (h pedal) ∧ ¬ Leaves (h pedal) ∧ Arms bank (h pedal)) ∧
      (¬ Parks (h sitting) ∧ ¬ Leaves (h sitting) ∧ ¬ Arms bank (h sitting)) ∧
      (¬ Parks armed.hc ∧ ¬ Leaves armed.hc ∧ Arms bank armed.hc) ∧
      ¬ Arms bank { armed.hc with image := sitting } := by
  simp only [← parks_iff, ← leaves_iff, ← arms_iff]
  decide +kernel

/-- An evaluation of the drive-off criterion (CriterionTested): the Min Hold timer running; not met; met before; met with
a DISCHARGE claim beside the driver's; met with the driver's claim alone. The rollback test behind it (RollbackTested):
none; one of three re-applications; the third. -/
theorem witness_CriterionTested :
    let drives := { holding.hc with image := pulling }
    let other : Claim := ⟨.discharge, 0, none, none, none, 0, none⟩
    let full := { drives with claims := [none, some ⟨.driver, 0, none, none, none, 0, none⟩, some other, none, none, none] }
    let rolling := { releasing.hc with image := { sitting with outputSpeed := ⟨.valid, some (-22)⟩ } }
    ({ drives with minHold := some 500 }.minHold.isSome = true ∧ bank.params.minHold ≠ 0) ∧
      (holding.hc.minHold = none ∧ holding.hc.criterion bank = false) ∧
      (drives.minHold = none ∧ drives.criterion bank = true ∧ { drives with metMemory := true }.metMemory = true) ∧
      (full.criterion bank = true ∧ full.metMemory = false ∧ some other ∈ full.claims ∧ other.drivenOff = false ∧
        full.resultPressure.within full.demand.pressure ∧ (full.limitedFloors bank).within full.demand.pressure) ∧
      (drives.metMemory = false ∧ (∀ c, some c ∈ drives.claims → c.drivenOff = true) ∧ drives.claims.length = 6 ∧
        drives.resultPressure.within drives.demand.pressure ∧ drives.intent = some true) ∧
      ¬ RollsBack bank true releasing.hc ∧
      (RollsBack bank true rolling ∧ rolling.reapply + 1 < bank.params.reapplyLimit) ∧
      bank.params.reapplyLimit ≤ { rolling with reapply := 2 }.reapply + 1 := by
  refine ⟨?_, ?_, ?_, ⟨?_, rfl, ?_, rfl, ⟨?_, ?_⟩, ?_, ?_⟩,
    ⟨rfl, fun c h => by rcases driver_only c h with h | h <;> simp [Claim.drivenOff, h], rfl, ⟨?_, ?_⟩, rfl⟩, ?_⟩
  all_goals first | decide +kernel | (simp only [← rollsBack_iff]; decide +kernel)

/-- The signal sources of a set (SourcesTaken), a pendant's signal rising beside another kind: in STARTING, refused and
granted in INACTIVE, placed and refreshed in HOLDING and without a free slot, in RELEASING and in PARKED. Then its falling:
without a claim of its own, and with its claim among others, alone, and alone with the driver gone. -/
theorem witness_SourcesTaken :
    let rise : HcSet := ⟨[valid .pendantRear 1, valid .seatOccupied 1], none, none, none⟩
    let fall : HcSet := ⟨[valid .pendantRear 0, valid .seatOccupied 1], none, none, none⟩
    let up := fun (x : State) => withSet rise [] x
    let down := fun (x : State) => withSet fall [] x
    let guarded := holdWith (fun h => { h with guard := some 500 }) inactive
    let mine := signalClaim .pendantRear 0
    let other := signalClaim .discharge 0
    let claimed := fun (l : Latch) (claims : List (Option Claim)) =>
      holdWith (fun h => { h with latchRear := l, claims := claims }) holding
    let full := (List.range 4).map fun n => some (⟨.service, n, none, none, some 9, 0, some 9000⟩ : Claim)
    let crowded := claimed .idle ([none, some other] ++ full)
    let refreshed := claimed .idle [none, some mine, none, none, none, none]
    let held := claimed .asserted [none, some mine, none, none, none, none]
    let both := claimed .asserted [none, some mine, some other, none, none, none]
    let gone := holdWith (fun h => { h with image := { sitting with doorOpen := ⟨.valid, some 1⟩ } }) held
    let away : HcSet := ⟨[valid .pendantRear 0, valid .seatOccupied 0], none, none, none⟩
    (Carries rise .pendantRear ∧ ¬ Carries rise .pendantSide ∧ ¬ Carries rise .dischargeActive ∧
        Carries fall .pendantRear ∧ Carries away .pendantRear) ∧
      (∀ x ∈ [starting, inactive, guarded, holding, crowded, refreshed, releasing, parked],
        (up x).hc.latchSig .pendantRear = ⟨.valid, some 1⟩ ∧ (up x).hc.latch .pendantRear = .idle) ∧
      (up starting).hc.state = .starting ∧
      ((up guarded).hc.state = .inactive ∧ (up guarded).hc.entryRefusal bank = some .guard) ∧
      ((up inactive).hc.state = .inactive ∧ EntryHolds bank (up inactive).hc ∧ (up inactive).hc.claims = noClaims) ∧
      ((up holding).hc.state = .holding ∧
        (∀ c, some c ∈ (up holding).hc.claims → ¬ (c.source = .pendantRear ∧ c.tag = 0)) ∧
        (up holding).hc.claims[2]? = some none ∧ (up holding).hc.claims[1]? ≠ some none) ∧
      ((up refreshed).hc.claims[1]? = some (some mine) ∧
        (∀ (i : Nat) x, (up refreshed).hc.claims[i]? = some (some x) → i = 1) ∧
        (up refreshed).hc.resultPressure.within (up refreshed).hc.demand.pressure ∧
        ((up refreshed).hc.limitedFloors bank).within (up refreshed).hc.demand.pressure) ∧
      ((∀ c, some c ∈ (up crowded).hc.claims → ¬ (c.source = .pendantRear ∧ c.tag = 0)) ∧
        ∀ i, 1 ≤ i → i ≤ 5 → (up crowded).hc.claims[i]? ≠ some none) ∧
      ((up releasing).hc.state = .releasing ∧ (up releasing).hc.ramp.isSome = true ∧
        (up releasing).hc.claims = noClaims) ∧
      (up parked).hc.state = .parked ∧
      ((down holding).hc.latchSig .pendantRear = ⟨.valid, some 0⟩ ∧ (down holding).hc.latch .pendantRear ≠ .asserted) ∧
      (∀ x ∈ [down held, down both, withSet away [] gone], x.hc.latchSig .pendantRear = ⟨.valid, some 0⟩ ∧
        x.hc.latch .pendantRear = .asserted ∧ x.hc.state = .holding ∧ x.hc.claims.length = 6 ∧
        x.hc.claims[1]? = some (some mine)) ∧
      some (some other) = (both.hc.claims.set 1 none)[2]? ∧ (∀ x, some x ∉ held.hc.claims.set 1 none) ∧
      ¬ Absent (down held).hc ∧ Absent (withSet away [] gone).hc := by
  refine ⟨?_, ?_, rfl, ⟨rfl, ?_⟩, ⟨rfl, entryHolds_iff.mp ?_, rfl⟩, ⟨rfl, fun c h => ?_, rfl, by decide⟩,
    ⟨rfl, only_slot_one _, ?_, ?_⟩, ⟨fun c h => ?_, fun i h1 h2 => ?_⟩, ⟨rfl, rfl, rfl⟩, rfl, ?_, ?_, rfl,
    fun x h => ?_, ?_, ?_⟩
  case refine_5 => rcases driver_only c h with h | h <;> simp [h]
  case refine_8 =>
    simp [withSet, recorded, holdWith, signalClaim] at h
    rcases h with rfl | ⟨_, _, rfl⟩ <;> simp
  case refine_9 => interval_cases i <;> simp [withSet, recorded, holdWith, List.range, List.range.loop]
  case refine_12 => simp [holdWith] at h
  all_goals first | decide +kernel | (simp only [Carries, Absent, Circuits.within]; decide +kernel)

/-- A set that completes the second condition of R7, the truck moving and standing, SPRING_STATE applied and not; one that
does not. In INACTIVE and ARMED with the park-exit mark set: a set that keeps it, one that leaves SPRING_STATE not applied
and one that sets the switch; and a pendant's request in the same set as the switch, granted, which leaves the state, and
refused under the guard, which does not. -/
theorem witness_PublicationLeavesStarting :
    let set := fun (v : Int) => (⟨[⟨.springState, .valid, some v, true⟩], some false, some true, none⟩ : HcSet)
    let s := fun (v : Int) => mailed starting fun m => { m with toHc := [set v] }
    let standing := holdWith (fun h => { h with stationary := true }) (s 0)
    let marked := holdWith (fun h => { h with parkExit := true }) inactive
    let guarded := holdWith (fun h => { h with guard := some 500 }) marked
    let mixed : HcSet := ⟨[valid .pendantRear 1, valid .parkSwitch 1], none, none, none⟩
    let after := fun (x : State) => takeLatches bank mixed.items (withSet mixed [] x)
    (∀ v, (s v).active = some act ∧ (s v).hc.state = .starting ∧ (s v).mail.toHc = set v :: [] ∧
        (set v).allOnce = some true) ∧
      (∀ x y, (hcState [x] y).mail.toHc = one x :: [] ∧ (hcState [x] y).hc = y.hc ∧ (one x).allOnce ≠ some true) ∧
      (Applied (withSet (set 1) [] (s 1)).hc ∧ ¬ Applied (withSet (set 0) [] (s 0)).hc ∧ (s 0).hc.stationary = false ∧
        standing.hc.stationary = true ∧ standing.hc.state = .starting) ∧
      (∀ x ∈ [valid .grade 180, valid .springState 0, valid .parkSwitch 1], NoSource (one x)) ∧
      (marked.active = some act ∧ marked.hc.state = .inactive ∧ armed.hc.state = .armed ∧ marked.hc.parkExit = true) ∧
      (¬ Carries (one (valid .grade 180)) .springState ∧ ¬ Carries (one (valid .grade 180)) .parkSwitch) ∧
      (Carries (one (valid .springState 0)) .springState ∧ ¬ Applied (taking (valid .springState 0) marked).hc) ∧
      Carries (one (valid .parkSwitch 1)) .parkSwitch ∧
      (taking (valid .parkSwitch 1) marked).hc.image.parkSwitch = ⟨.valid, some 1⟩ ∧
      (after marked).hc.state ≠ marked.hc.state ∧ (after guarded).hc.state = guarded.hc.state ∧
      (after guarded).hc.latchRear = .refused := by
  refine ⟨fun _ => ⟨rfl, rfl, rfl, rfl⟩, fun _ _ => ⟨rfl, rfl, nofun⟩, ?_⟩
  simp only [NoSource, Carries, Applied]
  decide +kernel

/-- In HOLDING ignition off, a kind of no condition, and a kind of the criterion; in RELEASING ignition off, OUTPUT_SPEED
and neither; in HANDOVER SPRING_STATE applied and not, in each phase and past the deadline; in PARKED a BLIND part that
loses SPRING_STATE, the switch released with and without the pedal and in service mode, and a kind of no condition; in
SECURED SPRING_STATE applied and not, and another kind. Last, a pendant's request in the same set as ignition off, which
HOLDING hands over on and RELEASING takes first, and the discharge's in the same set as the switch, which PARKED tests. -/
theorem witness_PublicationHandsOver :
    let off := valid .ignition 0
    let seat := valid .seatOccupied 1
    let torque := valid .engineTorque 74
    let speed := valid .outputSpeed (-22)
    let on := valid .springState 1
    let away := valid .springState 0
    let switch := valid .parkSwitch 0
    let late := holdWith (fun h => { h with deadline := true }) (handover .overlap)
    let blind := holdWith (fun h => { h with blind := true }) parked
    let pressed := holdWith (fun h => { h with image := { h.image with brakePedal := ⟨.valid, some 1⟩ } }) parked
    let mixed : HcSet := ⟨[valid .pendantRear 1, off], none, none, none⟩
    let exits : HcSet := ⟨[valid .dischargeActive 1, switch], none, none, none⟩
    let after := fun (set : HcSet) (x : State) => takeLatches bank set.items (withSet set [] x)
    (∀ x s, (hcState [x] s).active = s.active ∧ (hcState [x] s).mail.toHc = one x :: [] ∧
        (hcState [x] s).hc = s.hc ∧ (hcState [x] s).sr = s.sr) ∧
      (∀ x ∈ [off, seat, torque, speed, on, away, switch], NoSource (one x)) ∧
      (∀ s ∈ [holding, releasing, late, blind, pressed, secured], s.active = some act) ∧
      (holding.hc.state = .holding ∧ HandsOver (taking off holding).hc ∧ ¬ HandsOver (taking seat holding).hc ∧
        ¬ MovesCriterion (one seat) ∧ ¬ HandsOver (taking torque holding).hc ∧ MovesCriterion (one torque)) ∧
      (releasing.hc.state = .releasing ∧ releasing.hc.ramp.isSome = true ∧ releasing.hc.claims = noClaims ∧
        Carries (one off) .ignition ∧ (taking off releasing).hc.image.ignition = ⟨.valid, some 0⟩ ∧
        ¬ Carries (one speed) .ignition ∧ Carries (one speed) .outputSpeed ∧ ¬ Carries (one seat) .ignition ∧
        ¬ Carries (one seat) .outputSpeed) ∧
      ((∀ p ∈ [Phase.awaiting, .overlap], (handover p).hc.state = .handover ∧ (handover p).hc.phase = some p ∧
          Applied (taking on (handover p)).hc ∧ ¬ Applied (taking away (handover p)).hc) ∧
        Carries (one on) .springState ∧ ¬ Carries (one seat) .springState ∧
        (handover .overlap).hc.deadline = false ∧ late.hc.deadline = true ∧ ¬ Applied (taking away late).hc) ∧
      (parked.hc.state = .parked ∧ Carries (one away) .springState ∧ blind.hc.blind = true ∧
        ¬ Applied (taking away blind).hc ∧ ¬ Carries (one switch) .springState ∧ Carries (one switch) .parkSwitch ∧
        (taking switch parked).hc.image.parkSwitch = ⟨.valid, some 0⟩ ∧
        (taking switch pressed).hc.image.brakePedal = ⟨.valid, some 1⟩ ∧ parked.sr.serviceMode = false ∧
        (taking switch parked).hc.image.brakePedal ≠ ⟨.valid, some 1⟩ ∧ (serving bank).sr.serviceMode = true ∧
        (serving bank).hc.state = .parked ∧ ¬ Carries (one seat) .parkSwitch ∧ ¬ Carries (one seat) .brakePedal) ∧
      (secured.hc.state = .secured ∧ Applied (taking on secured).hc ∧ secured.hc.stationary = true ∧
        secured.hc.quiet = none ∧ ¬ Applied (taking away secured).hc ∧ ¬ Carries (one seat) .springState) ∧
      ((after mixed holding).hc.state = .holding ∧ HandsOver (after mixed holding).hc ∧
        (after mixed releasing).hc.state ≠ .releasing ∧ (after exits parked).hc.state = .parked ∧
        Carries exits .parkSwitch ∧ (after exits parked).hc.image.parkSwitch = ⟨.valid, some 0⟩) := by
  refine ⟨fun _ _ => ⟨rfl, rfl, rfl, rfl⟩, ?_, ?_, ?_, ?_, ?_, ?_, ?_, ?_⟩ <;>
    simp only [NoSource, Carries, MovesCriterion, Applied, ← handsOver_iff] <;> decide +kernel

/-- Outside HOLDING; in it a result that the hold goes on with (witness_CriterionTested), and one with the capacity
flag. -/
theorem witness_CalcResultRatchets :
    let r : CalcResult := ⟨⟨557, 562⟩, false, 36000⟩
    let full : CalcResult := ⟨⟨800, 800⟩, true, 36000⟩
    (∀ x s, (resultState x s).active = s.active ∧ (resultState x s).mail.results = x :: [] ∧
        (resultState x s).hc = s.hc) ∧
      inactive.hc.state ≠ .holding ∧ holding.active = some act ∧ holding.hc.state = .holding ∧ full.capacity = true ∧
      ¬ HandsOver { holding.hc with result := some r, demand := { holding.hc.demand with pressure := ⟨557, 562⟩ } } ∧
      HandsOver { holding.hc with result := some full, demand := { holding.hc.demand with pressure := ⟨800, 800⟩ } } := by
  refine ⟨fun _ _ => ⟨rfl, rfl, rfl⟩, ?_⟩
  simp only [← handsOver_iff]
  decide +kernel

/-- STARTING with every kind still NO_DATA, with the wheels alone still so, and with all of them once VALID; moving and
standing. -/
theorem witness_StartWindowExpiryLeavesStarting :
    let once := holdWith (fun h => { h with allOnce := true }) starting
    let standing := holdWith (fun h => { h with stationary := true }) starting
    let wheels : SignalMonitor := { starting.sm with
      svt := SignalKind.all.map fun k => ⟨if k ∈ SignalKind.wheels then .noData else .valid, none, none⟩ }
    (∀ s ∈ [starting, once, standing], s.active = some act ∧ s.hc.state = .starting ∧ s.hc.startWindow = some 0) ∧
      starting.hc.allOnce = false ∧ StartSubject starting.sm (.axleLoad .f1) ∧ StartSubject wheels (.wheelPulse 0) ∧
      once.hc.allOnce = true ∧ starting.hc.stationary = false ∧ standing.hc.stationary = true := by
  refine ⟨by decide +kernel, rfl, .inl ⟨⟨by decide, by decide +kernel⟩, fun _ _ => Nat.zero_le _⟩,
    .inr ⟨by decide +kernel, ⟨⟨0, rfl⟩, by decide +kernel⟩, ?_⟩, rfl, rfl, rfl⟩
  rintro k ⟨⟨n, rfl⟩, _⟩
  exact Nat.le_add_right 6 n.val

/-- ARMED with nothing against the hold, and with BLIND standing at the entry. -/
theorem witness_ArmedConfirmationHolds :
    let blind := holdWith (fun h => { h with blind := true }) armed
    (∀ s ∈ [armed, blind], s.active = some act ∧ s.hc.state = .armed ∧ s.hc.armedConfirm = some 0 ∧
        s.hc.result = some ⟨⟨515, 519⟩, false, 36000⟩ ∧ s.hc.claims = [none, none, none, none, none, none]) ∧
      ¬ HandsOver { armed.hc with claims := driverAlone armed.now } ∧
      HandsOver { blind.hc with claims := driverAlone blind.now } := by
  simp only [← handsOver_iff]
  decide +kernel

theorem witness_MinHoldExpiryEvaluatesTheCriterion :
    let s := holdWith (fun h => { h with minHold := some 0 }) holding
    let drives := holdWith (fun h => { h with image := pulling }) s
    (s.active = some act ∧ s.hc.state = .holding ∧ s.hc.minHold = some 0 ∧ s.hc.criterion act.bank = false) ∧
      (drives.active = some act ∧ drives.hc.state = .holding ∧ drives.hc.minHold = some 0 ∧
        drives.hc.criterion act.bank = true ∧ drives.hc.metMemory = false ∧ drives.hc.intent = some true ∧
        (∀ c, some c ∈ drives.hc.claims → c.source = .driver ∨ c.source = .monitor) ∧
        drives.hc.resultPressure.within drives.hc.demand.pressure ∧ drives.hc.rollback act.bank true = false) := by
  refine ⟨⟨rfl, rfl, rfl, ?_⟩, rfl, rfl, rfl, ?_, rfl, rfl, driver_only, ?_, ?_⟩
  · decide +kernel
  · decide +kernel
  · exact ⟨Nat.le_refl _, Nat.le_refl _⟩
  · decide +kernel

/-- A claim's expiry: the only claim, and one with a DISCHARGE claim beside it; the Max Service Hold timer run out. -/
theorem witness_ExpiriesHandOver :
    let s := tested 0
    let c : Claim := ⟨.service, 1, some 600, none, some 120, 0, some 0⟩
    let other : Claim := ⟨.discharge, 0, none, none, none, 0, none⟩
    let two := holdWith (fun h => { h with claims := [none, some c, some other, none, none, none] }) s
    let ended := holdWith (fun h => { h with maxHold := some 0 }) holding
    (ended.active = some act ∧ ended.hc.state = .holding ∧ ended.hc.maxHold = some 0) ∧
      (s.active = some act ∧ s.hc.state = .holding ∧ (1 : Fin 4) ≠ 0 ∧ s.hc.claims[1]? = some (some c) ∧
        (∀ (i : Nat) x, s.hc.claims[i]? = some (some x) → i = 1) ∧ c.source = .service ∧ c.tag = (1 : Fin 4).val ∧
        c.timer = some 0 ∧ s.hc.resultPressure.within s.hc.demand.pressure) ∧
      (two.hc.claims[1]? = some (some c) ∧
        (∀ (i : Nat) x, two.hc.claims[i]? = some (some x) → x.source = .service → x.tag = (1 : Fin 4).val → i = 1) ∧
        (two.hc.limitedFloors act.bank).within two.hc.demand.pressure ∧ some other ∈ two.hc.claims.set 1 none) := by
  refine ⟨⟨rfl, rfl, rfl⟩, ⟨rfl, rfl, by decide, rfl, only_slot_one _, rfl, rfl, rfl, by decide, by decide⟩, rfl,
    fun i x h hs _ => ?_, ⟨?_, ?_⟩, ?_⟩
  · rcases i with _ | _ | _ | _ | _ | _ | i <;> simp [holdWith] at h ⊢
    simp [← h] at hs
  all_goals decide +kernel

/-- Outside INACTIVE, and in it (witness_StandTested). -/
theorem witness_GuardExpiryTestsInactive :
    let s := fun (x : State) => holdWith (fun h => { h with guard := some 0 }) x
    (∀ x, (s x).active = x.active ∧ (s x).hc.guard = some 0 ∧ (s x).hc.state = x.hc.state) ∧
      holding.active = some act ∧ holding.hc.state ≠ .inactive ∧ inactive.active = some act ∧
      inactive.hc.state = .inactive :=
  ⟨fun _ => ⟨rfl, rfl, rfl⟩, rfl, by decide, rfl, rfl⟩

/-- The first step of chapter 5's release, and the last on a truck that moves. -/
theorem witness_RampStepLowersTheDemand :
    let ramp : Ramp := ⟨⟨515, 519⟩, true, 600, ⟨18, 18⟩⟩
    let last := holdWith (fun h => { h with demand := ⟨.ramp, ⟨9, 14⟩, false⟩, stationary := false }) releasing
    let stopped := holdWith (fun h => { h with stationary := true }) last
    let lowered := fun (s : State) =>
      (⟨s.hc.demand.pressure.a - ramp.step.a, s.hc.demand.pressure.b - ramp.step.b⟩ : Circuits)
    (∀ s ∈ [releasing, last, stopped], s.active = some act ∧ s.hc.state = .releasing ∧ s.hc.rampStep = some 0 ∧
        s.hc.ramp = some ramp) ∧
      lowered releasing ≠ ⟨0, 0⟩ ∧ lowered last = ⟨0, 0⟩ ∧ last.hc.stationary = false ∧
      lowered stopped = ⟨0, 0⟩ ∧ stopped.hc.stationary = true := by
  decide +kernel

theorem witness_HandoverAndSecuredExpiriesAct :
    let quiet := holdWith (fun h => { h with quiet := some 0 }) secured
    (∀ p, (handover p).active = some act ∧ (handover p).hc.state = .handover ∧
        (handover p).hc.handoverConfirm = some 0 ∧ (handover p).hc.phase = some p) ∧
      (handover .overlap).hc.overlapTimer = some 0 ∧ quiet.active = some act ∧ quiet.hc.state = .secured ∧
      quiet.hc.quiet = some 0 := by
  refine ⟨fun _ => ⟨rfl, rfl, rfl, rfl⟩, ?_⟩
  decide +kernel

/-- Each kind of state: RELEASING, SECURED, INACTIVE and ARMED (witness_StandTested). -/
theorem witness_DecisionReportIsRecorded :
    (∀ d x, (creepState (.decision d) x).active = x.active ∧ (creepState (.decision d) x).hc = x.hc ∧
        (creepState (.decision d) x).mail.creepReports = .decision d :: []) ∧
      (∀ x ∈ [releasing, secured, inactive, armed], x.active = some act) ∧
      (releasing.hc.state ≠ .inactive ∧ releasing.hc.state ≠ .armed ∧ releasing.hc.state ≠ .secured) ∧
      secured.hc.state = .secured ∧ inactive.hc.state = .inactive ∧ armed.hc.state = .armed := by
  refine ⟨fun _ _ => ⟨rfl, rfl, rfl⟩, ?_⟩
  decide +kernel

/-- Each kind of state: RELEASING, INACTIVE and ARMED (witness_StandTested), HOLDING with BLIND entered and left, PARKED
with the spring brake applied and not. -/
theorem witness_BlindReportActsByState :
    let rising := holdWith (fun h => { h with image := sitting }) parked
    (∀ e x, (creepState (.blind e) x).active = x.active ∧ (creepState (.blind e) x).hc = x.hc ∧
        (creepState (.blind e) x).mail.creepReports = .blind e :: []) ∧
      (∀ x ∈ [releasing, inactive, armed, holding, parked, rising], x.active = some act) ∧
      (releasing.hc.state ≠ .inactive ∧ releasing.hc.state ≠ .armed ∧ releasing.hc.state ≠ .holding ∧
        releasing.hc.state ≠ .parked) ∧
      (inactive.hc.state = .inactive ∧ armed.hc.state = .armed ∧ holding.hc.state = .holding) ∧
      HandsOver { holding.hc with blind := true, degraded := true } ∧
      ¬ HandsOver { holding.hc with blind := false, degraded := false } ∧
      parked.hc.state = .parked ∧ rising.hc.state = .parked ∧ Applied parked.hc ∧ ¬ Applied rising.hc := by
  refine ⟨fun _ _ => ⟨rfl, rfl, rfl⟩, ?_⟩
  simp only [Applied, ← handsOver_iff]
  decide +kernel

/-- An escalation in HOLDING; a rollaway in each of the four states; reports discarded in RELEASING and PARKED. -/
theorem witness_CrossingReportActsByState :
    let meets := fun (r : Bool) (x : State) => (creepState (.crossing r 1) x).active = some act ∧
      (creepState (.crossing r 1) x).mail.creepReports = .crossing r 1 :: []
    let p := holding.hc.demand.pressure
    (meets false holding ∧ holding.hc.state = .holding ∧ p.within act.bank.maxPressure ∧
        holding.hc.resultPressure.within p ∧ (holding.hc.limitedFloors act.bank).within p ∧
        holding.hc.claims.length = 6) ∧
      (meets true holding ∧ meets true (handover .overlap) ∧ (handover .overlap).hc.state = .handover ∧
        meets true parked ∧ parked.hc.state = .parked ∧ meets true secured ∧ secured.hc.state = .secured) ∧
      (Applied secured.hc ∧ secured.hc.stationary = true ∧ ¬ Applied holding.hc) ∧
      (meets false parked ∧ parked.hc.state ≠ .holding ∧ meets true releasing ∧
        releasing.hc.state ∉ [HoldState.holding, .handover, .parked, .secured]) := by
  refine ⟨⟨⟨rfl, rfl⟩, rfl, ⟨?_, ?_⟩, ⟨?_, ?_⟩, ⟨?_, ?_⟩, rfl⟩,
    ⟨⟨rfl, rfl⟩, ⟨rfl, rfl⟩, rfl, ⟨rfl, rfl⟩, rfl, ⟨rfl, rfl⟩, rfl⟩, ⟨rfl, rfl, by simp [Applied, holding, holdWith,
      inactive, ready, sitting]⟩, ⟨rfl, rfl⟩, ?_, ⟨rfl, rfl⟩, ?_⟩ <;>
    decide +kernel

/-- Counts of a channel with a baseline, without one and at its monitor's entry to VALID; a loss that enters BLIND; two
channels that leave it. -/
theorem witness_CreepPublicationAddsPulses :
    let s := fun (items : List PubItem) (x : State) => mailed x fun m => { m with toCreep := [.publication items] }
    let only := fun (x : PubItem) (n : Fin 8) => [x].filter (fun y => y.kind == .wheelPulse n)
    let losses := [(0 : Fin 8), 1, 2, 3, 4].map fun n => (⟨.wheelPulse n, .lost, some 100, false⟩ : PubItem)
    let gains := [(⟨.wheelPulse 0, .valid, some 7, true⟩ : PubItem), ⟨.wheelPulse 1, .valid, some 8, true⟩]
    (∀ items x, x = holding ∨ x = run → (s items x).active = some act ∧
        (s items x).mail.toCreep = .publication items :: [] ∧ (s items x).cm.channels.length = 8) ∧
      only ⟨.wheelPulse 2, .valid, some 0, false⟩ 2 = [⟨.wheelPulse 2, .valid, some 0, false⟩] ∧
      (holding.cm.channel (2 : Fin 8)).baseline = some 65535 ∧
      only ⟨.wheelPulse 6, .valid, some 9, false⟩ 6 = [⟨.wheelPulse 6, .valid, some 9, false⟩] ∧
      (holding.cm.channel (6 : Fin 8)).baseline = none ∧
      only ⟨.wheelPulse 2, .lost, some 0, false⟩ 2 = [⟨.wheelPulse 2, .lost, some 0, false⟩] ∧
      only ⟨.wheelPulse 2, .lost, some 0, false⟩ 3 = [] ∧
      2 ≤ holding.cm.validCount ∧
      see (fun t => t.cm.validCount) (exec .creepPublication (s losses holding)) = some 1 ∧
      run.cm.validCount < 2 ∧ see (fun t => t.cm.validCount) (exec .creepPublication (s gains run)) = some 2 := by
  refine ⟨fun items x h => ?_, ?_⟩
  · rcases h with rfl | rfl <;> exact ⟨rfl, rfl, rfl⟩
  · decide +kernel

/-- BLIND; an increment that is not 0, one that is, one that crosses and one that is not accumulated. -/
theorem witness_EvaluationTakesTheSecondLargest :
    let distance := fun n : Fin 8 =>
      (holding.cm.channel n).pending * ((bank.extractionOf (.wheelPulse n)).getD .default).distance
    let axle := fun n : Fin 8 => ((bank.extractionOf (.wheelPulse n)).getD .default).axle
    let s := fun (f : CreepMonitor → CreepMonitor) => { holding with cm := f { holding.cm with evalTimer := some 0 } }
    let meets := fun (f : CreepMonitor → CreepMonitor) => (s f).active = some act ∧ (s f).cm.evalTimer = some 0 ∧
      (s f).cm.channels.length = 8 ∧ 2 ≤ (s f).cm.validCount
    let second := fun (f : CreepMonitor → CreepMonitor) => ((ranking bank (s f).cm)[1]?).map Ranked.distance
    let still := fun (c : CreepMonitor) => c.clearPending
    let near := fun (c : CreepMonitor) => { c with accumulator := 1148 }
    (meets (fun c => { c with blind := true }) ∧ (s fun c => { c with blind := true }).cm.blind = true) ∧
      (meets id ∧ (s id).cm.blind = false ∧ second id = some 52 ∧ (s id).cm.counting = true ∧
        (s id).cm.stationary = true) ∧
      (meets still ∧ second still = some 0) ∧
      (meets near ∧ second near = some 52 ∧ act.bank.params.creepLimit * 10 ≤ min 65535 (1148 + 52) ∧
        (s near).cm.told = .holding) ∧
      (meets (fun c => { c with counting := false }) ∧ (s fun c => { c with counting := false }).cm.counting = false) ∧
      (distance 0 = distance 1 ∧ Outranks distance axle 0 1) ∧ (distance 1 ≠ distance 3 ∧ Outranks distance axle 1 3) ∧
      (distance 3 = distance 4 ∧ axle 3 ≠ axle 4 ∧ Outranks distance axle 3 4) := by
  simp only [Outranks]
  decide +kernel

theorem witness_CreepMonitorTakesItsEvents :
    ({ run.cm with stationaryTimer := some 0 } : CreepMonitor).stationaryTimer = some 0 ∧
      (mailed inactive fun m => { m with stateReports := [⟨.holding, true⟩] }).mail.stateReports =
        ⟨.holding, true⟩ :: [] ∧
      (mailed inactive fun m => { m with toCreep := [.refused 0 40362] }).mail.toCreep = .refused 0 40362 :: [] ∧
      inactive.cm.channels.length = 8 := ⟨rfl, rfl, rfl, rfl⟩

def statusEntry (stale : Bool) : Entry := ⟨.status, true, ⟨.std 0x3E0, false, []⟩, some 3, 1, stale, false⟩
def serviceEntry (reset : Bool) : Entry := ⟨.service, true, ⟨.std 0x6FA, false, [13]⟩, none, 0, false, reset⟩
def forwardEntry : Entry := ⟨.forward, true, drumFrame, none, 0, false, false⟩

/-- Port C with an entry in transmission. -/
def portC (e : Entry) : State :=
  { holding with tx := { holding.tx with queues := ⟨⟨[], some e⟩, .empty⟩ } }

/-- A bank whose Port B keeps dedicated space for two forwarded frames. -/
def tight : Bank := { bank with minima := { bank.minima with b := ⟨1, 2, 0, 2⟩ } }

/-- An activation: Port B sends a forwarded frame and holds three more, a demand and a shared response; Port C sends a
Status Frame and holds another; the third forwarded frame in dedicated space is beyond the new minimum. -/
theorem witness_ActivateStartsTheNewBank :
    let later := { serviceEntry false with dedicated := false }
    let x := { serving tight with tx := { holding.tx with
      owed := 3
      queues := ⟨⟨[statusEntry false], some (statusEntry false)⟩,
        ⟨[forwardEntry, demandEntry (some 8) true, forwardEntry, later], some forwardEntry⟩⟩ } }
    let s := ask [5] x
    Asks .c (req [5]) [] s ∧ Ready s ∧ (req [5]).remote = false ∧ (req [5]).data = 5 :: [] ∧
      s.sr.serviceMode = true ∧ s.sr.staging = some tight ∧ checkBank tight = none ∧
      (queueOf s .b).waiting.filter (fun e => e.cls != .hold) = [forwardEntry] ++ forwardEntry :: [later] ∧
      keepsSpace tight.minima.b [] forwardEntry = true ∧ keepsSpace tight.minima.b [forwardEntry] forwardEntry = true ∧
      keepsSpace tight.minima.b ([forwardEntry] ++ [forwardEntry]) forwardEntry = false ∧
      see (fun t => (t.tx.queues.b, t.tx.queues.c.waiting.map Entry.alive, t.tx.queues.c.sending, t.mail.counts))
        (exec (.activate .c) s) =
        some (⟨[forwardEntry, { forwardEntry with dedicated := false }, later],
          some { forwardEntry with stale := true }⟩, [none], some (statusEntry true), [.queueDrop .b]) := by
  refine ⟨asks_ask _ _, ⟨rfl, rfl⟩, rfl, rfl, rfl, rfl, ?_⟩
  decide +kernel

/-- The choice of R156 (Sends): a port that sends; a Port B on which all that waits is held back; and a HOLD entry behind
a forwarded one, which is chosen. -/
theorem witness_Sends :
    let busy := portB ⟨[forwardEntry], some (demandEntry (some 8) true)⟩ 0 0
    let held := portB ⟨[serviceEntry false], none⟩ 0 3
    let free := portB ⟨[forwardEntry, demandEntry none true], none⟩ 0 3
    ¬ Idle .b busy ∧ (∀ x ∈ (queueOf held .b).waiting, HeldBack held .b x.cls) ∧ Idle .b free ∧
      Chosen free .b [forwardEntry] (demandEntry none true) [] := by
  refine ⟨?_, ?_, ⟨rfl, rfl, rfl⟩, rfl, ?_, ?_, ?_⟩ <;>
    first | decide +kernel | (simp only [Idle, HeldBack]; decide +kernel)

/-- An offer of class FORWARD to Port B: in BUS_OFF, in panic, into dedicated space, into the last of the shared space,
without space, and at 32 entries; a demand frame on one that waits; a response to a port in BUS_OFF. -/
theorem witness_QueueOfferAdmitsOrRefuses :
    let o : Offer := ⟨.b, .forward, drumFrame, false⟩
    let s := fun (q : TxQueue) (owed : Nat) => mailed (portB q 0 owed) fun m => { m with offers := [o] }
    let panics := fun (x : State) => (txBank x).params.panicWatermark ≤ x.tx.owed
    let meets := fun (q : TxQueue) => (s q 0).mail.offers = [] ++ o :: [] ∧
      ((s q 0).links.get .b).busOff = false ∧ ¬ panics (s q 0)
    let full := fun (q : TxQueue) => 32 ≤ q.entries.length ∨
      (16 ≤ q.dedicatedCount .forward ∧ (txBank (s q 0)).sharedSpace .b ≤ q.sharedCount)
    let sending := some (demandEntry (some 8) true)
    let used := List.replicate 16 forwardEntry
    let shared := fun n => List.replicate n { forwardEntry with dedicated := false }
    let last : TxQueue := ⟨used ++ shared 12, sending⟩
    let spent : TxQueue := ⟨used ++ shared 13, sending⟩
    let thirtyTwo : TxQueue := ⟨used ++ shared 13 ++ List.replicate 2 (serviceEntry false), sending⟩
    let answer : Offer := ⟨.b, .service, ⟨.std 0x6FA, false, [13]⟩, true⟩
    let off := fun (x : State) => { x with links := ⟨.start, ⟨true, 16, some 500⟩⟩ }
    let waits := portB ⟨[forwardEntry, demandEntry none true], sending⟩ 0 0
    ((txBank (s last 0)).minima.get .b).get .forward = 16 ∧
      (meets ⟨[], sending⟩ ∧ ¬ full ⟨[], sending⟩) ∧ (meets last ∧ ¬ full last) ∧ (meets spent ∧ full spent) ∧
      (meets thirtyTwo ∧ 32 ≤ thirtyTwo.entries.length) ∧
      (((s ⟨[], sending⟩ 4).links.get .b).busOff = false ∧ panics (s ⟨[], sending⟩ 4)) ∧
      (∀ w : Offer, (mailed (off run) fun m => { m with offers := [w] }).mail.offers = [] ++ w :: [] ∧
        ((off run).links.get .b).busOff = true) ∧ answer.cls ≠ .forward ∧
      (queueOf waits .b).waiting = [forwardEntry] ++ demandEntry none true :: [] ∧ forwardEntry.cls ≠ .hold := by
  refine ⟨?_, ?_, ?_, ?_, ?_, ?_, fun _ => ⟨rfl, rfl⟩, ?_⟩ <;> decide +kernel

/-- A demand frame, one from before an activation, a Status Frame of each, a forwarded frame and a reset's response. -/
theorem witness_TransmissionSuccessTakesTheEntryOut :
    let fresh := demandEntry (some 8) true
    let old := { fresh with stale := true }
    (queueOf (portB ⟨[], some fresh⟩ 0 0) .b).sending = some fresh ∧ fresh.cls = .hold ∧ fresh.stale = false ∧
      fresh.alive = some 8 ∧ (queueOf (portB ⟨[], some old⟩ 0 0) .b).sending = some old ∧ old.stale = true ∧
      (∀ e, (queueOf (portC e) .c).sending = some e) ∧
      (∀ st, (statusEntry st).cls = .status ∧ (statusEntry st).alive = some 3 ∧ (statusEntry st).stale = st) ∧
      forwardEntry.cls = .forward ∧ (serviceEntry true).cls = .service ∧ (serviceEntry true).reset = true :=
  ⟨rfl, rfl, rfl, rfl, rfl, rfl, fun _ => rfl, fun _ => ⟨rfl, rfl, rfl⟩, rfl, rfl, rfl⟩

/-- Below the sixteenth error each case of R158 and R165 with what is kept, and the sixteenth. -/
theorem witness_TransmissionErrorReturnsOrDrops :
    let fresh := demandEntry (some 8) true
    let old := { fresh with stale := true }
    let panics := fun (x : State) => (txBank x).params.panicWatermark ≤ x.tx.owed
    (∀ q n w, (queueOf (portB q n w) .b) = q ∧ ((portB q n w).links.get .b).errors = n) ∧ 14 + 1 < 16 ∧ 16 ≤ 15 + 1 ∧
      (old.cls = .hold ∧ old.stale = true) ∧
      (forwardEntry.cls = .forward ∧ panics (portB ⟨[], some forwardEntry⟩ 14 4) ∧
        ¬ panics (portB ⟨[], some forwardEntry⟩ 14 3)) ∧
      (fresh.cls = .hold ∧ fresh.stale = false ∧
        ∃ x ∈ (⟨[demandEntry none false], some fresh⟩ : TxQueue).waiting, x.cls = .hold) ∧
      ((serviceEntry true).cls = .service ∧ (statusEntry true).cls = .status ∧ (statusEntry true).stale = true) := by
  refine ⟨fun _ _ _ => ⟨rfl, rfl⟩, ?_⟩
  decide +kernel

theorem witness_RecoveryReturnsThePort :
    let s : State := { portB ⟨[demandEntry (some 8) true], none⟩ 16 30 with links := ⟨.start, ⟨true, 16, some 0⟩⟩ }
    (s.links.get .b).recovery = some 0 ∧ s.loading = false ∧ (queueOf s .b).sending = none ∧
      (queueOf s .b).hasWaiting .hold = true := ⟨rfl, rfl, rfl, rfl⟩

/-- An idle Port B; owed counts of 3 and 4, which reach and stand in the panic condition; a demand frame that waits,
with FORWARD entries before and behind it, in panic and without. -/
theorem witness_DemandPeriodGeneratesADemand :
    let queue : TxQueue := ⟨[forwardEntry, demandEntry none true, forwardEntry], some (demandEntry (some 8) true)⟩
    let late := portB queue 0 3
    let calm := portB queue 0 0
    let idle := example12
    let drum := (⟨.forward, false, drumFrame, none, 0, false, false⟩ : Entry)
    let sent := portB ⟨[drum], some (demandEntry (some 8) true)⟩ 0 0
    let full := portB ⟨List.replicate 31 drum, some (demandEntry (some 8) true)⟩ 0 0
    let owed := fun (s : State) => if s.tx.outstanding then min 255 (s.tx.owed + 1) else s.tx.owed
    (idle.tx.demandTimer = some 0 ∧ late.tx.demandTimer = some 0 ∧ calm.tx.demandTimer = some 0) ∧
      (late.tx.owed < (txBank late).params.panicWatermark ∧ (txBank late).params.panicWatermark ≤ owed late ∧
        late.links.b.busOff = false ∧ late.tx.starved = false) ∧
      (queueOf late .b).waiting.filter (fun x => x.cls != .forward) = [] ++ demandEntry none true :: [] ∧
      (¬ (txBank calm).params.panicWatermark ≤ owed calm ∧
        (queueOf calm .b).waiting = [forwardEntry] ++ demandEntry none true :: [forwardEntry] ∧
        forwardEntry.cls ≠ .hold) ∧
      ¬ (txBank idle).params.panicWatermark ≤ owed idle ∧
      idle.loading = false ∧ idle.links.b.busOff = false ∧ (queueOf idle .b).sending = none ∧
      (queueOf idle .b).hasWaiting .hold = false ∧ (queueOf idle .b).entries.length < 32 ∧
      (queueOf idle .b).dedicatedCount .hold < (txBank idle).minima.b.hold ∧
      (∀ s ∈ [sent, full], s.tx.demandTimer = some 0 ∧ ¬ (txBank s).params.panicWatermark ≤ owed s ∧
        (∀ x ∈ (queueOf s .b).waiting, x.cls ≠ .hold) ∧
        (txBank s).minima.b.hold ≤ (queueOf s .b).dedicatedCount .hold) ∧
      32 ≤ (queueOf full .b).entries.length ∧ (queueOf sent .b).entries.length < 32 ∧
      (queueOf sent .b).sharedCount < (txBank sent).sharedSpace .b := by
  decide +kernel

theorem witness_StatusPeriodOffersAStatus :
    let due := fun (s : State) => { s with tx := { s.tx with statusTimer := some 0 } }
    let waits : State := due { run with tx := { run.tx with queues := ⟨⟨[statusEntry false], none⟩, .empty⟩ } }
    let busy : State := due { run with tx := { run.tx with queues :=
      ⟨⟨[forwardEntry], some (serviceEntry false)⟩, .empty⟩ } }
    let full : State := due { run with tx := { run.tx with queues := ⟨⟨List.replicate 32 forwardEntry, none⟩, .empty⟩ } }
    (∀ s ∈ [busy, full], s.tx.statusTimer = some 0 ∧ (queueOf s .c).hasWaiting .status = false) ∧
      (32 ≤ (queueOf full .c).entries.length ∧ (queueOf busy .c).entries.length < 32 ∧
        (queueOf busy .c).dedicatedCount .status < (txBank busy).minima.c.status) ∧
      waits.tx.statusTimer = some 0 ∧ (queueOf waits .c).hasWaiting .status = true ∧
      (due run).tx.statusTimer = some 0 ∧ (due run).loading = false ∧ (due run).links.c.busOff = false ∧
      queueOf (due run) .c = ⟨[], none⟩ ∧ 0 < (txBank (due run)).minima.c.status := by
  decide +kernel

/-- An empty record, a MINOR one under a MAJOR report, and a repeat; a count. -/
theorem witness_FaultCaptureTakesReportsAndCounts :
    let r : FaultReport := ⟨.major, .monitorBlind, .none, none⟩
    let s := mailed holding fun m => { m with faults := [r], counts := [.rx .b] }
    let held : State := { s with fc := { s.fc with record := some capacityRecord } }
    let again := mailed held fun m => { m with faults := [⟨.minor, .idConflict, .port .c, none⟩] }
    s.mail.faults[0]? = some r ∧ s.fc.record = none ∧
      held.mail.faults[0]? = some r ∧ held.fc.record = some capacityRecord ∧ capacityRecord.severity = .minor ∧
      r.severity = .major ∧ again.mail.faults[0]? = some ⟨.minor, .idConflict, .port .c, none⟩ ∧
      again.fc.record = some capacityRecord ∧
      s.mail.counts = .rx .b :: [] ∧ s.fc.monitors.length = 24 := by
  decide +kernel

/-- BUSY under a store write and under a reset; a frame one byte short of each longest command; command byte 14. -/
theorem witness_RequestsAnsweredBusyOrBadValue :
    let busy := ask [9] { run with sr := { run.sr with storeWrite := some .c } }
    let pending := ask [9] { run with sr := { run.sr with resetPending := .set } }
    (Asks .c (req [9]) [] busy ∧ ¬ Ready busy) ∧ (Asks .c (req [9]) [] pending ∧ ¬ Ready pending) ∧
      (Asks .c (req [11, 1, 30, 0, 0, 0, 0]) [] (ask [11, 1, 30, 0, 0, 0, 0] run) ∧
        Ready (ask [11, 1, 30, 0, 0, 0, 0] run) ∧ ([1, 30, 0, 0, 0, 0] : List Byte).length < 7) ∧
      (Asks .c (req [14, 1, 2, 3, 4, 5, 6, 7]) [] (ask [14, 1, 2, 3, 4, 5, 6, 7] run) ∧ 13 < (14 : Byte).toNat ∧
        ([1, 2, 3, 4, 5, 6, 7] : List Byte).length < 8) ∧
      (Asks .c (req []) [] (ask [] run) ∧ (req []).data = []) := by
  refine ⟨⟨asks_ask _ _, ?_⟩, ⟨asks_ask _ _, ?_⟩, ⟨asks_ask _ _, ⟨rfl, rfl⟩, by decide⟩,
    ⟨asks_ask _ _, by decide, by decide⟩, asks_ask _ _, rfl⟩ <;>
    exact fun h => by simp [Ready, ask, mailed] at h

theorem witness_ServiceModeBeginsAndEnds :
    let off := ask [1] { State.reset with loading := false }
    (Asks .c (req [1]) [] (ask [1] parked) ∧ Ready (ask [1] parked) ∧ parked.sr.serviceMode = false ∧
        parked.hc.state = .parked ∧ parked.active = some act) ∧
      (Asks .c (req [1]) [] off ∧ Ready off ∧ off.hc.state = .off ∧ off.active = none ∧ off.sr.serviceMode = false) ∧
      (Ready (ask [1] (serving bank)) ∧ (serving bank).sr.serviceMode = true) ∧
      (Ready (ask [1] holding) ∧ holding.hc.state ≠ .parked ∧ holding.hc.state ≠ .off) ∧
      (Asks .c (req [2]) [] (ask [2] (serving bank)) ∧ Ready (ask [2] (serving bank))) ∧
      (idled (serving bank)).sr.idle = some 0 :=
  ⟨⟨asks_ask _ _, ⟨rfl, rfl⟩, rfl, rfl, rfl⟩, ⟨asks_ask _ _, ⟨rfl, rfl⟩, rfl, rfl, rfl⟩,
    ⟨⟨rfl, rfl⟩, rfl⟩, ⟨⟨rfl, rfl⟩, by decide, by decide⟩, ⟨asks_ask _ _, ⟨rfl, rfl⟩⟩, rfl⟩

/-- Each outcome of READ_ENTRY, at the ends of the ranges: table 9, index 24 of table 0, field 25, the last field. -/
theorem witness_ReadEntryAnswersTheField :
    let s := ask [3, 0, 23, 10, 0] (serving bank)
    let off := ask [3, 0, 0, 0, 0] { State.reset with loading := false }
    let held := gradeState (validOnce [false, false, false, false, true]) ⟨.valid, some 177, none⟩ grade176
    (Asks .c (req [3, 0, 23, 10, 0]) [] s ∧ Ready s ∧ s.active = some act ∧ s.sr.serviceMode = true ∧
        s.sr.staging = some bank) ∧
      ((2 : Byte) ≠ 0 ∧ (2 : Byte) ≠ 1) ∧ parked.sr.serviceMode = false ∧
      (Asks .c (req [3, 0, 0, 0, 0]) [] off ∧ Ready off ∧ off.active = none) ∧
      8 < (9 : Byte).toNat ∧ tableSize 0 = some 24 ∧ 24 ≤ (24 : Byte).toNat ∧
      readActive s act 0 23 25 = none ∧ readActive s act 0 23 10 = some 2 ∧ readStaging bank 0 23 10 = some 2 ∧
      (readStaging bank 0 23 16 = none ∧ 11 ≤ (16 : Byte).toNat ∧ ∀ n, tableSize 0 = some n → (23 : Byte).toNat < n) ∧
      ((act.bank.monitor 23).inUse = false ∧ 23 < 24 ∧ (act.bank.monitor 3).inUse = true ∧
        (act.bank.monitor 0).inUse = true) ∧
      (s.sm.state 0).sync = .acquiring ∧ (s.sm.state 0).baseline = none ∧ (s.sm.state 0).timer = none ∧
      (held.sm.state 3).sync = .valid ∧ (held.sm.state 3).baseline = some 11 ∧ (held.sm.state 3).timer = some 10 :=
  ⟨⟨asks_ask _ _, ⟨rfl, rfl⟩, rfl, rfl, rfl⟩, by decide, rfl, ⟨asks_ask _ _, ⟨rfl, rfl⟩, rfl⟩, by decide, by decide,
    by decide, by decide +kernel, by decide +kernel, by decide +kernel,
    ⟨by decide +kernel, by decide, fun n h => by cases h; decide⟩, by decide +kernel, by decide +kernel, by decide +kernel,
    by decide +kernel, rfl, rfl, rfl⟩

/-- Each outcome of WRITE_FIELD: out of service mode, tables 8 and 9, index 24, field 11, N of 2 and of 8. -/
theorem witness_WriteFieldTestsInOrder :
    let data : List Byte := [4, 0, 14, 9, 8, 0, 0, 0]
    let s := ask data (serving bank)
    (Asks .c (req data) [] s ∧ Ready s ∧ s.sr.serviceMode = true ∧ s.sr.staging = some bank) ∧
      (Asks .c (req data) [] (ask data parked) ∧ parked.sr.serviceMode = false) ∧
      8 < (9 : Byte).toNat ∧ tableSize 8 = some 2 ∧ tableSize 0 = some 24 ∧ 24 ≤ (24 : Byte).toNat ∧
      (bankField 0 14 11).isNone = true ∧
      ((bankField 0 14 9).map fun spec => ((spec.put bank 2).isNone, (spec.put bank 8).isSome)) = some (true, true) :=
  ⟨⟨asks_ask _ _, ⟨rfl, rfl⟩, rfl, rfl⟩, ⟨asks_ask _ _, rfl⟩, by decide, by decide, by decide, by decide,
    by decide +kernel, by decide +kernel⟩

/-- The period of monitor 14 at the ends of its range and beyond, and a number that names no field; a field written and
another field read. -/
theorem witness_WrittenFieldReadsBack :
    let period : FieldRow MonitorEntry := .nat 3 10 1000 (·.period)
    bank.Shaped ∧ 14 < 24 ∧ bank.monitors[14]? = some .default ∧
      (∀ x : MonitorEntry, period.fits x 10 ∧ period.fits x 1000 ∧ ¬ period.fits x 9 ∧ ¬ period.fits x 1001) ∧
      (∀ row ∈ monitorRows, row.number ≠ 11) ∧
      (writeBank bank 0 14 9 8).toOption.isSome = true ∧ tableSize 0 = some 24 ∧
      ((0, 14, 10) : Nat × Nat × Nat) ≠ (0, 14, 9) := by
  refine ⟨⟨rfl, rfl, rfl, rfl, rfl, rfl, rfl⟩, by decide, rfl, fun x => ?_, ?_, by decide +kernel, by decide, by decide⟩
  · refine ⟨⟨?_, ?_⟩, ⟨?_, ?_⟩, fun h => absurd h.1 ?_, fun h => absurd h.2 ?_⟩ <;> decide
  · simp [monitorRows, FieldRow.flag, FieldRow.format, FieldRow.ident, FieldRow.nat]

/-- Codes 28 and 29, both parts of the Fault Record, and of slots 1, 2 and 6. -/
theorem witness_ReadsAnswerWhatIsHeld :
    let t := ask [10, 1, 1] (tested 500)
    let f : State := { secured with fc := { secured.fc with record := some capacityRecord } }
    (Asks .c (req [6, 28]) [] (ask [6, 28] parked) ∧ Ready (ask [6, 28] parked) ∧
        SignalKind.pusherDown.code = (28 : Byte).toNat ∧ 28 < (29 : Byte).toNat) ∧
      (Asks .c (req [8, 1]) [] (ask [8, 1] f) ∧ (ask [8, 1] f).fc.record = some capacityRecord ∧
        parked.fc.record = none ∧ 1 < (2 : Byte).toNat) ∧
      (Asks .c (req [10, 1, 1]) [] t ∧ Ready t ∧ t.hc.claims.length = 6 ∧
        t.hc.claims[(1 : Byte).toNat]? = some (some ⟨.service, 1, some 600, none, some 120, 0, some 500⟩) ∧
        t.hc.claims[(2 : Byte).toNat]? = some none ∧ 5 < (6 : Byte).toNat) :=
  ⟨⟨asks_ask _ _, ⟨rfl, rfl⟩, rfl, by decide⟩, ⟨asks_ask _ _, rfl, rfl, by decide⟩,
    asks_ask _ _, ⟨rfl, rfl⟩, rfl, rfl, rfl, by decide⟩

theorem witness_CountersReadAndFaultCleared :
    let s := ask [7, 29, 1] parked
    Asks .c (req [7, 29, 1]) [] s ∧ Ready s ∧ (29 : Byte).toNat ≤ 29 ∧ 29 < (30 : Byte).toNat ∧
      (1 : Byte).toNat ≤ 1 ∧ 1 < (2 : Byte).toNat ∧ s.fc.monitors.length = 24 ∧
      Asks .c (req [9]) [] (ask [9] parked) ∧ Ready (ask [9] parked) :=
  ⟨asks_ask _ _, ⟨rfl, rfl⟩, by decide, by decide, by decide, by decide, rfl, asks_ask _ _, ⟨rfl, rfl⟩⟩

/-- The request of chapter 4's workshop floor, and its places: refused for its expiry, in service mode, with no bank, in
STARTING, satisfied, refused for a moving truck and by each other entry condition, entering from INACTIVE and from RELEASING, refreshing, a new tag, and a
full table. Then the discharge's signal rising with its latch IDLE and asserted, in STARTING, INACTIVE (moving and
standing), HOLDING with a free slot, RELEASING and PARKED; and lost. -/
theorem witness_TestHoldPlacesAServiceClaim :
    let data : List Byte := [11, 1, 120, 0, 0x58, 0x02, 0, 0]
    let s := fun (x : State) => ask data x
    let fits := 1 ≤ (1 : Byte).toNat ∧ (1 : Byte).toNat ≤ 3 ∧ 1 ≤ (120 : Nat) ∧ 120 ≤ 600 ∧ 600 ≤ 1000
    let c : Claim := ⟨.service, 1, some 600, none, some 120, 0, some 500⟩
    let moving := holdWith (fun h => { h with stationary := false }) inactive
    let other := fun n => (⟨.service, n, none, none, some 9, 0, some 9000⟩ : Claim)
    let full : List (Option Claim) := [none, some (other 2), some (other 3), some (signalClaim .pendantRear 0),
      some (signalClaim .pendantSide 0), some (signalClaim .discharge 0)]
    let rise := valid .dischargeActive 1
    let latched := holdWith (fun h => { h with latchDischarge := .asserted }) holding
    (∀ x, Asks .c (req data) [] (s x)) ∧ fits ∧ (0x58 : Byte).toNat + 256 * (0x02 : Byte).toNat = 600 ∧
      (∀ x ∈ [inactive, moving, tested 500, holding, parked, starting, releasing, serving bank], Ready (s x)) ∧
      ((serving bank).sr.serviceMode = true ∧ starting.sr.serviceMode = false ∧ starting.hc.state = .starting ∧
        parked.sr.serviceMode = false ∧ parked.active = some act ∧ parked.hc.state = .parked) ∧
      (moving.hc.state = .inactive ∧ EntryRefused act.bank moving.hc .notStationary ∧
        EntryRefused { bank with params := { bank.params with holdEnable := false } } moving.hc .refusedState ∧
        EntryRefused act.bank { moving.hc with missing := true } .degraded ∧
        EntryRefused act.bank { moving.hc with blind := true, guard := some 9 } .degraded ∧
        EntryRefused act.bank { inactive.hc with guard := some 9 } .guard ∧
        EntryHolds act.bank inactive.hc ∧ inactive.hc.claims = noClaims) ∧
      (releasing.hc.state = .releasing ∧ releasing.hc.ramp.isSome = true ∧ releasing.hc.claims = noClaims) ∧
      ((tested 500).hc.state = .holding ∧ (tested 500).hc.resultPressure.within (tested 500).hc.demand.pressure ∧
        ((tested 500).hc.limitedFloors act.bank).within (tested 500).hc.demand.pressure) ∧
      ((tested 500).hc.claims[1]? = some (some c) ∧
        ∀ (i : Nat) x, (tested 500).hc.claims[i]? = some (some x) → i = 1) ∧
      ((∀ x, some x ∈ holding.hc.claims → ¬ (x.source = .service ∧ x.tag = 1)) ∧ holding.hc.claims[2]? = some none ∧
        ∀ i, 1 ≤ i → i < 2 → holding.hc.claims[i]? ≠ some none) ∧
      ((∀ x, some x ∈ full → ¬ (x.source = .service ∧ x.tag = 1)) ∧ ∀ i, 1 ≤ i → i ≤ 5 → full[i]? ≠ some none) ∧
      (∀ x y, (hcState [x] y).active = y.active ∧ (hcState [x] y).mail.toHc = one x :: [] ∧
        (hcState [x] y).hc = y.hc ∧ (one x).allOnce ≠ some true) ∧
      (Source.discharge.SignalOf rise.kind ∧ rise.validity = .valid ∧ rise.value = some 1 ∧
        (⟨.dischargeActive, .lost, some 1, false⟩ : PubItem).validity ≠ .valid) ∧
      (∀ x ∈ [starting, inactive, moving, holding, releasing, parked], x.active = some act ∧
        x.hc.latch .discharge = .idle) ∧
      latched.hc.latch .discharge ≠ .idle ∧ EntryHolds act.bank (taking rise inactive).hc ∧
      ¬ EntryHolds act.bank (taking rise moving).hc ∧
      (holding.hc.resultPressure.within holding.hc.demand.pressure ∧
        (holding.hc.limitedFloors act.bank).within holding.hc.demand.pressure) ∧
      (∀ x, some x ∈ holding.hc.claims → ¬ (x.source = .discharge ∧ x.tag = 0)) := by
  refine ⟨fun _ => asks_ask _ _, ?_, ?_, fun x h => ?_, ?_, ⟨rfl, entryRefused_iff.mpr rfl, entryRefused_iff.mpr rfl,
    entryRefused_iff.mpr rfl, entryRefused_iff.mpr rfl, entryRefused_iff.mpr rfl, entryHolds_iff.mp rfl, ?_⟩, ?_,
    ⟨rfl, ⟨?_, ?_⟩, ?_, ?_⟩, ⟨rfl, only_slot_one _⟩,
    ⟨fun x h => ?_, rfl, fun i h1 h2 => ?_⟩, ⟨fun x h => ?_, fun i h1 h2 => ?_⟩, fun _ _ => ⟨rfl, rfl, rfl, nofun⟩,
    ⟨.inr (.inr ⟨rfl, rfl⟩), ?_⟩, ?_, ?_, entryHolds_iff.mp ?_, fun h => ?_, ⟨⟨?_, ?_⟩, ?_, ?_⟩, fun x h => ?_⟩
  case refine_3 =>
    simp only [List.mem_cons, List.not_mem_nil, or_false] at h
    rcases h with rfl | rfl | rfl | rfl | rfl | rfl | rfl | rfl <;> exact ⟨rfl, rfl⟩
  case refine_11 => rcases driver_only x h with h | h <;> simp [h]
  case refine_12 =>
    obtain rfl : i = 1 := by omega
    simp [holding, holdWith, driverOnly]
  case refine_13 =>
    simp only [List.mem_cons, Option.some.injEq, List.not_mem_nil, or_false, reduceCtorEq, false_or] at h
    rcases h with rfl | rfl | rfl | rfl | rfl <;> simp [signalClaim]
  case refine_14 => interval_cases i <;> simp
  case refine_19 => exact absurd (entryHolds_iff.mpr h) (by decide +kernel)
  case refine_24 => rcases driver_only x h with h | h <;> simp [h]
  all_goals decide +kernel

/-- A tag of 0 and of 4, one with no claim, and the claim of slot 1: with the driver in, with the driver gone, and
with another claim left. Then the discharge's signal falling: with its latch not ASSERTED, with no claim of its own, and
with its claim in slot 1 in the same three places. -/
theorem witness_ReleaseTestRemovesTheClaim :
    let data : List Byte := [12, 1]
    let c : Claim := ⟨.service, 1, some 600, none, some 120, 0, some 500⟩
    let d : Claim := signalClaim .pendantRear 0
    let away := { sitting with doorOpen := ⟨.valid, some 1⟩, seat := ⟨.valid, some 0⟩ }
    let gone := holdWith (fun h => { h with image := away }) (tested 500)
    let two := holdWith (fun h => { h with claims := [none, some c, some d, none, none, none] }) (tested 500)
    let fall := valid .dischargeActive 0
    let mine := signalClaim .discharge 0
    let held := holdWith (fun h => { h with
      latchDischarge := .asserted, claims := [none, some mine, none, none, none, none] }) holding
    let left := holdWith (fun h => { h with image := away }) held
    let both := holdWith (fun h => { h with claims := [none, some mine, some d, none, none, none] }) held
    let bare := holdWith (fun h => { h with latchDischarge := .asserted }) holding
    (∀ x, Asks .c (req data) [] (ask data x)) ∧ Ready (ask data (tested 500)) ∧ Ready (ask data gone) ∧
      Ready (ask data two) ∧ 3 < (4 : Byte).toNat ∧
      (∀ x, some x ∈ holding.hc.claims → ¬ (x.source = .service ∧ x.tag = 1)) ∧
      (∀ x ∈ [tested 500, gone, two], x.active = some act ∧ x.hc.state = .holding ∧ x.hc.claims.length = 6 ∧
        x.hc.claims[1]? = some (some c) ∧ x.hc.resultPressure.within x.hc.demand.pressure ∧
        (x.hc.limitedFloors act.bank).within x.hc.demand.pressure) ∧
      (∀ (i : Nat) x, (tested 500).hc.claims[i]? = some (some x) → i = 1) ∧
      (∀ (i : Nat) x, two.hc.claims[i]? = some (some x) → x.source = .service ∧ x.tag = 1 → i = 1) ∧
      (∀ x, some x ∉ (tested 500).hc.claims.set 1 none) ∧ ¬ Absent (tested 500).hc ∧ Absent gone.hc ∧
      some d ∈ two.hc.claims.set 1 none ∧
      (∀ x y, (hcState [x] y).mail.toHc = one x :: [] ∧ (hcState [x] y).hc = y.hc ∧ (one x).allOnce ≠ some true) ∧
      (Source.discharge.SignalOf fall.kind ∧ fall.validity = .valid ∧ fall.value = some 0) ∧
      holding.hc.latch .discharge ≠ .asserted ∧
      (∀ x, some x ∈ bare.hc.claims → ¬ (x.source = .discharge ∧ x.tag = 0)) ∧
      (∀ x ∈ [held, left, both], x.active = some act ∧ x.hc.latch .discharge = .asserted ∧ x.hc.state = .holding ∧
        x.hc.claims.length = 6 ∧ x.hc.claims[1]? = some (some mine) ∧
        x.hc.resultPressure.within x.hc.demand.pressure ∧
        (x.hc.limitedFloors act.bank).within x.hc.demand.pressure) ∧
      (∀ (i : Nat) x, both.hc.claims[i]? = some (some x) → x.source = .discharge ∧ x.tag = 0 → i = 1) ∧
      (∀ x, some x ∉ held.hc.claims.set 1 none) ∧ ¬ Absent held.hc ∧ Absent left.hc ∧
      some d ∈ both.hc.claims.set 1 none := by
  refine ⟨fun _ => asks_ask _ _, ⟨rfl, rfl⟩, ⟨rfl, rfl⟩, ⟨rfl, rfl⟩, by decide,
    fun x h => by rcases driver_only x h with h | h <;> simp [h], ?_, only_slot_one _,
    fun i x h hx => ?_, fun x h => ?_, ?_, ?_, ?_, fun _ _ => ⟨rfl, rfl, nofun⟩, ⟨.inr (.inr ⟨rfl, rfl⟩), rfl, rfl⟩, ?_,
    fun x h => by rcases driver_only x h with h | h <;> simp [h], ?_, fun i x h hx => ?_, fun x h => ?_, ?_, ?_, ?_⟩
  case refine_2 =>
    rcases i with _ | _ | _ | _ | _ | _ | i <;> simp [holdWith] at h ⊢
    simp [← h, signalClaim] at hx
  case refine_3 => simp [tested, holdWith] at h
  case refine_9 =>
    rcases i with _ | _ | _ | _ | _ | _ | i <;> simp [holdWith] at h ⊢
    simp [← h, signalClaim] at hx
  case refine_10 => simp [holdWith] at h
  all_goals first | decide +kernel | (simp only [Absent, Circuits.within]; decide +kernel)

/-- HOLDING, its demand above the result and below the Maximum Pressures, meets every invariant, with a step each way. -/
theorem holding_kept : ClaimTableKept holding ∧ DemandRecordKept holding ∧ PressuresKept holding ∧
    QueuesKept holding ∧ DedicatedKept holding ∧ CountersKept holding ∧ ServiceModeKept holding := by
  refine ⟨⟨rfl, by decide, by decide⟩, ⟨rfl, rfl, by decide⟩, ?_, fun p => ?_, fun p cls => ?_, ?_, ?_⟩
  · refine ⟨fun b h => (by cases h), ⟨by decide, by decide, by decide⟩, trivial, by decide, by decide, fun a h => ?_,
      fun a h => ?_, fun a h => ?_, fun a r _ h => (by cases h), fun a _ r h => (by cases h)⟩ <;> cases h
    · exact ⟨by decide, by decide, by decide⟩
    · exact ⟨by decide, by decide⟩
    · exact ⟨by decide, by decide⟩
  · cases p <;> exact ⟨by decide, by decide⟩
  · cases p <;> cases cls <;> decide
  · refine ⟨?_, ?_, ⟨rfl, fun x h => ?_⟩, fun r h => (by cases h), by decide, by decide, by decide, by decide, by decide⟩
    · exact ⟨by decide, by decide, by decide, by decide, by decide, by decide, by decide⟩
    · exact ⟨by decide, by decide, by decide, by decide, by decide, by decide, by decide⟩
    · rw [List.eq_of_mem_replicate h]
      exact ⟨by decide, by decide, by decide⟩
  · exact ⟨by decide, rfl, by decide, by decide⟩

theorem witness_StepKeepsTheClaimTableAndTheDemand :
    ClaimTableKept holding ∧ DemandRecordKept holding ∧ step holding = .next (tick holding) :=
  ⟨holding_kept.1, holding_kept.2.1, rfl⟩

theorem witness_StepKeepsThePressuresInRange :
    PressuresKept holding ∧ ServiceModeKept holding ∧ step holding = .next (tick holding) :=
  ⟨holding_kept.2.2.1, holding_kept.2.2.2.2.2.2, rfl⟩

theorem witness_StepKeepsTheQueues :
    QueuesKept holding ∧ DedicatedKept holding ∧ holding.loading = false ∧ step holding = .next (tick holding) :=
  ⟨holding_kept.2.2.2.1, holding_kept.2.2.2.2.1, rfl, rfl⟩

theorem witness_StepKeepsTheCountersInRange : CountersKept holding ∧ step holding = .next (tick holding) :=
  ⟨holding_kept.2.2.2.2.2.1, rfl⟩

theorem witness_StepKeepsServiceMode :
    ClaimTableKept holding ∧ ServiceModeKept holding ∧ step holding = .next (tick holding) :=
  ⟨holding_kept.1, holding_kept.2.2.2.2.2.2, rfl⟩

theorem witness_DemandNeverFallsInHolding :
    PressuresKept holding ∧ step holding = .next (tick holding) ∧ holding.hc.state = .holding ∧
      (tick holding).hc.state = .holding := ⟨holding_kept.2.2.1, rfl, rfl, rfl⟩

/-- A MAJOR fault held, and a report taken on it. -/
theorem witness_MajorFaultStays :
    let r : FaultRecord := ⟨.major, .monitorBlind, .none, .holding, 41050, 255⟩
    let s : State := { mailed holding (fun m => { m with faults := [⟨.minor, .capacity, .none, none⟩] }) with
      fc := { holding.fc with record := some r }, pending := [.faultReport 0] }
    s.fc.record = some r ∧ r.severity = .major ∧ (∃ t, step s = .next t) ∧
      (∀ p rest, s.pending ≠ .clearFault p :: rest) ∧ ∀ pins rest, s.pending ≠ .powerOnReset pins :: rest :=
  ⟨rfl, rfl, ⟨_, rfl⟩, fun _ _ h => (by cases h), fun _ _ h => (by cases h)⟩

end Sys2Proof.Tests
end

