-- ==== Sys2Proof/Proofs/HoldForce.lean ====
section
/-! PROOF. The shares of the hold force and the axle pressures (R34, R35), the drum margin and the grade used (R31,
R32). -/

namespace Sys2Proof.Machine

/-! ## Quotients rounded up -/

/-- A quotient rounded up is the least number whose product with the divisor reaches the dividend. -/
theorem ceilDiv_le_iff {a b n : Nat} (hb : 0 < b) : ceilDiv a b ≤ n ↔ a ≤ n * b := by
  have h : ceilDiv a b = a ⌈/⌉ b := (Nat.ceilDiv_eq_add_pred_div a b).symm
  rw [h, ceilDiv_le_iff_le_mul hb, Nat.mul_comm]

theorem le_ceilDiv_mul {a b : Nat} (hb : 0 < b) : a ≤ ceilDiv a b * b := (ceilDiv_le_iff hb).mp le_rfl

theorem ceilDiv_mul_lt {a b : Nat} (hb : 0 < b) : ceilDiv a b * b < a + b := by
  have h : ceilDiv a b * b ≤ a + b - 1 := Nat.div_mul_le_self _ _
  omega

@[simp] theorem ceilDiv_zero_left (b : Nat) : ceilDiv 0 b = 0 := by
  simp only [ceilDiv, Nat.zero_add, Nat.div_eq_zero_iff]
  omega

/-! ## Sums over axles -/

@[simp] theorem sumOver_nil (f : Axle → Nat) : sumOver f [] = 0 := rfl

@[simp] theorem sumOver_cons (f : Axle → Nat) (x : Axle) (l : List Axle) :
    sumOver f (x :: l) = f x + sumOver f l := rfl

/-- Quotients rounded up lose nothing of the sum they divide. -/
theorem mul_sumOver_le_sumOver_ceilDiv {d : Nat} (hd : 0 < d) (c : Nat) (f : Axle → Nat) (l : List Axle) :
    c * sumOver f l ≤ sumOver (fun x => ceilDiv (c * f x) d) l * d := by
  induction l with
  | nil => simp
  | cons x l ih =>
    simp only [sumOver_cons, Nat.mul_add, Nat.add_mul]
    exact Nat.add_le_add (le_ceilDiv_mul hd) ih

/-- Each quotient rounded up adds less than its divisor. -/
theorem sumOver_ceilDiv_add_length_le {d : Nat} (hd : 0 < d) (c : Nat) (f : Axle → Nat) (l : List Axle) :
    sumOver (fun x => ceilDiv (c * f x) d) l * d + l.length ≤ c * sumOver f l + l.length * d := by
  induction l with
  | nil => simp
  | cons x l ih =>
    have hx : ceilDiv (c * f x) d * d < c * f x + d := ceilDiv_mul_lt hd
    simp only [sumOver_cons, List.length_cons, Nat.mul_add, Nat.add_mul, Nat.one_mul]
    omega

/-! ## Shares and pressures (R34, R35) -/

section
variable {b : Bank} {img : CalcImage} {x : Axle}

theorem counted_length (img : CalcImage) : img.counted.length = 4 ∨ img.counted.length = 5 := by
  unfold CalcImage.counted
  split
  · exact .inr rfl
  · exact .inl rfl

theorem counted_length_pos (img : CalcImage) : 0 < img.counted.length := by
  have := counted_length img
  omega

theorem axleShare_of_load (h : totalLoad b img ≠ 0) :
    axleShare b img x = ceilDiv (holdForce b img * finalLoad b img x) (totalLoad b img) := if_neg h

theorem sumOver_axleShare_of_load (h : totalLoad b img ≠ 0) : sumOver (axleShare b img) img.counted =
    sumOver (fun x => ceilDiv (holdForce b img * finalLoad b img x) (totalLoad b img)) img.counted :=
  congrArg (sumOver · img.counted) (funext fun _ => axleShare_of_load h)

theorem axleShare_of_no_load (h : totalLoad b img = 0) :
    axleShare b img x = ceilDiv (holdForce b img) img.counted.length := if_pos h

theorem axleShare_eq_zero (hx : finalLoad b img x = 0) (h : totalLoad b img ≠ 0) : axleShare b img x = 0 := by
  rw [axleShare_of_load h, hx, Nat.mul_zero, ceilDiv_zero_left]

theorem axlePressure_eq_zero (h : axleShare b img x = 0) : axlePressure b img x = 0 := by
  rw [axlePressure, h, ceilDiv_zero_left]

theorem holdForce_le_sumOver_axleShare (h : totalLoad b img ≠ 0) :
    holdForce b img ≤ sumOver (axleShare b img) img.counted := by
  have hpos := Nat.pos_of_ne_zero h
  rw [sumOver_axleShare_of_load h]
  exact Nat.le_of_mul_le_mul_right (mul_sumOver_le_sumOver_ceilDiv hpos _ _ _) hpos

theorem sumOver_axleShare_lt (h : totalLoad b img ≠ 0) :
    sumOver (axleShare b img) img.counted < holdForce b img + img.counted.length := by
  have hpos := Nat.pos_of_ne_zero h
  have hsum := sumOver_ceilDiv_add_length_le hpos (holdForce b img) (finalLoad b img) img.counted
  have hlen := counted_length_pos img
  rw [sumOver_axleShare_of_load h]
  apply Nat.lt_of_mul_lt_mul_right (a := totalLoad b img)
  calc _ < sumOver _ img.counted * totalLoad b img + img.counted.length := Nat.lt_add_of_pos_right hlen
    _ ≤ holdForce b img * totalLoad b img + img.counted.length * totalLoad b img := hsum
    _ = (holdForce b img + img.counted.length) * totalLoad b img := (Nat.add_mul ..).symm

end

/-- Settles O18: a share and a pressure are quotients rounded up, and the errors of the shares add up. -/
theorem sharesAndPressures : Obligations.SharesAndPressures := by
  intro b img
  refine ⟨fun x _ => ⟨fun h => ?share, fun h => ?equalShare, axleShare_eq_zero, axlePressure_eq_zero,
    fun h => ⟨le_ceilDiv_mul h, fun _ => (ceilDiv_le_iff h).mpr⟩⟩,
    fun h => ⟨holdForce_le_sumOver_axleShare h, sumOver_axleShare_lt h⟩, counted_length img⟩
  case share =>
    have hpos := Nat.pos_of_ne_zero h
    rw [axleShare_of_load h]
    exact ⟨le_ceilDiv_mul hpos, fun _ => (ceilDiv_le_iff hpos).mpr⟩
  case equalShare =>
    have hpos := counted_length_pos img
    rw [axleShare_of_no_load h]
    exact ⟨le_ceilDiv_mul hpos, fun _ => (ceilDiv_le_iff hpos).mpr⟩

/-! ## The drum margin and the grade used (R31, R32) -/

section
variable {b : Bank} {img : CalcImage} {v : Int}

theorem Sig.valid?_of_not_valid {x : Sig} (h : x.validity ≠ .valid) : x.valid? = none := if_neg h

/-- The margin is taken with no VALID speed below the threshold. -/
theorem drumMargin_of_turning (h : ∀ v, img.drum.valid? = some v → b.params.drumThreshold ≤ v.natAbs) :
    drumMargin b img = b.params.drumMargin := by
  unfold drumMargin
  cases hd : img.drum.valid? with
  | none => simp
  | some v => simp [h v hd]

theorem drumMargin_of_discharge (h : img.discharge = ⟨.valid, some 1⟩) :
    drumMargin b img = b.params.drumMargin := by
  simp [drumMargin, Sig.is_iff.mpr h]

theorem drumMargin_of_still (hd : img.drum = ⟨.valid, some v⟩) (hv : v.natAbs < b.params.drumThreshold)
    (h : img.discharge ≠ ⟨.valid, some 1⟩) : drumMargin b img = 0 := by
  have hdis : img.discharge.is 1 = false := Bool.eq_false_iff.mpr (mt Sig.is_iff.mp h)
  simp [drumMargin, Sig.valid?_iff.mpr hd, hdis, hv]

theorem drumMargin_eq_param_or_zero (b : Bank) (img : CalcImage) :
    drumMargin b img = b.params.drumMargin ∨ drumMargin b img = 0 := ite_eq_or_eq ..

theorem gradeUsed_of_valid (h : img.grade = ⟨.valid, some v⟩) : gradeUsed img = (max (-400) (min 400 v)).natAbs := by
  have hg : gradeUsed img = min v.natAbs 400 := by simp only [gradeUsed, Sig.valid?_iff.mpr h]; rfl
  omega

theorem gradeUsed_of_not_valid (h : img.grade.validity ≠ .valid) : gradeUsed img = 400 := by
  simp only [gradeUsed, Sig.valid?_of_not_valid h]
  rfl

end

/-- Settles O19: the drum by its cases of R32, the grade by those of R31. -/
theorem drumMarginAndGrade : Obligations.DrumMarginAndGrade := by
  intro b img
  refine ⟨drumMargin_eq_param_or_zero b img, ?turning, ?notValid, drumMargin_of_discharge, ?still,
    fun _ => gradeUsed_of_valid, gradeUsed_of_not_valid⟩
  case turning =>
    rintro ⟨v, hd, hv⟩
    refine drumMargin_of_turning fun w hw => ?_
    obtain rfl : v = w := Option.some.inj ((Sig.valid?_iff.mpr hd).symm.trans hw)
    exact hv
  case notValid =>
    intro h
    refine drumMargin_of_turning fun w hw => ?_
    simp [Sig.valid?_of_not_valid h] at hw
  case still =>
    rintro ⟨v, hd, hv⟩ h
    exact drumMargin_of_still hd hv h

end Sys2Proof.Machine
end

