-- ==== Sys2Proof/Proofs/DriveOff.lean ====
section
/-! PROOF. The drive-off criterion and the cell of the Release Table it reads (R91 to R94). -/

namespace Sys2Proof.Machine

/-! ## Intent and grade (R91, R92) -/

section
variable {b : Bank} {h : HoldController} {fwd : Bool} {grade pedal torque : Int}

/-- The gear that gives an intent: 1 is FORWARD, 2 is REVERSE. -/
def gearOf (fwd : Bool) : Int := if fwd then 1 else 2

theorem intent_eq_some_iff : h.intent = some fwd ↔ h.image.gear.valid? = some (gearOf fwd) := by
  unfold HoldController.intent
  split
  case h_1 hv => cases fwd <;> simp [hv, gearOf]
  case h_2 hv => cases fwd <;> simp [hv, gearOf]
  case h_3 notForward notReverse =>
    refine iff_of_false nofun ?_
    cases fwd
    · exact notReverse
    · exact notForward

/-- A gear and its intent, as numbers, are those of a direction. -/
theorem gear_and_intent_iff {gear intent : Int} :
    (gear = 1 ∧ intent = 1) ∨ (gear = 2 ∧ intent = -1) ↔ ∃ fwd, gear = gearOf fwd ∧ intent = intentSign fwd := by
  simp [gearOf, intentSign, or_comm]

theorem uphill_iff : uphill fwd grade = true ↔ 0 < intentSign fwd * grade ∧ 10 ≤ grade.natAbs := by
  simp only [uphill, Bool.and_eq_true, decide_eq_true_eq]
  rfl

/-! ## The criterion (R94) -/

/-- Torque and pedal reach what a drive-off of this intent asks on this grade. -/
def DriveOffReached (b : Bank) (mass : Nat) (intent grade pedal torque : Int) : Prop :=
  (0 < intent * grade ∧ 10 ≤ grade.natAbs ∧ (b.releaseCell grade mass : Int) ≤ torque ∧
      (b.params.uphillPedal : Int) ≤ pedal) ∨
    (¬ (0 < intent * grade ∧ 10 ≤ grade.natAbs) ∧ (b.params.downhillPedal : Int) ≤ pedal)

/-- With every kind VALID and an intent, the criterion is what torque and pedal reach. -/
theorem criterion_iff_reached (hi : h.intent = some fwd) (hg : h.image.grade.valid? = some grade)
    (hp : h.image.drivePedal.valid? = some pedal) (ht : h.image.torque.valid? = some torque) :
    h.criterion b = true ↔ DriveOffReached b h.mass (intentSign fwd) grade pedal torque := by
  simp only [HoldController.criterion, hi, hg, hp, ht, DriveOffReached]
  by_cases up : uphill fwd grade = true
  · obtain ⟨hsign, hmag⟩ := uphill_iff.mp up
    simp [up, hsign, hmag]
  · simp [up, ← uphill_iff, ← and_assoc]

/-- The criterion holds with an intent and with grade, pedal and torque VALID alone. -/
theorem known_of_criterion (hc : h.criterion b = true) : ∃ fwd grade pedal torque, h.intent = some fwd ∧
    h.image.grade.valid? = some grade ∧ h.image.drivePedal.valid? = some pedal ∧
    h.image.torque.valid? = some torque := by
  unfold HoldController.criterion at hc
  split at hc
  case h_1 hi hg hp ht => exact ⟨_, _, _, _, hi, hg, hp, ht⟩
  case h_2 => cases hc

theorem criterion_iff : h.criterion b = true ↔ ∃ fwd grade pedal torque,
    h.image.gear = ⟨.valid, some (gearOf fwd)⟩ ∧ h.image.grade = ⟨.valid, some grade⟩ ∧
    h.image.drivePedal = ⟨.valid, some pedal⟩ ∧ h.image.torque = ⟨.valid, some torque⟩ ∧
    DriveOffReached b h.mass (intentSign fwd) grade pedal torque := by
  simp only [← Sig.valid?_iff, ← intent_eq_some_iff]
  constructor
  · intro hc
    obtain ⟨fwd, grade, pedal, torque, hi, hg, hp, ht⟩ := known_of_criterion hc
    exact ⟨fwd, grade, pedal, torque, hi, hg, hp, ht, (criterion_iff_reached hi hg hp ht).mp hc⟩
  · rintro ⟨fwd, grade, pedal, torque, hi, hg, hp, ht, reached⟩
    exact (criterion_iff_reached hi hg hp ht).mpr reached

/-! ## The Release Table (R93) -/

theorem releaseCell_of_isBand {mass g m cell : Nat} (hg : IsBand b.gradeBounds grade.natAbs g)
    (hm : IsBand b.massBounds mass m) (hc : b.cells[g * 6 + m]? = some cell) : b.releaseCell grade mass = cell := by
  rw [Bank.releaseCell, bandOf_eq hg, bandOf_eq hm, hc, Option.getD_some]

theorem mass_of_result {r : CalcResult} (hr : h.result = some r) : h.mass = r.mass := by
  simp [HoldController.mass, hr]

end

/-- Settles O21: the criterion by its intent and its four kinds, the cell by the two bands that select it. -/
theorem driveOffCriterion : Obligations.DriveOffCriterion := by
  refine ⟨fun b h => criterion_iff.trans ⟨?reached, ?holds⟩, fun _ _ _ _ _ _ => releaseCell_of_isBand,
    fun _ _ => mass_of_result, by decide, by decide⟩
  case reached =>
    rintro ⟨fwd, grade, pedal, torque, hgear, hgrade, hpedal, htorque, reached⟩
    exact ⟨gearOf fwd, grade, pedal, torque, hgear, hgrade, hpedal, htorque, intentSign fwd,
      gear_and_intent_iff.mpr ⟨fwd, rfl, rfl⟩, reached⟩
  case holds =>
    rintro ⟨gear, grade, pedal, torque, hgear, hgrade, hpedal, htorque, intent, hintent, reached⟩
    obtain ⟨fwd, rfl, rfl⟩ := gear_and_intent_iff.mp hintent
    exact ⟨fwd, grade, pedal, torque, hgear, hgrade, hpedal, htorque, reached⟩

end Sys2Proof.Machine
end

