-- ==== Sys2Proof/Proofs/Frames.lean ====
section
/-! PROOF. What each command can reach of the parts of a state that the invariants read, and what it leaves. -/

namespace Sys2Proof.Machine

/-- The parts of a state that the invariants read. `service` is service mode with its staging bank and idle timer. -/
inductive Part where
  | loading | active | hold | creep | scheduler | faults | service | store | results | requests

/-- Two states agree on a part. -/
def Part.Same : Part → State → State → Prop
  | .loading, s, t => t.loading = s.loading
  | .active, s, t => t.active = s.active
  | .hold, s, t => t.hc = s.hc
  | .creep, s, t => t.cm = s.cm
  | .scheduler, s, t => t.tx = s.tx
  | .faults, s, t => t.fc = s.fc
  | .service, s, t => (t.sr.serviceMode, t.sr.staging, t.sr.idle) = (s.sr.serviceMode, s.sr.staging, s.sr.idle)
  | .store, s, t => t.store = s.store
  | .results, s, t => t.mail.results = s.mail.results
  | .requests, s, t => t.mail.requests = s.mail.requests

/-- `t` agrees with `s` but for the parts within reach. -/
def Reaches (reach : List Part) (s t : State) : Prop := ∀ x, x ∉ reach → x.Same s t

section
variable {r r' : List Part} {s t u : State}

theorem Part.Same.trans {x : Part} (h : x.Same s t) (k : x.Same t u) : x.Same s u := by
  cases x <;> exact Eq.trans k h

theorem Reaches.refl (r : List Part) (s : State) : Reaches r s s := fun x _ => by cases x <;> rfl

theorem Reaches.trans (h : Reaches r s t) (k : Reaches r t u) : Reaches r s u := fun x hx => (h x hx).trans (k x hx)

theorem Reaches.mono (h : Reaches r s t) (hr : ∀ x ∈ r, x ∈ r') : Reaches r' s t := fun x hx => h x fun k => hx (hr x k)

theorem Reaches.of_nil (h : Reaches [] s t) : Reaches r s t := h.mono fun _ h => nomatch h

/-- What is done after `t` reaches nothing more. -/
theorem Reaches.andThen (h : Reaches r s t) (k : Reaches [] t u) : Reaches r s u := h.trans k.of_nil

theorem Reaches.ite {c : Prop} [Decidable c] (h : Reaches r s t) (k : Reaches r s u) : Reaches r s (if c then t else u) := by
  split
  · exact h
  · exact k

theorem Reaches.foldl {α : Type} {f : State → α → State} (h : ∀ s x, Reaches r s (f s x)) (l : List α) (s : State) :
    Reaches r s (l.foldl f s) := by
  induction l generalizing s with
  | nil => exact .refl _ _
  | cons x l ih => exact (h s x).trans (ih _)

end

/-! ## The shared operations -/

section
variable (s : State)

theorem raise_reaches (e : Event) : Reaches [] s (raise e s) := fun x _ => by cases x <;> rfl
theorem report_reaches (sev : Severity) (k : FaultKind) (j : Subject) : Reaches [] s (report sev k j s) :=
  fun x _ => by cases x <;> rfl
theorem reportChange_reaches (sev : Severity) (k : FaultKind) (j : Subject) : Reaches [] s (reportChange sev k j s) :=
  fun x _ => by cases x <;> rfl
theorem count_reaches (c : Counter) : Reaches [] s (count c s) := fun x _ => by cases x <;> rfl
theorem countTimes_reaches (c : Counter) (n : Nat) : Reaches [] s (countTimes c n s) := fun x _ => by cases x <;> rfl
theorem tellState_reaches (h : HoldState) (b : Bool) : Reaches [] s (tellState h b s) := fun x _ => by cases x <;> rfl
theorem tellHold_reaches (d : CreepReport) : Reaches [] s (tellHold d s) := fun x _ => by cases x <;> rfl
theorem tellCreep_reaches (d : CreepDelivery) : Reaches [] s (tellCreep d s) := fun x _ => by cases x <;> rfl
theorem postOffer_reaches (o : Offer) : Reaches [] s (postOffer o s) := fun x _ => by cases x <;> rfl
theorem respond_reaches (p : Port) (code : Nat) (a : Answer) (reset : Bool) : Reaches [] s (respond p code a reset s) :=
  postOffer_reaches s _
theorem watchCopy_reaches (i : Nat) (f : Frame) : Reaches [] s (watchCopy i f s) := fun x _ => by cases x <;> rfl
theorem setMonitor_reaches (i : Nat) (m : MonitorState) : Reaches [] s (setMonitor i m s) := fun x _ => by cases x <;> rfl
theorem setSm_reaches (m : SignalMonitor) : Reaches [] s (s.setSm m) := fun x _ => by cases x <;> rfl
theorem setFe_reaches (fe : ForwardingEngine) : Reaches [] s (s.setFe fe) := fun x _ => by cases x <;> rfl
theorem setHpc_reaches (c : Option Calculator) : Reaches [] s (s.setHpc c) := fun x _ => by cases x <;> rfl
theorem setLink_reaches (p : Port) (l : Link) : Reaches [] s (setLink p l s) := fun x _ => by cases x <;> rfl
theorem setEvents_reaches (e : EventSet) : Reaches [] s (s.setEvents e) := fun x _ => by cases x <;> rfl
theorem noteResetOut_reaches (e : Entry) : Reaches [] s (noteResetOut e s) := by
  rw [noteResetOut_eq]
  exact fun x _ => by cases x <;> rfl

/-- Deliveries other than results and requests are no part of an invariant. -/
theorem setMail_reaches (m : Mail) (hr : m.results = s.mail.results) (hq : m.requests = s.mail.requests) :
    Reaches [] s (s.setMail m) := fun x _ => by
  cases x
  case results => exact hr
  case requests => exact hq
  all_goals rfl

theorem setCm_reaches (c : CreepMonitor) : Reaches [.creep] s (s.setCm c) := fun x hx => by
  cases x
  case creep => simp at hx
  all_goals rfl

theorem setFc_reaches (c : FaultCapture) : Reaches [.faults] s (s.setFc c) := fun x hx => by
  cases x
  case faults => simp at hx
  all_goals rfl

theorem setTx_reaches (c : Scheduler) : Reaches [.scheduler] s (s.setTx c) := fun x hx => by
  cases x
  case scheduler => simp at hx
  all_goals rfl

theorem setQueue_reaches (p : Port) (q : TxQueue) : Reaches [.scheduler] s (setQueue p q s) := setTx_reaches s _

theorem onHold_reaches (f : HoldController → HoldController) : Reaches [.hold] s (onHold f s) := fun x hx => by
  cases x
  case hold => simp at hx
  all_goals rfl

theorem setResponder_reaches (f : ServiceResponder → ServiceResponder) : Reaches [.service] s (setResponder f s) :=
  fun x hx => by
    cases x
    case service => simp at hx
    all_goals rfl

end

/-! ## Forwarding Engine and Signal Monitor -/

section
variable (s : State)

theorem forwardCopy_reaches (p : Port) (f : Frame) (cls : Nat) : Reaches [] s (forwardCopy p f cls s) := by
  unfold forwardCopy
  exact (count_reaches s _).ite ((postOffer_reaches s _).ite
    ((count_reaches s _).ite ((setFe_reaches s _).trans (postOffer_reaches _ _))))

theorem makeCopies_reaches (p : Port) (f : Frame) (v : Verdict) : Reaches [] s (makeCopies p f v s) := by
  obtain ⟨forward, watch⟩ := v
  cases forward <;> cases watch
  · exact count_reaches s _
  · exact watchCopy_reaches s _ _
  · exact forwardCopy_reaches s _ _ _
  · exact (watchCopy_reaches s _ _).trans (forwardCopy_reaches _ _ _ _)

theorem steer_reaches (p : Port) (f : Frame) : Reaches [.requests] s (steer p f s) := fun x hx => by
  cases x
  case requests => simp at hx
  all_goals rfl

theorem idConflict_reaches (p : Port) : Reaches [] s (idConflict p s) :=
  ((count_reaches s _).trans (raise_reaches _ _)).trans (report_reaches _ _ _ _)

theorem takeArrival_reaches (p : Port) (f : Frame) : Reaches [.requests] s (takeArrival p f s) := by
  unfold takeArrival
  have counted : Reaches [.requests] s (count (.rx p) s) := (count_reaches s _).of_nil
  refine .ite (.ite (counted.andThen (idConflict_reaches _ _)) (.ite (counted.trans (steer_reaches _ _ _)) ?_)) (.refl _ _)
  exact counted.andThen (makeCopies_reaches _ _ _ _)

theorem takeArrival_loading {p : Port} {f : Frame} (h : s.loading = true) : takeArrival p f s = s := by
  simp [takeArrival, takesArrivals, h]

theorem refillExpired_reaches : Reaches [] s (refillExpired s) := by
  unfold refillExpired
  split
  · exact setFe_reaches s _
  · exact .refl _ _

theorem publish_reaches (old : SignalMonitor) (items : List PubItem) : Reaches [] s (publish old items s) :=
  setMail_reaches s _ rfl rfl

theorem enterValid_reaches (i : Nat) (e : MonitorEntry) (good : Nat) (values : List (SignalKind × Bool × Int)) :
    Reaches [] s (enterValid i e good values s) := by
  have accepted := fun (m : MonitorState) (sm : SignalMonitor) => (setMonitor_reaches s i m).trans (setSm_reaches _ sm)
  simp only [enterValid]
  exact (Reaches.ite ((accepted _ _).trans (raise_reaches _ _)) (accepted _ _)).trans (publish_reaches _ _ _)

theorem enterLost_reaches (i : Fin 24) (b : Bank) : Reaches [] s (enterLost i b s) := by
  rw [enterLost_frame]
  refine fun x _ => ?_
  cases x <;> rfl

theorem takeGood_reaches (i : Fin 24) (b : Bank) (values : List (SignalKind × Bool × Int)) :
    Reaches [] s (takeGood i b values s) := by
  have counted : Reaches [] s (count (.good i) s) := count_reaches s _
  simp only [takeGood]
  split
  · exact counted.trans (.ite (enterValid_reaches _ _ _ _ _) (setMonitor_reaches _ _ _))
  · exact counted.trans ((setMonitor_reaches _ _ _).trans ((setSm_reaches _ _).trans (publish_reaches _ _ _)))
  · exact counted.trans (.ite (enterValid_reaches _ _ _ _ _) (setMonitor_reaches _ _ _))

theorem takeError_reaches (i : Fin 24) (b : Bank) : Reaches [] s (takeError i b s) := by
  have counted : Reaches [] s (count (.errors i) s) := count_reaches s _
  simp only [takeError]
  split
  · exact counted.trans (setMonitor_reaches _ _ _)
  · exact counted.trans ((setMonitor_reaches _ _ _).trans (.ite (enterLost_reaches _ _ _) (.refl _ _)))
  · exact counted

theorem handRefused_reaches (l : List (Fin 8 × Nat)) : Reaches [] s (handRefused l s) :=
  .foldl (fun s _ => tellCreep_reaches s _) l s

theorem takeFrame_reaches (i : Fin 24) (a : ActiveBank) (f : Frame) : Reaches [] s (takeFrame i a f s) := by
  simp only [takeFrame]
  have handed := fun m : MonitorState => fun l : List (Fin 8 × Nat) => fun c : Prop => fun [Decidable c] =>
    (setMonitor_reaches s i m).trans ((Reaches.ite (c := c) (raise_reaches _ .counterJump) (.refl _ _)).trans
      (handRefused_reaches _ l))
  split
  · exact (handed _ _ _).trans (takeGood_reaches _ _ _ _)
  · exact (handed _ _ _).trans (takeError_reaches _ _ _)

theorem takeWatchCopy_reaches (i : Fin 24) : Reaches [] s (takeWatchCopy i s) := by
  unfold takeWatchCopy
  split
  · exact (setMail_reaches s _ (by rfl) (by rfl)).trans (.ite (takeFrame_reaches _ _ _ _) (.refl _ _))
  · exact .refl _ _

theorem periodTimedOut_reaches (i : Fin 24) : Reaches [] s (periodTimedOut i s) := by
  unfold periodTimedOut
  split
  · exact (setMonitor_reaches s _ _).trans (takeError_reaches _ _ _)
  · exact .refl _ _

end

/-! ## Creep Monitor, calculator and Fault Capture -/

section
variable (s : State)

theorem takeRefused_reaches : Reaches [.creep] s (takeRefused s) := by
  unfold takeRefused
  split
  · exact (setMail_reaches s _ (by rfl) (by rfl)).of_nil.trans (setCm_reaches _ _)
  · exact .refl _ _

theorem enterBlind_reaches : Reaches [.creep] s (enterBlind s) := by
  have reported := fun c => ((setCm_reaches s c).andThen (tellHold_reaches _ (.blind true))).andThen
    (report_reaches _ .major .monitorBlind .none)
  simp only [enterBlind]
  exact .ite ((reported _).andThen (tellHold_reaches _ _)) (reported _)

theorem takeWheelSet_reaches (b : Bank) (items : List PubItem) : Reaches [.creep] s (takeWheelSet b items s) := by
  simp only [takeWheelSet]
  refine (setCm_reaches s _).trans (.ite (enterBlind_reaches _) (.ite ?_ (.refl _ _)))
  exact (setCm_reaches _ _).andThen (tellHold_reaches _ _)

theorem takeCreepSet_reaches : Reaches [.creep] s (takeCreepSet s) := by
  unfold takeCreepSet
  split
  · exact (setMail_reaches s _ (by rfl) (by rfl)).of_nil.trans (takeWheelSet_reaches _ _ _)
  · exact .refl _ _

theorem stationaryTest_reaches (b : Bank) (n : Nat) : Reaches [.creep] s (stationaryTest b n s) := by
  simp only [stationaryTest]
  exact .ite (.refl _ _) (.ite ((setCm_reaches s _).andThen (tellHold_reaches _ _)) (setCm_reaches s _))

theorem cross_reaches (n : Fin 8) : Reaches [.creep] s (cross n s) := by
  have crossed := fun c => (setCm_reaches s c).andThen (raise_reaches _ .creep)
  simp only [cross]
  split
  · exact (crossed _).trans (.ite (tellHold_reaches _ _).of_nil ((setCm_reaches _ _).andThen (tellHold_reaches _ _)))
  · exact (crossed _).andThen (tellHold_reaches _ _)
  · exact (crossed _).andThen (tellHold_reaches _ _)
  · exact (crossed _).andThen (tellHold_reaches _ _)
  · exact crossed _

theorem accumulate_reaches (b : Bank) (x : Ranked) : Reaches [.creep] s (accumulate b x s) := by
  simp only [accumulate]
  exact .ite (.ite ((setCm_reaches s _).trans (cross_reaches _ _)) (setCm_reaches s _)) (.refl _ _)

theorem evaluate_reaches (b : Bank) : Reaches [.creep] s (evaluate b s) := by
  simp only [evaluate]
  refine .ite (setCm_reaches s _) ?_
  split
  · exact (setCm_reaches s _).trans ((stationaryTest_reaches _ _ _).trans (accumulate_reaches _ _ _))
  · exact setCm_reaches s _

theorem evaluationExpired_reaches : Reaches [.creep] s (evaluationExpired s) := by
  unfold evaluationExpired
  split
  · exact (evaluate_reaches s _).trans (setCm_reaches _ _)
  · exact .refl _ _

theorem stationaryExpired_reaches : Reaches [.creep] s (stationaryExpired s) := by
  unfold stationaryExpired
  split
  · exact .ite (setCm_reaches s _) ((setCm_reaches s _).andThen (tellHold_reaches _ _))
  · exact .refl _ _

theorem takeStateReport_reaches : Reaches [.creep] s (takeStateReport s) := by
  unfold takeStateReport
  split
  · exact .refl _ _
  · exact (setMail_reaches s _ (by rfl) (by rfl)).of_nil.trans (setCm_reaches _ _)

/-- Before its result is handed on, a computation reports and raises events alone (R29, R30, R37). -/
theorem reportLosses_reaches (l : List Axle) : Reaches [] s (reportLosses l s) := .foldl (fun s _ => report_reaches s _ _ _) l s

theorem capture_reaches (r : FaultReport) : Reaches [.faults] s (capture r s) :=
  (setFc_reaches s _).andThen (raise_reaches _ _)

theorem takeReport_reaches (r : FaultReport) : Reaches [.faults] s (takeReport r s) := by
  unfold takeReport
  split
  · exact capture_reaches s r
  · exact .ite (capture_reaches s r) (setFc_reaches s _)

theorem takeFault_reaches (n : Nat) : Reaches [.faults] s (takeFault n s) := by
  unfold takeFault
  split
  · exact .refl _ _
  · exact (setMail_reaches s _ (by rfl) (by rfl)).of_nil.trans (takeReport_reaches _ _)

theorem takeCount_reaches : Reaches [.faults] s (takeCount s) := by
  unfold takeCount
  split
  · exact .refl _ _
  · exact (setMail_reaches s _ (by rfl) (by rfl)).of_nil.trans (setFc_reaches _ _)

end

/-! ## Transmit Scheduler -/

section
variable (s : State)

theorem trySend_reaches (p : Port) : Reaches [.scheduler] s (trySend p s) := by
  rw [(trySend_kept p s).frame]
  exact fun x hx => by
    cases x
    case scheduler => simp at hx
    all_goals rfl

theorem offer_reaches (p : Port) (e : Entry) : Reaches [.scheduler] s (offer p e s).2 := by
  rw [offer_frame]
  exact fun x hx => by
    cases x
    case scheduler => simp at hx
    all_goals rfl

theorem watermarks_reaches (n : Nat) : Reaches [.scheduler] s (watermarks n s) := by
  rw [watermarks_frame]
  exact fun x hx => by
    cases x
    case scheduler => simp at hx
    all_goals rfl

theorem runDemandPeriod_reaches : Reaches [.scheduler] s (runDemandPeriod s) :=
  have owed : Reaches [.scheduler] s (oweDemand s) := setTx_reaches s _
  (owed.trans (watermarks_reaches _ _)).trans ((offer_reaches _ _ _).trans (setTx_reaches _ _))

theorem entrySucceeded_reaches (e : Entry) : Reaches [.scheduler] s (entrySucceeded e s) := by
  unfold entrySucceeded
  split
  · exact .ite (.refl _ _) (setTx_reaches _ _)
  · exact (setEvents_reaches s _).of_nil.trans (.ite (.refl _ _) (setTx_reaches _ _))
  · exact .refl _ _
  · exact (noteResetOut_reaches s e).of_nil

theorem transmissionSucceeded_reaches (p : Port) : Reaches [.scheduler] s (transmissionSucceeded p s) := by
  unfold transmissionSucceeded
  split
  · exact .refl _ _
  · exact (setQueue_reaches s _ _).trans ((entrySucceeded_reaches _ _).trans
      ((setLink_reaches _ _ _).of_nil.trans (trySend_reaches _ _)))

theorem entryFailed_reaches (p : Port) (e : Entry) : Reaches [.scheduler] s (entryFailed p e s) := by
  unfold entryFailed
  refine Reaches.andThen ?_ (noteResetOut_reaches _ e)
  split
  · exact setQueue_reaches s _ _
  · exact (setQueue_reaches s _ _).andThen (count_reaches _ _)
  · exact setQueue_reaches s _ _

theorem flushQueue_reaches (p : Port) : Reaches [.scheduler] s (flushQueue p s) := by
  unfold flushQueue
  exact ((setQueue_reaches s _ _).andThen (countTimes_reaches _ _ _)).andThen (.foldl (fun s e => noteResetOut_reaches s e) _ _)

theorem enterBusOff_reaches (p : Port) : Reaches [.scheduler] s (enterBusOff p s) :=
  ((setLink_reaches s _ _).of_nil.andThen (report_reaches _ _ _ _)).trans (flushQueue_reaches _ _)

theorem transmissionFailed_reaches (p : Port) : Reaches [.scheduler] s (transmissionFailed p s) := by
  simp only [transmissionFailed]
  split
  · exact .refl _ _
  · exact ((entryFailed_reaches s _ _).andThen (count_reaches _ _)).trans ((setLink_reaches _ _ _).of_nil.trans
      (.ite (enterBusOff_reaches _ _) (trySend_reaches _ _)))

theorem recovered_reaches (p : Port) : Reaches [.scheduler] s (recovered p s) := by
  unfold recovered
  split
  · exact (setLink_reaches s _ _).of_nil.trans (trySend_reaches _ _)
  · exact .refl _ _

theorem demandPeriodExpired_reaches : Reaches [.scheduler] s (demandPeriodExpired s) := by
  unfold demandPeriodExpired
  split
  · exact runDemandPeriod_reaches s
  · exact .refl _ _

theorem statusPeriodExpired_reaches : Reaches [.scheduler] s (statusPeriodExpired s) := by
  unfold statusPeriodExpired
  split
  · exact (Reaches.ite (.refl _ _) (offer_reaches s _ _)).trans (setTx_reaches _ _)
  · exact .refl _ _

theorem takeOffer_reaches (p : Port) (cls : TxClass) : Reaches [.scheduler] s (takeOffer p cls s) := by
  unfold takeOffer
  split
  · exact .refl _ _
  · refine (setMail_reaches s _ (by rfl) (by rfl)).of_nil.trans (.ite (count_reaches _ _).of_nil ?_)
    exact (offer_reaches _ _ _).andThen (.ite (count_reaches _ _) (.refl _ _))

end

/-! ## Service Responder -/

/-- A request taken is out of its channel, and nothing else has changed. -/
theorem takeRequest_some {p : Port} {want : Frame → Bool} {s u : State} {f : Frame} (h : takeRequest p want s = some (f, u)) :
    s.mail.requests ≠ [] ∧ ∃ rest, u = s.setMail { s.mail with requests := rest } := by
  unfold takeRequest at h
  split at h
  case h_1 r rest hr =>
    split at h
    · obtain ⟨rfl, rfl⟩ := Prod.mk.inj (Option.some.inj h)
      exact ⟨fun hn => by simp [hn, takeFirst] at hr, rest, rfl⟩
    · cases h
  case h_2 => cases h

/-- What holds before a request is taken, and is kept by taking it, by its answer and by its act, holds after it (R177). -/
theorem serve_induct {P : State → Prop} {s : State} {code n : Nat} {p : Port} {act : Frame → State → State} (start : P s)
    (ask : s.mail.requests ≠ [] → ∀ rest, P (s.setMail { s.mail with requests := rest }))
    (restart : ∀ u, P u → P (restartIdle u)) (answer : ∀ u k a, P u → P (respond p k a false u))
    (acts : ∀ f u, P u → P (act f u)) : P (serve code n p act s) := by
  unfold serve
  split
  case h_1 => exact start
  case h_2 f u hu =>
    obtain ⟨hne, rest, rfl⟩ := takeRequest_some hu
    dsimp only
    split
    · exact answer _ _ _ (ask hne rest)
    · split
      · exact answer _ _ _ (restart _ (ask hne rest))
      · exact acts _ _ (restart _ (ask hne rest))

theorem serveNow_induct {P : State → Prop} {s : State} {code n : Nat} {p : Port} {act : Frame → State → Answer × State}
    (start : P s) (ask : s.mail.requests ≠ [] → ∀ rest, P (s.setMail { s.mail with requests := rest }))
    (restart : ∀ u, P u → P (restartIdle u)) (answer : ∀ u k a, P u → P (respond p k a false u))
    (acts : ∀ f u, P u → P (act f u).2) : P (serveNow code n p act s) :=
  serve_induct start ask restart answer fun f u hu => answer _ _ _ (acts f u hu)

section
variable (s : State)

theorem setRequests_reaches (rest : List Request) :
    Reaches [.requests] s (s.setMail { s.mail with requests := rest }) := fun x hx => by
  cases x
  case requests => simp at hx
  all_goals rfl

theorem restartIdle_reaches : Reaches [.service] s (restartIdle s) :=
  .ite (setResponder_reaches s _) (.refl _ _)

/-- A request reaches the requests, service mode and what its act reaches. -/
theorem serve_reaches {r : List Part} {code n : Nat} {p : Port} {act : Frame → State → State}
    (acts : ∀ f u, Reaches (.service :: .requests :: r) u (act f u)) :
    Reaches (.service :: .requests :: r) s (serve code n p act s) :=
  serve_induct (.refl _ _) (fun _ rest => (setRequests_reaches s rest).mono (by simp))
    (fun u hu => hu.trans ((restartIdle_reaches u).mono (by simp))) (fun u _ _ hu => hu.andThen (respond_reaches u _ _ _ _))
    fun f u hu => hu.trans (acts f u)

theorem serveNow_reaches {r : List Part} {code n : Nat} {p : Port} {act : Frame → State → Answer × State}
    (acts : ∀ f u, Reaches (.service :: .requests :: r) u (act f u).2) :
    Reaches (.service :: .requests :: r) s (serveNow code n p act s) :=
  serve_reaches s fun f u => (acts f u).andThen (respond_reaches _ _ _ _ _)

theorem enterService_reaches : Reaches [.service] s (enterService s).2 := by
  unfold enterService
  split
  · exact .refl _ _
  · split
    · dsimp only
      exact setResponder_reaches s _
    · exact .refl _ _

theorem exitService_reaches : Reaches [.service] s (exitService s).2 := by
  unfold exitService
  split
  · exact setResponder_reaches s _
  · exact .refl _ _

theorem idleExpired_reaches : Reaches [.service] s (idleExpired s) := by
  unfold idleExpired
  split
  · exact setResponder_reaches s _
  · exact .refl _ _

theorem writeField_reaches (f : Frame) : Reaches [.service] s (writeField f s).2 := by
  unfold writeField
  split
  · split
    · dsimp only
      exact setResponder_reaches s _
    · exact .refl _ _
  · exact .refl _ _

theorem readCounters_reaches (f : Frame) : Reaches [.faults] s (readCounters f s).2 := by
  unfold readCounters
  split
  · exact .refl _ _
  · split
    · exact .refl _ _
    · exact setFc_reaches s _
    · exact .refl _ _

theorem clearFault_reaches : Reaches [.faults] s (clearFault s).2 := setFc_reaches s _

theorem resetPart_reaches (p : Port) : Reaches [.service] s (resetPart p s) :=
  .ite ((setResponder_reaches s _).andThen (respond_reaches _ _ _ _ _)) (respond_reaches s _ _ _ _).of_nil

theorem unknownRequest_reaches (p : Port) : Reaches [.service, .requests] s (unknownRequest p s) := by
  unfold unknownRequest
  split
  · exact .refl _ _
  case h_2 f u hu =>
    obtain ⟨-, rest, rfl⟩ := takeRequest_some hu
    have asked := (setRequests_reaches s rest).mono (r' := [.service, .requests]) (by simp)
    have restarted := asked.trans ((restartIdle_reaches _).mono (by simp))
    exact .ite asked (.ite (asked.andThen (respond_reaches _ _ _ _ _)) (restarted.andThen (respond_reaches _ _ _ _ _)))

theorem storeWritten_reaches (ok : Bool) : Reaches [.store] s (storeWritten ok s) := by
  unfold storeWritten
  split
  · refine fun x hx => ?_
    cases x
    case store => simp at hx
    all_goals cases ok <;> rfl
  · exact .refl _ _

end

end Sys2Proof.Machine
end

