-- ==== Sys2Proof/Proofs/HoldSteps.lean ====
section
/-! PROOF. What the Hold Controller's operations keep of its record: the Claim Table, the demand record, the pressures in
range and, in service mode, a resting hold state. -/

namespace Sys2Proof.Machine

/-! ## What is kept, of a record -/

/-- R71, R125, of a record (`ClaimTableKept`). -/
structure HoldController.ClaimsKept (h : HoldController) : Prop where
  slots : h.claims.length = 6
  holding : h.state = .holding ↔ h.noClaim = false
  phase : h.phase.isSome = true → h.state = .handover

/-- R44, of a record (`DemandRecordKept`). -/
structure HoldController.DemandKept (h : HoldController) : Prop where
  mode : h.demand.mode = h.state.mode
  park : h.demand.park = h.state.parks
  idle : h.state.mode = .none ∨ h.state.mode = .parkOnly → h.demand.pressure = ⟨0, 0⟩

/-- The pressures of a record are within a bound (`PressuresKept`). -/
structure HoldController.Within (top : Circuits) (h : HoldController) : Prop where
  demand : h.demand.pressure.within top
  result : h.resultPressure.within top
  ramp : ∀ r, h.ramp = some r → r.start.within top

/-- The hold states of service mode (R68, R180). -/
def HoldState.Resting (x : HoldState) : Prop := x = .off ∨ x = .parked ∨ x = .secured

theorem claimTableKept_iff {s : State} : ClaimTableKept s ↔ s.hc.ClaimsKept :=
  ⟨fun h => ⟨h.slots, h.holding, h.phase⟩, fun h => ⟨h.slots, h.holding, h.phase⟩⟩

theorem demandRecordKept_iff {s : State} : DemandRecordKept s ↔ s.hc.DemandKept :=
  ⟨fun h => ⟨h.mode, h.park, h.idle⟩, fun h => ⟨h.mode, h.park, h.idle⟩⟩

/-- What an operation of the Hold Controller reaches, and what it keeps of the record. -/
structure HoldStep (b : Bank) (s t : State) : Prop where
  reaches : Reaches [.hold] s t
  claims : s.hc.ClaimsKept → t.hc.ClaimsKept
  demand : s.hc.ClaimsKept → s.hc.DemandKept → t.hc.DemandKept
  within : s.hc.Within b.maxPressure → t.hc.Within b.maxPressure
  rests : s.hc.ClaimsKept → s.sr.serviceMode = true → s.hc.state.Resting → t.hc.state.Resting

section
variable {b : Bank} {s t u : State}

theorem Reaches.serviceMode {r : List Part} (h : Reaches r s t) (hr : Part.service ∉ r) :
    t.sr.serviceMode = s.sr.serviceMode := congrArg Prod.fst (h .service hr)

theorem Reaches.active {r : List Part} (h : Reaches r s t) (hr : Part.active ∉ r) : t.active = s.active := h .active hr

theorem HoldStep.serviceMode (h : HoldStep b s t) : t.sr.serviceMode = s.sr.serviceMode :=
  h.reaches.serviceMode (by simp)

theorem HoldStep.trans (h : HoldStep b s t) (k : HoldStep b t u) : HoldStep b s u where
  reaches := h.reaches.trans k.reaches
  claims hc := k.claims (h.claims hc)
  demand hc hd := k.demand (h.claims hc) (h.demand hc hd)
  within hw := k.within (h.within hw)
  rests hc hs hr := k.rests (h.claims hc) (h.serviceMode.trans hs) (h.rests hc hs hr)

/-- The parts of the record that the invariants read are left. -/
structure HoldController.Still (h k : HoldController) : Prop where
  state : k.state = h.state
  claims : k.claims = h.claims
  demand : k.demand = h.demand
  phase : k.phase = h.phase
  ramp : k.ramp = h.ramp
  result : k.result = h.result

theorem noClaim_congr {h k : HoldController} (hc : k.claims = h.claims) : k.noClaim = h.noClaim := by
  simp [HoldController.noClaim, HoldController.standing, hc]

theorem resultPressure_congr {h k : HoldController} (hr : k.result = h.result) : k.resultPressure = h.resultPressure := by
  simp [HoldController.resultPressure, hr]

/-- In a hold state that goes on, with the claims and the demand changed as that state lets them. -/
theorem HoldStep.goesOn (hr : Reaches [.hold] s t) (state : t.hc.state = s.hc.state)
    (phase : t.hc.phase = s.hc.phase ∨ s.hc.state = .handover) (ramp : t.hc.ramp = s.hc.ramp) (result : t.hc.result = s.hc.result)
    (claims : s.hc.ClaimsKept → t.hc.claims.length = 6 ∧ t.hc.noClaim = s.hc.noClaim)
    (record : t.hc.demand.mode = s.hc.demand.mode ∧ t.hc.demand.park = s.hc.demand.park)
    (idle : s.hc.ClaimsKept → s.hc.state.mode = .none ∨ s.hc.state.mode = .parkOnly →
      t.hc.demand.pressure = s.hc.demand.pressure)
    (within : s.hc.Within b.maxPressure → t.hc.demand.pressure.within b.maxPressure) : HoldStep b s t where
  reaches := hr
  claims hc := by
    obtain ⟨hl, hn⟩ := claims hc
    exact ⟨hl, by rw [state, hn]; exact hc.holding, fun hp => state.trans (phase.elim (fun e => hc.phase (e ▸ hp)) id)⟩
  demand hc hd := by
    refine ⟨by rw [state, record.1, hd.mode], by rw [state, record.2, hd.park], fun hm => ?_⟩
    rw [state] at hm
    rw [idle hc hm, hd.idle hm]
  within hw := ⟨within hw, by rw [resultPressure_congr result]; exact hw.result, by rw [ramp]; exact hw.ramp⟩
  rests _ _ hs := by rw [state]; exact hs

theorem HoldStep.still (hr : Reaches [.hold] s t) (h : s.hc.Still t.hc) : HoldStep b s t :=
  .goesOn hr h.state (.inl h.phase) h.ramp h.result (fun hc => ⟨by rw [h.claims, hc.slots], noClaim_congr h.claims⟩)
    (by rw [h.demand]; exact ⟨rfl, rfl⟩) (fun _ _ => by rw [h.demand]) (fun hw => by rw [h.demand]; exact hw.demand)

theorem HoldStep.onHold {f : HoldController → HoldController} (h : s.hc.Still (f s.hc)) : HoldStep b s (onHold f s) :=
  .still (onHold_reaches s f) h

theorem HoldStep.of_reaches (h : Reaches [] s t) : HoldStep b s t := by
  have hh : t.hc = s.hc := h .hold (by simp)
  exact .still h.of_nil (by rw [hh]; exact ⟨rfl, rfl, rfl, rfl, rfl, rfl⟩)

theorem HoldStep.refl (b : Bank) (s : State) : HoldStep b s s := .of_reaches (.refl _ _)

theorem HoldStep.ite {c : Prop} [Decidable c] (h : c → HoldStep b s t) (k : ¬ c → HoldStep b s u) :
    HoldStep b s (if c then t else u) := by
  split
  · exact h ‹_›
  · exact k ‹_›

/-! ## Changes of state -/

/-- A hold state entered: its demand record, a Claim Table empty but in HOLDING, and pressures that were in hand. -/
theorem HoldStep.entered {new : HoldState} {asked : Circuits} (hr : Reaches [.hold] s t) (state : t.hc.state = new)
    (demand : t.hc.demand = demandFor b new asked)
    (claims : s.hc.ClaimsKept → t.hc.claims.length = 6 ∧ (new = .holding ↔ t.hc.noClaim = false))
    (phase : t.hc.phase.isSome = true → new = .handover) (result : t.hc.result = s.hc.result)
    (ramp : ∀ r, t.hc.ramp = some r → r.start = asked)
    (within : s.hc.Within b.maxPressure → asked.within b.maxPressure)
    (rests : s.hc.ClaimsKept → s.sr.serviceMode = true → s.hc.state.Resting → new.Resting) : HoldStep b s t where
  reaches := hr
  claims hc := by
    obtain ⟨hl, hn⟩ := claims hc
    exact ⟨hl, by rw [state]; exact hn, by rw [state]; exact phase⟩
  demand _ _ := by
    refine ⟨by rw [demand, state]; rfl, by rw [demand, state]; rfl, fun hm => ?_⟩
    rw [state] at hm
    rw [demand]
    cases new
    case holding | releasing | handover | secured => simp [HoldState.mode] at hm
    all_goals rfl
  within hw := by
    refine ⟨?_, by rw [resultPressure_congr result]; exact hw.result, fun r h => by rw [ramp r h]; exact within hw⟩
    rw [demand]
    cases new
    case releasing | handover | holding => exact within hw
    case secured => exact Circuits.within_refl _
    all_goals exact Circuits.zero_within _
  rests hc hs h := by rw [state]; exact rests hc hs h

theorem noClaims_noClaim {h : HoldController} (hc : h.claims = noClaims) : h.noClaim = true := by
  rw [noClaim_iff]
  simp [hc, noClaims]

/-- The Claim Table with no claim, as every hold state but HOLDING has it. -/
theorem claims_none {h : HoldController} {new : HoldState} (hne : new ≠ .holding) (hl : h.claims.length = 6)
    (hn : h.noClaim = true) : h.claims.length = 6 ∧ (new = .holding ↔ h.noClaim = false) :=
  ⟨hl, by simp [hne, hn]⟩

theorem claims_emptied {h : HoldController} {new : HoldState} (hne : new ≠ .holding) (hc : h.claims = noClaims) :
    h.claims.length = 6 ∧ (new = .holding ↔ h.noClaim = false) :=
  claims_none hne (by rw [hc]; rfl) (noClaims_noClaim hc)

/-- No claim stands outside HOLDING (R71). -/
theorem HoldController.ClaimsKept.out {h : HoldController} (hc : h.ClaimsKept) (hs : h.state ≠ .holding) : h.noClaim = true :=
  Bool.eq_true_of_not_eq_false fun hn => hs (hc.holding.mpr hn)

/-- A change of state reaches the record alone. -/
theorem changeState_reaches (b : Bank) (new : HoldState) (cause : Option Cause) (asked : Circuits) (episode : Bool)
    (s : State) : Reaches [.hold] s (changeState b new cause asked episode s) :=
  ((onHold_reaches s (enterRecord b new cause asked)).andThen (raise_reaches _ _)).andThen (tellState_reaches _ _ _)

theorem enterHandover_reaches (b : Bank) (held : Circuits) (s : State) : Reaches [.hold] s (enterHandover b held s) :=
  (changeState_reaches _ _ _ _ _ _).trans (onHold_reaches _ _)

/-- In service mode the hold state is left for no state that is not one of rest (R180). -/
def Unrested (s : State) : Prop := s.hc.ClaimsKept → s.sr.serviceMode = true → ¬ s.hc.state.Resting

theorem Unrested.of_state {x : HoldState} (h : s.hc.state = x) (hx : x ≠ .off ∧ x ≠ .parked ∧ x ≠ .secured) : Unrested s := by
  intro _ _ hr
  rw [h] at hr
  simp [HoldState.Resting, hx] at hr

/-- HANDOVER entered from `u`, which is `s` with the claims and the demand changed within the event. -/
theorem enterHandover_step_of {held : Circuits} (hu : Reaches [.hold] s u) (result : u.hc.result = s.hc.result)
    (hn : Unrested s) (hw : s.hc.Within b.maxPressure → held.within b.maxPressure) :
    HoldStep b s (enterHandover b held u) := by
  have e := enterHandover_eq b held u
  refine .entered (new := .handover) (asked := held) (hu.trans (enterHandover_reaches _ _ _)) (by rw [e]; rfl)
    (by rw [e]; rfl) (fun _ => claims_emptied (by simp) (by rw [e]; rfl)) (fun _ => rfl)
    (by rw [e]; exact result) (by rw [e]; simp [enterRecord]) hw fun hc hs hr => absurd hr (hn hc hs)

theorem enterHandover_step {held : Circuits} (hn : Unrested s)
    (hw : s.hc.Within b.maxPressure → held.within b.maxPressure) : HoldStep b s (enterHandover b held s) :=
  enterHandover_step_of (.refl _ _) rfl hn hw

theorem enterParked_step (hc : s.hc.ClaimsKept → s.hc.noClaim = true) : HoldStep b s (enterParked b s) :=
  .entered (new := .parked) (changeState_reaches _ _ _ _ _ _) rfl rfl (fun h => claims_none (by simp) h.slots (hc h))
    (by simp [enterParked_eq, enterRecord]) rfl (by simp [enterParked_eq, enterRecord]) (fun _ => Circuits.zero_within _) fun _ _ _ => .inr (.inl rfl)

theorem enterSecured_step (c : Cause) : HoldStep b s (enterSecured b c s) := by
  have e := enterSecured_eq b c s
  exact .entered (new := .secured) (asked := .zero) ((changeState_reaches _ _ _ _ _ _).trans (onHold_reaches _ _))
    (by rw [e]; rfl) (by rw [e]; rfl) (fun _ => claims_emptied (by simp) (by rw [e]; rfl))
    (by rw [e]; simp [enterRecord])
    (by rw [e]; rfl) (by rw [e]; simp [enterRecord]) (fun _ => Circuits.zero_within _) fun _ _ _ => .inr (.inr rfl)

theorem enterArmed_step (hs : s.hc.state = .inactive) : HoldStep b s (enterArmed b s) :=
  .entered (new := .armed) (asked := .zero) ((changeState_reaches _ _ _ _ _ _).trans (onHold_reaches _ _)) rfl rfl
    (fun h => claims_none (by simp) h.slots (h.out (by simp [hs]))) (by simp [enterArmed_eq, enterRecord]) rfl
    (by simp [enterArmed_eq, enterRecord]) (fun _ => Circuits.zero_within _)
    fun hc hm hr => absurd hr (Unrested.of_state hs (by simp) hc hm)

theorem changeState_inactive_step (hn : Unrested s) : HoldStep b s (changeState b .inactive none .zero false s) :=
  .entered (new := .inactive) (changeState_reaches _ _ _ _ _ _) rfl rfl (fun _ => claims_emptied (by simp) rfl)
    (by simp [changeState_eq, enterRecord]) rfl (by simp [changeState_eq, enterRecord]) (fun _ => Circuits.zero_within _)
    fun hc hm hr => absurd hr (hn hc hm)

theorem inactiveTest_step (hs : s.hc.state = .inactive) : HoldStep b s (inactiveTest b s) :=
  .ite (fun _ => enterParked_step fun h => h.out (by simp [hs]))
    fun _ => .ite (fun _ => enterHandover_step (.of_state hs (by simp)) (·.result))
    fun _ => .ite (fun _ => enterArmed_step hs) fun _ => .refl _ _

theorem enterInactive_step (hn : Unrested s) : HoldStep b s (enterInactive b s) :=
  (changeState_inactive_step hn).trans (inactiveTest_step rfl)

theorem armedTest_step (hs : s.hc.state = .armed) : HoldStep b s (armedTest b s) :=
  have hn : Unrested s := .of_state hs (by simp)
  .ite (fun _ => enterParked_step fun h => h.out (by simp [hs]))
    fun _ => .ite (fun _ => enterHandover_step hn (·.result))
    fun _ => .ite (fun _ => .refl _ _) fun _ => enterInactive_step hn

theorem standTest_step (b : Bank) (s : State) : HoldStep b s (standTest b s) := by
  unfold standTest
  split
  · exact inactiveTest_step ‹_›
  · exact armedTest_step ‹_›
  · exact .refl _ _

theorem handoverTest_step (b : Bank) (s : State) : HoldStep b s (handoverTest b s) :=
  .ite (fun h => enterHandover_step (.of_state h.1 (by simp)) (·.demand)) fun _ => .refl _ _

/-! ## Claims -/

theorem ratchet_within {h : HoldController} (hr : h.resultPressure.within b.maxPressure)
    (hd : h.demand.pressure.within b.maxPressure) : (ratchet b h).demand.pressure.within b.maxPressure :=
  Circuits.sup_within.mpr ⟨Circuits.sup_within.mpr ⟨hd, hr⟩, limitedFloors_within_max b h⟩

/-- The Claim Table changed within a hold state, with the ratchet it may bring (R59, R70). -/
structure ClaimsChanged (b : Bank) (s u : State) : Prop where
  reaches : Reaches [.hold] s u
  state : u.hc.state = s.hc.state
  phase : u.hc.phase = s.hc.phase
  ramp : u.hc.ramp = s.hc.ramp
  result : u.hc.result = s.hc.result
  slots : u.hc.claims.length = s.hc.claims.length
  record : u.hc.demand.mode = s.hc.demand.mode ∧ u.hc.demand.park = s.hc.demand.park
  within : s.hc.Within b.maxPressure → u.hc.demand.pressure.within b.maxPressure

/-- In HOLDING with a claim left, the hold goes on (R86). -/
theorem ClaimsChanged.holds (h : ClaimsChanged b s u) (hs : s.hc.ClaimsKept → s.hc.state = .holding)
    (hn : u.hc.noClaim = false) : HoldStep b s u :=
  .goesOn h.reaches h.state (.inl h.phase) h.ramp h.result
    (fun hc => ⟨h.slots.trans hc.slots, by rw [hn, hc.holding.mp (hs hc)]⟩) h.record
    (fun hc hm => by simp [hs hc, HoldState.mode] at hm) h.within

/-- HANDOVER entered at the demand after the change. -/
theorem ClaimsChanged.handsOver (h : ClaimsChanged b s u) (hn : Unrested s) :
    HoldStep b s (enterHandover b u.hc.demand.pressure u) :=
  enterHandover_step_of h.reaches h.result hn h.within

theorem ClaimsChanged.onHold (h : ClaimsChanged b s u) {f : HoldController → HoldController}
    (hf : u.hc.Still (f u.hc)) : ClaimsChanged b s (onHold f u) where
  reaches := h.reaches.trans (onHold_reaches _ _)
  state := hf.state.trans h.state
  phase := hf.phase.trans h.phase
  ramp := hf.ramp.trans h.ramp
  result := hf.result.trans h.result
  slots := by rw [← h.slots]; exact congrArg List.length hf.claims
  record := by
    have e : (f u.hc).demand = u.hc.demand := hf.demand
    exact ⟨(congrArg Demand.mode e).trans h.record.1, (congrArg Demand.park e).trans h.record.2⟩
  within hw := by
    have e : (f u.hc).demand = u.hc.demand := hf.demand
    show (f u.hc).demand.pressure.within b.maxPressure
    rw [e]
    exact h.within hw

theorem ClaimsChanged.andThen (h : ClaimsChanged b s u) (k : Reaches [] u t) : ClaimsChanged b s t := by
  have e : t.hc = u.hc := k .hold (by simp)
  exact ⟨h.reaches.andThen k, by rw [e, h.state], by rw [e, h.phase], by rw [e, h.ramp], by rw [e, h.result],
    by rw [e, h.slots], by rw [e]; exact h.record, by rw [e]; exact h.within⟩

theorem ClaimsChanged.trans (h : ClaimsChanged b s u) (k : ClaimsChanged b u t) : ClaimsChanged b s t where
  reaches := h.reaches.trans k.reaches
  state := k.state.trans h.state
  phase := k.phase.trans h.phase
  ramp := k.ramp.trans h.ramp
  result := k.result.trans h.result
  slots := k.slots.trans h.slots
  record := ⟨k.record.1.trans h.record.1, k.record.2.trans h.record.2⟩
  within hw := k.within ⟨h.within hw, by rw [resultPressure_congr h.result]; exact hw.result, by rw [h.ramp]; exact hw.ramp⟩

theorem noClaim_put {h : HoldController} {i : Nat} (c : Claim) (hi : i < h.claims.length) :
    (putClaim i c h).noClaim = false := by
  refine Bool.eq_false_iff.mpr fun hn => noClaim_iff.mp hn c ?_
  exact List.mem_iff_getElem.mpr ⟨i, by simpa [putClaim] using hi, by simp [putClaim]⟩

theorem noClaim_ratchet (b : Bank) (h : HoldController) : (ratchet b h).noClaim = h.noClaim := noClaim_congr rfl

theorem putClaim_changed (i : Nat) (c : Claim) : ClaimsChanged b s (onHold (putClaim i c) s) :=
  ⟨onHold_reaches _ _, rfl, rfl, rfl, rfl, by simp [Machine.onHold, putClaim], ⟨rfl, rfl⟩, (·.demand)⟩

theorem putClaim_ratchet_changed (i : Nat) (c : Claim) :
    ClaimsChanged b s (onHold (fun h => ratchet b (putClaim i c h)) s) :=
  ⟨onHold_reaches _ _, rfl, rfl, rfl, rfl, by simp [Machine.onHold, putClaim, ratchet], ⟨rfl, rfl⟩,
    fun hw => ratchet_within hw.result hw.demand⟩

theorem removeClaims_eq (f : Claim → Bool) (h : HoldController) : removeClaims b f h = { h with
    claims := h.claims.map fun c => c.filter fun x => !f x
    demand := { h.demand with pressure := (removeClaims b f h).demand.pressure } } := by
  unfold removeClaims
  dsimp only
  split <;> rfl

theorem removeClaims_within {f : Claim → Bool} {h : HoldController} (hr : h.resultPressure.within b.maxPressure)
    (hd : h.demand.pressure.within b.maxPressure) : (removeClaims b f h).demand.pressure.within b.maxPressure := by
  unfold removeClaims
  dsimp only
  split
  · exact ratchet_within hr hd
  · exact hd

theorem removeClaims_changed (f : Claim → Bool) : ClaimsChanged b s (onHold (removeClaims b f) s) := by
  have e : (onHold (removeClaims b f) s).hc = _ := removeClaims_eq f s.hc
  exact ⟨onHold_reaches _ _, by rw [e], by rw [e], by rw [e], by rw [e], by rw [e]; simp, by rw [e]; exact ⟨rfl, rfl⟩,
    fun hw => removeClaims_within hw.result hw.demand⟩

/-- Where no claim stands none is removed. -/
theorem removeClaims_none {h : HoldController} (hn : h.noClaim = true) (f : Claim → Bool) :
    removeClaims b f h = h := by
  have hs : h.standing = [] := by simpa [HoldController.noClaim] using hn
  have hc : h.claims.map (fun c => c.filter fun x => !f x) = h.claims := by
    refine (List.map_congr_left fun c hc => ?_).trans (List.map_id _)
    cases c with
    | none => rfl
    | some x => exact absurd hc (noClaim_iff.mp hn x)
  simp [removeClaims, hs, hc]

/-! ## Entry into HOLDING -/

/-- HOLDING as `enterHolding` enters it, before its test of the handover conditions (R58). -/
def heldFrom (b : Bank) (start : Circuits) (episode : Bool) (u : State) : State :=
  onHold (fun h => { h with
      minHold := some b.params.minHold
      maxHold := some (b.params.maxServiceHold * 1000)
      reapply := if episode then 0 else h.reapply })
    (changeState b .holding none ((start.sup u.hc.resultPressure).sup (u.hc.limitedFloors b)) episode u)

theorem enterHolding_heldFrom (b : Bank) (start : Circuits) (episode : Bool) (u : State) :
    enterHolding b start episode u = handoverTest b (heldFrom b start episode u) := rfl

/-- HOLDING entered from `u`, which is `s` with the claim placed within the event (R58). -/
theorem enterHolding_step {start : Circuits} {episode : Bool} (hu : Reaches [.hold] s u)
    (result : u.hc.result = s.hc.result) (claims : s.hc.ClaimsKept → u.hc.claims.length = 6 ∧ u.hc.noClaim = false)
    (hn : Unrested s) (hw : s.hc.Within b.maxPressure → start.within b.maxPressure) :
    HoldStep b s (enterHolding b start episode u) := by
  have held : HoldStep b s (heldFrom b start episode u) := by
    refine .entered (new := .holding) (hu.trans ((changeState_reaches _ _ _ _ _ _).trans (onHold_reaches _ _))) rfl rfl
      (fun hc => ?_) (by simp [heldFrom, changeState_eq, Machine.onHold, enterRecord]) result
      (by simp [heldFrom, changeState_eq, Machine.onHold, enterRecord]) (fun h => ?_) fun hc hm hr => absurd hr (hn hc hm)
    · obtain ⟨hl, hc⟩ := claims hc
      exact ⟨hl, iff_of_true rfl ((noClaim_congr rfl).trans hc)⟩
    · refine Circuits.sup_within.mpr ⟨Circuits.sup_within.mpr ⟨hw h, ?_⟩, limitedFloors_within_max _ _⟩
      rw [resultPressure_congr result]
      exact h.result
  exact held.trans (handoverTest_step b _)

/-- HOLDING entered with one claim, in slot 1 of the empty table. -/
theorem enterHolding_put_step {start : Circuits} {episode : Bool} {c : Claim} (hu : Reaches [.hold] s u)
    (result : u.hc.result = s.hc.result) (claims : u.hc.claims = s.hc.claims) (hn : Unrested s)
    (hw : s.hc.Within b.maxPressure → start.within b.maxPressure) :
    HoldStep b s (enterHolding b start episode (onHold (putClaim 1 c) u)) :=
  enterHolding_step (hu.trans (onHold_reaches _ _)) result
    (fun hc => ⟨by simp [Machine.onHold, putClaim, claims, hc.slots], noClaim_put c (by simp [claims, hc.slots])⟩) hn hw

/-! ## Requests, releases and rollback -/

theorem requestInHolding_step (r : ClaimRequest) (hs : s.hc.state = .holding) :
    HoldStep b s (requestInHolding b r s).2 := by
  have slot : ∀ i, i < s.hc.claims.length → ∀ c, (ratchet b (putClaim i c s.hc)).noClaim = false := fun i hi c =>
    (noClaim_ratchet b _).trans (noClaim_put c hi)
  unfold requestInHolding
  split
  case h_1 i hi =>
    exact (putClaim_ratchet_changed i _).holds (fun _ => hs) (slot i (List.findIdx?_eq_some_iff_getElem.mp hi).1 _)
  case h_2 =>
    split
    case h_1 i hi =>
      have hl : i < s.hc.claims.length := by
        have hi := List.find?_some hi
        exact (List.getElem?_eq_some_iff.mp (by simpa using hi)).1
      dsimp only
      split
      · exact (putClaim_ratchet_changed i _).holds (fun _ => hs) (slot i hl _)
      · exact (putClaim_changed i _).holds (fun _ => hs) (noClaim_put _ hl)
    case h_2 => exact .refl _ _

/-- The pressures at which a release began (R98), or 0 outside it. -/
theorem rampStart_within (hw : s.hc.Within b.maxPressure) :
    ((s.hc.ramp.map Ramp.start).getD .zero).within b.maxPressure := by
  cases hr : s.hc.ramp with
  | none => exact Circuits.zero_within _
  | some x => exact hw.ramp x hr

theorem requestClaim_step (b : Bank) (r : ClaimRequest) (s : State) : HoldStep b s (requestClaim b r s).2 := by
  have entry : Unrested s →
      HoldStep b s (enterHolding b s.hc.resultPressure true (onHold (putClaim 1 (r.claim s.now)) s)) := fun hn =>
    enterHolding_put_step (.refl _ _) rfl rfl hn (·.result)
  unfold requestClaim
  split
  case h_3 hs | h_4 hs =>
    split
    · exact .refl _ _
    · exact entry (.of_state hs (by simp))
  case h_5 hs => exact requestInHolding_step r hs
  case h_6 hs => exact enterHolding_put_step (.refl _ _) rfl rfl (.of_state hs (by simp)) rampStart_within
  all_goals exact .refl _ _

/-- A removal of claims in HOLDING, judged on the table after it (R86), with a claim placed where the driver stays. -/
theorem afterRemoval_step (b : Bank) (f : Claim → Bool) (s : State) :
    HoldStep b s (afterRemoval b (onHold (removeClaims b f) s)) := by
  have removed := removeClaims_changed (b := b) (s := s) f
  unfold afterRemoval
  split
  case isTrue hs =>
    rw [removed.state] at hs
    split
    case isTrue =>
      split
      · exact removed.handsOver (.of_state hs (by simp))
      · have placed := (removed.trans (putClaim_changed 1 (driverClaim s.now))).onHold
          (f := fun h => { h with minHold := some b.params.minHold, metMemory := false }) ⟨rfl, rfl, rfl, rfl, rfl, rfl⟩
        have placed := placed.andThen (raise_reaches _ .holdToDriver)
        refine .goesOn placed.reaches placed.state (.inl placed.phase) placed.ramp placed.result (fun hc => ?_) placed.record
          (fun _ hm => by simp [hs, HoldState.mode] at hm) placed.within
        refine ⟨placed.slots.trans hc.slots, ?_⟩
        rw [hc.holding.mp hs]
        exact noClaim_put _ (by rw [removed.slots, hc.slots]; decide)
    case isFalse hn =>
      exact (removed.holds (fun _ => hs) (by simpa using hn)).trans (handoverTest_step _ _)
  case isFalse hs =>
    rw [removed.state] at hs
    have none : s.hc.ClaimsKept → (onHold (removeClaims b f) s).hc = s.hc := fun hc => removeClaims_none (hc.out hs) f
    exact .goesOn removed.reaches removed.state (.inl removed.phase) removed.ramp removed.result
      (fun hc => by rw [none hc]; exact ⟨hc.slots, rfl⟩) removed.record (fun hc _ => by rw [none hc]) removed.within

theorem signalRise_step (b : Bank) (src : Source) (s : State) : HoldStep b s (signalRise b src s) := by
  have latched : ∀ l u, HoldStep b u (onHold (fun h => h.setLatch src l) u) := fun l u =>
    .onHold (by cases src <;> exact ⟨rfl, rfl, rfl, rfl, rfl, rfl⟩)
  have asked := requestClaim_step b ⟨src, 0, none, none, none⟩ s
  unfold signalRise
  exact .ite (fun _ => asked.trans (latched _ _)) fun _ => (asked.trans (latched _ _)).trans (.of_reaches (raise_reaches _ _))

theorem signalFall_step (b : Bank) (src : Source) (s : State) : HoldStep b s (signalFall b src s) := by
  have idle : HoldStep b s (onHold (fun h => h.setLatch src .idle) s) :=
    .onHold (by cases src <;> exact ⟨rfl, rfl, rfl, rfl, rfl, rfl⟩)
  exact .ite (fun _ => idle.trans (afterRemoval_step b _ _)) fun _ => idle

theorem latchStep_step (b : Bank) (items : List PubItem) (src : Source) (s : State) :
    HoldStep b s (latchStep b items src s) :=
  .ite (fun _ => .ite (fun _ => .ite (fun _ => signalRise_step _ _ _) fun _ => .refl _ _)
    fun _ => .ite (fun _ => signalFall_step _ _ _) fun _ => .refl _ _) fun _ => .refl _ _

theorem takeLatches_step (b : Bank) (items : List PubItem) (s : State) : HoldStep b s (takeLatches b items s) :=
  ((latchStep_step _ _ _ _).trans (latchStep_step _ _ _ _)).trans (latchStep_step _ _ _ _)

theorem takeRollback_step {ramp : Ramp} (hs : s.hc.state = .releasing) (hr : s.hc.ramp = some ramp) :
    HoldStep b s (takeRollback b ramp s) := by
  have raised : Reaches [.hold] s (raise .rollbackReapply (onHold (fun h => { h with reapply := h.reapply + 1 }) s)) :=
    (onHold_reaches s _).andThen (raise_reaches _ _)
  unfold takeRollback
  exact .ite (fun _ => enterHolding_put_step raised rfl rfl (.of_state hs (by simp)) fun _ => Circuits.inf_within _ _)
    fun _ => enterHandover_step_of raised rfl (.of_state hs (by simp)) fun hw => hw.ramp ramp hr

theorem rollbackTest_step (hs : s.hc.state = .releasing) : HoldStep b s (rollbackTest b s) := by
  unfold rollbackTest
  split
  · exact .ite (fun _ => takeRollback_step hs ‹_›) fun _ => .refl _ _
  · exact .refl _ _

/-- RELEASING as `enterReleasing` enters it, before its rollback test (R98). -/
def releasedFrom (b : Bank) (u : State) : State :=
  onHold (fun h => { h with ramp := some (rampOf b u.hc), rampStep := some b.params.demandPeriod })
    (changeState b .releasing none (rampOf b u.hc).start false u)

/-- RELEASING entered from `u`, which is `s` with the claims taken out within the event (R98). -/
theorem enterReleasing_step (h : ClaimsChanged b s u) (hn : u.hc.noClaim = true) (hs : s.hc.state = .holding) :
    HoldStep b s (enterReleasing b u) := by
  have released : HoldStep b s (releasedFrom b u) := by
    refine .entered (new := .releasing) (asked := u.hc.demand.pressure)
      (h.reaches.trans ((changeState_reaches _ _ _ _ _ _).trans (onHold_reaches _ _))) rfl rfl
      (fun hc => claims_none (by simp) (h.slots.trans hc.slots) ((noClaim_congr rfl).trans hn))
      (by simp [releasedFrom, changeState_eq, Machine.onHold, enterRecord]) h.result (fun r hr => ?_) h.within
      fun hc hm hr => absurd hr (Unrested.of_state hs (by simp) hc hm)
    exact (congrArg Ramp.start (Option.some.inj hr)).symm
  exact released.trans (rollbackTest_step rfl)

theorem takeDriveOff_step (hs : s.hc.state = .holding) : HoldStep b s (takeDriveOff b s) := by
  have removed := removeClaims_changed (b := b) (s := s) fun c => c.source == .driver || c.source == .monitor
  exact .ite (fun hn => enterReleasing_step removed hn hs) fun hn =>
    ((removed.holds (fun _ => hs) (by simpa using hn)).trans (.of_reaches (raise_reaches _ _))).trans (handoverTest_step _ _)

theorem evaluateCriterion_step (b : Bank) (s : State) : HoldStep b s (evaluateCriterion b s) := by
  have memory : ∀ m, HoldStep b s (onHold (fun h => { h with metMemory := m }) s) := fun m =>
    .onHold ⟨rfl, rfl, rfl, rfl, rfl, rfl⟩
  exact .ite (fun h => .ite (fun _ => .ite (fun _ => .refl _ _)
    fun _ => (memory true).trans (takeDriveOff_step h.1)) fun _ => memory false) fun _ => .refl _ _

/-! ## Publication sets -/

theorem leaveStarting_step (hs : s.hc.state = .starting) : HoldStep b s (leaveStarting b s) :=
  .ite (fun _ => enterParked_step fun h => h.out (by simp [hs])) fun _ => enterInactive_step (.of_state hs (by simp))

theorem springInHandover_step (hs : s.hc.state = .handover) : HoldStep b s (springInHandover b s) := by
  have phase : ∀ f : HoldController → HoldController, (f s.hc).state = s.hc.state → (f s.hc).claims = s.hc.claims →
      (f s.hc).demand = s.hc.demand → (f s.hc).ramp = s.hc.ramp → (f s.hc).result = s.hc.result →
      HoldStep b s (onHold f s) := fun f h1 h2 h3 h4 h5 =>
    .goesOn (onHold_reaches s f) h1 (.inr hs) h4 h5 (fun hc => ⟨(congrArg List.length h2).trans hc.slots, noClaim_congr h2⟩)
      ⟨congrArg Demand.mode h3, congrArg Demand.park h3⟩ (fun _ _ => congrArg Demand.pressure h3)
      fun hw => by rw [show (onHold f s).hc.demand = s.hc.demand from h3]; exact hw.demand
  unfold springInHandover
  split
  · exact .ite (fun _ => phase _ rfl rfl rfl rfl rfl) fun _ => .refl _ _
  · exact .ite (fun _ => .refl _ _) fun _ => .ite
      (fun _ => (enterSecured_step _).trans (.of_reaches (reportChange_reaches _ _ _ _))) fun _ => phase _ rfl rfl rfl rfl rfl
  · exact .refl _ _

theorem parkExitTest_step (b : Bank) (s : State) : HoldStep b s (parkExitTest b s) :=
  .ite (fun h => by
    have out : Unrested s := fun _ hm => by simp [h.1] at hm
    have marked := (onHold_reaches (changeState b .inactive none .zero false s) fun h => { h with parkExit := true })
    exact ((changeState_inactive_step out).trans (.still marked ⟨rfl, rfl, rfl, rfl, rfl, rfl⟩)).trans (inactiveTest_step rfl))
    fun _ => .of_reaches (raise_reaches _ _)

theorem startQuiet_still (h : HoldController) : h.Still (startQuiet h) := by
  unfold startQuiet
  split <;> exact ⟨rfl, rfl, rfl, rfl, rfl, rfl⟩

theorem setInState_step (b : Bank) (set : HcSet) (s : State) : HoldStep b s (setInState b set s) := by
  unfold setInState
  split
  case h_1 => exact .refl _ _
  case h_2 hs => exact .ite (fun _ => leaveStarting_step hs) fun _ => .refl _ _
  case h_3 | h_4 =>
    refine .trans (.onHold ?_) (standTest_step _ _)
    unfold clearParkExit
    split <;> exact ⟨rfl, rfl, rfl, rfl, rfl, rfl⟩
  case h_5 => exact .ite (fun _ => (handoverTest_step _ _).trans (evaluateCriterion_step _ _)) fun _ => handoverTest_step _ _
  case h_6 hs =>
    exact .ite (fun _ => enterHandover_step (.of_state hs (by simp)) rampStart_within)
      fun _ => .ite (fun _ => rollbackTest_step hs) fun _ => .refl _ _
  case h_7 hs => exact .ite (fun _ => springInHandover_step hs) fun _ => .refl _ _
  case h_8 =>
    exact .ite (fun _ => enterSecured_step _) fun _ => .ite (fun _ => parkExitTest_step _ _) fun _ => .refl _ _
  case h_9 =>
    refine .ite (fun _ => .onHold ?_) fun _ => .refl _ _
    unfold springInSecured
    split
    · exact startQuiet_still _
    · exact ⟨rfl, rfl, rfl, rfl, rfl, rfl⟩

theorem takeHcItems_step (b : Bank) (set : HcSet) (s : State) : HoldStep b s (takeHcItems b set s) := by
  have taken : HoldStep b s (takeLatches b set.items (onHold (takeImage set) s)) :=
    (HoldStep.onHold ⟨rfl, rfl, rfl, rfl, rfl, rfl⟩).trans (takeLatches_step _ _ _)
  exact .ite (fun _ => taken.trans (setInState_step _ _ _)) fun _ => taken

/-! ## The events -/

theorem takeHcSet_step (b : Bank) (s : State) : HoldStep b s (takeHcSet b s) := by
  unfold takeHcSet
  split
  · exact .refl _ _
  · exact .trans (.of_reaches (setMail_reaches s _ (by rfl) (by rfl))) (takeHcItems_step _ _ _)

theorem startWindowExpired_step (b : Bank) (s : State) : HoldStep b s (startWindowExpired b s) := by
  refine .ite (fun h => ?_) fun _ => .refl _ _
  have left := changeState_inactive_step (b := b) (.of_state h.2 (by simp))
  dsimp only
  split
  · exact left.trans (inactiveTest_step rfl)
  · exact (left.trans (.of_reaches (reportChange_reaches _ _ _ _))).trans (inactiveTest_step rfl)

theorem armedConfirmed_step (b : Bank) (s : State) : HoldStep b s (armedConfirmed b s) :=
  .ite (fun h => enterHolding_put_step (.refl _ _) rfl rfl (.of_state h.2 (by simp)) (·.result)) fun _ => .refl _ _

theorem minHoldExpired_step (b : Bank) (s : State) : HoldStep b s (minHoldExpired b s) :=
  .ite (fun _ => (HoldStep.onHold ⟨rfl, rfl, rfl, rfl, rfl, rfl⟩).trans (evaluateCriterion_step _ _)) fun _ => .refl _ _

theorem maxHoldExpired_step (b : Bank) (s : State) : HoldStep b s (maxHoldExpired b s) :=
  .ite (fun h => enterHandover_step (.of_state h.2 (by simp)) (·.demand)) fun _ => .refl _ _

theorem guardExpired_step (b : Bank) (s : State) : HoldStep b s (guardExpired b s) := by
  have stopped : HoldStep b s (onHold (fun h => { h with guard := none }) s) := .onHold ⟨rfl, rfl, rfl, rfl, rfl, rfl⟩
  exact .ite (fun _ => .ite (fun hs => stopped.trans (inactiveTest_step hs)) fun _ => stopped) fun _ => .refl _ _

theorem claimDue_holding {h : HoldController} {tag : Nat} (hd : claimDue h tag = true) (hc : h.ClaimsKept) :
    h.state = .holding := by
  refine hc.holding.mpr (Bool.eq_false_iff.mpr fun hn => ?_)
  have hs : h.standing = [] := by simpa [HoldController.noClaim] using hn
  simp [claimDue, hs] at hd

theorem claimExpired_step (tag : Fin 4) (b : Bank) (s : State) : HoldStep b s (claimExpired tag b s) := by
  refine .ite (fun hd => ?_) fun _ => .refl _ _
  have hs := claimDue_holding hd
  have removed := (removeClaims_changed (b := b) (s := s) fun c => c.hasKey .service tag.val).andThen
    (raise_reaches _ .claimExpired)
  exact .ite (fun _ => removed.handsOver fun hc hm => Unrested.of_state (hs hc) (by simp) hc hm)
    fun hn => (removed.holds hs (by simpa using hn)).trans (handoverTest_step _ _)

theorem completeRelease_step (hs : s.hc.state = .releasing) : HoldStep b s (completeRelease b s) :=
  ((changeState_inactive_step (.of_state hs (by simp))).trans (.onHold ⟨rfl, rfl, rfl, rfl, rfl, rfl⟩)).trans
    (inactiveTest_step rfl)

theorem rampStepped_step (b : Bank) (s : State) : HoldStep b s (rampStepped b s) := by
  unfold rampStepped
  split
  · refine .ite (fun hs => ?_) fun _ => .refl _ _
    have lowered : ∀ x y, HoldStep b s (onHold (fun h => { h with
        demand := { h.demand with pressure := s.hc.demand.pressure.sub x }, rampStep := y }) s) := fun x y =>
      .goesOn (onHold_reaches _ _) rfl (.inl rfl) rfl rfl (fun hc => ⟨hc.slots, rfl⟩) ⟨rfl, rfl⟩
        (fun _ hm => by simp [hs, HoldState.mode] at hm)
        fun hw => Circuits.within_trans ⟨Nat.sub_le _ _, Nat.sub_le _ _⟩ hw.demand
    exact .ite (fun _ => (lowered _ _).trans (completeRelease_step hs)) fun _ => lowered _ _
  · exact .refl _ _

theorem handoverConfirmExpired_step (b : Bank) (s : State) : HoldStep b s (handoverConfirmExpired b s) := by
  refine .ite (fun _ => ?_) fun _ => .refl _ _
  split
  · exact (enterSecured_step _).trans (.of_reaches (reportChange_reaches _ _ _ _))
  · exact .onHold ⟨rfl, rfl, rfl, rfl, rfl, rfl⟩
  · exact .refl _ _

theorem overlapExpired_step (b : Bank) (s : State) : HoldStep b s (overlapExpired b s) :=
  .ite (fun h => enterParked_step fun hc => hc.out (by simp [hc.phase (by simp [h.2])])) fun _ => .refl _ _

theorem quietExpired_step (b : Bank) (s : State) : HoldStep b s (quietExpired b s) :=
  .ite (fun h => enterParked_step fun hc => hc.out (by simp [h.2])) fun _ => .refl _ _

theorem popCreepReport_step (b : Bank) (s : State) : HoldStep b s (popCreepReport s) :=
  .of_reaches (setMail_reaches s _ (by rfl) (by rfl))

theorem takeDecision_step (b : Bank) (d : Bool) (s : State) : HoldStep b s (takeDecision b d s) := by
  have recorded : HoldStep b s (onHold (fun h => { h with stationary := d }) s) := .onHold ⟨rfl, rfl, rfl, rfl, rfl, rfl⟩
  unfold takeDecision
  dsimp only
  split
  · exact recorded.trans (standTest_step _ _)
  · exact recorded.trans (standTest_step _ _)
  · refine recorded.trans (.onHold ?_)
    split
    · exact startQuiet_still _
    · exact ⟨rfl, rfl, rfl, rfl, rfl, rfl⟩
  · exact recorded

theorem takeBlind_step (b : Bank) (e : Bool) (s : State) : HoldStep b s (takeBlind b e s) := by
  have recorded : HoldStep b s (onHold (fun h =>
      { h with blind := e, degraded := HoldController.isDegraded { h with blind := e } }) s) :=
    .onHold ⟨rfl, rfl, rfl, rfl, rfl, rfl⟩
  unfold takeBlind
  dsimp only
  split
  · exact recorded.trans (standTest_step _ _)
  · exact recorded.trans (standTest_step _ _)
  · exact recorded.trans (handoverTest_step _ _)
  · exact .ite (fun _ => recorded.trans (enterSecured_step _)) fun _ => recorded
  · exact recorded

theorem takeCrossing_step (b : Bank) (r : Bool) (n : Fin 8) (s : State) : HoldStep b s (takeCrossing b r n s) := by
  have rollaway : HoldStep b s (takeRollaway b n s) :=
    (enterSecured_step _).trans (.of_reaches (reportChange_reaches _ _ _ _))
  unfold takeCrossing
  split
  case h_1 hs =>
    have placed := putClaim_ratchet_changed (b := b) (s := s) 0 ⟨.monitor, 0,
      escalationFloor b.params.maxPressureA s.hc.demand.pressure.a,
      escalationFloor b.params.maxPressureB s.hc.demand.pressure.b, none, s.now, none⟩
    refine .goesOn placed.reaches placed.state (.inl placed.phase) placed.ramp placed.result (fun hc => ?_) placed.record
      (fun _ hm => by simp [hs, HoldState.mode] at hm) placed.within
    exact ⟨placed.slots.trans hc.slots, by rw [hc.holding.mp hs]; exact noClaim_put _ (by rw [hc.slots]; decide)⟩
  case h_6 => exact .refl _ _
  all_goals exact rollaway

theorem takeDecisionReport_step (b : Bank) (s : State) : HoldStep b s (takeDecisionReport b s) := by
  unfold takeDecisionReport
  split
  · exact (popCreepReport_step b s).trans (takeDecision_step _ _ _)
  · exact .refl _ _

theorem takeBlindReport_step (b : Bank) (s : State) : HoldStep b s (takeBlindReport b s) := by
  unfold takeBlindReport
  split
  · exact (popCreepReport_step b s).trans (takeBlind_step _ _ _)
  · exact .refl _ _

theorem takeCrossingReport_step (b : Bank) (s : State) : HoldStep b s (takeCrossingReport b s) := by
  unfold takeCrossingReport
  split
  · exact (popCreepReport_step b s).trans (takeCrossing_step _ _ _ _)
  · exact .refl _ _

end

end Sys2Proof.Machine
end

