-- ==== Sys2Proof/Proofs/StepReach.lean ====
section
/-! PROOF. What each command reaches, and what a command keeps of the Hold Controller's record. -/

namespace Sys2Proof.Machine

/-! ## Commands of the Hold Controller -/

section
variable (s : State)

theorem withStart_reaches (before : HoldState) : Reaches [.scheduler] s (withStart before s) :=
  .ite (runDemandPeriod_reaches s) (.refl _ _)

theorem withStart_hc (before : HoldState) : (withStart before s).hc = s.hc := withStart_reaches s before .hold (by simp)

/-- The event of the Hold Controller that a command is, but for CALC_RESULT, which also takes a result (R38). -/
def holdAct : Instr → Option (Bank → State → State)
  | .hcPublication => some takeHcSet
  | .startWindowExpiry => some startWindowExpired
  | .armedConfirmExpiry => some armedConfirmed
  | .minHoldExpiry => some minHoldExpired
  | .maxServiceHoldExpiry => some maxHoldExpired
  | .reentryGuardExpiry => some guardExpired
  | .claimExpiry tag => some (claimExpired tag)
  | .rampStepExpiry => some rampStepped
  | .handoverConfirmExpiry => some handoverConfirmExpired
  | .overlapExpiry => some overlapExpired
  | .quietExpiry => some quietExpired
  | .decisionReport => some takeDecisionReport
  | .blindReport => some takeBlindReport
  | .crossingReport => some takeCrossingReport
  | _ => none

theorem exec_holdAct {c : Instr} {f : Bank → State → State} (hf : holdAct c = some f) :
    exec c s = .next (holdEvent f s) := by
  cases c
  case hcPublication | startWindowExpiry | armedConfirmExpiry | minHoldExpiry | maxServiceHoldExpiry | reentryGuardExpiry
      | claimExpiry | rampStepExpiry | handoverConfirmExpiry | overlapExpiry | quietExpiry | decisionReport | blindReport
      | crossingReport =>
    cases hf
    rfl
  all_goals cases hf

theorem holdAct_step {c : Instr} {f : Bank → State → State} (hf : holdAct c = some f) (b : Bank) (s : State) :
    HoldStep b s (f b s) := by
  cases c
  case hcPublication => cases hf; exact takeHcSet_step b s
  case startWindowExpiry => cases hf; exact startWindowExpired_step b s
  case armedConfirmExpiry => cases hf; exact armedConfirmed_step b s
  case minHoldExpiry => cases hf; exact minHoldExpired_step b s
  case maxServiceHoldExpiry => cases hf; exact maxHoldExpired_step b s
  case reentryGuardExpiry => cases hf; exact guardExpired_step b s
  case claimExpiry tag => cases hf; exact claimExpired_step tag b s
  case rampStepExpiry => cases hf; exact rampStepped_step b s
  case handoverConfirmExpiry => cases hf; exact handoverConfirmExpired_step b s
  case overlapExpiry => cases hf; exact overlapExpired_step b s
  case quietExpiry => cases hf; exact quietExpired_step b s
  case decisionReport => cases hf; exact takeDecisionReport_step b s
  case blindReport => cases hf; exact takeBlindReport_step b s
  case crossingReport => cases hf; exact takeCrossingReport_step b s
  all_goals cases hf

/-- The oldest result out of its channel and in hand (R38). -/
def resultTaken (r : CalcResult) (rest : List CalcResult) : State :=
  onHold (fun h => { h with result := some r }) (s.setMail { s.mail with results := rest })

theorem takeResult_step (b : Bank) {r : CalcResult} {rest : List CalcResult} (hm : s.mail.results = r :: rest) :
    HoldStep b (resultTaken s r rest) (takeResult b s) := by
  unfold takeResult
  rw [hm]
  refine .ite (fun hs => ?_) fun _ => .refl _ _
  have ratcheted : HoldStep b (resultTaken s r rest) (onHold (ratchet b) (resultTaken s r rest)) :=
    .goesOn (onHold_reaches _ _) rfl (.inl rfl) rfl rfl (fun hc => ⟨hc.slots, noClaim_congr rfl⟩) ⟨rfl, rfl⟩
      (fun _ hm => by rw [show (resultTaken s r rest).hc.state = .holding from hs] at hm; simp [HoldState.mode] at hm)
      fun hw => ratchet_within hw.result hw.demand
  exact (ratcheted.trans (handoverTest_step _ _)).trans (evaluateCriterion_step _ _)

theorem resultTaken_reaches (r : CalcResult) (rest : List CalcResult) :
    Reaches [.hold, .results] s (resultTaken s r rest) := fun x hx => by
  cases x
  case hold | results => simp at hx
  all_goals rfl

theorem takeResult_reaches (b : Bank) : Reaches [.hold, .results] s (takeResult b s) := by
  cases hm : s.mail.results with
  | nil => rw [takeResult, hm]; exact .refl _ _
  | cons r rest =>
    exact (resultTaken_reaches s r rest).trans ((takeResult_step s b hm).reaches.mono (by simp))

theorem holdEvent_reaches {f : Bank → State → State} {r : List Part}
    (hf : ∀ b, Reaches (.scheduler :: r) s (f b s)) : Reaches (.scheduler :: r) s (holdEvent f s) := by
  unfold holdEvent
  split
  · exact (hf _).trans ((withStart_reaches _ _).mono (by simp))
  · exact .refl _ _

/-! ## Calculator, claims of a tool, and restarts -/

theorem compute_reaches (b : Bank) (c : Calculator) (img : CalcImage) : Reaches [.results] s (compute b c img s) := by
  have handed : ∀ (u : State) (r : CalcResult) (k : Calculator),
      Reaches [.results] u ((u.setMail { u.mail with results := u.mail.results ++ [r] }).setHpc (some k)) :=
    fun u r k x hx => by
      cases x
      case results => simp at hx
      all_goals rfl
  have reported := ((reportLosses_reaches s (markLosses img img.counted c.lossMarks).2).trans
    (.ite (c := massZero b img = true ∧ c.loadMark = false) (report_reaches _ .minor .loadImplausible .none) (.refl _ _))).trans
    (.ite (c := excess b img = true) (raise_reaches _ .capacity) (.refl _ _))
  exact (reported.trans (.ite (c := excess b img = true ∧ c.result.capacity = false)
    (report_reaches _ .minor .capacity .none) (.refl _ _))).of_nil.trans (handed _ _ _)

theorem takeCalcSet_reaches : Reaches [.results] s (takeCalcSet s) := by
  unfold takeCalcSet
  split
  · exact (setMail_reaches s _ (by rfl) (by rfl)).of_nil.trans (compute_reaches _ _ _ _)
  · exact .refl _ _

theorem txBank_some {s : State} {a : ActiveBank} (ha : s.active = some a) : txBank s = a.bank := by rw [txBank, ha]

theorem testHold_step (f : Frame) : HoldStep (txBank s) s (testHold f s).2 := by
  unfold testHold
  split
  · exact .refl _ _
  · split
    · exact .refl _ _
    · split
      · exact .refl _ _
      case h_2 a ha => rw [txBank_some ha]; exact requestClaim_step _ _ _

theorem releaseTest_step (f : Frame) : HoldStep (txBank s) s (releaseTest f s).2 := by
  unfold releaseTest
  dsimp only
  split
  · exact .refl _ _
  · split
    · exact .refl _ _
    case h_2 a ha =>
      rw [txBank_some ha]
      split
      · exact afterRemoval_step _ _ _
      · exact .refl _ _

end

/-! ## What a command reaches -/

/-- The parts that a command reaches. -/
def reach : Instr → List Part
  | .powerOnReset _ | .storeLoadEnd | .activate _ | .pendingResetTaken _ =>
    [.loading, .active, .hold, .creep, .scheduler, .faults, .service, .store, .results, .requests]
  | .arrival _ _ => [.requests]
  | .refillExpiry | .watchCopy _ | .periodTimeout _ => []
  | .refusedCount | .creepPublication | .evaluation | .stationaryTimerExpiry | .stateReport => [.creep]
  | .calcPublication => [.results]
  | .calcResult => [.scheduler, .hold, .results]
  | .hcPublication | .startWindowExpiry | .armedConfirmExpiry | .minHoldExpiry | .maxServiceHoldExpiry
  | .reentryGuardExpiry | .claimExpiry _ | .rampStepExpiry | .handoverConfirmExpiry | .overlapExpiry | .quietExpiry
  | .decisionReport | .blindReport | .crossingReport => [.scheduler, .hold]
  | .queueOffer _ _ | .transmissionSuccess _ | .transmissionError _ | .recoveryExpiry _ | .demandPeriodExpiry
  | .statusPeriodExpiry => [.scheduler]
  | .faultReport _ | .counterCount => [.faults]
  | .serviceIdleExpiry => [.service]
  | .enterService _ | .exitService _ | .readEntry _ | .writeField _ | .readSignal _ | .readFault _ | .readClaims _
  | .resetPart _ | .unknownCommandRequest _ => [.service, .requests]
  | .readCounters _ | .clearFault _ => [.service, .requests, .faults]
  | .testHold _ | .releaseTest _ => [.service, .requests, .hold]
  | .storeWriteComplete _ => [.store]

theorem Reaches.all {r : List Part} {s t : State} (h : ∀ x : Part, x ∈ r) : Reaches r s t := fun x hx => absurd (h x) hx

theorem Part.all (x : Part) : x ∈ reach .storeLoadEnd := by cases x <;> simp [reach]

theorem reach_holdAct {c : Instr} {f : Bank → State → State} (hf : holdAct c = some f) :
    reach c = [.scheduler, .hold] := by
  cases c <;> simp_all [holdAct, reach]

theorem exec_reaches {c : Instr} {s t : State} (h : exec c s = .next t) : Reaches (reach c) s t := by
  cases hf : holdAct c with
  | some f =>
    rw [exec_holdAct s hf] at h
    obtain rfl := Host.Outcome.next.inj h
    rw [reach_holdAct hf]
    exact holdEvent_reaches s fun b => (holdAct_step hf b s).reaches.mono (by simp)
  | none =>
    cases c <;> obtain rfl := Host.Outcome.next.inj h
    case powerOnReset | storeLoadEnd | activate | pendingResetTaken => exact .all Part.all
    case arrival p f => exact takeArrival_reaches s p f
    case refillExpiry => exact refillExpired_reaches s
    case watchCopy i => exact takeWatchCopy_reaches s i
    case periodTimeout i => exact periodTimedOut_reaches s i
    case refusedCount => exact takeRefused_reaches s
    case creepPublication => exact takeCreepSet_reaches s
    case evaluation => exact evaluationExpired_reaches s
    case stationaryTimerExpiry => exact stationaryExpired_reaches s
    case stateReport => exact takeStateReport_reaches s
    case calcPublication => exact takeCalcSet_reaches s
    case calcResult => exact holdEvent_reaches s fun b => (takeResult_reaches s b).mono (by simp)
    case queueOffer p cls => exact takeOffer_reaches s p cls
    case transmissionSuccess p => exact transmissionSucceeded_reaches s p
    case transmissionError p => exact transmissionFailed_reaches s p
    case recoveryExpiry p => exact recovered_reaches s p
    case demandPeriodExpiry => exact demandPeriodExpired_reaches s
    case statusPeriodExpiry => exact statusPeriodExpired_reaches s
    case faultReport n => exact takeFault_reaches s n
    case counterCount => exact takeCount_reaches s
    case serviceIdleExpiry => exact idleExpired_reaches s
    case enterService p => exact serveNow_reaches s fun _ u => (enterService_reaches u).mono (by simp)
    case exitService p => exact serveNow_reaches s fun _ u => (exitService_reaches u).mono (by simp)
    case writeField p => exact serveNow_reaches s fun f u => (writeField_reaches u f).mono (by simp)
    case readEntry | readSignal | readFault | readClaims => exact serveNow_reaches s fun _ u => .refl _ _
    case resetPart p => exact serve_reaches s fun _ u => (resetPart_reaches u p).mono (by simp)
    case unknownCommandRequest p => exact unknownRequest_reaches s p
    case readCounters p => exact serveNow_reaches s fun f u => (readCounters_reaches u f).mono (by simp)
    case clearFault p => exact serveNow_reaches s fun _ u => (clearFault_reaches u).mono (by simp)
    case testHold p => exact serveNow_reaches s fun f u => (testHold_step u f).reaches.mono (by simp)
    case releaseTest p => exact serveNow_reaches s fun f u => (releaseTest_step u f).reaches.mono (by simp)
    case storeWriteComplete ok => exact storeWritten_reaches s ok
    all_goals cases hf

/-! ## A request taken -/

/-- A request taken, or answered without its act: its channel, the offers and a running Service Idle timer alone. -/
structure Asked (s u : State) : Prop where
  reaches : Reaches [.service, .requests] s u
  mode : u.sr.serviceMode = s.sr.serviceMode
  staging : u.sr.staging = s.sr.staging
  idle : u.sr.idle = s.sr.idle ∨ s.sr.serviceMode = true

section
variable {s t u : State}

theorem Asked.refl (s : State) : Asked s s := ⟨.refl _ _, rfl, rfl, .inl rfl⟩

theorem Asked.trans (h : Asked s u) (k : Asked u t) : Asked s t where
  reaches := h.reaches.trans k.reaches
  mode := k.mode.trans h.mode
  staging := k.staging.trans h.staging
  idle := k.idle.elim (fun e => h.idle.imp_left e.trans) fun e => .inr (h.mode ▸ e)

theorem asked_taken (s : State) (rest : List Request) : Asked s (s.setMail { s.mail with requests := rest }) :=
  ⟨(setRequests_reaches s rest).mono (by simp), rfl, rfl, .inl rfl⟩

theorem asked_restartIdle (s : State) : Asked s (restartIdle s) := by
  cases hm : s.sr.serviceMode with
  | true => exact ⟨(restartIdle_reaches s).mono (by simp), by simp [restartIdle, hm, setResponder],
      by simp [restartIdle, hm, setResponder], .inr hm⟩
  | false => simpa [restartIdle, hm] using Asked.refl s

theorem asked_respond (s : State) (p : Port) (code : Nat) (a : Answer) (reset : Bool) :
    Asked s (respond p code a reset s) := ⟨(respond_reaches s p code a reset).of_nil, rfl, rfl, .inl rfl⟩

/-- A request is either answered, or taken and carried out by its act (R177); with none waiting nothing happens. -/
theorem serve_cases (code n : Nat) (p : Port) (act : Frame → State → State) (s : State) :
    Asked s (serve code n p act s) ∨
      s.mail.requests ≠ [] ∧ ∃ f u, Asked s u ∧ serve code n p act s = act f u := by
  unfold serve
  split
  case h_1 => exact .inl (.refl _)
  case h_2 f u hu =>
    obtain ⟨hne, rest, rfl⟩ := takeRequest_some hu
    have taken := asked_taken s rest
    dsimp only
    split
    · exact .inl (taken.trans (asked_respond _ _ _ _ _))
    · split
      · exact .inl ((taken.trans (asked_restartIdle _)).trans (asked_respond _ _ _ _ _))
      · exact .inr ⟨hne, f, _, taken.trans (asked_restartIdle _), rfl⟩

/-- The same of a command that is answered at once. -/
theorem serveNow_cases (code n : Nat) (p : Port) (act : Frame → State → Answer × State) (s : State) :
    Asked s (serveNow code n p act s) ∨
      s.mail.requests ≠ [] ∧ ∃ f u, Asked s u ∧ Reaches [] (act f u).2 (serveNow code n p act s) := by
  rcases serve_cases code n p (fun f u => let (a, v) := act f u; respond p code a false v) s with h | ⟨hne, f, u, hu, e⟩
  · exact .inl h
  · exact .inr ⟨hne, f, u, hu, by rw [serveNow, e]; exact respond_reaches _ _ _ _ _⟩

theorem serve_idle {code n : Nat} {p : Port} {act : Frame → State → State} (h : s.mail.requests = []) :
    serve code n p act s = s := by
  unfold serve takeRequest
  simp [h, takeFirst]

end

/-! ## What a command keeps of the Hold Controller's record -/

/-- The commands that start the Hold Controller again, or may do so. -/
def restarts : Instr → Bool
  | .powerOnReset _ | .storeLoadEnd | .activate _ | .pendingResetTaken _ => true
  | _ => false

/-- What a command that does not start the Hold Controller again keeps of its record. -/
structure HoldKept (s t : State) : Prop where
  claims : s.hc.ClaimsKept → t.hc.ClaimsKept
  demand : s.hc.ClaimsKept → s.hc.DemandKept → t.hc.DemandKept
  within : ∀ a, s.active = some a → (∀ r ∈ s.mail.results, r.pressure.within a.bank.maxPressure) →
    s.hc.Within a.bank.maxPressure → t.hc.Within a.bank.maxPressure
  rests : s.hc.ClaimsKept → s.sr.serviceMode = true → s.hc.state.Resting → t.hc.state.Resting

section
variable {s t u : State}

theorem HoldKept.of_hc (h : t.hc = s.hc) : HoldKept s t where
  claims := by rw [h]; exact id
  demand _ := by rw [h]; exact id
  within _ _ _ := by rw [h]; exact id
  rests _ _ := by rw [h]; exact id

theorem HoldStep.kept {b : Bank} (h : HoldStep b s t) (hb : ∀ a, s.active = some a → b = a.bank) : HoldKept s t where
  claims := h.claims
  demand := h.demand
  within a ha _ := by rw [← hb a ha]; exact h.within
  rests := h.rests

theorem HoldKept.andThen (h : HoldKept s u) (k : t.hc = u.hc) : HoldKept s t where
  claims hc := by rw [k]; exact h.claims hc
  demand hc hd := by rw [k]; exact h.demand hc hd
  within a ha hr hw := by rw [k]; exact h.within a ha hr hw
  rests hc hm hs := by rw [k]; exact h.rests hc hm hs

theorem HoldKept.afterAsked (h : Asked s u) (k : HoldKept u t) : HoldKept s t := by
  have hc : u.hc = s.hc := h.reaches .hold (by simp)
  have ha : u.active = s.active := h.reaches .active (by simp)
  have hm : u.mail.results = s.mail.results := h.reaches .results (by simp)
  refine ⟨?_, ?_, fun a => ?_, ?_⟩
  · rw [← hc]; exact k.claims
  · rw [← hc]; exact k.demand
  · rw [← hc, ← ha, ← hm]; exact k.within a
  · rw [← hc, ← h.mode]; exact k.rests

theorem takeResult_kept {a : ActiveBank} (ha : s.active = some a) : HoldKept s (takeResult a.bank s) := by
  cases hm : s.mail.results with
  | nil => exact .of_hc (by rw [takeResult, hm])
  | cons r rest =>
    have k := takeResult_step s a.bank hm
    refine ⟨fun h => k.claims ⟨h.slots, h.holding, h.phase⟩, fun h d => k.demand ⟨h.slots, h.holding, h.phase⟩
      ⟨d.mode, d.park, d.idle⟩, fun a' ha' hr hw => ?_, fun h => k.rests ⟨h.slots, h.holding, h.phase⟩⟩
    obtain rfl := Option.some.inj (ha.symm.trans ha')
    exact k.within ⟨hw.demand, hr r (by simp [hm]), hw.ramp⟩

theorem holdEvent_kept {f : Bank → State → State} (hf : ∀ a, s.active = some a → HoldKept s (f a.bank s)) :
    HoldKept s (holdEvent f s) := by
  unfold holdEvent
  split
  case h_1 a ha => exact (hf a ha).andThen (withStart_hc _ _)
  case h_2 => exact .of_hc rfl

theorem serveNow_kept {code n : Nat} {p : Port} {act : Frame → State → Answer × State}
    (hf : ∀ f u, HoldStep (txBank u) u (act f u).2) : HoldKept s (serveNow code n p act s) := by
  rcases serveNow_cases code n p act s with h | ⟨-, f, u, hu, h⟩
  · exact .of_hc (h.reaches .hold (by simp))
  · exact .afterAsked hu (((hf f u).kept fun a ha => txBank_some ha).andThen (h .hold (by simp)))

theorem exec_holdKept {c : Instr} (hc : restarts c = false) (h : exec c s = .next t) : HoldKept s t := by
  cases hf : holdAct c with
  | some f =>
    rw [exec_holdAct s hf] at h
    obtain rfl := Host.Outcome.next.inj h
    exact holdEvent_kept fun a ha => (holdAct_step hf _ s).kept fun a' ha' => by
      obtain rfl := Option.some.inj (ha.symm.trans ha')
      rfl
  | none =>
    by_cases hr : Part.hold ∈ reach c
    case neg => exact .of_hc (exec_reaches h .hold hr)
    case pos =>
      cases c
      case calcResult =>
        obtain rfl := Host.Outcome.next.inj h
        exact holdEvent_kept fun a ha => takeResult_kept ha
      case testHold p =>
        obtain rfl := Host.Outcome.next.inj h
        exact serveNow_kept fun f u => testHold_step u f
      case releaseTest p =>
        obtain rfl := Host.Outcome.next.inj h
        exact serveNow_kept fun f u => releaseTest_step u f
      all_goals simp_all [reach, holdAct, restarts]

end

end Sys2Proof.Machine
end

