-- ==== Sys2Proof/Proofs/Restarts.lean ====
section
/-! PROOF. What a reset, the load of the stored tables and an activation leave of the parts that the invariants read. -/

namespace Sys2Proof.Machine

section
variable {s t : State}

/-- A bank that has become active, with the Hold Controller and the Creep Monitor at their start under it (R183, R185). -/
structure BankRuns (b : Bank) (t : State) : Prop where
  active : t.active = some b.toActive
  hold : t.hc = .start b (Calculator.start b).result
  creep : t.cm = .start b

theorem activateScheduler_reaches (s : State) : Reaches [.scheduler] s (activateScheduler s) := by
  have discarded : Reaches [.scheduler] s (discardHold s) := (setQueue_reaches s _ _).andThen (countTimes_reaches _ _ _)
  exact discarded.trans ((setTx_reaches _ _).trans (trySend_reaches _ _))

/-- What an activation leaves (R183). -/
structure Activated (b : Bank) (s t : State) : Prop where
  runs : BankRuns b t
  loading : t.loading = s.loading
  faults : t.fc = clearMonitorCounters s.fc
  service : (t.sr.serviceMode, t.sr.staging, t.sr.idle) = (false, none, none)
  store : t.store = s.store
  results : t.mail.results = []
  requests : t.mail.requests = s.mail.requests

theorem activateBank_activated (p : Port) (b : Bank) (s : State) : Activated b s (activateBank p b s) := by
  rw [activateBank_eq]
  have h := activateScheduler_reaches
  exact ⟨⟨h _ .active (by simp), h _ .hold (by simp), h _ .creep (by simp)⟩, h _ .loading (by simp), h _ .faults (by simp),
    h _ .service (by simp), h _ .store (by simp), h _ .results (by simp), h _ .requests (by simp)⟩

/-- ACTIVATE is answered, or its staging bank becomes active (R182). -/
theorem activate_cases (p : Port) (s : State) :
    Asked s (serve 0x05 0 p (fun _ s => activate p s) s) ∨
      s.mail.requests ≠ [] ∧ ∃ u b, Asked s u ∧ u.sr.serviceMode = true ∧ u.sr.staging = some b ∧
        serve 0x05 0 p (fun _ s => activate p s) s = activateBank p b u := by
  rcases serve_cases 0x05 0 p (fun _ s => activate p s) s with h | ⟨hne, f, u, hu, e⟩
  · exact .inl h
  · rw [e]
    unfold activate
    split
    case h_1 b hm hb =>
      split
      · exact .inl (hu.trans (asked_respond _ _ _ _ _))
      · exact .inr ⟨hne, u, b, hu, hm, hb, rfl⟩
    case h_2 => exact .inl (hu.trans (asked_respond _ _ _ _ _))

/-- The end of a load: none was under way, or a stored bank becomes active, or none does (R185). -/
theorem loadEnded_cases (s : State) :
    loadEnded s = s ∨
      s.loading = true ∧ (loadEnded s).loading = false ∧
        (∃ x, (loadEnded s).tx = { s.tx with statusTimer := x }) ∧
        ((∃ b i, s.store.current = .holds b i ∧ BankRuns b (loadEnded s) ∧
            Reaches [.loading, .active, .hold, .creep, .scheduler] s (loadEnded s)) ∨
          Reaches [.loading, .scheduler] s (loadEnded s)) := by
  unfold loadEnded
  split
  case isFalse => exact .inl rfl
  case isTrue hl =>
    refine .inr ⟨hl, ?_⟩
    dsimp only
    split
    case h_1 b hb =>
      refine ⟨rfl, ⟨_, rfl⟩, .inl ⟨b, true, ?_, ⟨rfl, rfl, rfl⟩, fun x hx => ?_⟩⟩
      · unfold StoreArea.loadable at hb
        split at hb
        case h_1 c hc =>
          split at hb
          · rw [hc, Option.some.inj hb]
          · cases hb
        case h_2 => cases hb
      · cases x
        case loading | active | hold | creep | scheduler => simp at hx
        all_goals rfl
    case h_2 =>
      refine ⟨rfl, ⟨_, rfl⟩, .inr fun x hx => ?_⟩
      cases x
      case loading | scheduler => simp at hx
      all_goals rfl

/-- The Hold Controller after a command that may start it again: left, OFF, or at its start under a bank. -/
theorem exec_restarts_hc {c : Instr} (hc : restarts c = true) (h : exec c s = .next t) :
    t.hc = s.hc ∨ t.hc = .off ∨ ∃ b, BankRuns b t := by
  cases c
  case powerOnReset pins =>
    obtain rfl := Host.Outcome.next.inj h
    exact .inr (.inl rfl)
  case pendingResetTaken pins =>
    obtain rfl := Host.Outcome.next.inj h
    unfold takePendingReset
    split
    · exact .inr (.inl rfl)
    · exact .inl rfl
  case storeLoadEnd =>
    obtain rfl := Host.Outcome.next.inj h
    rcases loadEnded_cases s with e | ⟨-, -, -, ⟨b, -, -, hb, -⟩ | hr⟩
    · exact .inl (congrArg State.hc e)
    · exact .inr (.inr ⟨b, hb⟩)
    · exact .inl (hr .hold (by simp))
  case activate p =>
    obtain rfl := Host.Outcome.next.inj h
    rcases activate_cases p s with ha | ⟨-, u, b, -, -, -, e⟩
    · exact .inl (ha.reaches .hold (by simp))
    · exact .inr (.inr ⟨b, by rw [e]; exact (activateBank_activated p b u).runs⟩)
  all_goals cases hc

end

end Sys2Proof.Machine
end

