-- ==== Sys2Proof/Proofs/HoldInvariants.lean ====
section
/-! PROOF. Every step keeps the Claim Table and the demand record (O54). -/

namespace Sys2Proof.Machine

section
variable {s t : State}

/-- A step is a tick, or the front command on the state with the queue's rest. -/
theorem step_cases (h : step s = .next t) :
    t = tick s ∨ ∃ c rest, s.pending = c :: rest ∧ exec c (s.setPending rest) = .next t := by
  unfold step at h
  split at h
  · exact .inl (Host.Outcome.next.inj h).symm
  case h_2 c rest hp => exact .inr ⟨c, rest, hp, h⟩

theorem noClaim_tick (s : State) : (tick s).hc.noClaim = s.hc.noClaim := by
  have hs : (tick s).hc.standing = s.hc.standing.map fun x => { x with timer := tickTimer x.timer } := by
    show (s.hc.claims.map tickClaim).filterMap id = (s.hc.claims.filterMap id).map _
    induction s.hc.claims with
    | nil => rfl
    | cons c l ih =>
      cases c with
      | none => exact ih
      | some x => exact congrArg (List.cons _) ih
  unfold HoldController.noClaim
  rw [hs, List.isEmpty_map]

theorem claimsKept_start (b : Bank) (r : CalcResult) : (HoldController.start b r).ClaimsKept :=
  ⟨rfl, by simp [HoldController.start, HoldController.off, HoldController.noClaim, HoldController.standing, noClaims],
    fun h => nomatch h⟩

theorem claimsKept_off : HoldController.off.ClaimsKept := ⟨rfl, by decide, fun h => nomatch h⟩

theorem demandKept_start (b : Bank) (r : CalcResult) : (HoldController.start b r).DemandKept := ⟨rfl, rfl, fun _ => rfl⟩

theorem demandKept_off : HoldController.off.DemandKept := ⟨rfl, rfl, fun _ => rfl⟩

theorem tick_claimsKept (h : s.hc.ClaimsKept) : (tick s).hc.ClaimsKept :=
  ⟨(List.length_map ..).trans h.slots, by rw [noClaim_tick]; exact h.holding, h.phase⟩

theorem exec_keepsHold {c : Instr} (h : exec c s = .next t) (hc : s.hc.ClaimsKept) (hd : s.hc.DemandKept) :
    t.hc.ClaimsKept ∧ t.hc.DemandKept := by
  cases hr : restarts c with
  | false =>
    have k := exec_holdKept hr h
    exact ⟨k.claims hc, k.demand hc hd⟩
  | true =>
    rcases exec_restarts_hc hr h with e | e | ⟨b, hb⟩
    · exact e ▸ ⟨hc, hd⟩
    · exact e ▸ ⟨claimsKept_off, demandKept_off⟩
    · exact hb.hold ▸ ⟨claimsKept_start _ _, demandKept_start _ _⟩

end

/-- Settles O54: HOLDING is entered with the claim in the table and left with the table empty; a restart begins with both
records at their start values. -/
theorem stepKeepsTheClaimTableAndTheDemand : Obligations.StepKeepsTheClaimTableAndTheDemand := by
  intro s t hc hd h
  rw [claimTableKept_iff] at hc ⊢
  rw [demandRecordKept_iff] at hd ⊢
  rcases step_cases h with rfl | ⟨c, rest, -, he⟩
  · exact ⟨tick_claimsKept hc, hd.mode, hd.park, hd.idle⟩
  · exact exec_keepsHold he hc hd

end Sys2Proof.Machine
end

