-- ==== Sys2Proof/Proofs/ServiceInvariants.lean ====
section
/-! PROOF. What a command does to service mode, its staging bank and its idle timer, and every step's keeping of them
(O58). -/

namespace Sys2Proof.Machine

/-- What a command that is not a restart does to service mode (R177, R179 to R181, R186). -/
inductive ServiceMove (s t : State) : Prop
  | same (mode : t.sr.serviceMode = s.sr.serviceMode) (staging : t.sr.staging = s.sr.staging)
      (idle : t.sr.idle = s.sr.idle ∨ t.sr.idle = none ∨ s.sr.serviceMode = true)
  | left (after : (t.sr.serviceMode, t.sr.staging, t.sr.idle) = (false, none, none))
  | entered (resting : s.hc.state.Resting) (hold : t.hc = s.hc) (mode : t.sr.serviceMode = true)
      (staging : t.sr.staging = some (stagingSource s))
  | written (b b' : Bank) (table index field : Nat) (v : Word32) (before : s.sr.serviceMode = true)
      (mode : t.sr.serviceMode = true) (bank : s.sr.staging = some b)
      (wrote : writeBank b table index field v = .ok b') (staging : t.sr.staging = some b')

section
variable {s t u : State}

theorem ServiceMove.of_reaches {r : List Part} (h : Reaches r s t) (hr : Part.service ∉ r) : ServiceMove s t :=
  have e := h .service hr
  .same (congrArg Prod.fst e) (congrArg (·.2.1) e) (.inl (congrArg (·.2.2) e))

theorem Asked.serviceMove (h : Asked s t) : ServiceMove s t := .same h.mode h.staging (h.idle.imp_right .inr)

theorem ServiceMove.afterAsked (h : Asked s u) (k : ServiceMove u t) : ServiceMove s t := by
  have hc : u.hc = s.hc := h.reaches .hold (by simp)
  have ha : u.active = s.active := h.reaches .active (by simp)
  cases k with
  | same mode staging idle =>
    refine .same (mode.trans h.mode) (staging.trans h.staging) ?_
    rcases idle with e | e | e
    · exact h.idle.imp e.trans .inr
    · exact .inr (.inl e)
    · exact .inr (.inr (h.mode ▸ e))
  | left after => exact .left after
  | entered resting hold mode staging =>
    exact .entered (hc ▸ resting) (hold.trans hc) mode (by rw [staging, stagingSource, stagingSource, ha])
  | written b b' table index field v before mode bank wrote staging =>
    exact .written b b' table index field v (h.mode ▸ before) mode (h.staging ▸ bank) wrote staging

theorem ServiceMove.andThen (h : ServiceMove s u) (k : Reaches [] u t) : ServiceMove s t := by
  have e := k .service (by simp)
  have hc : t.hc = u.hc := k .hold (by simp)
  have mode : t.sr.serviceMode = u.sr.serviceMode := congrArg Prod.fst e
  have staging : t.sr.staging = u.sr.staging := congrArg (·.2.1) e
  have idle : t.sr.idle = u.sr.idle := congrArg (·.2.2) e
  cases h with
  | same m st i => exact .same (mode.trans m) (staging.trans st) (by rw [idle]; exact i)
  | left after => exact .left (Eq.trans e after)
  | entered resting hold m st =>
    exact .entered resting (hc.trans hold) (mode.trans m) (staging.trans st)
  | written b b' table index field v before m bank wrote st =>
    exact .written b b' table index field v before (mode.trans m) bank wrote (staging.trans st)

theorem serveNow_moves {code n : Nat} {p : Port} {act : Frame → State → Answer × State}
    (acts : ∀ f u, ServiceMove u (act f u).2) : ServiceMove s (serveNow code n p act s) := by
  rcases serveNow_cases code n p act s with h | ⟨-, f, u, hu, h⟩
  · exact h.serviceMove
  · exact .afterAsked hu ((acts f u).andThen h)

theorem enterService_moves (s : State) : ServiceMove s (enterService s).2 := by
  unfold enterService
  split
  · exact (Asked.refl s).serviceMove
  · split
    case isTrue hs => exact .entered (hs.elim (fun h => .inr (.inl h)) .inl) rfl rfl rfl
    case isFalse => exact (Asked.refl s).serviceMove

theorem writeField_moves (f : Frame) (s : State) : ServiceMove s (writeField f s).2 := by
  unfold writeField
  split
  case h_1 b hm hb =>
    split
    case h_1 b' hw => exact .written b b' _ _ _ _ hm hm hb hw rfl
    case h_2 => exact (Asked.refl s).serviceMove
  case h_2 => exact (Asked.refl s).serviceMove

theorem resetPart_moves (p : Port) (s : State) : ServiceMove s (resetPart p s) := by
  unfold resetPart
  split
  · exact .same rfl rfl (.inr (.inl rfl))
  · exact (asked_respond s _ _ _ _).serviceMove

theorem unknownRequest_asked (p : Port) (s : State) : Asked s (unknownRequest p s) := by
  unfold unknownRequest
  split
  · exact .refl _
  case h_2 f u hu =>
    obtain ⟨-, rest, rfl⟩ := takeRequest_some hu
    have taken := asked_taken s rest
    split
    · exact taken
    · split
      · exact taken.trans (asked_respond _ _ _ _ _)
      · exact (taken.trans (asked_restartIdle _)).trans (asked_respond _ _ _ _ _)

theorem exec_serviceMove {c : Instr} (hc : restarts c = false) (h : exec c s = .next t) : ServiceMove s t := by
  by_cases hr : Part.service ∈ reach c
  case neg => exact .of_reaches (exec_reaches h) hr
  case pos =>
    have unmoved : ∀ u : State, ServiceMove u u := fun u => (Asked.refl u).serviceMove
    cases c
    case serviceIdleExpiry =>
      obtain rfl := Host.Outcome.next.inj h
      unfold idleExpired
      split
      · exact .left rfl
      · exact unmoved s
    case enterService => obtain rfl := Host.Outcome.next.inj h; exact serveNow_moves fun _ u => enterService_moves u
    case exitService =>
      obtain rfl := Host.Outcome.next.inj h
      refine serveNow_moves fun _ u => ?_
      unfold exitService
      split
      · exact .left rfl
      · exact unmoved u
    case writeField => obtain rfl := Host.Outcome.next.inj h; exact serveNow_moves fun f u => writeField_moves f u
    case readEntry | readSignal | readFault | readClaims =>
      obtain rfl := Host.Outcome.next.inj h
      exact serveNow_moves fun _ u => unmoved u
    case readCounters =>
      obtain rfl := Host.Outcome.next.inj h
      exact serveNow_moves fun f u => .of_reaches (readCounters_reaches u f) (by simp)
    case clearFault =>
      obtain rfl := Host.Outcome.next.inj h
      exact serveNow_moves fun _ u => .of_reaches (clearFault_reaches u) (by simp)
    case testHold =>
      obtain rfl := Host.Outcome.next.inj h
      exact serveNow_moves fun f u => .of_reaches (testHold_step u f).reaches (by simp)
    case releaseTest =>
      obtain rfl := Host.Outcome.next.inj h
      exact serveNow_moves fun f u => .of_reaches (releaseTest_step u f).reaches (by simp)
    case resetPart p =>
      obtain rfl := Host.Outcome.next.inj h
      rcases serve_cases 0x0D 0 p (fun _ s => resetPart p s) s with h | ⟨-, f, u, hu, e⟩
      · exact h.serviceMove
      · rw [e]
        exact .afterAsked hu (resetPart_moves p u)
    case unknownCommandRequest p =>
      obtain rfl := Host.Outcome.next.inj h
      exact (unknownRequest_asked p s).serviceMove
    all_goals simp_all [reach, restarts]

/-! ## The load of the stored tables -/

/-- While the tables load no request waits and no arrival is taken, so a command that reaches them does nothing (R151). -/
theorem exec_loading {c : Instr} (hc : restarts c = false) (hl : s.loading = true) (hq : s.mail.requests = [])
    (hr : Part.requests ∈ reach c) (h : exec c s = .next t) : t = s := by
  cases c
  case arrival p f => obtain rfl := Host.Outcome.next.inj h; exact takeArrival_loading s hl
  case enterService | exitService | readEntry | writeField | readSignal | readCounters | readFault | clearFault | readClaims
      | testHold | releaseTest | resetPart =>
    obtain rfl := Host.Outcome.next.inj h
    exact serve_idle hq
  case unknownCommandRequest p =>
    obtain rfl := Host.Outcome.next.inj h
    show unknownRequest p s = s
    simp [unknownRequest, takeRequest, hq, takeFirst]
  all_goals simp_all [reach, restarts]

theorem serviceMode_loading {c : Instr} (hc : restarts c = false) (hl : s.loading = true)
    (hk : s.sr.serviceMode = false ∧ s.mail.requests = []) (h : exec c s = .next t) :
    t.sr.serviceMode = false ∧ t.mail.requests = [] := by
  by_cases hr : Part.requests ∈ reach c
  case pos => exact exec_loading hc hl hk.2 hr h ▸ hk
  case neg =>
    refine ⟨?_, Eq.trans (exec_reaches h .requests hr) hk.2⟩
    by_cases hs : Part.service ∈ reach c
    case neg => exact ((exec_reaches h).serviceMode hs).trans hk.1
    case pos =>
      cases c
      case serviceIdleExpiry =>
        obtain rfl := Host.Outcome.next.inj h
        show (idleExpired s).sr.serviceMode = false
        unfold idleExpired
        split
        · rfl
        · exact hk.1
      all_goals simp_all [reach, restarts]

/-! ## Service mode (R68, R180) -/

/-- Service mode as `ServiceModeKept` has it, but for the load. -/
structure ServiceRests (t : State) : Prop where
  states : t.sr.serviceMode = true → t.hc.state.Resting
  staging : t.sr.staging.isSome = t.sr.serviceMode
  idle : t.sr.idle.isSome = true → t.sr.serviceMode = true

theorem ServiceRests.ended (h : (t.sr.serviceMode, t.sr.staging, t.sr.idle) = (false, none, none)) : ServiceRests t := by
  have mode : t.sr.serviceMode = false := congrArg Prod.fst h
  have staging : t.sr.staging = none := congrArg (·.2.1) h
  have idle : t.sr.idle = none := congrArg (·.2.2) h
  exact ⟨by simp [mode], by simp [mode, staging], by simp [idle]⟩

theorem ServiceRests.congr (h : ServiceRests s) (e : Part.service.Same s t)
    (states : t.sr.serviceMode = true → t.hc.state.Resting) : ServiceRests t := by
  have mode : t.sr.serviceMode = s.sr.serviceMode := congrArg Prod.fst e
  have staging : t.sr.staging = s.sr.staging := congrArg (·.2.1) e
  have idle : t.sr.idle = s.sr.idle := congrArg (·.2.2) e
  exact ⟨states, by rw [staging, mode]; exact h.staging, by rw [idle, mode]; exact h.idle⟩

theorem ServiceRests.moved (h : ServiceRests s) (hc : s.hc.ClaimsKept) (k : HoldKept s t) (m : ServiceMove s t) :
    ServiceRests t := by
  cases m with
  | same mode staging idle =>
    refine ⟨fun hm => k.rests hc (mode ▸ hm) (h.states (mode ▸ hm)), by rw [staging, mode]; exact h.staging, fun hi => ?_⟩
    rw [mode]
    rcases idle with e | e | e
    · exact h.idle (e ▸ hi)
    · simp [e] at hi
    · exact e
  | left after => exact .ended after
  | entered resting hold mode staging =>
    exact ⟨fun _ => hold ▸ resting, by rw [staging, mode]; rfl, fun _ => mode⟩
  | written b b' table index field v before mode bank wrote staging =>
    exact ⟨fun _ => k.rests hc before (h.states before), by rw [staging, mode]; rfl, fun _ => mode⟩

theorem exec_serviceRests {c : Instr} (hs : ServiceModeKept s) (hc : s.hc.ClaimsKept) (h : exec c s = .next t) :
    ServiceRests t := by
  have rests : ServiceRests s := ⟨hs.states, hs.staging, hs.idle⟩
  cases hr : restarts c with
  | false => exact rests.moved hc (exec_holdKept hr h) (exec_serviceMove hr h)
  | true =>
    cases c
    case powerOnReset pins => obtain rfl := Host.Outcome.next.inj h; exact .ended rfl
    case pendingResetTaken pins =>
      obtain rfl := Host.Outcome.next.inj h
      unfold takePendingReset
      split
      · exact .ended rfl
      · exact rests
    case storeLoadEnd =>
      obtain rfl := Host.Outcome.next.inj h
      show ServiceRests (loadEnded s)
      rcases loadEnded_cases s with e | ⟨hl, -, -, ⟨b, i, -, -, hb⟩ | hb⟩
      · rw [e]
        exact rests
      all_goals
        have mode : (loadEnded s).sr.serviceMode = false := (hb.serviceMode (by simp)).trans (hs.loading hl).1
        exact rests.congr (hb .service (by simp)) (by simp [mode])
    case activate p =>
      obtain rfl := Host.Outcome.next.inj h
      rcases activate_cases p s with ha | ⟨-, u, b, -, -, -, e⟩
      · exact rests.moved hc (.of_hc (ha.reaches .hold (by simp))) ha.serviceMove
      · rw [e]
        exact .ended (activateBank_activated p b u).service
    all_goals cases hr

theorem exec_loads {c : Instr} (hc : restarts c = false) (h : exec c s = .next t) : t.loading = s.loading :=
  exec_reaches h .loading (by cases c <;> simp_all [reach, restarts])

theorem exec_keepsLoading {c : Instr} (hs : ServiceModeKept s) (h : exec c s = .next t) (hl : t.loading = true) :
    t.sr.serviceMode = false ∧ t.mail.requests = [] := by
  cases hr : restarts c with
  | false =>
    have hl := (exec_loads hr h).symm.trans hl
    exact serviceMode_loading hr hl (hs.loading hl) h
  | true =>
    cases c
    case powerOnReset pins => obtain rfl := Host.Outcome.next.inj h; exact ⟨rfl, rfl⟩
    case pendingResetTaken pins =>
      obtain rfl := Host.Outcome.next.inj h
      revert hl
      unfold takePendingReset
      split
      · exact fun _ => ⟨rfl, rfl⟩
      · exact hs.loading
    case storeLoadEnd =>
      obtain rfl := Host.Outcome.next.inj h
      change (loadEnded s).loading = true at hl
      show (loadEnded s).sr.serviceMode = false ∧ (loadEnded s).mail.requests = []
      rcases loadEnded_cases s with e | ⟨-, hn, -⟩
      · rw [e] at hl ⊢
        exact hs.loading hl
      · exact absurd (hl.symm.trans hn) (by decide)
    case activate p =>
      obtain rfl := Host.Outcome.next.inj h
      have loads : (serve 0x05 0 p (fun _ s => activate p s) s).loading = s.loading := by
        rcases activate_cases p s with ha | ⟨-, u, b, hu, -, -, e⟩
        · exact ha.reaches .loading (by simp)
        · rw [e]
          exact (activateBank_activated p b u).loading.trans (hu.reaches .loading (by simp))
      have hk := hs.loading (loads.symm.trans hl)
      rw [serve_idle hk.2]
      exact hk
    all_goals cases hr

theorem tick_keepsServiceMode (h : ServiceModeKept s) : ServiceModeKept (tick s) :=
  ⟨h.states, h.staging, fun hi => h.idle (by simpa [tick, tickTimer] using hi), h.loading⟩

end

/-- Settles O58: service mode is entered from a resting hold state, which no event of the Hold Controller leaves in it
but for another, and it stands at no load. -/
theorem stepKeepsServiceMode : Obligations.StepKeepsServiceMode := by
  intro s t hc hs h
  rw [claimTableKept_iff] at hc
  rcases step_cases h with rfl | ⟨c, rest, -, he⟩
  · exact tick_keepsServiceMode hs
  · have kept : ServiceModeKept (s.setPending rest) := ⟨hs.states, hs.staging, hs.idle, hs.loading⟩
    have rests := exec_serviceRests kept hc he
    exact ⟨rests.states, rests.staging, rests.idle, exec_keepsLoading kept he⟩

end Sys2Proof.Machine
end

