-- ==== Sys2Proof/Proofs/FaultInvariants.lean ====
section
/-! PROOF. What a command does to the Fault Record and the counters, and the stay of a captured MAJOR fault (O60). -/

namespace Sys2Proof.Machine

/-- What a command does to the Fault Record and the 86 counters (R169 to R175). -/
inductive FaultMove (c : Instr) (s t : State) : Prop
  | same (after : t.fc = s.fc)
  | report (r : FaultReport) (u : State) (before : u.fc = s.fc) (after : t.fc = (takeReport r u).fc)
  | count (k : Counter) (after : t.fc = countInto k s.fc)
  | group (g : Nat) (after : t.fc = clearGroup g s.fc)
  | record (p : Port) (command : c = .clearFault p) (after : t.fc = { s.fc with record := none })
  | monitors (after : t.fc = clearMonitorCounters s.fc)
  | zero (pins : BitVec 3) (command : c = .powerOnReset pins) (after : t.fc = .zero)

section
variable {s t : State} {c : Instr}

theorem exec_faultMove (h : exec c s = .next t) : FaultMove c s t := by
  by_cases hr : Part.faults ∈ reach c
  case neg => exact .same (exec_reaches h .faults hr)
  case pos =>
    cases c
    case powerOnReset pins => obtain rfl := Host.Outcome.next.inj h; exact .zero pins rfl rfl
    case pendingResetTaken pins =>
      obtain rfl := Host.Outcome.next.inj h
      refine .same ?_
      unfold takePendingReset
      split <;> rfl
    case storeLoadEnd =>
      obtain rfl := Host.Outcome.next.inj h
      refine .same ?_
      rcases loadEnded_cases s with e | ⟨-, -, -, ⟨b, i, -, -, hb⟩ | hb⟩
      · exact congrArg State.fc e
      · exact hb .faults (by simp)
      · exact hb .faults (by simp)
    case activate p =>
      obtain rfl := Host.Outcome.next.inj h
      rcases activate_cases p s with ha | ⟨-, u, b, hu, -, -, e⟩
      · exact .same (ha.reaches .faults (by simp))
      · have hf : u.fc = s.fc := hu.reaches .faults (by simp)
        exact .monitors (by rw [e, (activateBank_activated p b u).faults, hf])
    case faultReport n =>
      obtain rfl := Host.Outcome.next.inj h
      show FaultMove _ s (takeFault n s)
      unfold takeFault
      split
      · exact .same rfl
      case h_2 r hr => exact .report r (s.setMail { s.mail with faults := s.mail.faults.eraseIdx n }) rfl rfl
    case counterCount =>
      obtain rfl := Host.Outcome.next.inj h
      show FaultMove _ s (takeCount s)
      unfold takeCount
      split
      · exact .same rfl
      case h_2 k rest hk => exact .count k rfl
    case readCounters p =>
      obtain rfl := Host.Outcome.next.inj h
      rcases serveNow_cases 0x07 2 p readCounters s with ha | ⟨-, f, u, hu, ha⟩
      · exact .same (ha.reaches .faults (by simp))
      · have hf : u.fc = s.fc := hu.reaches .faults (by simp)
        have answered : (serveNow 0x07 2 p readCounters s).fc = (readCounters f u).2.fc := ha .faults (by simp)
        have moved : (readCounters f u).2.fc = u.fc ∨ (readCounters f u).2.fc = clearGroup (argByte f 1) u.fc := by
          unfold readCounters
          split
          · exact .inl rfl
          · split
            · exact .inl rfl
            · exact .inr rfl
            · exact .inl rfl
        rcases moved with e | e
        · exact .same (answered.trans (e.trans hf))
        · exact .group (argByte f 1) (answered.trans (e.trans (by rw [hf])))
    case clearFault p =>
      obtain rfl := Host.Outcome.next.inj h
      rcases serveNow_cases 0x09 0 p (fun _ s => clearFault s) s with ha | ⟨-, f, u, hu, ha⟩
      · exact .same (ha.reaches .faults (by simp))
      · have hf : u.fc = s.fc := hu.reaches .faults (by simp)
        exact .record p rfl (Eq.trans (ha .faults (by simp)) (by rw [clearFault, State.setFc, hf]))
    all_goals simp_all [reach]

@[simp] theorem countInto_record (k : Counter) (fc : FaultCapture) : (countInto k fc).record = fc.record := by
  cases k <;> rfl

@[simp] theorem clearGroup_record (g : Nat) (fc : FaultCapture) : (clearGroup g fc).record = fc.record := by
  unfold clearGroup
  dsimp only
  split
  case h_7 =>
    split
    · rfl
    · rfl
  all_goals rfl

/-- A report with a MAJOR fault in the record is a repeat (R170). -/
theorem takeReport_major {r : FaultReport} {old : FaultRecord} (h : s.fc.record = some old) (hm : old.severity = .major) :
    (takeReport r s).fc.record = some { old with repeats := satAdd Config.cap8 old.repeats 1 } := by
  simp [takeReport, h, hm, countRepeat]

/-- The record of a MAJOR fault after a command: left, or with one more repeat. -/
theorem exec_majorStays {r : FaultRecord} (hr : s.fc.record = some r) (hm : r.severity = .major)
    (hc : ∀ p, c ≠ .clearFault p) (hp : ∀ pins, c ≠ .powerOnReset pins) (h : exec c s = .next t) :
    t.fc.record = some r ∨ t.fc.record = some { r with repeats := satAdd Config.cap8 r.repeats 1 } := by
  cases exec_faultMove h with
  | same after => exact .inl (by rw [after, hr])
  | report x u before after => exact .inr (by rw [after]; exact takeReport_major (by rw [before, hr]) hm)
  | count k after => exact .inl (by rw [after, countInto_record, hr])
  | group g after => exact .inl (by rw [after, clearGroup_record, hr])
  | record p command after => exact absurd command (hc p)
  | monitors after => exact .inl (by rw [after]; exact hr)
  | zero pins command after => exact absurd command (hp pins)

end

/-- Settles O60: a report finds the MAJOR fault and is a repeat of it; every other command left leaves the record. -/
theorem majorFaultStays : Obligations.MajorFaultStays := by
  intro s t r hr hm h hclear hreset
  rcases step_cases h with rfl | ⟨c, rest, hp, he⟩
  · exact ⟨r.repeats, hr, fun hn => ⟨le_refl _, hn⟩⟩
  · have moved := exec_majorStays (s := s.setPending rest) hr hm (fun p e => hclear p rest (e ▸ hp))
      (fun pins e => hreset pins rest (e ▸ hp)) he
    rcases moved with e | e
    · exact ⟨r.repeats, e, fun hn => ⟨le_refl _, hn⟩⟩
    · refine ⟨_, e, fun hn => ⟨?_, satAdd_le _ _ _⟩⟩
      simp only [satAdd, Config.cap8]
      omega

end Sys2Proof.Machine
end

