-- ==== Sys2Proof/Proofs/CounterInvariants.lean ====
section
/-! PROOF. Every step keeps every counter and count to its width (O57). -/

namespace Sys2Proof.Machine

/-! ## The 86 counters and the repeat count -/

/-- The counters of Fault Capture, as `CountersKept` has them. -/
structure FaultCapture.Kept (fc : FaultCapture) : Prop where
  ports : ∀ p, (fc.ports.get p).Kept
  monitors : fc.monitors.length = 24 ∧ ∀ x ∈ fc.monitors, x.Kept
  repeats : ∀ r, fc.record = some r → r.repeats ≤ 255

theorem bump_le (n : Nat) : bump n ≤ 65535 := satAdd_le _ _ _

section
variable {fc : FaultCapture}

theorem FaultCapture.Kept.monitor (h : fc.Kept) (i : Nat) : (fc.monitor i).Kept := by
  unfold FaultCapture.monitor
  cases hi : fc.monitors[i]? with
  | none => exact ⟨Nat.zero_le _, Nat.zero_le _, Nat.zero_le _⟩
  | some x => exact h.monitors.2 x (List.mem_of_getElem? hi)

theorem updatePort_kept (h : fc.Kept) (p : Port) {f : PortCounters → PortCounters} (hf : (f (fc.ports.get p)).Kept) :
    (updatePort p f fc).Kept := by
  refine ⟨fun q => ?_, h.monitors, h.repeats⟩
  cases p <;> cases q
  case c.c | b.b => exact hf
  case c.b => exact h.ports .b
  case b.c => exact h.ports .c

theorem updateMonitor_kept (h : fc.Kept) (i : Nat) {f : MonitorCounters → MonitorCounters} (hf : (f (fc.monitor i)).Kept) :
    (updateMonitor i f fc).Kept := by
  refine ⟨h.ports, ⟨(List.length_set ..).trans h.monitors.1, fun x hx => ?_⟩, h.repeats⟩
  rcases List.mem_or_eq_of_mem_set hx with hx | rfl
  · exact h.monitors.2 x hx
  · exact hf

theorem countInto_kept (h : fc.Kept) (k : Counter) : (countInto k fc).Kept := by
  unfold countInto
  cases k
  case rx p | forwarded p | policed p | blocked p | queueDrop p | txError p | idConflict p =>
    have k := h.ports p
    refine updatePort_kept h p ?_
    simp_all [PortCounters.Kept, bump_le]
  case good i | errors i | losses i =>
    have k := h.monitor i
    refine updateMonitor_kept h i ?_
    simp_all [MonitorCounters.Kept, bump_le]

theorem clearGroup_kept (h : fc.Kept) (g : Nat) : (clearGroup g fc).Kept := by
  have first : ∀ p, (updatePort p (fun x => { x with rx := 0, forwarded := 0, policed := 0 }) fc).Kept := fun p => by
    obtain ⟨-, -, -, h4, h5, h6, h7⟩ := h.ports p
    exact updatePort_kept h p ⟨Nat.zero_le _, Nat.zero_le _, Nat.zero_le _, h4, h5, h6, h7⟩
  have second : ∀ p, (updatePort p (fun x => { x with blocked := 0, queueDrop := 0, txError := 0 }) fc).Kept := fun p => by
    obtain ⟨h1, h2, h3, -, -, -, h7⟩ := h.ports p
    exact updatePort_kept h p ⟨h1, h2, h3, Nat.zero_le _, Nat.zero_le _, Nat.zero_le _, h7⟩
  have third : ∀ p, (updatePort p (fun x => { x with idConflict := 0 }) fc).Kept := fun p => by
    obtain ⟨h1, h2, h3, h4, h5, h6, -⟩ := h.ports p
    exact updatePort_kept h p ⟨h1, h2, h3, h4, h5, h6, Nat.zero_le _⟩
  unfold clearGroup
  dsimp only
  split
  · exact first .c
  · exact second .c
  · exact third .c
  · exact first .b
  · exact second .b
  · exact third .b
  · split
    · exact updateMonitor_kept h _ ⟨Nat.zero_le _, Nat.zero_le _, Nat.zero_le _⟩
    · exact h

theorem monitorCounters_zero_kept : ∀ x ∈ List.replicate 24 MonitorCounters.zero, x.Kept := fun x hx => by
  rw [List.eq_of_mem_replicate hx]
  exact ⟨Nat.zero_le _, Nat.zero_le _, Nat.zero_le _⟩

theorem zero_kept : FaultCapture.zero.Kept := by
  refine ⟨fun p => ?_, ⟨List.length_replicate, monitorCounters_zero_kept⟩, fun r h => nomatch h⟩
  cases p <;> exact ⟨Nat.zero_le _, Nat.zero_le _, Nat.zero_le _, Nat.zero_le _, Nat.zero_le _, Nat.zero_le _, Nat.zero_le _⟩

theorem takeReport_kept {s : State} (h : s.fc.Kept) (r : FaultReport) : (takeReport r s).fc.Kept := by
  have recorded : ∀ x : FaultRecord, x.repeats ≤ 255 → FaultCapture.Kept { s.fc with record := some x } := fun x hx =>
    ⟨h.ports, h.monitors, fun y hy => by obtain rfl := Option.some.inj hy; exact hx⟩
  unfold takeReport
  split
  · exact recorded _ (Nat.zero_le _)
  · split
    · exact recorded _ (Nat.zero_le _)
    · exact recorded _ (satAdd_le _ _ _)

theorem exec_fcKept {c : Instr} {s t : State} (hk : s.fc.Kept) (h : exec c s = .next t) : t.fc.Kept := by
  cases exec_faultMove h with
  | same after => rw [after]; exact hk
  | report r u before after => rw [after]; exact takeReport_kept (by rw [before]; exact hk) r
  | count k after => rw [after]; exact countInto_kept hk k
  | group g after => rw [after]; exact clearGroup_kept hk g
  | record p command after => rw [after]; exact ⟨hk.ports, hk.monitors, fun r h => nomatch h⟩
  | monitors after => rw [after]; exact ⟨hk.ports, ⟨List.length_replicate, monitorCounters_zero_kept⟩, hk.repeats⟩
  | zero pins command after => rw [after]; exact zero_kept

end

/-! ## The Creep Monitor's accumulator and pending sums -/

/-- The Creep Monitor's sums, as `CountersKept` has them. -/
structure CreepMonitor.Kept (c : CreepMonitor) : Prop where
  accumulator : c.accumulator ≤ 65535
  pulses : ∀ r ∈ c.channels, r.pending ≤ 65535

section
variable {c : CreepMonitor} {s : State}

theorem CreepMonitor.Kept.channel (h : c.Kept) (n : Nat) : (c.channel n).pending ≤ 65535 := by
  unfold CreepMonitor.channel
  cases hn : c.channels[n]? with
  | none => exact Nat.zero_le _
  | some r => exact h.pulses r (List.mem_of_getElem? hn)

theorem setChannel_kept (h : c.Kept) (n : Nat) {r : ChannelRec} (hr : r.pending ≤ 65535) : (c.setChannel n r).Kept := by
  refine ⟨h.accumulator, fun x hx => ?_⟩
  rcases List.mem_or_eq_of_mem_set hx with hx | rfl
  · exact h.pulses x hx
  · exact hr

theorem takePulse_kept {r : ChannelRec} (hr : r.pending ≤ 65535) (x : PubItem) : (takePulse r x).pending ≤ 65535 := by
  unfold takePulse
  split
  · dsimp only
    split
    · split
      · exact hr
      · exact satAdd_le _ _ _
    · exact hr
  · exact Nat.zero_le _
  · exact hr

theorem takePulses_kept (items : List PubItem) (h : c.Kept) : (takePulses items c).Kept := by
  induction items generalizing c with
  | nil => exact h
  | cons x items ih =>
    rw [takePulses_cons]
    split
    · exact ih (setChannel_kept h _ (takePulse_kept (h.channel _) x))
    · exact ih h

theorem takeWheelSet_kept (b : Bank) (items : List PubItem) (h : s.cm.Kept) : (takeWheelSet b items s).cm.Kept := by
  have pulses := takePulses_kept items h
  unfold takeWheelSet
  dsimp only
  split
  · have e : ∀ u : State, (enterBlind u).cm = { u.cm with blind := true, stationaryTimer := none, stationary := false } :=
      fun u => by
        unfold enterBlind
        dsimp only
        split <;> rfl
    rw [e]
    exact ⟨pulses.accumulator, pulses.pulses⟩
  · split
    · exact ⟨pulses.accumulator, pulses.pulses⟩
    · exact pulses

theorem clearPending_kept (h : c.Kept) : c.clearPending.Kept := by
  refine ⟨h.accumulator, fun r hr => ?_⟩
  obtain ⟨x, -, rfl⟩ := List.mem_map.mp hr
  exact Nat.zero_le _

theorem stationaryTest_sums (b : Bank) (n : Nat) (s : State) :
    (stationaryTest b n s).cm.accumulator = s.cm.accumulator ∧ (stationaryTest b n s).cm.channels = s.cm.channels := by
  unfold stationaryTest
  split
  · exact ⟨rfl, rfl⟩
  · dsimp only
    split <;> exact ⟨rfl, rfl⟩

theorem cross_sums (n : Fin 8) (s : State) :
    (cross n s).cm.accumulator = 0 ∧ (cross n s).cm.channels = s.cm.channels := by
  unfold cross
  dsimp only
  split
  · split <;> exact ⟨rfl, rfl⟩
  all_goals exact ⟨rfl, rfl⟩

theorem accumulate_kept (b : Bank) (x : Ranked) (h : s.cm.Kept) : (accumulate b x s).cm.Kept := by
  unfold accumulate
  split
  · dsimp only
    split
    · obtain ⟨ha, hc⟩ := cross_sums x.channel
        (s.setCm { s.cm with accumulator := satAdd Config.cap16 s.cm.accumulator x.distance })
      exact ⟨by rw [ha]; exact Nat.zero_le _, by rw [hc]; exact h.pulses⟩
    · exact ⟨satAdd_le _ _ _, h.pulses⟩
  · exact h

theorem evaluate_kept (b : Bank) (h : s.cm.Kept) : (evaluate b s).cm.Kept := by
  have cleared := clearPending_kept h
  unfold evaluate
  dsimp only
  split
  · exact cleared
  · split
    case h_1 x hx =>
      obtain ⟨ha, hc⟩ := stationaryTest_sums b x.distance (s.setCm s.cm.clearPending)
      exact accumulate_kept b x ⟨by rw [ha]; exact cleared.accumulator, by rw [hc]; exact cleared.pulses⟩
    case h_2 => exact cleared

theorem creepStart_kept (b : Bank) : (CreepMonitor.start b).Kept := by
  refine ⟨Nat.zero_le _, fun r hr => ?_⟩
  obtain ⟨k, -, rfl⟩ := List.mem_map.mp hr
  exact Nat.zero_le _

theorem creepIdle_kept : CreepMonitor.idle.Kept := ⟨Nat.zero_le _, fun _ h => nomatch h⟩

theorem exec_cmKept {i : Instr} {t : State} (hk : s.cm.Kept) (h : exec i s = .next t) : t.cm.Kept := by
  by_cases hr : Part.creep ∈ reach i
  case neg => exact (exec_reaches h .creep hr : t.cm = s.cm) ▸ hk
  case pos =>
    cases i
    case powerOnReset pins => obtain rfl := Host.Outcome.next.inj h; exact creepIdle_kept
    case pendingResetTaken pins =>
      obtain rfl := Host.Outcome.next.inj h
      unfold takePendingReset
      split
      · exact creepIdle_kept
      · exact hk
    case storeLoadEnd =>
      obtain rfl := Host.Outcome.next.inj h
      rcases loadEnded_cases s with e | ⟨-, -, -, ⟨b, i, -, hb, -⟩ | hb⟩
      · exact congrArg State.cm e ▸ hk
      · exact hb.creep ▸ creepStart_kept b
      · exact (hb .creep (by simp) : _ = s.cm) ▸ hk
    case activate p =>
      obtain rfl := Host.Outcome.next.inj h
      rcases activate_cases p s with ha | ⟨-, u, b, hu, -, -, e⟩
      · exact (ha.reaches .creep (by simp) : _ = s.cm) ▸ hk
      · rw [e, (activateBank_activated p b u).runs.creep]
        exact creepStart_kept b
    case refusedCount =>
      obtain rfl := Host.Outcome.next.inj h
      unfold takeRefused
      split
      · exact setChannel_kept hk _ (hk.channel _)
      · exact hk
    case creepPublication =>
      obtain rfl := Host.Outcome.next.inj h
      unfold takeCreepSet
      split
      · exact takeWheelSet_kept _ _ hk
      · exact hk
    case evaluation =>
      obtain rfl := Host.Outcome.next.inj h
      unfold evaluationExpired
      split
      case h_1 a ha ht => exact ⟨(evaluate_kept a.bank hk).accumulator, (evaluate_kept a.bank hk).pulses⟩
      case h_2 => exact hk
    case stationaryTimerExpiry =>
      obtain rfl := Host.Outcome.next.inj h
      unfold stationaryExpired
      split
      · dsimp only
        split <;> exact ⟨hk.accumulator, hk.pulses⟩
      · exact hk
    case stateReport =>
      obtain rfl := Host.Outcome.next.inj h
      unfold takeStateReport
      split
      · exact hk
      · exact ⟨Nat.zero_le _, hk.pulses⟩
    all_goals simp_all [reach]

end

/-! ## The counts of the Transmit Scheduler -/

/-- The scheduler's counts, as `CountersKept` has them. -/
structure Scheduler.Kept (x : Scheduler) : Prop where
  owed : x.owed ≤ 255
  demandAlive : x.nextDemand < 15
  statusAlive : x.nextStatus < 15

/-- The counts are left. -/
structure CountsLeft (s t : State) : Prop where
  owed : t.tx.owed = s.tx.owed
  demandAlive : t.tx.nextDemand = s.tx.nextDemand
  statusAlive : t.tx.nextStatus = s.tx.nextStatus

section
variable {s t u : State}

theorem CountsLeft.kept (h : CountsLeft s t) (k : s.tx.Kept) : t.tx.Kept :=
  ⟨h.owed ▸ k.owed, h.demandAlive ▸ k.demandAlive, h.statusAlive ▸ k.statusAlive⟩

theorem CountsLeft.of_tx (h : t.tx = s.tx) : CountsLeft s t := ⟨by rw [h], by rw [h], by rw [h]⟩

theorem CountsLeft.of_reaches {r : List Part} (h : Reaches r s t) (hr : Part.scheduler ∉ r) : CountsLeft s t :=
  .of_tx (h .scheduler hr)

theorem CountsLeft.trans (h : CountsLeft s u) (k : CountsLeft u t) : CountsLeft s t :=
  ⟨k.owed.trans h.owed, k.demandAlive.trans h.demandAlive, k.statusAlive.trans h.statusAlive⟩

theorem CountsLeft.andThen (h : CountsLeft s u) (k : Reaches [] u t) : CountsLeft s t := h.trans (.of_reaches k (by simp))

theorem CountsLeft.ite {c : Prop} [Decidable c] (h : CountsLeft s t) (k : CountsLeft s u) :
    CountsLeft s (if c then t else u) := by
  split
  · exact h
  · exact k

theorem trySend_counts (p : Port) (s : State) : CountsLeft s (trySend p s) := by
  rw [(trySend_kept p s).frame]
  exact ⟨rfl, rfl, rfl⟩

theorem offer_counts (p : Port) (e : Entry) (s : State) : CountsLeft s (offer p e s).2 := by
  rw [offer_frame]
  exact ⟨rfl, rfl, rfl⟩

theorem watermarks_counts (n : Nat) (s : State) : CountsLeft s (watermarks n s) := by
  rw [watermarks_frame]
  exact ⟨rfl, rfl, rfl⟩

theorem setQueue_counts (p : Port) (q : TxQueue) (s : State) : CountsLeft s (setQueue p q s) := ⟨rfl, rfl, rfl⟩

theorem runDemandPeriod_txKept (h : s.tx.Kept) : (runDemandPeriod s).tx.Kept := by
  have owed : (oweDemand s).tx.Kept := by
    refine ⟨?_, h.demandAlive, h.statusAlive⟩
    unfold oweDemand
    dsimp only [State.setTx]
    split
    · exact satAdd_le _ _ _
    · exact h.owed
  have made : (generateDemand s).tx.Kept := ((watermarks_counts s.tx.owed (oweDemand s)).trans (offer_counts _ _ _)).kept owed
  exact ⟨made.owed, made.demandAlive, made.statusAlive⟩

theorem withStart_txKept (before : HoldState) (h : s.tx.Kept) : (withStart before s).tx.Kept := by
  unfold withStart
  split
  · exact runDemandPeriod_txKept h
  · exact h

theorem holdEvent_txKept {f : Bank → State → State} (hf : ∀ b, (f b s).tx = s.tx) (h : s.tx.Kept) :
    (holdEvent f s).tx.Kept := by
  unfold holdEvent
  split
  · exact withStart_txKept _ (by rw [hf]; exact h)
  · exact h

theorem entrySucceeded_txKept (e : Entry) (h : s.tx.Kept) : (entrySucceeded e s).tx.Kept := by
  unfold entrySucceeded
  split
  · unfold demandSucceeded
    split
    · exact h
    · exact ⟨Nat.zero_le _, Nat.mod_lt _ (by decide), h.statusAlive⟩
  · unfold statusSucceeded
    dsimp only
    split
    · exact h
    · exact ⟨h.owed, h.demandAlive, Nat.mod_lt _ (by decide)⟩
  · exact h
  · exact (CountsLeft.of_reaches (noteResetOut_reaches s e) (by simp)).kept h

theorem transmissionSucceeded_txKept (p : Port) (h : s.tx.Kept) : (transmissionSucceeded p s).tx.Kept := by
  unfold transmissionSucceeded
  split
  · exact h
  case h_2 e he =>
    have left := entrySucceeded_txKept e ((setQueue_counts p { queueOf s p with sending := none } s).kept h)
    exact (trySend_counts p _).kept left

theorem entryFailed_counts (p : Port) (e : Entry) (s : State) : CountsLeft s (entryFailed p e s) := by
  unfold entryFailed
  refine CountsLeft.trans ?_ (.of_reaches (noteResetOut_reaches _ e) (by simp))
  split <;> exact ⟨rfl, rfl, rfl⟩

theorem flushQueue_counts (p : Port) (s : State) : CountsLeft s (flushQueue p s) :=
  ((setQueue_counts p _ s).andThen (countTimes_reaches _ _ _)).andThen (.foldl (fun s e => noteResetOut_reaches s e) _ _)

theorem enterBusOff_counts (p : Port) (s : State) : CountsLeft s (enterBusOff p s) :=
  ((CountsLeft.of_reaches (setLink_reaches s p _) (by simp)).andThen (report_reaches _ _ _ _)).trans (flushQueue_counts p _)

theorem transmissionFailed_counts (p : Port) (s : State) : CountsLeft s (transmissionFailed p s) := by
  unfold transmissionFailed
  split
  · exact .of_tx rfl
  · exact (((entryFailed_counts p _ s).andThen (count_reaches _ _)).andThen (setLink_reaches _ _ _)).trans
      (.ite (enterBusOff_counts p _) (trySend_counts p _))

theorem takeOffer_counts (p : Port) (cls : TxClass) (s : State) : CountsLeft s (takeOffer p cls s) := by
  unfold takeOffer
  split
  · exact .of_tx rfl
  · refine .trans (.of_reaches (setMail_reaches s _ (by rfl) (by rfl)) (by simp))
      (.ite (.of_reaches (count_reaches _ _) (by simp)) ?_)
    exact (offer_counts p _ _).andThen (.ite (count_reaches _ _) (.refl _ _))

theorem activateScheduler_txKept (s : State) : (activateScheduler s).tx.Kept :=
  (trySend_counts .b _).kept ⟨Nat.zero_le _, Nat.zero_lt_succ _, Nat.zero_lt_succ _⟩

theorem statusPeriodExpired_counts (s : State) : CountsLeft s (statusPeriodExpired s) := by
  have timed : ∀ (u : State) (x : Timer), CountsLeft u (u.setTx { u.tx with statusTimer := x }) := fun _ _ =>
    ⟨rfl, rfl, rfl⟩
  unfold statusPeriodExpired
  split
  · exact (CountsLeft.ite (.of_tx rfl) (offer_counts .c _ s)).trans (timed _ _)
  · exact .of_tx rfl

theorem reset_txKept : Scheduler.reset.Kept := ⟨Nat.zero_le _, by decide, by decide⟩

theorem exec_txKept {c : Instr} (hk : s.tx.Kept) (h : exec c s = .next t) : t.tx.Kept := by
  cases hf : holdAct c with
  | some f =>
    rw [exec_holdAct s hf] at h
    obtain rfl := Host.Outcome.next.inj h
    exact holdEvent_txKept (fun b => (holdAct_step hf b s).reaches .scheduler (by simp)) hk
  | none =>
    by_cases hr : Part.scheduler ∈ reach c
    case neg => exact (CountsLeft.of_reaches (exec_reaches h) hr).kept hk
    case pos =>
      cases c
      case powerOnReset pins => obtain rfl := Host.Outcome.next.inj h; exact reset_txKept
      case pendingResetTaken pins =>
        obtain rfl := Host.Outcome.next.inj h
        unfold takePendingReset
        split
        · exact reset_txKept
        · exact hk
      case storeLoadEnd =>
        obtain rfl := Host.Outcome.next.inj h
        show (loadEnded s).tx.Kept
        rcases loadEnded_cases s with e | ⟨-, -, ⟨x, e⟩, -⟩
        · rw [e]
          exact hk
        · rw [e]
          exact ⟨hk.owed, hk.demandAlive, hk.statusAlive⟩
      case activate p =>
        obtain rfl := Host.Outcome.next.inj h
        rcases activate_cases p s with ha | ⟨-, u, b, hu, -, -, e⟩
        · exact (CountsLeft.of_reaches ha.reaches (by simp)).kept hk
        · rw [e]
          exact activateScheduler_txKept _
      case calcResult =>
        obtain rfl := Host.Outcome.next.inj h
        exact holdEvent_txKept (fun b => takeResult_reaches s b .scheduler (by simp)) hk
      case queueOffer p cls => obtain rfl := Host.Outcome.next.inj h; exact (takeOffer_counts p cls s).kept hk
      case transmissionSuccess p => obtain rfl := Host.Outcome.next.inj h; exact transmissionSucceeded_txKept p hk
      case transmissionError p => obtain rfl := Host.Outcome.next.inj h; exact (transmissionFailed_counts p s).kept hk
      case recoveryExpiry p =>
        obtain rfl := Host.Outcome.next.inj h
        unfold recovered
        split
        · exact (trySend_counts p _).kept hk
        · exact hk
      case demandPeriodExpiry =>
        obtain rfl := Host.Outcome.next.inj h
        unfold demandPeriodExpired
        split
        · exact runDemandPeriod_txKept hk
        · exact hk
      case statusPeriodExpiry =>
        obtain rfl := Host.Outcome.next.inj h
        exact (statusPeriodExpired_counts s).kept hk
      all_goals simp_all [reach, holdAct]

end

theorem countersKept_iff {s : State} : CountersKept s ↔ s.fc.Kept ∧ s.tx.Kept ∧ s.cm.Kept := by
  constructor
  · intro h
    refine ⟨⟨fun p => ?_, h.monitors, h.repeats⟩, ⟨h.owed, h.demandAlive, h.statusAlive⟩, h.accumulator, h.pulses⟩
    cases p
    · exact h.portC
    · exact h.portB
  · rintro ⟨hf, ht, hc⟩
    exact ⟨hf.ports .c, hf.ports .b, hf.monitors, hf.repeats, ht.owed, ht.demandAlive, ht.statusAlive, hc.accumulator,
      hc.pulses⟩

/-- Settles O57: every count saturates at its width or counts modulo 15, and every other command clears it or leaves it. -/
theorem stepKeepsTheCountersInRange : Obligations.StepKeepsTheCountersInRange := by
  intro s t hk h
  rw [countersKept_iff] at hk ⊢
  obtain ⟨hf, ht, hc⟩ := hk
  rcases step_cases h with rfl | ⟨c, rest, -, he⟩
  · exact ⟨hf, ⟨ht.owed, ht.demandAlive, ht.statusAlive⟩, hc.accumulator, hc.pulses⟩
  · exact ⟨exec_fcKept (s := s.setPending rest) hf he, exec_txKept (s := s.setPending rest) ht he,
      exec_cmKept (s := s.setPending rest) hc he⟩

end Sys2Proof.Machine
end

