-- ==== Sys2Proof/Proofs/PressureInvariants.lean ====
section
/-! PROOF. Every step keeps the pressures in range (O55). -/

namespace Sys2Proof.Machine

/-! ## A field written keeps the ranges of R25 -/

/-- A write keeps a property of the field's owner. -/
def FieldSpec.Keeps {α : Type} (P : α → Prop) (f : FieldSpec α) : Prop := ∀ x v y, P x → f.put x v = some y → P y

section
variable {α : Type} {P : α → Prop}

theorem keeps_nat {lo hi : Nat} {get : α → Nat} {set : α → Nat → α} (h : ∀ x n, lo ≤ n → n ≤ hi → P x → P (set x n)) :
    FieldSpec.Keeps P (natField lo hi get set) := by
  intro x v y hx hp
  simp only [natField, Option.ite_none_right_eq_some, Option.some.injEq] at hp
  obtain ⟨⟨hl, hh⟩, rfl⟩ := hp
  exact h x _ hl hh hx

theorem keeps_bool {get : α → Bool} {set : α → Bool → α} (h : ∀ x v, P x → P (set x v)) :
    FieldSpec.Keeps P (boolField get set) := keeps_nat fun x _ _ _ hx => h x _ hx

theorem keeps_ident {get : α → Ident} {set : α → Ident → α} (h : ∀ x v, P x → P (set x v)) :
    FieldSpec.Keeps P (identField get set) := by
  intro x v y hx hp
  simp only [identField, Option.ite_none_right_eq_some, Option.some.injEq] at hp
  obtain ⟨-, rfl⟩ := hp
  exact h x _ hx

theorem keeps_format {get : α → Ident} {set : α → Ident → α} (h : ∀ x v, P x → P (set x v)) :
    FieldSpec.Keeps P (formatField get set) := by
  intro x v y hx hp
  simp only [formatField, Option.ite_none_right_eq_some, Option.some.injEq] at hp
  obtain ⟨-, -, rfl⟩ := hp
  exact h x _ hx

end

/-- The pressure parameters lie in the ranges of R25 (`Bank.pressuresOk`). -/
def Params.PressuresOk (p : Params) : Prop := p.pressureFloor ≤ 300 ∧ 300 ≤ p.maxPressureA ∧ 300 ≤ p.maxPressureB

theorem paramField_keeps {n : Nat} {f : FieldSpec Params} (h : paramField n = some f) :
    FieldSpec.Keeps Params.PressuresOk f := by
  have left : ∀ {lo hi : Nat} {get : Params → Nat} {set : Params → Nat → Params},
      (∀ x v, Params.PressuresOk x → Params.PressuresOk (set x v)) →
      FieldSpec.Keeps Params.PressuresOk (natField lo hi get set) := fun h => keeps_nat fun x v _ _ => h x v
  unfold paramField at h
  split at h <;> cases h
  case h_11 => exact keeps_nat fun _ _ _ hh hx => ⟨hh, hx.2⟩
  case h_12 => exact keeps_nat fun _ _ hl _ hx => ⟨hx.1, hl, hx.2.2⟩
  case h_13 => exact keeps_nat fun _ _ hl _ hx => ⟨hx.1, hx.2.1, hl⟩
  case h_1 | h_24 | h_25 => exact keeps_bool fun _ _ hx => hx
  case h_26 | h_28 => exact keeps_ident fun _ _ hx => hx
  case h_27 | h_29 => exact keeps_format fun _ _ hx => hx
  all_goals exact left fun _ _ hx => hx

theorem listField_keeps {α : Type} {fs : Option (FieldSpec α)} {get : Bank → List α} {set : Bank → List α → Bank} {d : α}
    {i : Nat} {spec : FieldSpec Bank} (h : listField fs get set d i = some spec)
    (hs : ∀ b l, (set b l).params = b.params) : spec.Keeps Bank.pressuresOk := by
  intro b v b' hb hp
  obtain ⟨f, x, -, -, rfl⟩ := put_listField h hp
  unfold Bank.pressuresOk
  rw [hs]
  exact hb

theorem within_keeps {α : Type} {P : α → Prop} {f : FieldSpec α} {get : Bank → α} {set : Bank → α → Bank}
    (hf : f.Keeps P) (hget : ∀ b, b.pressuresOk → P (get b)) (hset : ∀ b x, b.pressuresOk → P x → (set b x).pressuresOk) :
    (f.within get set).Keeps Bank.pressuresOk := by
  intro b v b' hb hp
  obtain ⟨x, hx, rfl⟩ := Option.map_eq_some_iff.mp hp
  exact hset b x hb (hf _ _ _ (hget b hb) hx)

/-- A field outside the pressure parameters. -/
theorem keeps_anything {α : Type} (f : FieldSpec α) : f.Keeps fun _ => True := fun _ _ _ _ _ => trivial

theorem bankField_keeps {table index field : Nat} {spec : FieldSpec Bank} (h : bankField table index field = some spec) :
    spec.Keeps Bank.pressuresOk := by
  unfold bankField at h
  split at h
  case h_6 =>
    obtain ⟨f, hf, rfl⟩ := Option.map_eq_some_iff.mp h
    exact within_keeps (paramField_keeps hf) (fun _ hb => hb) fun _ _ _ hx => hx
  case h_7 | h_8 =>
    obtain ⟨f, -, rfl⟩ := Option.map_eq_some_iff.mp h
    exact within_keeps (keeps_anything f) (fun _ _ => trivial) fun _ _ hb _ => hb
  case h_10 => cases h
  case h_4 =>
    split at h
    · cases h
    · exact listField_keeps h fun _ _ => rfl
  case h_5 =>
    split at h
    · exact listField_keeps h fun _ _ => rfl
    · cases h
  case h_9 =>
    split at h
    · split at h
      · exact listField_keeps h fun _ _ => rfl
      · cases h
    · split at h
      · exact listField_keeps h fun _ _ => rfl
      · cases h
  all_goals exact listField_keeps h fun _ _ => rfl

theorem writeBank_keeps {b b' : Bank} {table index field : Nat} {v : Word32} (hb : b.pressuresOk)
    (h : writeBank b table index field v = .ok b') : b'.pressuresOk := by
  unfold writeBank at h
  split at h
  · cases h
  · split at h
    · cases h
    · split at h
      · cases h
      case h_2 spec hs =>
        split at h
        · cases h
        case h_2 x hx =>
          obtain rfl := Except.ok.inj h
          exact bankField_keeps hs b v _ hb hx

/-! ## Results (R36, R38) -/

theorem clampPressure_le {floor top : Nat} (v : Nat) (h : floor ≤ top) : clampPressure floor top v ≤ top := by
  unfold clampPressure
  split
  · exact le_refl _
  case isFalse hv => exact Nat.max_le.mpr ⟨h, Nat.le_of_not_lt hv⟩

theorem resultOf_within {b : Bank} (h : b.pressuresOk) (img : CalcImage) (capacity : Bool) :
    (resultOf b img capacity).pressure.within b.maxPressure := by
  obtain ⟨hf, ha, hb⟩ := h
  exact ⟨clampPressure_le _ (hf.trans ha), clampPressure_le _ (hf.trans hb)⟩

section
variable {s t : State} {c : Instr}

theorem compute_results (b : Bank) (k : Calculator) (img : CalcImage) (s : State) :
    (compute b k img s).mail.results = s.mail.results ++ [resultOf b img (excess b img)] := by
  have losses : ∀ (l : List Axle) (u : State), (reportLosses l u).mail.results = u.mail.results := fun l u =>
    reportLosses_reaches u l .results (by simp)
  unfold compute
  dsimp only
  split <;> split <;> split <;> simp [losses, raise, report]

/-- The results under way after a command that starts no bank: taken from, or with one more of the active bank. -/
theorem exec_results (hc : restarts c = false) (h : exec c s = .next t) :
    (∀ r ∈ t.mail.results, r ∈ s.mail.results) ∨
      ∃ a img capacity, s.active = some a ∧ t.mail.results = s.mail.results ++ [resultOf a.bank img capacity] := by
  by_cases hr : Part.results ∈ reach c
  case neg =>
    have e : t.mail.results = s.mail.results := exec_reaches h .results hr
    exact .inl fun r hr => e ▸ hr
  case pos =>
    cases c
    case calcPublication =>
      obtain rfl := Host.Outcome.next.inj h
      unfold takeCalcSet
      split
      case h_1 items rest a k hm ha hk => exact .inr ⟨a, _, _, ha, compute_results _ _ _ _⟩
      case h_2 => exact .inl fun _ => id
    case calcResult =>
      obtain rfl := Host.Outcome.next.inj h
      refine .inl ?_
      show ∀ r ∈ (holdEvent takeResult s).mail.results, r ∈ s.mail.results
      unfold holdEvent
      split
      case h_1 a ha =>
        have started : (withStart s.hc.state (takeResult a.bank s)).mail.results = (takeResult a.bank s).mail.results :=
          withStart_reaches _ _ .results (by simp)
        rw [started]
        cases hm : s.mail.results with
        | nil => rw [takeResult, hm]; simp [hm]
        | cons r rest =>
          have taken : (takeResult a.bank s).mail.results = rest := (takeResult_step s a.bank hm).reaches .results (by simp)
          rw [taken]
          exact fun x hx => List.mem_cons_of_mem _ hx
      case h_2 => exact fun _ => id
    all_goals simp_all [reach, restarts]

/-! ## The store and the staging bank -/

theorem writeSpare_pressuresOk {x : Store} {y : StoreArea} (h1 : x.first.pressuresOk) (h2 : x.other.pressuresOk)
    (hy : y.pressuresOk) : (x.writeSpare y).first.pressuresOk ∧ (x.writeSpare y).other.pressuresOk := by
  unfold Store.writeSpare
  split
  · exact ⟨hy, h2⟩
  · exact ⟨h1, hy⟩

theorem storeWritten_pressuresOk (ok : Bool) (h : PressuresKept s) :
    (storeWritten ok s).store.first.pressuresOk ∧ (storeWritten ok s).store.other.pressuresOk := by
  unfold storeWritten
  split
  case h_1 p a hp ha =>
    cases ok
    · exact writeSpare_pressuresOk h.first h.other trivial
    · exact writeSpare_pressuresOk (y := .holds a.bank true) h.first h.other (h.ranges a ha)
  case h_2 => exact ⟨h.first, h.other⟩

theorem default_pressuresOk : Bank.default.pressuresOk := ⟨by decide, by decide, by decide⟩

theorem stagingSource_pressuresOk (h : PressuresKept s) : (stagingSource s).pressuresOk := by
  unfold stagingSource
  split
  case h_1 a ha => exact h.ranges a ha
  case h_2 => exact default_pressuresOk

theorem ServiceMove.pressuresOk (h : PressuresKept s) (m : ServiceMove s t) :
    ∀ b, t.sr.staging = some b → b.pressuresOk := by
  cases m with
  | same mode staging idle => rw [staging]; exact h.staging
  | left after =>
    have staging : t.sr.staging = none := congrArg (·.2.1) after
    simp [staging]
  | entered resting hold mode staging =>
    intro b hb
    obtain rfl := Option.some.inj (staging.symm.trans hb)
    exact stagingSource_pressuresOk h
  | written x x' table index field v before mode bank wrote staging =>
    intro b hb
    obtain rfl := Option.some.inj (staging.symm.trans hb)
    exact writeBank_keeps (h.staging x bank) wrote

/-! ## The step -/

/-- What `PressuresKept` says under the active bank, of the record and the results under way. -/
theorem pressuresKept_of {a : ActiveBank} (hs : ∀ b, t.sr.staging = some b → b.pressuresOk)
    (h1 : t.store.first.pressuresOk) (h2 : t.store.other.pressuresOk) (hl : t.loading = false) (ha : t.active = some a)
    (hb : a.bank.pressuresOk) (hw : t.hc.Within a.bank.maxPressure)
    (hr : ∀ r ∈ t.mail.results, r.pressure.within a.bank.maxPressure) : PressuresKept t := by
  have only : ∀ x, t.active = some x → x = a := fun x hx => Option.some.inj (hx.symm.trans ha)
  refine ⟨hs, h1, h2, by simp [hl], by simp [ha], fun x hx => ?_, fun x hx => ?_, fun x hx => ?_, fun x r hx => ?_,
    fun x hx => ?_⟩
  all_goals obtain rfl := only x hx
  · exact hb
  · exact hw.demand
  · exact hw.result
  · exact hw.ramp r
  · exact hr

/-- And with no active bank. -/
theorem pressuresKept_idle (hs : ∀ b, t.sr.staging = some b → b.pressuresOk) (h1 : t.store.first.pressuresOk)
    (h2 : t.store.other.pressuresOk) (ha : t.active = none) (hr : t.mail.results = []) : PressuresKept t :=
  ⟨hs, h1, h2, fun _ => ha, fun _ => hr, by simp [ha], by simp [ha], by simp [ha], by simp [ha], by simp [ha]⟩

theorem PressuresKept.within (h : PressuresKept s) {a : ActiveBank} (ha : s.active = some a) :
    s.hc.Within a.bank.maxPressure := ⟨h.demand a ha, h.result a ha, fun r => h.ramp a r ha⟩

theorem start_within {b : Bank} (hb : b.pressuresOk) :
    (HoldController.start b (Calculator.start b).result).Within b.maxPressure :=
  ⟨Circuits.zero_within _, resultOf_within hb _ _, fun _ h => nomatch h⟩

theorem BankRuns.pressuresKept {b : Bank} (h : BankRuns b t) (hs : ∀ b, t.sr.staging = some b → b.pressuresOk)
    (h1 : t.store.first.pressuresOk) (h2 : t.store.other.pressuresOk) (hl : t.loading = false) (hb : b.pressuresOk)
    (hr : t.mail.results = []) : PressuresKept t :=
  pressuresKept_of hs h1 h2 hl h.active hb (by rw [h.hold]; exact start_within hb) (by simp [hr])

theorem Asked.pressuresKept (h : Asked s t) (hk : PressuresKept s) : PressuresKept t := by
  have hst : t.store = s.store := h.reaches .store (by simp)
  have hl : t.loading = s.loading := h.reaches .loading (by simp)
  have ha : t.active = s.active := h.reaches .active (by simp)
  have hc : t.hc = s.hc := h.reaches .hold (by simp)
  have hr : t.mail.results = s.mail.results := h.reaches .results (by simp)
  refine ⟨?_, ?_, ?_, ?_, ?_, ?_, ?_, ?_, ?_, ?_⟩
  · rw [h.staging]; exact hk.staging
  · rw [hst]; exact hk.first
  · rw [hst]; exact hk.other
  · rw [hl, ha]; exact hk.loading
  · rw [ha, hr]; exact hk.unpublished
  · rw [ha]; exact hk.ranges
  · rw [ha, hc]; exact hk.demand
  · rw [ha, hc]; exact hk.result
  · rw [ha, hc]; exact hk.ramp
  · rw [ha, hr]; exact hk.results

theorem exec_keepsPressures (hc : restarts c = false) (hk : PressuresKept s) (h : exec c s = .next t) :
    PressuresKept t := by
  have left : Reaches (reach c) s t := exec_reaches h
  have hl : t.loading = s.loading := exec_loads hc h
  have ha : t.active = s.active := left .active (by cases c <;> simp_all [reach, restarts])
  have hs := (exec_serviceMove hc h).pressuresOk hk
  have store : t.store.first.pressuresOk ∧ t.store.other.pressuresOk := by
    by_cases hr : Part.store ∈ reach c
    case neg => exact (left .store hr : t.store = s.store) ▸ ⟨hk.first, hk.other⟩
    case pos =>
      cases c
      case storeWriteComplete ok => obtain rfl := Host.Outcome.next.inj h; exact storeWritten_pressuresOk ok hk
      all_goals simp_all [reach, restarts]
  cases hs' : s.active with
  | none =>
    refine pressuresKept_idle hs store.1 store.2 (ha.trans hs') ?_
    rcases exec_results hc h with hr | ⟨a, -, -, hr, -⟩
    · exact List.eq_nil_iff_forall_not_mem.mpr fun r h => by simpa [hk.unpublished hs'] using hr r h
    · rw [hs'] at hr
      cases hr
  | some a =>
    have ranges := hk.ranges a hs'
    refine pressuresKept_of hs store.1 store.2 ?_ (ha.trans hs') ranges
      ((exec_holdKept hc h).within a hs' (hk.results a hs') (hk.within hs')) ?_
    · rw [hl]
      exact Bool.eq_false_iff.mpr fun e => by simp [hk.loading e] at hs'
    · rcases exec_results hc h with hr | ⟨a', img, cap, hr, e⟩
      · exact fun r h => hk.results a hs' r (hr r h)
      · obtain rfl := Option.some.inj (hs'.symm.trans hr)
        rw [e]
        intro r h
        rcases List.mem_append.mp h with h | h
        · exact hk.results a hs' r h
        · rw [List.mem_singleton.mp h]
          exact resultOf_within ranges _ _

theorem storeAfterReset_pressuresOk (h : PressuresKept s) :
    (storeAfterReset s).first.pressuresOk ∧ (storeAfterReset s).other.pressuresOk := by
  unfold storeAfterReset
  split
  · exact writeSpare_pressuresOk h.first h.other trivial
  · exact ⟨h.first, h.other⟩

theorem current_pressuresOk (h : PressuresKept s) {b : Bank} {i : Bool} (hb : s.store.current = .holds b i) :
    b.pressuresOk := by
  unfold Store.current at hb
  split at hb
  · exact (hb ▸ h.other : StoreArea.pressuresOk (.holds b i))
  · exact (hb ▸ h.first : StoreArea.pressuresOk (.holds b i))

theorem restart_keepsPressures (hc : restarts c = true) (hk : PressuresKept s) (hm : ServiceModeKept s)
    (h : exec c s = .next t) : PressuresKept t := by
  have stored := storeAfterReset_pressuresOk hk
  cases c
  case powerOnReset pins =>
    obtain rfl := Host.Outcome.next.inj h
    exact pressuresKept_idle (fun _ h => nomatch h) stored.1 stored.2 rfl rfl
  case pendingResetTaken pins =>
    obtain rfl := Host.Outcome.next.inj h
    unfold takePendingReset
    split
    · exact pressuresKept_idle (fun _ h => nomatch h) stored.1 stored.2 rfl rfl
    · exact hk
  case storeLoadEnd =>
    obtain rfl := Host.Outcome.next.inj h
    show PressuresKept (loadEnded s)
    rcases loadEnded_cases s with e | ⟨hl, hn, -, ⟨b, i, hb, runs, hr⟩ | hr⟩
    · rw [e]
      exact hk
    all_goals
      have results : (loadEnded s).mail.results = [] := Eq.trans (hr .results (by simp)) (hk.unpublished (hk.loading hl))
      have hst : (loadEnded s).store = s.store := hr .store (by simp)
      have staging : (loadEnded s).sr.staging = s.sr.staging := congrArg (·.2.1) (hr .service (by simp))
    · exact runs.pressuresKept (by rw [staging]; exact hk.staging) (by rw [hst]; exact hk.first)
        (by rw [hst]; exact hk.other) hn (current_pressuresOk hk hb) results
    · exact pressuresKept_idle (by rw [staging]; exact hk.staging) (by rw [hst]; exact hk.first)
        (by rw [hst]; exact hk.other) ((hr.active (by simp)).trans (hk.loading hl)) results
  case activate p =>
    obtain rfl := Host.Outcome.next.inj h
    rcases activate_cases p s with ha | ⟨-, u, b, hu, mode, staging, e⟩
    · exact ha.pressuresKept hk
    · rw [e]
      have done := activateBank_activated p b u
      have hl : s.loading = false := Bool.eq_false_iff.mpr fun hl => by
        have off := (hm.loading hl).1
        rw [← hu.mode, mode] at off
        cases off
      have hst : (activateBank p b u).store = s.store := done.store.trans (hu.reaches .store (by simp))
      have none : (activateBank p b u).sr.staging = none := congrArg (·.2.1) done.service
      exact done.runs.pressuresKept (by simp [none]) (by rw [hst]; exact hk.first) (by rw [hst]; exact hk.other)
        ((done.loading.trans (hu.reaches .loading (by simp))).trans hl)
        (hk.staging b (hu.staging.symm.trans staging)) done.results
  all_goals cases hc

theorem tick_keepsPressures (hk : PressuresKept s) : PressuresKept (tick s) :=
  ⟨hk.staging, hk.first, hk.other, hk.loading, hk.unpublished, hk.ranges, hk.demand, hk.result, hk.ramp, hk.results⟩

end

/-- Settles O55: every pressure asked is the result's, a floor limited to the Maximum Pressure, or one that was in hand;
a result is clamped by R36, and a bank becomes active from the staging bank or the store alone. -/
theorem stepKeepsThePressuresInRange : Obligations.StepKeepsThePressuresInRange := by
  intro s t hk hm h
  rcases step_cases h with rfl | ⟨c, rest, -, he⟩
  · exact tick_keepsPressures hk
  · have kept : PressuresKept (s.setPending rest) :=
      ⟨hk.staging, hk.first, hk.other, hk.loading, hk.unpublished, hk.ranges, hk.demand, hk.result, hk.ramp, hk.results⟩
    cases hc : restarts c with
    | false => exact exec_keepsPressures hc kept he
    | true => exact restart_keepsPressures hc kept ⟨hm.states, hm.staging, hm.idle, hm.loading⟩ he

end Sys2Proof.Machine
end

