-- ==== Sys2Proof/Proofs/DemandRises.lean ====
section
/-! PROOF. While HOLDING goes on no step lowers the demand (O59): through an event that begins in HOLDING, every state
that can lead back to HOLDING keeps pressures at least those it began with. -/

namespace Sys2Proof.Machine

/-- The pressures `p` are kept as a lower bound: by the demand in HOLDING, by the ramp's start in RELEASING, which may
return to HOLDING (R102). INACTIVE and ARMED, which could begin a new hold, are not entered. -/
structure HoldController.AtLeast (p : Circuits) (h : HoldController) : Prop where
  holding : h.state = .holding → p.within h.demand.pressure
  releasing : h.state = .releasing → ∃ r, h.ramp = some r ∧ p.within r.start
  inactive : h.state ≠ .inactive
  armed : h.state ≠ .armed

theorem HoldController.AtLeast.of_holding {p : Circuits} {h : HoldController} (hs : h.state = .holding)
    (hp : p.within h.demand.pressure) : h.AtLeast p := ⟨fun _ => hp, by simp [hs], by simp [hs], by simp [hs]⟩

theorem HoldController.AtLeast.of_releasing {p : Circuits} {h : HoldController} {r : Ramp} (hs : h.state = .releasing)
    (hr : h.ramp = some r) (hp : p.within r.start) : h.AtLeast p :=
  ⟨by simp [hs], fun _ => ⟨r, hr, hp⟩, by simp [hs], by simp [hs]⟩

/-- An operation under a bank keeps every lower bound within the Maximum Pressure. -/
def Rises (b : Bank) (s t : State) : Prop := ∀ p : Circuits, p.within b.maxPressure → s.hc.AtLeast p → t.hc.AtLeast p

section
variable {b : Bank} {s t u : State}

theorem Rises.refl (b : Bank) (s : State) : Rises b s s := fun _ _ => id

theorem Rises.trans (h : Rises b s t) (k : Rises b t u) : Rises b s u := fun p hp hs => k p hp (h p hp hs)

theorem Rises.ite {c : Prop} [Decidable c] (h : c → Rises b s t) (k : ¬ c → Rises b s u) : Rises b s (if c then t else u) := by
  split
  · exact h ‹_›
  · exact k ‹_›

/-- What the bound reads is left. -/
theorem Rises.of_eq (hs : t.hc.state = s.hc.state) (hd : t.hc.demand = s.hc.demand) (hr : t.hc.ramp = s.hc.ramp) :
    Rises b s t := fun _ _ h => ⟨by rw [hs, hd]; exact h.holding, by rw [hs, hr]; exact h.releasing,
  by rw [hs]; exact h.inactive, by rw [hs]; exact h.armed⟩

theorem Rises.of_reaches {r : List Part} (h : Reaches r s t) (hr : Part.hold ∉ r) : Rises b s t := by
  have e : t.hc = s.hc := h .hold hr
  exact .of_eq (by rw [e]) (by rw [e]) (by rw [e])

/-- A state that does not lead back to HOLDING within an event. -/
theorem Rises.ends (h : t.hc.state = .handover ∨ t.hc.state = .secured ∨ t.hc.state = .parked) : Rises b s t := by
  intro p _ _
  rcases h with h | h | h <;> exact ⟨by simp [h], by simp [h], by simp [h], by simp [h]⟩

theorem Rises.never (h : s.hc.state = .inactive ∨ s.hc.state = .armed) : Rises b s t := fun _ _ k =>
  absurd h fun h => h.elim k.inactive k.armed

theorem Rises.onHold (b : Bank) (f : HoldController → HoldController) (s : State) (hs : (f s.hc).state = s.hc.state)
    (hd : (f s.hc).demand = s.hc.demand) (hr : (f s.hc).ramp = s.hc.ramp) : Rises b s (onHold f s) := .of_eq hs hd hr

theorem enterHandover_rises (held : Circuits) : Rises b s (enterHandover b held u) :=
  .ends (.inl (by rw [enterHandover_eq]; rfl))

theorem enterSecured_rises (c : Cause) : Rises b s (enterSecured b c u) := .ends (.inr (.inl (by rw [enterSecured_eq]; rfl)))

theorem handoverTest_rises (b : Bank) (s : State) : Rises b s (handoverTest b s) :=
  .ite (fun _ => enterHandover_rises _) fun _ => .refl _ _

theorem standTest_rises (b : Bank) (s : State) : Rises b s (standTest b s) := by
  unfold standTest
  split
  · exact .never (.inl ‹_›)
  · exact .never (.inr ‹_›)
  · exact .refl _ _

/-- In HOLDING a demand that has not fallen. -/
theorem Rises.up (hs : t.hc.state = s.hc.state) (hr : t.hc.ramp = s.hc.ramp)
    (hd : s.hc.demand.pressure.within t.hc.demand.pressure) : Rises b s t := fun _ _ h =>
  ⟨fun k => Circuits.within_trans (h.holding (hs ▸ k)) hd, by rw [hs, hr]; exact h.releasing,
    by rw [hs]; exact h.inactive, by rw [hs]; exact h.armed⟩

theorem removeClaims_rises (f : Claim → Bool) (s : State) : Rises b s (onHold (removeClaims b f) s) := by
  have e : (onHold (removeClaims b f) s).hc = _ := removeClaims_eq f s.hc
  refine .up (by rw [e]) (by rw [e]) ?_
  show s.hc.demand.pressure.within (removeClaims b f s.hc).demand.pressure
  unfold removeClaims
  dsimp only
  split
  · exact ratchet_rises b { s.hc with claims := s.hc.claims.map fun c => c.filter fun x => !f x }
  · exact Circuits.within_refl _

theorem put_ratchet_rises (i : Nat) (c : Claim) (s : State) :
    Rises b s (onHold (fun h => ratchet b (putClaim i c h)) s) :=
  .up rfl rfl (ratchet_rises b (putClaim i c s.hc))

/-- HOLDING entered at pressures no lower than a bound (R58). -/
theorem enterHolding_atLeast {p start : Circuits} {episode : Bool} (h : p.within start) (hp : p.within b.maxPressure) :
    (enterHolding b start episode u).hc.AtLeast p := by
  have held : (heldFrom b start episode u).hc.AtLeast p := .of_holding rfl
    (Circuits.within_trans h (Circuits.within_trans (Circuits.within_sup_left _ _) (Circuits.within_sup_left _ _)))
  exact handoverTest_rises b _ p hp held

theorem requestInHolding_rises (r : ClaimRequest) (s : State) : Rises b s (requestInHolding b r s).2 := by
  unfold requestInHolding
  split
  · exact put_ratchet_rises _ _ _
  · split
    · dsimp only
      split
      · exact put_ratchet_rises _ _ _
      · exact .of_eq rfl rfl rfl
    · exact .refl _ _

theorem requestClaim_rises (b : Bank) (r : ClaimRequest) (s : State) : Rises b s (requestClaim b r s).2 := by
  unfold requestClaim
  split
  case h_3 hs => exact .never (.inl hs)
  case h_4 hs => exact .never (.inr hs)
  case h_5 => exact requestInHolding_rises r s
  case h_6 hs =>
    intro p hp h
    obtain ⟨ramp, hr, hw⟩ := h.releasing hs
    exact enterHolding_atLeast (by rw [hr]; exact hw) hp
  all_goals exact .refl _ _

theorem afterRemoval_rises (b : Bank) (s : State) : Rises b s (afterRemoval b s) :=
  .ite (fun _ => .ite (fun _ => .ite (fun _ => enterHandover_rises _) fun _ => .of_eq rfl rfl rfl)
    fun _ => handoverTest_rises b s) fun _ => .refl _ _

theorem setLatch_rises (src : Source) (l : Latch) (s : State) : Rises b s (onHold (fun h => h.setLatch src l) s) := by
  cases src <;> exact .of_eq rfl rfl rfl

theorem signalRise_rises (b : Bank) (src : Source) (s : State) : Rises b s (signalRise b src s) := by
  have asked := requestClaim_rises b ⟨src, 0, none, none, none⟩ s
  unfold signalRise
  exact .ite (fun _ => asked.trans (setLatch_rises _ _ _))
    fun _ => (asked.trans (setLatch_rises _ _ _)).trans (.of_reaches (raise_reaches _ _) (by simp))

theorem signalFall_rises (b : Bank) (src : Source) (s : State) : Rises b s (signalFall b src s) :=
  .ite (fun _ => ((setLatch_rises src .idle s).trans (removeClaims_rises _ _)).trans (afterRemoval_rises b _))
    fun _ => setLatch_rises src .idle s

theorem takeLatches_rises (b : Bank) (items : List PubItem) (s : State) : Rises b s (takeLatches b items s) := by
  have latch : ∀ src u, Rises b u (latchStep b items src u) := fun src u =>
    .ite (fun _ => .ite (fun _ => .ite (fun _ => signalRise_rises b src u) fun _ => .refl _ _)
      fun _ => .ite (fun _ => signalFall_rises b src u) fun _ => .refl _ _) fun _ => .refl _ _
  exact ((latch _ _).trans (latch _ _)).trans (latch _ _)

/-- A re-applied hold is no lower than the ramp's start (R103). -/
theorem le_boosted (n boost : Nat) : n ≤ ceilDiv (n * (100 + boost)) 100 := by
  have h := le_ceilDiv_mul (a := n * (100 + boost)) (b := 100) (by decide)
  have grows : n * 100 ≤ n * (100 + boost) := Nat.mul_le_mul_left n (Nat.le_add_right _ _)
  omega

theorem takeRollback_rises {ramp : Ramp} (hr : s.hc.ramp = some ramp) (hs : s.hc.state = .releasing) :
    Rises b s (takeRollback b ramp s) := by
  unfold takeRollback
  refine .ite (fun _ => ?_) fun _ => enterHandover_rises _
  intro p hp h
  obtain ⟨r, e, ha, hb⟩ := h.releasing hs
  obtain rfl := Option.some.inj (hr.symm.trans e)
  exact enterHolding_atLeast ⟨le_min (ha.trans (le_boosted _ _)) hp.1, le_min (hb.trans (le_boosted _ _)) hp.2⟩ hp

theorem rollbackTest_rises (hs : s.hc.state = .releasing) : Rises b s (rollbackTest b s) := by
  unfold rollbackTest
  split
  · exact .ite (fun _ => takeRollback_rises ‹_› hs) fun _ => .refl _ _
  · exact .refl _ _

theorem enterReleasing_rises (hs : s.hc.state = .holding) : Rises b s (enterReleasing b s) := by
  have released : Rises b s (releasedFrom b s) := fun p _ h => .of_releasing (r := rampOf b s.hc) rfl rfl (h.holding hs)
  exact released.trans (rollbackTest_rises rfl)

theorem takeDriveOff_rises (hs : s.hc.state = .holding) : Rises b s (takeDriveOff b s) := by
  have removed := removeClaims_rises (b := b) (fun c => c.source == .driver || c.source == .monitor) s
  exact .ite (fun _ => removed.trans (enterReleasing_rises ((removeClaims_changed _).state.trans hs)))
    fun _ => (removed.trans (.of_reaches (raise_reaches _ _) (by simp))).trans (handoverTest_rises b _)

theorem evaluateCriterion_rises (b : Bank) (s : State) : Rises b s (evaluateCriterion b s) := by
  have memory : ∀ m, Rises b s (onHold (fun h => { h with metMemory := m }) s) := fun m => .of_eq rfl rfl rfl
  exact .ite (fun h => .ite (fun _ => .ite (fun _ => .refl _ _)
    fun _ => (memory true).trans (takeDriveOff_rises h.1)) fun _ => memory false) fun _ => .refl _ _

/-! ## The events, taken in HOLDING -/

theorem takeHcItems_rises (set : HcSet) (hs : s.hc.state = .holding) : Rises b s (takeHcItems b set s) := by
  have taken : Rises b s (takeLatches b set.items (onHold (takeImage set) s)) :=
    (Rises.onHold b (takeImage set) s rfl rfl rfl).trans (takeLatches_rises b _ _)
  refine .ite (fun h => ?_) fun _ => taken
  have hold : (takeLatches b set.items (onHold (takeImage set) s)).hc.state = .holding := h.trans hs
  unfold setInState
  rw [hold]
  exact taken.trans (.ite (fun _ => (handoverTest_rises b _).trans (evaluateCriterion_rises b _))
    fun _ => handoverTest_rises b _)

theorem takeHcSet_rises (hs : s.hc.state = .holding) : Rises b s (takeHcSet b s) := by
  unfold takeHcSet
  split
  · exact .refl _ _
  case h_2 set rest hm =>
    have taken : Rises b s (s.setMail { s.mail with toHc := rest }) := .of_eq rfl rfl rfl
    exact taken.trans (takeHcItems_rises set hs)

theorem takeResult_rises (b : Bank) (s : State) : Rises b s (takeResult b s) := by
  unfold takeResult
  split
  · exact .refl _ _
  case h_2 r rest hm =>
    have taken : Rises b s (resultTaken s r rest) := .of_eq rfl rfl rfl
    refine .ite (fun _ => ?_) fun _ => taken
    have ratcheted : Rises b (resultTaken s r rest) (onHold (ratchet b) (resultTaken s r rest)) :=
      .up rfl rfl (ratchet_rises b _)
    exact ((taken.trans ratcheted).trans (handoverTest_rises b _)).trans (evaluateCriterion_rises b _)

theorem claimExpired_rises (tag : Fin 4) : Rises b s (claimExpired tag b s) := by
  refine .ite (fun _ => ?_) fun _ => .refl _ _
  have removed := (removeClaims_rises (b := b) (fun c => c.hasKey .service tag.val) s).trans
    (.of_reaches (raise_reaches _ .claimExpired) (by simp))
  exact .ite (fun _ => enterHandover_rises _) fun _ => removed.trans (handoverTest_rises b _)

theorem handoverConfirmExpired_rises : Rises b s (handoverConfirmExpired b s) := by
  refine .ite (fun _ => ?_) fun _ => .refl _ _
  split
  · exact (enterSecured_rises _).trans (.of_reaches (reportChange_reaches _ _ _ _) (by simp))
  · exact .of_eq rfl rfl rfl
  · exact .refl _ _

theorem takeDecision_rises (d : Bool) (hs : s.hc.state = .holding) : Rises b s (takeDecision b d s) := by
  have e : (onHold (fun h => { h with stationary := d }) s).hc.state = .holding := hs
  unfold takeDecision
  dsimp only
  rw [e]
  exact .of_eq rfl rfl rfl

theorem takeBlind_rises (e : Bool) (hs : s.hc.state = .holding) : Rises b s (takeBlind b e s) := by
  have recorded : Rises b s (onHold (fun h =>
      { h with blind := e, degraded := HoldController.isDegraded { h with blind := e } }) s) := .onHold b _ s rfl rfl rfl
  have state : (onHold (fun h => { h with
      blind := e, degraded := HoldController.isDegraded { h with blind := e } }) s).hc.state = .holding := hs
  unfold takeBlind
  dsimp only
  rw [state]
  exact recorded.trans (handoverTest_rises b _)

theorem takeCrossing_rises (r : Bool) (n : Fin 8) : Rises b s (takeCrossing b r n s) := by
  have rollaway : Rises b s (takeRollaway b n s) :=
    (enterSecured_rises _).trans (.of_reaches (reportChange_reaches _ _ _ _) (by simp))
  unfold takeCrossing
  split
  case h_1 => exact put_ratchet_rises _ _ s
  case h_6 => exact .refl _ _
  all_goals exact rollaway

theorem holdAct_rises {c : Instr} {f : Bank → State → State} (hf : holdAct c = some f) (hs : s.hc.state = .holding) :
    Rises b s (f b s) := by
  have pop : Rises b s (popCreepReport s) := .of_eq rfl rfl rfl
  cases c
  case hcPublication => cases hf; exact takeHcSet_rises hs
  case startWindowExpiry => cases hf; exact .ite (fun h => absurd (hs.symm.trans h.2) (by decide)) fun _ => .refl _ _
  case armedConfirmExpiry => cases hf; exact .ite (fun h => absurd (hs.symm.trans h.2) (by decide)) fun _ => .refl _ _
  case minHoldExpiry =>
    cases hf
    exact .ite (fun _ => (Rises.onHold b _ s rfl rfl rfl).trans (evaluateCriterion_rises b _)) fun _ => .refl _ _
  case maxServiceHoldExpiry => cases hf; exact .ite (fun _ => enterHandover_rises _) fun _ => .refl _ _
  case reentryGuardExpiry =>
    cases hf
    exact .ite (fun _ => .ite (fun h => absurd (hs.symm.trans h) (by decide)) fun _ => .of_eq rfl rfl rfl) fun _ => .refl _ _
  case claimExpiry tag => cases hf; exact claimExpired_rises tag
  case rampStepExpiry =>
    cases hf
    unfold rampStepped
    split
    · exact .ite (fun h => absurd (hs.symm.trans h) (by decide)) fun _ => .refl _ _
    · exact .refl _ _
  case handoverConfirmExpiry => cases hf; exact handoverConfirmExpired_rises
  case overlapExpiry => cases hf; exact .ite (fun _ => .ends (.inr (.inr rfl))) fun _ => .refl _ _
  case quietExpiry => cases hf; exact .ite (fun _ => .ends (.inr (.inr rfl))) fun _ => .refl _ _
  case decisionReport =>
    cases hf
    unfold takeDecisionReport
    split
    · exact pop.trans (takeDecision_rises _ hs)
    · exact .refl _ _
  case blindReport =>
    cases hf
    unfold takeBlindReport
    split
    · exact pop.trans (takeBlind_rises _ hs)
    · exact .refl _ _
  case crossingReport =>
    cases hf
    unfold takeCrossingReport
    split
    · exact pop.trans (takeCrossing_rises _ _)
    · exact .refl _ _
  all_goals cases hf

/-- The same under the active bank, and where there is none. -/
def RisesIn (s t : State) : Prop := ∀ p : Circuits, (∀ a, s.active = some a → p.within a.bank.maxPressure) →
  s.hc.AtLeast p → t.hc.AtLeast p

theorem RisesIn.of_hc (h : t.hc = s.hc) : RisesIn s t := fun _ _ k => h ▸ k

theorem Rises.risesIn {a : ActiveBank} (ha : s.active = some a) (h : Rises a.bank s t) : RisesIn s t := fun p hp =>
  h p (hp a ha)

theorem testHold_rises (f : Frame) (s : State) : RisesIn s (testHold f s).2 := by
  unfold testHold
  split
  · exact .of_hc rfl
  · split
    · exact .of_hc rfl
    · split
      · exact .of_hc rfl
      case h_2 a ha => exact (requestClaim_rises _ _ _).risesIn ha

theorem releaseTest_rises (f : Frame) (s : State) : RisesIn s (releaseTest f s).2 := by
  unfold releaseTest
  dsimp only
  split
  · exact .of_hc rfl
  · split
    · exact .of_hc rfl
    case h_2 a ha =>
      split
      · exact ((removeClaims_rises _ _).trans (afterRemoval_rises _ _)).risesIn ha
      · exact .of_hc rfl

theorem serveNow_rises {code n : Nat} {p : Port} {act : Frame → State → Answer × State}
    (hf : ∀ f u, RisesIn u (act f u).2) : RisesIn s (serveNow code n p act s) := by
  rcases serveNow_cases code n p act s with h | ⟨-, f, u, hu, h⟩
  · exact .of_hc (h.reaches .hold (by simp))
  · have hc : u.hc = s.hc := hu.reaches .hold (by simp)
    have ha : u.active = s.active := hu.reaches .active (by simp)
    have answered : (serveNow code n p act s).hc = (act f u).2.hc := h .hold (by simp)
    intro p hp hs
    rw [answered]
    exact hf f u p (by rw [ha]; exact hp) (by rw [hc]; exact hs)

theorem holdEvent_rises {f : Bank → State → State} (hf : ∀ b, Rises b s (f b s)) : RisesIn s (holdEvent f s) := by
  unfold holdEvent
  split
  case h_1 a ha => exact ((hf _).trans (.of_reaches (withStart_reaches _ _) (by simp))).risesIn ha
  case h_2 => exact .of_hc rfl

theorem exec_rises {c : Instr} (hc : restarts c = false) (hs : s.hc.state = .holding) (h : exec c s = .next t) :
    RisesIn s t := by
  cases hf : holdAct c with
  | some f =>
    rw [exec_holdAct s hf] at h
    obtain rfl := Host.Outcome.next.inj h
    exact holdEvent_rises fun b => holdAct_rises hf hs
  | none =>
    by_cases hr : Part.hold ∈ reach c
    case neg => exact .of_hc (exec_reaches h .hold hr)
    case pos =>
      cases c
      case calcResult => obtain rfl := Host.Outcome.next.inj h; exact holdEvent_rises fun b => takeResult_rises b s
      case testHold p => obtain rfl := Host.Outcome.next.inj h; exact serveNow_rises testHold_rises
      case releaseTest p => obtain rfl := Host.Outcome.next.inj h; exact serveNow_rises releaseTest_rises
      all_goals simp_all [reach, holdAct, restarts]

/-- A restart of the Hold Controller does not leave it in HOLDING. -/
theorem restart_notHolding {c : Instr} (hc : restarts c = true) (h : exec c s = .next t) (ht : t.hc.state = .holding) :
    t.hc = s.hc := by
  rcases exec_restarts_hc hc h with e | e | ⟨b, hb⟩
  · exact e
  · exact absurd (e ▸ ht) (by decide)
  · rw [hb.hold] at ht
    cases ht

end

/-- Settles O59: the ratchet never lowers a demand, a release that is taken back begins again from the demand it left,
and every other way out of HOLDING does not return to it within the event. -/
theorem demandNeverFallsInHolding : Obligations.DemandNeverFallsInHolding := by
  intro s t hk h hs ht
  rcases step_cases h with rfl | ⟨c, rest, -, he⟩
  · exact Circuits.within_refl _
  · cases hc : restarts c with
    | true => rw [restart_notHolding hc he ht]; exact Circuits.within_refl _
    | false =>
      have start : s.hc.AtLeast s.hc.demand.pressure := .of_holding hs (Circuits.within_refl _)
      exact (exec_rises (s := s.setPending rest) hc hs he _ hk.demand start).holding ht

end Sys2Proof.Machine
end

