-- ==== Sys2Proof/Proofs/QueueInvariants.lean ====
section
/-! PROOF. Every step keeps the queues (O56). -/

namespace Sys2Proof.Machine

/-! ## Counting entries -/

section
variable {α : Type} (f : α → Bool)

theorem countWhere_append (l m : List α) : countWhere f (l ++ m) = countWhere f l + countWhere f m := by
  simp [countWhere]

theorem countWhere_cons (x : α) (l : List α) : countWhere f (x :: l) = (if f x then 1 else 0) + countWhere f l := by
  unfold countWhere
  rw [List.filter_cons]
  split
  · simp [Nat.add_comm]
  · simp

theorem countWhere_sublist {l m : List α} (h : l.Sublist m) : countWhere f l ≤ countWhere f m :=
  (h.filter f).length_le

theorem countWhere_map {β : Type} (g : β → α) (l : List β) : countWhere f (l.map g) = countWhere (fun x => f (g x)) l := by
  unfold countWhere
  rw [List.filter_map, List.length_map]
  rfl

theorem countWhere_none {l : List α} (h : ∀ x ∈ l, f x = false) : countWhere f l = 0 := by
  unfold countWhere
  rw [List.filter_eq_nil_iff.mpr fun x hx => by simp [h x hx]]
  rfl

end

/-- The HOLD entries waiting. -/
def TxQueue.holds (q : TxQueue) : Nat := countWhere (fun e => e.cls == .hold) q.waiting

theorem entries_none {q : TxQueue} (h : q.sending = none) : q.entries = q.waiting := by simp [TxQueue.entries, h]

theorem entries_some {q : TxQueue} {e : Entry} (h : q.sending = some e) : q.entries = e :: q.waiting := by
  simp [TxQueue.entries, h]

theorem holds_of_not_hasWaiting {q : TxQueue} (h : q.hasWaiting .hold = false) : q.holds = 0 := by
  refine countWhere_none _ fun e he => ?_
  simp only [TxQueue.hasWaiting, List.any_eq_false] at h
  simpa using h e he

/-! ## A queue with no more in it -/

/-- `q'` holds no more than `q`: not in size, nor waiting HOLD entries, nor dedicated space of any class. -/
structure QueueLess (q q' : TxQueue) : Prop where
  size : q'.entries.length ≤ q.entries.length
  hold : q'.holds ≤ q.holds
  dedicated : ∀ cls, q'.dedicatedCount cls ≤ q.dedicatedCount cls

section
variable {q q' q'' : TxQueue}

theorem QueueLess.refl (q : TxQueue) : QueueLess q q := ⟨le_refl _, le_refl _, fun _ => le_refl _⟩

theorem QueueLess.trans (h : QueueLess q q') (k : QueueLess q' q'') : QueueLess q q'' :=
  ⟨k.size.trans h.size, k.hold.trans h.hold, fun cls => (k.dedicated cls).trans (h.dedicated cls)⟩

theorem QueueLess.of_sublist (h : q'.entries.Sublist q.entries) (hw : q'.waiting.Sublist q.waiting) : QueueLess q q' :=
  ⟨h.length_le, countWhere_sublist _ hw, fun _ => countWhere_sublist _ h⟩

theorem QueueLess.stop (q : TxQueue) : QueueLess q { q with sending := none } :=
  .of_sublist (List.sublist_append_right _ _) (.refl _)

theorem QueueLess.filter (q : TxQueue) (f : Entry → Bool) : QueueLess q { q with waiting := q.waiting.filter f } :=
  .of_sublist (.append_left List.filter_sublist _) List.filter_sublist

theorem QueueLess.kept (h : QueueLess q q') (k : q.Kept) : q'.Kept := ⟨h.size.trans k.size, h.hold.trans k.hold⟩

end

/-- The dedicated space of every class of every port is at most its minimum under a bank. -/
def DedicatedWithin (b : Bank) (s : State) : Prop := ∀ p cls, (queueOf s p).dedicatedCount cls ≤ (b.minima.get p).get cls

/-- An operation keeps the queues, and dedicated space to the minima of a bank. -/
structure QueueStep (b : Bank) (s t : State) : Prop where
  kept : QueuesKept s → QueuesKept t
  dedicated : DedicatedWithin b s → DedicatedWithin b t

section
variable {b : Bank} {s t u : State}

theorem QueueStep.trans (h : QueueStep b s t) (k : QueueStep b t u) : QueueStep b s u :=
  ⟨fun x => k.kept (h.kept x), fun x => k.dedicated (h.dedicated x)⟩

theorem QueueStep.less (h : ∀ p, QueueLess (queueOf s p) (queueOf t p)) : QueueStep b s t :=
  ⟨fun k p => (h p).kept (k p), fun k p cls => ((h p).dedicated cls).trans (k p cls)⟩

theorem QueueStep.of_queues (h : t.tx.queues = s.tx.queues) : QueueStep b s t :=
  .less fun p => by rw [queueOf, queueOf, h]; exact .refl _

theorem QueueStep.refl (b : Bank) (s : State) : QueueStep b s s := .of_queues rfl

theorem QueueStep.of_reaches {r : List Part} (h : Reaches r s t) (hr : Part.scheduler ∉ r) : QueueStep b s t :=
  .of_queues (congrArg Scheduler.queues (h .scheduler hr))

theorem QueueStep.andThen (h : QueueStep b s t) (k : Reaches [] t u) : QueueStep b s u := h.trans (.of_reaches k (by simp))

theorem QueueStep.ite {c : Prop} [Decidable c] (h : c → QueueStep b s t) (k : ¬ c → QueueStep b s u) :
    QueueStep b s (if c then t else u) := by
  split
  · exact h ‹_›
  · exact k ‹_›

/-- One queue written. -/
theorem QueueStep.setQueue {p : Port} {q : TxQueue} (h1 : (queueOf s p).Kept → q.Kept)
    (h2 : (∀ cls, (queueOf s p).dedicatedCount cls ≤ (b.minima.get p).get cls) →
      ∀ cls, q.dedicatedCount cls ≤ (b.minima.get p).get cls) : QueueStep b s (setQueue p q s) := by
  constructor
  · intro k r
    cases p <;> cases r
    case c.c | b.b => exact h1 (k _)
    case c.b => exact k .b
    case b.c => exact k .c
  · intro k r cls
    cases p <;> cases r
    case c.c | b.b => exact h2 (k _) cls
    case c.b => exact k .b cls
    case b.c => exact k .c cls

theorem QueueStep.setLess {p : Port} {q : TxQueue} (h : QueueLess (queueOf s p) q) : QueueStep b s (Machine.setQueue p q s) :=
  .setQueue h.kept fun k cls => (h.dedicated cls).trans (k cls)

/-! ## Starting a transmission, and offers -/

theorem QueueLess.start {q : TxQueue} {e e' : Entry} {rest : List Entry} (hs : q.sending = none)
    (ht : takeFirst (fun x => x.cls == e.cls) q.waiting = some (e, rest)) (hc : e'.cls = e.cls)
    (hd : e'.dedicated = e.dedicated) : QueueLess q ⟨rest, some e'⟩ := by
  obtain ⟨before, after, hw, -, -, rfl⟩ := takeFirst_some.mp ht
  refine ⟨?_, ?_, fun cls => ?_⟩
  · rw [entries_none hs, hw]
    simp [TxQueue.entries]
  · simp only [TxQueue.holds, hw, countWhere_append, countWhere_cons]
    omega
  · simp only [TxQueue.dedicatedCount, hw, TxQueue.entries, Option.toList_some, countWhere_append,
      countWhere_cons, hc, hd, List.cons_append, List.nil_append]
    omega

theorem trySend_queues (p : Port) (s : State) : QueueStep b s (trySend p s) := by
  rcases trySend_cases p s with e | ⟨e, rest, ⟨-, -, hs⟩, hc, ht⟩
  · rw [e]
    exact .refl _ _
  · obtain ⟨h1, h2, -⟩ := startEntry_keeps s e
    have started : QueueStep b s (Machine.setQueue p ⟨rest, some (startEntry s e)⟩ s) :=
      .setLess (.start hs (choose_some hc).1 h1 h2)
    exact started.trans (.of_queues (by rw [ht]; rfl))

/-- An entry that takes the place and the space of the first of its class. -/
theorem replaceFirst_profile (cls : TxClass) (e : Entry) (he : e.cls = cls) (g : TxClass → Bool → Bool) (l : List Entry) :
    countWhere (fun x => g x.cls x.dedicated)
        (replaceFirst (fun x => x.cls == cls) (fun x => { e with dedicated := x.dedicated }) l) =
      countWhere (fun x => g x.cls x.dedicated) l ∧
    (replaceFirst (fun x => x.cls == cls) (fun x => { e with dedicated := x.dedicated }) l).length = l.length := by
  induction l with
  | nil => exact ⟨rfl, rfl⟩
  | cons x l ih =>
    obtain ⟨h1, h2⟩ := ih
    unfold replaceFirst
    split
    case isTrue hx =>
      have hx : x.cls = cls := by simpa using hx
      simp [countWhere_cons, he, hx]
    case isFalse => simp [countWhere_cons, h1, h2]

/-- What the space found for a frame says of the queue (R155). -/
theorem spaceFor_some {p : Port} {cls : TxClass} {d : Bool} (h : spaceFor s p cls = some d) :
    (queueOf s p).entries.length < 32 ∧
      (d = true → (queueOf s p).dedicatedCount cls < ((txBank s).minima.get p).get cls) := by
  unfold spaceFor at h
  dsimp only at h
  split at h
  · cases h
  case isFalse hl =>
    refine ⟨Nat.lt_of_not_le hl, fun hd => ?_⟩
    split at h
    case isTrue hm => exact hm
    case isFalse =>
      split at h
      · cases h
        cases hd
      · cases h

/-- A frame admitted behind the entries that wait. -/
theorem admit_queues {p : Port} {e : Entry} {d : Bool} (hb : txBank s = b)
    (hw : e.cls = .hold → (queueOf s p).hasWaiting .hold = false) (h : spaceFor s p e.cls = some d) :
    QueueStep b s (Machine.setQueue p { queueOf s p with
      waiting := (queueOf s p).waiting ++ [{ e with dedicated := d }] } s) := by
  obtain ⟨hl, hd⟩ := spaceFor_some h
  rw [hb] at hd
  have entries : ({ queueOf s p with waiting := (queueOf s p).waiting ++ [{ e with dedicated := d }] } : TxQueue).entries =
      (queueOf s p).entries ++ [{ e with dedicated := d }] := by simp [TxQueue.entries]
  refine .setQueue (fun k => ⟨?_, ?_⟩) fun k cls => ?_
  · rw [entries, List.length_append]
    exact hl
  · have k := k.hold
    rw [countWhere_append, countWhere_cons]
    by_cases he : e.cls = .hold
    · have none : countWhere (fun e => e.cls == .hold) (queueOf s p).waiting = 0 := holds_of_not_hasWaiting (hw he)
      rw [none]
      simp [he, countWhere]
    · simpa [he, countWhere] using k
  · have k := k cls
    unfold TxQueue.dedicatedCount at k hd ⊢
    rw [entries, countWhere_append, countWhere_cons]
    by_cases hc : e.cls = cls ∧ d = true
    · obtain ⟨rfl, rfl⟩ := hc
      have hd := hd rfl
      simp [countWhere] at hd ⊢
      omega
    · have hf : (e.cls == cls && d) = false := by simpa using hc
      simpa [hf, countWhere] using k

theorem offer_queues (p : Port) (e : Entry) (hb : txBank s = b) : QueueStep b s (offer p e s).2 := by
  have refused : Reaches [] s (refuseOffer p e s) := (count_reaches s _).trans (noteResetOut_reaches _ e)
  unfold offer
  dsimp only
  split
  case isTrue h =>
    obtain ⟨he, -⟩ := h
    have profile := fun g => replaceFirst_profile .hold e he g (queueOf s p).waiting
    refine .setLess ⟨?_, ?_, fun cls => ?_⟩
    · simp [TxQueue.entries, (profile fun _ _ => true).2]
    · exact le_of_eq (profile fun c _ => c == .hold).1
    · simp only [TxQueue.dedicatedCount, TxQueue.entries, countWhere_append]
      exact Nat.add_le_add_left (le_of_eq (profile fun c d => c == cls && d).1) _
  case isFalse h =>
    split
    · exact .of_reaches refused (by simp)
    · split
      · exact .of_reaches refused (by simp)
      case h_2 d hd =>
        exact (admit_queues hb (fun he => by simpa [he] using h) hd).trans (trySend_queues p _)

/-! ## Demand frames -/

theorem txBank_reaches {r : List Part} (h : Reaches r s t) (hr : Part.active ∉ r) : txBank t = txBank s := by
  rw [txBank, txBank, h.active hr]

theorem discardForward_queues (s : State) : QueueStep b s (discardForward s) :=
  (QueueStep.setLess (.filter _ _)).andThen (countTimes_reaches _ _ _)

theorem watermarks_queues (n : Nat) (s : State) : QueueStep b s (watermarks n s) := by
  unfold watermarks
  have late : QueueStep b s (if (txBank s).params.hpWatermark ≤ s.tx.owed then raise .demandLate s else s) :=
    .ite (fun _ => .of_reaches (raise_reaches _ _) (by simp)) fun _ => .refl _ _
  have dropped := late.trans (.ite (c := n < (txBank s).params.panicWatermark ∧ (txBank s).params.panicWatermark ≤ s.tx.owed)
    (fun _ => discardForward_queues _) fun _ => .refl _ _)
  have reported : ∀ u : State,
      QueueStep b u (report .major .demandStarved .none (u.setTx { u.tx with starved := true })) := fun _ => .of_queues rfl
  exact .ite (fun _ => dropped.trans (reported _)) fun _ => dropped

theorem runDemandPeriod_queues (s : State) : QueueStep (txBank s) s (runDemandPeriod s) := by
  have owed : Reaches [.scheduler] s (oweDemand s) := setTx_reaches s _
  have marked : Reaches [.scheduler] s (watermarks s.tx.owed (oweDemand s)) := owed.trans (watermarks_reaches _ _)
  have owing : QueueStep (txBank s) s (oweDemand s) := .of_queues rfl
  have made : QueueStep (txBank s) s (generateDemand s) :=
    (owing.trans (watermarks_queues s.tx.owed (oweDemand s))).trans
      (offer_queues .b _ (txBank_reaches marked (by simp)))
  exact made.trans (.of_queues rfl)

theorem withStart_queues (before : HoldState) (s : State) : QueueStep (txBank s) s (withStart before s) :=
  .ite (fun _ => runDemandPeriod_queues s) fun _ => .refl _ _

theorem holdEvent_queues {f : Bank → State → State} (hf : ∀ b, Reaches [.hold, .results] s (f b s)) :
    QueueStep (txBank s) s (holdEvent f s) := by
  unfold holdEvent
  split
  case h_1 a ha =>
    have started := withStart_queues s.hc.state (f a.bank s)
    rw [txBank_reaches (hf _) (by simp)] at started
    exact (QueueStep.of_reaches (hf _) (by simp)).trans started
  case h_2 => exact .refl _ _

/-! ## Endings of transmissions -/

theorem entrySucceeded_queues (e : Entry) (s : State) : QueueStep b s (entrySucceeded e s) := by
  unfold entrySucceeded
  split
  · exact .ite (fun _ => .refl _ _) fun _ => .of_queues rfl
  · exact .ite (fun _ => .of_queues rfl) fun _ => .of_queues rfl
  · exact .refl _ _
  · exact .of_reaches (noteResetOut_reaches s e) (by simp)

theorem transmissionSucceeded_queues (p : Port) (s : State) : QueueStep b s (transmissionSucceeded p s) := by
  unfold transmissionSucceeded
  split
  · exact .refl _ _
  · exact (((QueueStep.setLess (.stop _)).trans (entrySucceeded_queues _ _)).andThen (setLink_reaches _ _ _)).trans
      (trySend_queues p _)

/-- A returned entry waits again, in the space it had; a HOLD entry only where none waits (R158). -/
theorem return_queues {p : Port} {e : Entry} (hs : (queueOf s p).sending = some e)
    (hf : failedOutcome p e s = .returned) :
    QueueStep b s (Machine.setQueue p ⟨returnEntry e :: (queueOf s p).waiting, none⟩ s) := by
  have profile : (returnEntry e).cls = e.cls ∧ (returnEntry e).dedicated = e.dedicated := by
    unfold returnEntry
    split <;> exact ⟨rfl, rfl⟩
  obtain ⟨hc, hd⟩ := profile
  refine .setQueue (fun k => ⟨?_, ?_⟩) fun k cls => ?_
  · have k := k.size
    rw [entries_some hs] at k
    exact k
  · rw [countWhere_cons, hc]
    by_cases he : e.cls = .hold
    · have none : countWhere (fun e => e.cls == .hold) (queueOf s p).waiting = 0 := by
        refine holds_of_not_hasWaiting (Bool.eq_false_iff.mpr fun hw => ?_)
        simp only [failedOutcome, he, hw] at hf
        split at hf <;> simp at hf
      simp [he, none]
    · simpa [he] using k.hold
  · have k := k cls
    unfold TxQueue.dedicatedCount at k ⊢
    rw [entries_some hs, countWhere_cons] at k
    rw [entries_none rfl, countWhere_cons, hc, hd]
    exact k

theorem entryFailed_queues {p : Port} {e : Entry} (hs : (queueOf s p).sending = some e) :
    QueueStep b s (entryFailed p e s) := by
  unfold entryFailed
  refine QueueStep.andThen ?_ (noteResetOut_reaches _ e)
  split
  case h_1 hf => exact return_queues hs hf
  case h_2 => exact (QueueStep.setLess (.stop _)).andThen (count_reaches _ _)
  case h_3 => exact .setLess (.stop _)

theorem flushQueue_queues (p : Port) (s : State) : QueueStep b s (flushQueue p s) :=
  ((QueueStep.setLess (.filter _ _)).andThen (countTimes_reaches _ _ _)).andThen
    (.foldl (fun s e => noteResetOut_reaches s e) _ _)

theorem transmissionFailed_queues (p : Port) (s : State) : QueueStep b s (transmissionFailed p s) := by
  unfold transmissionFailed
  split
  · exact .refl _ _
  case h_2 e hs =>
    refine (((entryFailed_queues hs).andThen (count_reaches _ _)).andThen (setLink_reaches _ _ _)).trans
      (.ite (fun _ => ?_) fun _ => trySend_queues p _)
    exact ((QueueStep.of_reaches (setLink_reaches _ p _) (by simp)).andThen (report_reaches _ _ _ _)).trans
      (flushQueue_queues p _)

theorem takeOffer_queues (p : Port) (cls : TxClass) (s : State) : QueueStep (txBank s) s (takeOffer p cls s) := by
  unfold takeOffer
  split
  · exact .refl _ _
  case h_2 o rest ho =>
    refine .trans (.of_reaches (setMail_reaches s _ (by rfl) (by rfl)) (by simp))
      (.ite (fun _ => .of_reaches (count_reaches _ _) (by simp)) fun _ => ?_)
    have offered := offer_queues (s := s.setMail { s.mail with offers := rest }) p (newEntry cls o.frame o.reset) rfl
    dsimp only
    split
    · exact offered.andThen (count_reaches _ _)
    · exact offered

theorem statusPeriodExpired_queues (s : State) : QueueStep (txBank s) s (statusPeriodExpired s) := by
  unfold statusPeriodExpired
  split
  · exact (QueueStep.ite (fun _ => .refl _ _) fun _ => offer_queues .c _ rfl).trans (.of_queues rfl)
  · exact .refl _ _

theorem exec_queues {c : Instr} (hc : restarts c = false) (h : exec c s = .next t) : QueueStep (txBank s) s t := by
  cases hf : holdAct c with
  | some f =>
    rw [exec_holdAct s hf] at h
    obtain rfl := Host.Outcome.next.inj h
    exact holdEvent_queues fun b => (holdAct_step hf b s).reaches.mono (by simp)
  | none =>
    by_cases hr : Part.scheduler ∈ reach c
    case neg => exact .of_reaches (exec_reaches h) hr
    case pos =>
      cases c
      case calcResult => obtain rfl := Host.Outcome.next.inj h; exact holdEvent_queues fun b => takeResult_reaches s b
      case queueOffer p cls => obtain rfl := Host.Outcome.next.inj h; exact takeOffer_queues p cls s
      case transmissionSuccess p => obtain rfl := Host.Outcome.next.inj h; exact transmissionSucceeded_queues p s
      case transmissionError p => obtain rfl := Host.Outcome.next.inj h; exact transmissionFailed_queues p s
      case recoveryExpiry p =>
        obtain rfl := Host.Outcome.next.inj h
        unfold recovered
        split
        · exact (QueueStep.of_reaches (setLink_reaches s p .start) (by simp)).trans (trySend_queues p _)
        · exact .refl _ _
      case demandPeriodExpiry =>
        obtain rfl := Host.Outcome.next.inj h
        unfold demandPeriodExpired
        split
        · exact runDemandPeriod_queues s
        · exact .refl _ _
      case statusPeriodExpiry => obtain rfl := Host.Outcome.next.inj h; exact statusPeriodExpired_queues s
      all_goals simp_all [reach, holdAct, restarts]

/-! ## An activation (R168) -/

theorem reassign_classes (m kept : PerClass Nat) (es : List Entry) :
    (reassign m kept es).map Entry.cls = es.map Entry.cls := by
  induction es generalizing kept with
  | nil => rfl
  | cons e es ih =>
    unfold reassign
    split <;> simp [ih]

/-- Of each class no more than the minimum keeps dedicated space, `kept` of them already passed. -/
theorem reassign_within (m kept : PerClass Nat) (es : List Entry) (cls : TxClass) (h : kept.get cls ≤ m.get cls) :
    kept.get cls + countWhere (fun e => e.cls == cls && e.dedicated) (reassign m kept es) ≤ m.get cls := by
  induction es generalizing kept with
  | nil => exact h
  | cons e es ih =>
    unfold reassign
    split
    case isTrue hk =>
      obtain ⟨hd, hk⟩ := hk
      have more : (kept.oneMore e.cls).get cls = kept.get cls + if e.cls = cls then 1 else 0 := by
        cases e.cls <;> cases cls <;> simp [PerClass.get, PerClass.oneMore]
      rw [countWhere_cons]
      by_cases hc : e.cls = cls
      · subst hc
        have passed := ih (kept.oneMore e.cls) (by rw [more]; simpa using hk)
        rw [more] at passed
        simp [hd] at passed ⊢
        omega
      · have passed := ih (kept.oneMore e.cls) (by rw [more]; simpa [hc] using h)
        rw [more] at passed
        simpa [hc] using passed
    case isFalse => simpa [countWhere_cons] using ih kept h

/-- A queue's entries under the new minima: the same classes, with the space `reassign` leaves them. -/
theorem requeue_profile (m : PerClass Nat) (q : TxQueue) (g : TxClass → Bool → Bool) :
    countWhere (fun e => g e.cls e.dedicated) (requeue m q).entries =
        countWhere (fun e => g e.cls e.dedicated) (reassign m ⟨0, 0, 0, 0⟩ q.entries) ∧
      (requeue m q).entries.length = q.entries.length := by
  have again : ∀ l : List Entry, countWhere (fun e => g e.cls e.dedicated)
      (l.map fun e => if e.cls = .status then { e with alive := none } else e) =
      countWhere (fun e => g e.cls e.dedicated) l := fun l => by
    rw [countWhere_map]
    congr 1
    funext e
    split <;> rfl
  have length := (reassign_spec m ⟨0, 0, 0, 0⟩ q.entries).1
  unfold requeue
  dsimp only
  split
  case h_1 x e es hs hm =>
    rw [hm] at length ⊢
    rw [← length]
    simp [TxQueue.entries, countWhere_cons, again]
  case h_2 =>
    refine ⟨?_, ?_⟩
    · simp only [TxQueue.entries, Option.toList_none, List.nil_append, again]
    · simp [TxQueue.entries] at length ⊢
      exact length

theorem requeue_holds (m : PerClass Nat) (q : TxQueue) : (requeue m q).holds = q.holds := by
  have again : ∀ l : List Entry, (l.map fun e : Entry => if e.cls = .status then { e with alive := none } else e).map Entry.cls =
      l.map Entry.cls := fun l => by
    rw [List.map_map]
    congr 1
    funext e
    dsimp only [Function.comp]
    split <;> rfl
  have classes := reassign_classes m ⟨0, 0, 0, 0⟩ q.entries
  have waiting : (requeue m q).waiting.map Entry.cls = q.waiting.map Entry.cls := by
    unfold requeue
    dsimp only
    split
    case h_1 x e es hs hm =>
      rw [hm, entries_some hs] at classes
      rw [again]
      exact (List.cons.inj classes).2
    case h_2 hn =>
      rw [again]
      cases hs : q.sending with
      | none => rw [← entries_none hs]; exact classes
      | some e => 
        cases hm : reassign m ⟨0, 0, 0, 0⟩ q.entries with
        | nil => rw [hm, entries_some hs] at classes; cases classes
        | cons x xs => exact absurd hm (hn e x xs hs)
  have count := fun l : List Entry => countWhere_map (fun c => c == TxClass.hold) Entry.cls l
  unfold TxQueue.holds
  rw [← count, ← count, waiting]

theorem requeue_kept {m : PerClass Nat} {q : TxQueue} (h : q.Kept) : (requeue m q).Kept :=
  ⟨by rw [(requeue_profile m q fun _ _ => true).2]; exact h.size, le_of_eq_of_le (requeue_holds m q) h.hold⟩

theorem requeue_dedicated (m : PerClass Nat) (q : TxQueue) (cls : TxClass) :
    (requeue m q).dedicatedCount cls ≤ m.get cls := by
  have none : (⟨0, 0, 0, 0⟩ : PerClass Nat).get cls = 0 := by cases cls <;> rfl
  have within := reassign_within m ⟨0, 0, 0, 0⟩ q.entries cls (by rw [none]; exact Nat.zero_le _)
  rw [none, Nat.zero_add, ← (requeue_profile m q fun c d => c == cls && d).1] at within
  exact within

/-- An activation keeps the queues, and holds dedicated space to the new minima (R168). -/
theorem activateScheduler_queues (h : QueuesKept s) :
    QueuesKept (activateScheduler s) ∧ DedicatedWithin (txBank s) (activateScheduler s) := by
  have discarded : QueueStep (txBank s) s (discardHold s) :=
    (QueueStep.setLess (.filter _ _)).andThen (countTimes_reaches _ _ _)
  have kept := discarded.kept h
  have started := trySend_queues (b := txBank s) .b
  refine ⟨(started _).kept fun p => ?_, (started _).dedicated fun p cls => ?_⟩
  · cases p
    · exact requeue_kept (kept .c)
    · exact requeue_kept (kept .b)
  · cases p
    · exact requeue_dedicated _ _ cls
    · exact requeue_dedicated _ _ cls

theorem activateBank_queues (p : Port) (b : Bank) (h : QueuesKept s) :
    QueuesKept (activateBank p b s) ∧ DedicatedKept (activateBank p b s) := by
  have bank : txBank (activateBank p b s) = b := txBank_some (activateBank_activated p b s).runs.active
  have kept : QueuesKept (activateBank p b s) ∧ DedicatedWithin b (activateBank p b s) := activateScheduler_queues h
  exact kept.imp_right fun within q cls => by rw [bank]; exact within q cls

/-! ## The step -/

theorem empty_queues (h : t.tx.queues = ⟨.empty, .empty⟩) : QueuesKept t ∧ DedicatedKept t := by
  have empty : ∀ p, queueOf t p = .empty := fun p => by cases p <;> simp [queueOf, h, PerPort.get]
  refine ⟨fun p => ?_, fun p cls => ?_⟩
  · rw [empty]
    exact ⟨Nat.zero_le _, Nat.zero_le _⟩
  · rw [empty]
    exact Nat.zero_le _

theorem restart_queues {c : Instr} (hc : restarts c = true) (hk : QueuesKept s) (h : exec c s = .next t) :
    QueuesKept t ∧ (DedicatedKept s → s.loading = false → DedicatedKept t) := by
  cases c
  case powerOnReset pins =>
    obtain rfl := Host.Outcome.next.inj h
    exact (empty_queues rfl).imp_right fun x _ _ => x
  case pendingResetTaken pins =>
    obtain rfl := Host.Outcome.next.inj h
    unfold takePendingReset
    split
    · exact (empty_queues rfl).imp_right fun x _ _ => x
    · exact ⟨hk, fun x _ => x⟩
  case storeLoadEnd =>
    obtain rfl := Host.Outcome.next.inj h
    show QueuesKept (loadEnded s) ∧ (DedicatedKept s → s.loading = false → DedicatedKept (loadEnded s))
    rcases loadEnded_cases s with e | ⟨hl, -, ⟨x, e⟩, -⟩
    · rw [e]
      exact ⟨hk, fun x _ => x⟩
    · have left : QueueStep Bank.default s (loadEnded s) := .of_queues (by rw [e])
      exact ⟨left.kept hk, fun _ hn => absurd (hl.symm.trans hn) (by decide)⟩
  case activate p =>
    obtain rfl := Host.Outcome.next.inj h
    rcases activate_cases p s with ha | ⟨-, u, b, hu, -, -, e⟩
    · have left : QueueStep (txBank s) s _ := .of_reaches ha.reaches (by simp)
      have bank := txBank_reaches ha.reaches (by simp)
      exact ⟨left.kept hk, fun hd _ => by unfold DedicatedKept; rw [bank]; exact left.dedicated hd⟩
    · rw [e]
      have left : QueueStep b s u := .of_reaches hu.reaches (by simp)
      exact (activateBank_queues p b (left.kept hk)).imp_right fun x _ _ => x
  all_goals cases hc

end

/-- Settles O56: a frame is admitted only into space that is there, a returned entry had its place, and an activation
deals the dedicated space out anew. -/
theorem stepKeepsTheQueues : Obligations.StepKeepsTheQueues := by
  intro s t hk h
  rcases step_cases h with rfl | ⟨c, rest, -, he⟩
  · exact ⟨hk, fun hd _ => hd⟩
  · cases hc : restarts c with
    | true => exact restart_queues (s := s.setPending rest) hc hk he
    | false =>
      have kept := exec_queues hc he
      have bank : txBank t = txBank (s.setPending rest) :=
        txBank_reaches (exec_reaches he) (by cases c <;> simp_all [reach, restarts])
      exact ⟨kept.kept hk, fun hd _ => by unfold DedicatedKept; rw [bank]; exact kept.dedicated hd⟩

end Sys2Proof.Machine
end

