-- ==== Sys2Proof/Proofs/StepAndResets.lean ====
section
/-! PROOF. The step, the reset state and the resets (O1 to O3, O10). -/

namespace Sys2Proof.Machine

section
variable {s : State}

/-! ## The step (O1) -/

/-- An event of the Hold Controller that does nothing starts no demand frame either. -/
theorem holdEvent_still {f : Bank → State → State} (hf : ∀ b, f b s = s) : holdEvent f s = s := by
  unfold holdEvent
  split
  · rw [hf]
    exact withStart_eq (by by_cases h : s.hc.state = .starting <;> simp [h])
  · rfl

theorem state_tick (s : State) (i : Nat) : ((tick s).sm.state i).timer = tickTimer (s.sm.state i).timer := by
  simp only [SignalMonitor.state, tick, List.getElem?_map]
  cases s.sm.monitors[i]? <;> rfl

theorem expiries_tick (s : State) : expiries (tick s) = (expiries s).map fun x => (x.1, tickTimer x.2) := by
  simp only [expiries, List.map_append, List.map_map, state_tick]
  rfl

/-- An expiry whose timer has not run its full duration, or does not run, does nothing (log 2). -/
theorem expiry_early {c : Instr} {timer : Timer} (h : (c, timer) ∈ expiries s) (ht : timer ≠ some 0) :
    exec c s = .next s := by
  have hold : ∀ {f : Bank → State → State}, (∀ b, f b s = s) → (.next (holdEvent f s) : Host.Outcome State Fault Refusal) =
      .next s := fun hf => by rw [holdEvent_still hf]
  simp only [expiries, List.mem_append, List.mem_cons, Prod.mk.injEq, List.mem_map, List.mem_finRange, true_and,
    List.not_mem_nil, or_false] at h
  rcases h with (⟨rfl, rfl⟩ | ⟨rfl, rfl⟩ | ⟨rfl, rfl⟩ | ⟨rfl, rfl⟩ | ⟨rfl, rfl⟩ | ⟨rfl, rfl⟩ | ⟨rfl, rfl⟩ | ⟨rfl, rfl⟩ |
    ⟨rfl, rfl⟩ | ⟨rfl, rfl⟩ | ⟨rfl, rfl⟩ | ⟨rfl, rfl⟩ | ⟨rfl, rfl⟩ | ⟨rfl, rfl⟩ | ⟨rfl, rfl⟩ | ⟨rfl, rfl⟩ |
    ⟨rfl, rfl⟩) | ⟨i, rfl, rfl⟩
  rotate_left
  · exact hold fun b => if_neg fun h => ht h.1
  · exact hold fun b => if_neg fun h => ht h.1
  · exact hold fun b => if_neg ht
  · exact hold fun b => if_neg fun h => ht h.1
  · exact hold fun b => if_neg ht
  · refine hold fun b => ?_
    unfold rampStepped
    split
    · exact absurd ‹_› ht
    · rfl
  · exact hold fun b => if_neg ht
  · exact hold fun b => if_neg fun h => ht h.1
  · exact hold fun b => if_neg fun h => ht h.1
  all_goals
    refine congrArg Host.Outcome.next ?_
    simp only [refillExpired, evaluationExpired, stationaryExpired, recovered, demandPeriodExpired, statusPeriodExpired,
      idleExpired, periodTimedOut]
  all_goals split <;> simp_all [PerPort.get]

theorem claimExpiry_early {tag : Fin 4}
    (h : ∀ c, some c ∈ s.hc.claims → c.source = .service → c.tag = tag.val → c.timer ≠ some 0) :
    exec (.claimExpiry tag) s = .next s := by
  have due : claimDue s.hc tag.val = false := by
    simp only [claimDue, List.any_eq_false, mem_standing]
    intro c hc
    simp only [Claim.hasKey, Bool.and_eq_true, beq_iff_eq, not_and]
    exact fun ⟨hs, ht⟩ => h c hc hs ht
  exact congrArg Host.Outcome.next (holdEvent_still fun b => if_neg (by simp [due]))

end

/-- Settles O1: the front command runs, a tick moves the timers alone, and an expiry is guarded by its timer. -/
theorem stepRunsTheFrontCommand : Obligations.StepRunsTheFrontCommand := by
  intro s
  refine ⟨fun c rest hp => by rw [step, hp], fun hp => ⟨tick s, by rw [step, hp], expiries_tick s, rfl, rfl, rfl⟩,
    fun x hx ht => expiry_early hx ht, fun tag h => claimExpiry_early h⟩

/-! ## The reset state and the resets (O2, O3, O10) -/

/-- Settles O2, by evaluation: every record is at its reset value. -/
theorem resetKeepsTheInvariants : Obligations.ResetKeepsTheInvariants := by
  have queues := empty_queues (t := State.reset) rfl
  have counters : CountersKept State.reset := countersKept_iff.mpr ⟨zero_kept, reset_txKept, creepIdle_kept⟩
  have service : ServiceModeKept State.reset := ⟨(nomatch ·), rfl, (nomatch ·), fun _ => ⟨rfl, rfl⟩⟩
  exact ⟨claimTableKept_iff.mpr claimsKept_off, demandRecordKept_iff.mpr demandKept_off,
    pressuresKept_idle (fun _ h => nomatch h) trivial trivial rfl rfl, queues.1, queues.2, counters, service⟩

section
variable {s : State}

theorem replicate_at {α : Type} {n i : Nat} (x : α) (h : i < n) : (List.replicate n x)[i]? = some x := by
  rw [List.getElem?_replicate, if_pos h]

theorem idle_entry (k : SignalKind) : SignalMonitor.idle.entry k = ⟨.unmapped, none, none⟩ := by
  simp only [SignalMonitor.entry, SignalMonitor.idle]
  rw [replicate_at _ (SignalKind.code_lt k)]
  rfl

theorem storeAfterReset_current (s : State) : (storeAfterReset s).current = s.store.current := by
  unfold storeAfterReset Store.writeSpare Store.current
  split
  · split <;> simp_all
  · rfl

theorem storeAfterReset_idle (h : s.sr.storeWrite = none) : storeAfterReset s = s.store := by
  simp [storeAfterReset, h]

end

/-- Settles O3: `resetAll` is the reset state with the pins, the store's current area and the waiting commands. -/
theorem powerOnResetEmptiesEveryBlock : Obligations.PowerOnResetEmptiesEveryBlock := by
  intro pins s
  refine ⟨_, rfl, rfl, rfl, rfl, rfl, rfl, rfl, rfl, rfl, rfl, rfl, rfl, rfl,
    ⟨rfl, rfl, rfl, rfl, rfl, rfl, rfl, rfl, rfl, rfl⟩, rfl, rfl, rfl, rfl, rfl, rfl, rfl, rfl, rfl, rfl, rfl, rfl,
    idle_entry, fun i hi => replicate_at _ hi, rfl, rfl, rfl, rfl, rfl, rfl, rfl, rfl, fun i hi => replicate_at _ hi, rfl,
    storeAfterReset_current s, storeAfterReset_idle, rfl⟩

/-- Settles O10: the reset due is the power-on reset but for Fault Capture and what is on its way to it. -/
theorem pendingResetKeepsRecordAndCounters : Obligations.PendingResetKeepsRecordAndCounters := by
  intro pins s
  refine ⟨fun h => ?_, fun h => congrArg Host.Outcome.next (if_neg h)⟩
  have taken : takePendingReset pins s = { resetAll pins s with
      fc := s.fc, mail := { Mail.empty with faults := s.mail.faults, counts := s.mail.counts } } := if_pos h
  refine ⟨_, _, rfl, rfl, ?_⟩
  rw [taken]
  exact ⟨rfl, rfl, rfl, rfl, rfl, rfl, rfl, rfl, rfl, rfl, rfl, rfl, rfl, storeAfterReset_current s, rfl⟩

end Sys2Proof.Machine
end

