-- ==== Sys2Proof/Proofs/BanksTakeEffect.lean ====
section
/-! PROOF. The load, the activation, the store write and service mode (O4 to O9, O46). -/

namespace Sys2Proof.Machine

section
variable {s t : State} {b : Bank}

/-! ## A bank at its start -/

theorem toActive_minLength {i : Nat} (hi : i < 24) (h : (b.monitor i).inUse = true) :
    b.toActive.minLength i = b.minLength i := by
  simp [ActiveBank.minLength, Bank.toActive, hi, h]

theorem start_entry (b : Bank) (k : SignalKind) :
    (SignalMonitor.start b).entry k = ⟨if b.mapped k then .noData else .unmapped, none, none⟩ := by
  have all : SignalKind.all[k.code]? = some k := SignalKind.ofCode_code k
  simp [SignalMonitor.entry, SignalMonitor.start, all]

theorem start_monitors (b : Bank) {i : Nat} (hi : i < 24) :
    (SignalMonitor.start b).monitors[i]? = some ⟨.acquiring, 0, [], none, none, false⟩ := replicate_at _ hi

/-! ## The load (R185) -/

theorem loadEnded_passes (hl : s.loading = true) (hs : s.store.current = .holds b true) (hb : checkBank b = none) :
    loadEnded s = startStatus b (runOn b (s.setLoading false)) := by
  simp [loadEnded, hl, hs, StoreArea.loadable, hb]

theorem loadEnded_fails (hl : s.loading = true) (h : ∀ b, s.store.current = .holds b true → checkBank b ≠ none) :
    loadEnded s = report .major .tablesInvalid .none (startStatus .default (s.setLoading false)) := by
  have none : s.store.current.loadable = none := by
    unfold StoreArea.loadable
    split
    case h_1 b hb => exact if_neg (by simpa [Option.isNone_iff_eq_none] using h b hb)
    case h_2 => rfl
  simp [loadEnded, hl, none]

end

/-- Settles O4: `runOn_eq` gives what every block holds under the bank. -/
theorem loadThatPassesStartsEveryBlock : Obligations.LoadThatPassesStartsEveryBlock := by
  intro s b hl hs hb
  refine ⟨_, b.toActive, congrArg Host.Outcome.next (loadEnded_passes hl hs hb), rfl, rfl, rfl,
    fun i hi hu => ⟨toActive_minLength hi hu, ?_⟩, fun i hi => start_monitors b hi, start_entry b,
    calcStart_started b _ rfl rfl, holdStart_started b _, creepStart_started b, rfl, rfl, rfl, rfl, rfl, rfl, rfl, rfl,
    rfl, rfl, rfl⟩
  rw [toActive_minLength hi hu]
  exact minLength_isMin b i

/-- Settles O5: a load that fails is `loadEnded_fails`. -/
theorem loadThatFailsReportsTablesInvalid : Obligations.LoadThatFailsReportsTablesInvalid :=
  fun _ hl h => congrArg Host.Outcome.next (loadEnded_fails hl h)

/-! ## The activation (R182, R183) -/

section
variable {p : Port} {s : State} {f : Frame} {tail : List Byte} {rest : List Request} {b : Bank}

theorem exec_activate_asks (ha : Asks p f rest s) (hr : Ready s) (hm : f.remote = false) (hd : f.data = 5 :: tail) :
    exec (.activate p) s = .next (activate p (taken rest s)) :=
  congrArg Host.Outcome.next (serve_asks _ ha hr hm hd rfl (Nat.zero_le _))

theorem activate_passes (hm : s.sr.serviceMode = true) (hs : s.sr.staging = some b) (hb : checkBank b = none) :
    activate p s = activateBank p b s := by
  simp [activate, hm, hs, hb]

theorem activate_fails {x : CheckFailure} (hm : s.sr.serviceMode = true) (hs : s.sr.staging = some b)
    (hb : checkBank b = some x) : activate p s = respond p 5 ⟨.checkFailed, x.data⟩ false s := by
  simp [activate, hm, hs, hb]

theorem activate_refused (hm : s.sr.serviceMode = false) :
    activate p s = respond p 5 (.just .refusedState) false s := by
  simp [activate, hm]

/-- An activation changes no block but those it names. -/
theorem activated_mail (m : Mail) : m.activated = { Mail.empty with
    offers := m.offers, requests := m.requests, faults := m.faults
    counts := m.counts.filter (fun c => match c with
      | .good _ | .errors _ | .losses _ => false
      | _ => true) } := by
  have same : (fun c : Counter => !c.isMonitor) = fun c => match c with
      | .good _ | .errors _ | .losses _ => false
      | _ => true := by
    funext c
    cases c <;> rfl
  rw [Mail.activated, same]

end

/-- No HOLD entry waits on Port B after an activation: those that waited are discarded, and none is added (R168). -/
theorem activateScheduler_no_hold (s : State) : (queueOf (activateScheduler s) .b).hasWaiting .hold = false := by
  let m := (txBank s).minima.b
  let left : TxQueue := ⟨(queueOf s .b).waiting.filter fun e => e.cls != .hold, (queueOf s .b).sending⟩
  have none : left.holds = 0 := by
    unfold TxQueue.holds
    refine countWhere_none _ fun x hx => ?_
    simpa using (List.mem_filter.mp hx).2
  have requeued : (requeue m left).waiting.filter (fun e => e.cls == .hold) = [] :=
    List.eq_nil_of_length_eq_zero ((requeue_holds m left).trans none)
  refine Bool.eq_false_iff.mpr fun h => ?_
  obtain ⟨x, hx, hold⟩ := List.any_eq_true.mp h
  exact List.filter_eq_nil_iff.mp requeued x ((trySend_kept .b _).sub x hx) hold

/-- The part at an activation, every block started and the queues still to be treated (R183). -/
def readied (p : Port) (b : Bank) (rest : List Request) (s : State) : State :=
  { s with
    active := some b.toActive, sm := .start b, hpc := some (.start b), hc := .start b (Calculator.start b).result
    cm := .start b, fe := .start b, fc := clearMonitorCounters s.fc
    sr := { s.sr with serviceMode := false, staging := none, idle := none, storeWrite := some p }
    events := ⟨s.events.set ||| 1#16 <<< 14 ||| 1#16, s.events.again ||| 1#16 <<< 14 ||| 1#16⟩
    mail := { Mail.empty with
      offers := s.mail.offers, requests := rest, faults := s.mail.faults, stateReports := [⟨.starting, false⟩]
      counts := s.mail.counts.filter (fun c => match c with
        | .good _ | .errors _ | .losses _ => false
        | _ => true) } }

theorem activateBank_taken (p : Port) (b : Bank) (rest : List Request) (s : State) :
    activateBank p b (taken rest s) = activateScheduler (readied p b rest s) := by
  rw [activateBank_eq, activated_mail]
  refine congrArg activateScheduler ?_
  unfold taken readied
  split <;> rfl

/-- Settles O6: the blocks start by `activateBank_taken`, the queues by `activateScheduler_sends`. -/
theorem activateStartsTheNewBank : Obligations.ActivateStartsTheNewBank := by
  intro p s f tail rest b ha hr hm hd hmode hstaging hb waits
  have run : exec (.activate p) s = .next (activateScheduler (readied p b rest s)) := by
    rw [exec_activate_asks ha hr hm hd, activate_passes (by simpa using hmode) (by simpa using hstaging) hb,
      activateBank_taken]
  obtain ⟨qc, qb, hqc, hqb, sends⟩ := activateScheduler_sends (readied p b rest s)
  have noHold := activateScheduler_no_hold (readied p b rest s)
  generalize activateScheduler (readied p b rest s) = t at run sends noHold
  have only := sends.only
  have sm : t.sm = .start b := congrArg State.sm only
  have hc : t.hc = .start b (Calculator.start b).result := congrArg State.hc only
  have fc : t.fc = clearMonitorCounters s.fc := congrArg State.fc only
  have tx : t.tx = ⟨t.tx.queues, 0, false, false, 0, 0, none, some b.params.statusPeriod⟩ := congrArg State.tx only
  refine ⟨t, b.toActive, run, congrArg State.active only, rfl, fun i hi hu => ?_, congrArg State.sr only, fun i hi => ?_,
    fun k => ?_, calcStart_started b t (congrArg State.hpc only) hc, ?_, ?_, congrArg (·.fe.buckets) only,
    congrArg (·.fe.refill) only, congrArg Scheduler.owed tx, congrArg Scheduler.outstanding tx,
    congrArg Scheduler.starved tx, congrArg Scheduler.nextDemand tx, congrArg Scheduler.nextStatus tx,
    congrArg Scheduler.demandTimer tx, congrArg Scheduler.statusTimer tx, noHold, ⟨qc, qb, hqc, hqb, ?_⟩,
    congrArg (·.events.set) only, by rw [fc]; rfl, by rw [fc]; rfl, fun i hi => ?_, congrArg State.mail only, ?_⟩
  · rw [toActive_minLength hi hu]
    exact minLength_isMin b i
  · rw [sm]
    exact start_monitors b hi
  · rw [sm]
    exact start_entry b k
  · rw [hc]
    exact holdStart_started b _
  · rw [show t.cm = .start b from congrArg State.cm only]
    exact creepStart_started b
  · have same : { t with
        tx := { t.tx with queues := ⟨qc, qb⟩ }
        events := { t.events with again := s.events.again ||| 1#16 <<< 14 ||| 1#16 } } = { readied p b rest s with
        tx := ⟨⟨qc, qb⟩, 0, false, false, 0, 0, none, some b.params.statusPeriod⟩
        mail := { (readied p b rest s).mail with
          counts := (readied p b rest s).mail.counts ++
            List.replicate (waits.filter fun e => e.cls == .hold).length (.queueDrop .b) } } := by
      rw [only]
      rfl
    rw [same]
    exact sends
  · rw [fc]
    exact replicate_at _ hi
  · rw [only]
    rfl

/-! ## The checks (R182) -/

/-- The check of a number finds what R182 says: nothing in a bank that passes it, and else the entry to report. -/
structure Checked (b : Bank) (n : Nat) (c : Option CheckFailure) : Prop where
  passes : c = none ↔ Passes b n
  reports : ∀ f, c = some f → f.check = n ∧ Reports b n f.entry

section
variable {b : Bank} {n : Nat}

theorem checked_first {bad : Nat → Prop} {o : Option Nat} {table : Nat}
    (h : (∀ i, o = some i → IsFirst bad i) ∧ (o = none ↔ ∀ i, ¬ bad i)) (hp : Passes b n ↔ ∀ i, ¬ bad i)
    (hr : ∀ i, IsFirst bad i → Reports b n (some (i, table))) :
    Checked b n (o.map fun i => ⟨n, some (i, table)⟩) := by
  refine ⟨by rw [Option.map_eq_none_iff, h.2, hp], fun f hf => ?_⟩
  obtain ⟨i, hi, rfl⟩ := Option.map_eq_some_iff.mp hf
  exact ⟨rfl, hr i (h.1 i hi)⟩

/-- A check of two tables: the second is looked at where the first passes. -/
theorem checked_second {bad bad' : Nat → Prop} {o o' : Option Nat} {table table' : Nat} {c : Option CheckFailure}
    (h : (∀ i, o = some i → IsFirst bad i) ∧ (o = none ↔ ∀ i, ¬ bad i))
    (h' : (∀ i, o' = some i → IsFirst bad' i) ∧ (o' = none ↔ ∀ i, ¬ bad' i))
    (hc : (∀ i, o = some i → c = some ⟨n, some (i, table)⟩) ∧
      (o = none → c = o'.map fun i => ⟨n, some (i, table')⟩))
    (hp : Passes b n ↔ ∀ i, ¬ bad i ∧ ¬ bad' i)
    (hr : ∀ e, ((∃ i, e = some (i, table) ∧ IsFirst bad i) ∨
      ((∀ i, ¬ bad i) ∧ ∃ i, e = some (i, table') ∧ IsFirst bad' i)) → Reports b n e) : Checked b n c := by
  cases ho : o with
  | some i =>
    obtain rfl := hc.1 i ho
    have first := h.1 i ho
    refine ⟨by rw [hp]; exact ⟨(nomatch ·), fun ok => absurd first.1 (ok i).1⟩, fun f hf => ?_⟩
    obtain rfl := Option.some.inj hf
    exact ⟨rfl, hr _ (.inl ⟨i, rfl, first⟩)⟩
  | none =>
    obtain rfl := hc.2 ho
    have fine := h.2.mp ho
    refine ⟨by simp [h'.2, hp, fine], fun f hf => ?_⟩
    obtain ⟨i, hi, rfl⟩ := Option.map_eq_some_iff.mp hf
    exact ⟨rfl, hr _ (.inr ⟨fine, i, rfl, h'.1 i hi⟩)⟩

/-- A check that reports no entry. -/
theorem checked_plain {p : Prop} [Decidable p] (hp : Passes b n ↔ p) (hr : Reports b n none) :
    Checked b n (if p then none else some ⟨n, none⟩) := by
  by_cases h : p
  · exact ⟨by simp [hp, h], by simp [h]⟩
  · rw [if_neg h]
    refine ⟨by simp [hp, h], fun f hf => ?_⟩
    obtain rfl := Option.some.inj hf
    exact ⟨rfl, hr⟩

/-- The first of some checks that fails, the checks numbered from `n` on. -/
theorem firstFailure_checked {l : List (Option CheckFailure)} (h : ∀ i c, l[i]? = some c → Checked b (n + i) c) :
    (firstFailure l = none ↔ ∀ i < l.length, Passes b (n + i)) ∧
      ∀ f, firstFailure l = some f → ∃ i < l.length, f.check = n + i ∧ ¬ Passes b (n + i) ∧
        (∀ j < i, Passes b (n + j)) ∧ Reports b (n + i) f.entry := by
  induction l generalizing n with
  | nil => exact ⟨by simp [firstFailure], by simp [firstFailure]⟩
  | cons c l ih =>
    have here : Checked b n c := h 0 c rfl
    cases c with
    | some x =>
      have fails : ¬ Passes b n := fun p => nomatch here.passes.mpr p
      refine ⟨⟨(nomatch ·), fun p => absurd (p 0 (Nat.succ_pos _)) fails⟩, fun f hf => ?_⟩
      obtain rfl := Option.some.inj hf
      obtain ⟨number, entry⟩ := here.reports x rfl
      exact ⟨0, Nat.succ_pos _, number, fails, fun j hj => absurd hj (Nat.not_lt_zero j), entry⟩
    | none =>
      have passed : Passes b n := here.passes.mp rfl
      have shift : ∀ i, n + 1 + i = n + (i + 1) := fun i => by omega
      obtain ⟨ihn, ihf⟩ := ih (n := n + 1) fun i c hc => by rw [shift]; exact h (i + 1) c hc
      simp only [shift] at ihn ihf
      refine ⟨ihn.trans ⟨fun p i hi => ?_, fun p i hi => p (i + 1) (Nat.succ_lt_succ hi)⟩, fun f hf => ?_⟩
      · cases i with
        | zero => exact passed
        | succ i => exact p i (Nat.lt_of_succ_lt_succ hi)
      · obtain ⟨i, hi, number, fails, before, entry⟩ := ihf f hf
        refine ⟨i + 1, Nat.succ_lt_succ hi, number, fails, fun j hj => ?_, entry⟩
        cases j with
        | zero => exact passed
        | succ j => exact before j (Nat.lt_of_succ_lt_succ hj)

theorem checkV1_checked (b : Bank) : Checked b 1 (checkV1 b) :=
  checked_first (firstBad_spec (v1Bad_iff b)) Iff.rfl fun i hi => ⟨i, rfl, hi⟩

theorem checkV2_checked (b : Bank) : Checked b 2 (checkV2 b) :=
  checked_first (firstBad_spec (v2Bad_iff b)) Iff.rfl fun i hi => ⟨i, rfl, hi⟩

theorem checkV3_checked (b : Bank) : Checked b 3 (checkV3 b) := by
  refine checked_second (firstBad_spec
    (f := fun seen (x : MonitorEntry) => x.inUse && (b.extractionsOf seen.length).isEmpty) (v3Unnamed_iff b)) (firstBad_spec
    (f := fun _ (x : Extraction) => x.kind.isSome && !(b.monitor x.monitor).inUse) (v3Dangling_iff b))
    ⟨fun i hi => ?_, fun h => ?_⟩ Iff.rfl fun _ h => h
  · rw [checkV3, unnamedMonitor, hi]
  · rw [checkV3, unnamedMonitor, h]

theorem checkV4_checked (b : Bank) : Checked b 4 (checkV4 b) :=
  checked_first (firstBad_spec (v4Bad_iff b)) Iff.rfl fun i hi => ⟨i, rfl, hi⟩

theorem mem_wheels {k : SignalKind} : k ∈ SignalKind.wheels ↔ ∃ n : Fin 8, k = .wheelPulse n := by
  have all : SignalKind.wheels = (List.finRange 8).map SignalKind.wheelPulse := rfl
  simp [all, eq_comm]

theorem two_wheels_iff (b : Bank) : 2 ≤ (SignalKind.wheels.filter b.mapped).length ↔
    ∃ m n : Fin 8, m ≠ n ∧ Stands b (.wheelPulse m) ∧ Stands b (.wheelPulse n) := by
  have distinct : (SignalKind.wheels.filter b.mapped).Nodup := List.Nodup.filter _ (by decide)
  rw [← List.toFinset_card_of_nodup distinct]
  refine Finset.one_lt_card.trans ?_
  simp only [List.mem_toFinset, List.mem_filter, mem_wheels, mapped_iff]
  constructor
  · rintro ⟨_, ⟨⟨m, rfl⟩, hm⟩, _, ⟨⟨n, rfl⟩, hn⟩, hne⟩
    exact ⟨m, n, fun e => hne (by rw [e]), hm, hn⟩
  · rintro ⟨m, n, hne, hm, hn⟩
    exact ⟨_, ⟨⟨m, rfl⟩, hm⟩, _, ⟨⟨n, rfl⟩, hn⟩, fun e => hne (SignalKind.wheelPulse.inj e)⟩

theorem checkV5_checked (b : Bank) : Checked b 5 (checkV5 b) := by
  refine checked_plain ?_ rfl
  simp only [Passes, Bool.and_eq_true, List.all_eq_true, mapped_iff, decide_eq_true_eq, two_wheels_iff]

theorem checkV6_checked (hw : ∀ x ∈ b.extractions, 1 ≤ x.width) : Checked b 6 (checkV6 b) := by
  refine checked_second (firstBad_spec (f := fun _ (x : Extraction) => x.kind.isSome && !extractionPlaced b x)
    (v6BadExtraction_iff b hw)) (firstBad_spec
    (f := fun _ x => !counterPlaced x) (v6BadCounter_iff b)) ⟨fun i hi => ?_, fun h => ?_⟩ Iff.rfl fun _ h => h
  · rw [checkV6, hi]
  · rw [checkV6, h]

theorem checkV7_checked (b : Bank) : Checked b 7 (checkV7 b) :=
  checked_first (firstBad_spec (v7Bad_iff b)) Iff.rfl fun i hi => ⟨i, rfl, hi⟩

theorem checkV8_checked (b : Bank) : Checked b 8 (checkV8 b) := by
  refine checked_plain ?_ rfl
  have ports : ∀ f : Port → Prop, (∀ p, f p) ↔ f .c ∧ f .b := fun f =>
    ⟨fun h => ⟨h .c, h .b⟩, fun h p => by cases p <;> simp [h]⟩
  simp only [Passes, ports, and_assoc]
  rfl

theorem checkV9_checked (b : Bank) : Checked b 9 (checkV9 b) := by
  refine checked_plain ?_ rfl
  simp only [Passes, Bool.and_eq_true, strictlyIncreasing_iff]

theorem isServiceIdent_eq_false_iff (i : Ident) :
    isServiceIdent i = false ↔ ∀ n, 0x6F0 ≤ n → n ≤ 0x6FF → i ≠ .std n := by
  obtain ⟨ext, value⟩ := i
  cases ext
  case true => simp [isServiceIdent, Ident.std]
  case false =>
    simp only [isServiceIdent, Ident.std, Bool.not_false, Bool.true_and, Bool.and_eq_false_imp, decide_eq_true_eq,
      decide_eq_false_iff_not, ne_eq, Ident.mk.injEq, true_and]
    exact ⟨fun h n lo hi e => h (e ▸ lo) (e ▸ hi), fun h lo hi => h value lo hi rfl⟩

theorem checkV10_checked (b : Bank) : Checked b 10 (checkV10 b) := by
  refine checked_plain ?_ rfl
  simp only [Passes, Bool.and_eq_true, bne_iff_ne, Bool.not_eq_true', isServiceIdent_eq_false_iff, List.all_eq_true,
    Bool.or_eq_true]
  constructor
  · rintro ⟨hne, ident, entries⟩
    refine ⟨⟨⟨hne, fun n lo hi => (ident n lo hi).1⟩, fun n lo hi => (ident n lo hi).2⟩, fun e he => ?_⟩
    exact (Bool.eq_false_or_eq_true e.inUse).symm.imp_right (entries e he)
  · rintro ⟨⟨⟨hne, demand⟩, status⟩, entries⟩
    refine ⟨hne, fun n lo hi => ⟨demand n lo hi, status n lo hi⟩, fun e he hu => ?_⟩
    exact (entries e he).resolve_left (by simp [hu])

theorem passes_other (h : n = 0 ∨ 10 < n) : Passes b n := by
  unfold Passes
  split <;> simp_all

theorem checkBank_checked (hw : ∀ x ∈ b.extractions, 1 ≤ x.width) :
    (checkBank b = none ↔ ∀ n, Passes b n) ∧
    (∀ f, checkBank b = some f → ¬ Passes b f.check ∧ (∀ n < f.check, Passes b n) ∧ Reports b f.check f.entry) := by
  obtain ⟨none, some⟩ := firstFailure_checked (b := b) (n := 1) (l := [checkV1 b, checkV2 b, checkV3 b, checkV4 b,
    checkV5 b, checkV6 b, checkV7 b, checkV8 b, checkV9 b, checkV10 b]) fun i c hc => by
    have hi : i < 10 := (List.getElem?_eq_some_iff.mp hc).1
    interval_cases i <;> obtain rfl := Option.some.inj hc
    · exact checkV1_checked b
    · exact checkV2_checked b
    · exact checkV3_checked b
    · exact checkV4_checked b
    · exact checkV5_checked b
    · exact checkV6_checked hw
    · exact checkV7_checked b
    · exact checkV8_checked b
    · exact checkV9_checked b
    · exact checkV10_checked b
  refine ⟨none.trans ⟨fun h n => ?_, fun h i _ => h _⟩, fun f hf => ?_⟩
  · by_cases hn : n = 0 ∨ 10 < n
    · exact passes_other hn
    · obtain ⟨i, rfl⟩ : ∃ i, n = 1 + i := ⟨n - 1, by omega⟩
      exact h i (by simp only [List.length_cons, List.length_nil]; omega)
  · obtain ⟨i, -, number, fails, before, entry⟩ := some f hf
    rw [number]
    refine ⟨fails, fun n hn => ?_, entry⟩
    cases n with
    | zero => exact passes_other (.inl rfl)
    | succ n => rw [Nat.add_comm]; exact before n (by omega)

end

/-- Settles O7: `checkBank_checked` for the order of the checks; a bank that fails one is answered and nothing else
runs. -/
theorem activateReportsTheFirstFailedCheck : Obligations.ActivateReportsTheFirstFailedCheck := by
  refine ⟨fun b hw => checkBank_checked hw, fun p s f tail rest ha hr hm hd => ⟨fun hmode => ?_, ?_, ?_⟩⟩
  · rw [exec_activate_asks ha hr hm hd, activate_refused (by simpa using hmode), respond_eq _ _ _ _ _ rfl]
    rfl
  · intro b n hmode hs hc
    rw [exec_activate_asks ha hr hm hd, activate_fails (by simpa using hmode) (by simpa using hs) hc,
      respond_eq _ _ _ _ _ rfl]
    rfl
  · intro b n i table hmode hs hc
    rw [exec_activate_asks ha hr hm hd, activate_fails (by simpa using hmode) (by simpa using hs) hc,
      respond_eq _ _ _ _ _ rfl]
    rfl

/-! ## The store write (R184) -/

section
variable {p : Port} {s : State} {a : ActiveBank}

theorem writeSpare_current (s : Store) (x : StoreArea) : (s.writeSpare x).current = s.current := by
  unfold Store.writeSpare Store.current
  split <;> simp [*]

theorem switched_current (s : Store) (x : StoreArea) :
    ({ s.writeSpare x with second := !(s.writeSpare x).second } : Store).current = x := by
  unfold Store.writeSpare Store.current
  cases s.second <;> simp

theorem storeWritten_respond (ok : Bool) (hp : s.sr.storeWrite = some p) (ha : s.active = some a) :
    storeWritten ok s = if ok then
        respond p 5 (.just .ok) false ((setResponder (fun r => { r with storeWrite := none }) s).setStore
          { s.store.writeSpare (.holds a.bank true) with
            second := !(s.store.writeSpare (.holds a.bank true)).second })
      else
        respond p 5 (.just .storeFailed) false (report .minor .storeFailed .none
          ((setResponder (fun r => { r with storeWrite := none }) s).setStore (s.store.writeSpare .spoiled))) := by
  unfold storeWritten
  rw [hp, ha]

theorem storeWritten_eq (ok : Bool) (hp : s.sr.storeWrite = some p) (ha : s.active = some a) :
    ∃ store, store.current = (if ok then .holds a.bank true else s.store.current) ∧
      storeWritten ok s = answered p 5 (if ok then .ok else .storeFailed) [0, 0, 0, 0, 0, 0] { s with
        store := store
        sr := { s.sr with storeWrite := none }
        mail := { s.mail with
          faults := s.mail.faults ++ (if ok then [] else [⟨.minor, .storeFailed, .none, none⟩]) } } := by
  rw [storeWritten_respond ok hp ha]
  cases ok
  case true =>
    refine ⟨_, switched_current s.store (.holds a.bank true), ?_⟩
    rw [if_pos rfl, if_pos rfl, if_pos rfl, List.append_nil]
    exact respond_eq _ _ _ _ _ rfl
  case false => exact ⟨_, writeSpare_current s.store .spoiled, respond_eq _ _ _ _ _ rfl⟩

end

/-- Settles O8: `storeWritten_eq` gives the store, the response and the report for both outcomes. -/
theorem storeWriteCompletes : Obligations.StoreWriteCompletes := by
  intro ok p s a hp ha
  obtain ⟨store, hs, e⟩ := storeWritten_eq ok hp ha
  exact ⟨_, congrArg Host.Outcome.next e, hs, rfl⟩

/-! ## RESET_PART (R186) -/

/-- Settles O9: the condition of R186 decides between the answer that makes the reset due and the refusal. -/
theorem resetPartIsAnswered : Obligations.ResetPartIsAnswered := by
  intro p s f tail rest ha hr hm hd
  have run : exec (.resetPart p) s = .next (resetPart p (taken rest s)) :=
    congrArg Host.Outcome.next (serve_asks _ ha hr hm hd rfl (Nat.zero_le _))
  refine ⟨fun h => ?_, fun h1 h2 h3 => ?_⟩
  · rw [run, resetPart, if_pos (by simpa using h)]
    refine congrArg Host.Outcome.next ?_
    unfold taken
    split <;> rfl
  · rw [run, resetPart, if_neg (by simp [h1, h2, h3]), respond_eq _ _ _ _ _ rfl]
    rfl

/-! ## Service mode (R176, R179, R180) -/

section
variable {p : Port} {s : State}

theorem enterService_enters (hm : s.sr.serviceMode = false) (hs : s.hc.state = .parked ∨ s.hc.state = .off) :
    enterService s = (.just .ok, { s with
      sr := { s.sr with serviceMode := true, staging := some (stagingSource s), idle := some 60000 } }) := by
  rw [enterService, if_neg (by simp [hm]), if_pos hs]
  rfl

theorem enterService_refused (h : s.sr.serviceMode = true ∨ (s.hc.state ≠ .parked ∧ s.hc.state ≠ .off)) :
    enterService s = (.just .refusedState, s) := by
  unfold enterService
  split
  · rfl
  · rw [if_neg]
    rintro (h1 | h1) <;> simp_all

end

/-- Settles O46: each command by the mode and the hold state it finds, the defaults by `default_defaults`. -/
theorem serviceModeBeginsAndEnds : Obligations.ServiceModeBeginsAndEnds := by
  intro p s ended
  refine ⟨fun f tail rest ha hr hm hd => ?_, fun f tail rest ha hr hm hd => ?_, fun h => ?_⟩
  · have run := serveNow_asks (n := 0) (fun _ s => enterService s) ha hr hm hd rfl (Nat.zero_le _)
    refine ⟨fun hmode hs => ⟨_, stagingSource s, congrArg Host.Outcome.next run, ?_, ?_, ?_⟩, fun h => ?_⟩
    · intro a h
      rw [stagingSource, h]
    · intro h
      rw [stagingSource, h]
      exact ⟨rfl, default_defaults⟩
    · rw [enterService_enters (by simpa using hmode) (by simpa using hs)]
      have same : taken rest s = { s with mail := { s.mail with requests := rest } } := by simp [taken, hmode]
      rw [same]
      rfl
    · rw [enterService_refused (by simpa using h)] at run
      exact congrArg Host.Outcome.next run
  · have run := serveNow_asks (n := 0) (fun _ s => exitService s) ha hr hm hd rfl (Nat.zero_le _)
    refine ⟨fun hmode => ?_, fun hmode => ?_⟩
    all_goals
      simp only [exitService, taken_serviceMode, hmode] at run
      exact congrArg Host.Outcome.next run
  · refine congrArg Host.Outcome.next ?_
    unfold idleExpired
    rw [h]
    rfl

end Sys2Proof.Machine
end

