-- ==== Sys2Proof/Proofs/ForwardingRules.lean ====
section
/-! PROOF. Arrivals, the lookup, policing and refill (O11 to O14). -/

namespace Sys2Proof.Machine

section
variable {p : Port} {f : Frame} {s : State} {a : ActiveBank}

/-! ## Arrivals (R140, R145) -/

theorem takeArrival_not_taken (h : s.loading = true ∨ (s.links.get p).busOff = true) : takeArrival p f s = s := by
  rw [takeArrival, if_neg]
  rcases h with h | h <;> simp [takesArrivals, h]

theorem takeArrival_taken (hf : f.wf = true) (hl : s.loading = false) (hb : (s.links.get p).busOff = false) :
    takeArrival p f s = if (ownIdents s).contains f.ident then idConflict p (count (.rx p) s)
      else if f.ident = requestIdent s then steer p f (count (.rx p) s)
      else makeCopies p f (verdict s p f) (count (.rx p) s) := by
  rw [takeArrival, if_pos]
  simp [takesArrivals, hf, hl, hb]

theorem mem_ownIdents : f.ident ∈ ownIdents s ↔
    (∃ a, s.active = some a ∧ (f.ident = a.bank.params.demandIdent ∨ f.ident = a.bank.params.statusIdent)) ∨
      (s.active = none ∧ f.ident = .std 0x3E0) ∨ f.ident = responseIdent s := by
  unfold ownIdents
  cases s.active <;> simp [or_assoc]

/-- The identifiers of service requests are not those of the responses, for the node number has three bits. -/
theorem requestIdent_ne_responseIdent (s : State) : requestIdent s ≠ responseIdent s := by
  intro h
  have := congrArg Ident.value h
  simp only [requestIdent, responseIdent, Ident.std] at this
  omega

theorem takeArrival_looked_up (hf : f.wf = true) (hl : s.loading = false) (hb : (s.links.get p).busOff = false)
    (own : f.ident ∉ ownIdents s) (hr : f.ident ≠ requestIdent s) :
    takeArrival p f s = makeCopies p f (verdict s p f) (count (.rx p) s) := by
  rw [takeArrival_taken hf hl hb, if_neg (by simpa using own), if_neg hr]

end

/-- Settles O11: a frame not taken is dropped first, then one of the identifiers of this part is a conflict, then a
request. -/
theorem arrivalDroppedOrSteered : Obligations.ArrivalDroppedOrSteered := by
  intro p f s hf
  refine ⟨fun h => congrArg Host.Outcome.next (takeArrival_not_taken h), fun hl hb own => ?_, fun hl hb ha hr => ?_⟩
  · have conflict : takeArrival p f s = idConflict p (count (.rx p) s) := by
      rw [takeArrival_taken hf hl hb, if_pos (by simpa using mem_ownIdents.mpr own)]
    refine ⟨_, congrArg Host.Outcome.next conflict, rfl, ?_⟩
    simp [idConflict, report, raise, count, State.setMail, State.setEvents]
  · have own : f.ident ∉ ownIdents s := by
      rw [mem_ownIdents]
      rintro (⟨a, h, h1 | h1⟩ | ⟨-, h1⟩ | h1)
      · exact (ha a h).1 h1
      · exact (ha a h).2 h1
      · rw [hr] at h1
        have := congrArg Ident.value h1
        simp only [Ident.std] at this
        omega
      · exact requestIdent_ne_responseIdent s (hr.symm.trans h1)
    refine congrArg Host.Outcome.next ?_
    rw [takeArrival_taken hf hl hb, if_neg (by simpa using own), if_pos (show f.ident = requestIdent s from hr)]
    rfl

/-! ## The copies (R146 to R148) -/

section
variable {p : Port} {f : Frame} {s : State} {a : ActiveBank} {cls : Nat}

theorem forwardCopy_busOff (h : (s.links.get p.other).busOff = true) :
    forwardCopy p f cls s = count (.queueDrop p.other) s := if_pos h

theorem forwardCopy_unpoliced (h : (s.links.get p.other).busOff = false) :
    forwardCopy p f 0 s = postOffer ⟨p.other, .forward, f, false⟩ s := by
  simp [forwardCopy, h]

theorem forwardCopy_policed (h : (s.links.get p.other).busOff = false) (hc : cls ≠ 0) (ht : s.fe.tokens cls = 0) :
    forwardCopy p f cls s = count (.policed p) s := by
  simp [forwardCopy, h, hc, ht]

theorem forwardCopy_offered (h : (s.links.get p.other).busOff = false) (hc : cls ≠ 0) (ht : s.fe.tokens cls ≠ 0) :
    forwardCopy p f cls s = postOffer ⟨p.other, .forward, f, false⟩ (s.setFe (s.fe.takeToken cls)) := by
  simp [forwardCopy, h, hc, ht]

theorem verdict_matched {e : ForwardEntry} (ha : s.active = some a) (hr : f.remote = false)
    (he : lookup a.bank p f = some e) : verdict s p f =
      { forward := if e.action.passes then some e.rateClass else none
        watch := if e.action.watches then some e.monitor else none } := by
  simp [verdict, ha, hr, he]

theorem lookup_eq_none_iff {b : Bank} : lookup b p f = none ↔
    ∀ x ∈ b.forwarding, x.inUse = true → x.ident = f.ident → x.port.matches p = false := by
  simp [lookup, List.find?_eq_none]

/-- What an arrival that no entry matches comes to: the default action, pass-through, or nothing for a remote frame. -/
theorem verdict_unmatched (h : f.remote = true ∨ ∀ a, s.active = some a → lookup a.bank p f = none) :
    verdict s p f = ⟨if f.remote = true ∨ (∃ a, s.active = some a ∧ blocksByDefault a.bank p = true)
      then none else some 0, none⟩ := by
  cases hr : f.remote
  case true => simp [verdict, hr]
  case false =>
    have none := h.resolve_left (by simp [hr])
    cases ha : s.active with
    | none => simp [verdict, hr, ha]
    | some a => simp [verdict, hr, ha, none a ha]

theorem blocksByDefault_iff {b : Bank} : blocksByDefault b p = true ↔
    (p = .c ∧ b.params.blockDefaultC = true) ∨ (p = .b ∧ b.params.blockDefaultB = true) := by
  cases p <;> simp [blocksByDefault]

end

/-- Settles O12: `verdict_matched` names the copies, and each action follows from what the bucket and the port then do.
-/
theorem arrivalMatchedByAnEntry : Obligations.ArrivalMatchedByAnEntry := by
  intro p f s a e hf hl hb ha hr hd ht hresp hreq he watched out
  have own : f.ident ∉ ownIdents s := by
    rw [mem_ownIdents]
    rintro (⟨x, h, h1⟩ | ⟨h, -⟩ | h1)
    · obtain rfl := Option.some.inj (ha.symm.trans h)
      exact h1.elim hd ht
    · simp [ha] at h
    · exact hresp h1
  have run : exec (.arrival p f) s = .next (makeCopies p f
      { forward := if e.action.passes then some e.rateClass else none
        watch := if e.action.watches then some e.monitor else none } (count (.rx p) s)) := by
    rw [← verdict_matched ha hr he]
    exact congrArg Host.Outcome.next (takeArrival_looked_up hf hl hb own hreq)
  let u : State := { s with mail := { s.mail with watch := watched, counts := s.mail.counts ++ [.rx p] } }
  have copies : e.action = .pass ∨ e.action = .passWatch →
      exec (.arrival p f) s = .next (forwardCopy p f e.rateClass u) := by
    rintro (h | h) <;> simp only [run, u, watched, h] <;> rfl
  refine ⟨fun h => ?_, fun h => ?_, fun h => ⟨fun off => ?_, fun on h0 => ?_,
    fun tokens on h0 hb => ⟨fun h1 => ?_, fun h1 => ?_⟩⟩⟩
  · simp only [run, out, watched, h, List.append_nil]
    rfl
  · simp only [run, out, watched, h, List.append_nil]
    simp [makeCopies, Action.passes, Action.watches, count, State.setMail]
  · refine (copies h).trans (congrArg Host.Outcome.next ((forwardCopy_busOff (s := u) off).trans ?_))
    simp [out, u, count, State.setMail]
  · rw [h0] at copies
    exact (copies h).trans (congrArg Host.Outcome.next (forwardCopy_unpoliced (s := u) on))
  · refine (copies h).trans (congrArg Host.Outcome.next ((forwardCopy_policed (s := u) on h0 ?_).trans ?_))
    · simp [u, ForwardingEngine.tokens, hb, h1]
    · simp [out, u, count, State.setMail]
  · have some : s.fe.tokens e.rateClass = tokens := by simp [ForwardingEngine.tokens, hb]
    rw [← some] at h1 ⊢
    exact (copies h).trans (congrArg Host.Outcome.next (forwardCopy_offered (s := u) on h0 (Nat.ne_of_gt h1)))

/-- Settles O13: `verdict_unmatched` leaves one copy of class 0 or none, as the default action decides. -/
theorem arrivalMatchedByNoEntry : Obligations.ArrivalMatchedByNoEntry := by
  intro p f s hf hl hb ha hn hresp hreq blocks
  have own : f.ident ∉ ownIdents s := by
    rw [mem_ownIdents]
    rintro (⟨x, h, h1 | h1⟩ | ⟨h, h1⟩ | h1)
    · exact (ha x h).1 h1
    · exact (ha x h).2.1 h1
    · exact hn h h1
    · exact hresp h1
  have unmatched : f.remote = true ∨ ∀ a, s.active = some a → lookup a.bank p f = none := by
    cases hr : f.remote
    case true => exact .inl rfl
    case false => exact .inr fun a h => lookup_eq_none_iff.mpr ((ha a h).2.2.resolve_left (by simp [hr]))
  have run : exec (.arrival p f) s = .next (makeCopies p f ⟨if blocks then none else some 0, none⟩ (count (.rx p) s)) := by
    refine congrArg Host.Outcome.next ?_
    rw [takeArrival_looked_up hf hl hb own hreq, verdict_unmatched unmatched]
    simp only [blocksByDefault_iff]
    rfl
  refine ⟨fun h => ?_, fun h off => ?_, fun h on => ?_⟩
  · rw [run, if_pos h]
    simp [makeCopies, count, State.setMail]
  · rw [run, if_neg h]
    refine congrArg Host.Outcome.next ((forwardCopy_busOff (s := count (.rx p) s) off).trans ?_)
    simp [count, State.setMail]
  · rw [run, if_neg h]
    exact congrArg Host.Outcome.next (forwardCopy_unpoliced (s := count (.rx p) s) on)

/-! ## Refill (R149) -/

theorem refillBuckets_get (b : Bank) (first : Nat) (l : List Nat) (i : Nat) :
    (refillBuckets b first l)[i]? =
      l[i]?.map fun t => satAdd (b.rate (first + i)).depth t (b.rate (first + i)).refill := by
  induction l generalizing first i with
  | nil => rfl
  | cons t l ih =>
    cases i with
    | zero => rfl
    | succ i =>
      have shift : first + 1 + i = first + (i + 1) := by omega
      simp only [refillBuckets, List.getElem?_cons_succ, ih, shift]

theorem refillBuckets_length (b : Bank) (first : Nat) (l : List Nat) : (refillBuckets b first l).length = l.length := by
  induction l generalizing first with
  | nil => rfl
  | cons t l ih => simp only [refillBuckets, List.length_cons, ih]

/-- Settles O14: `refillBuckets_get` gives the tokens of each class. -/
theorem refillFillsTheBuckets : Obligations.RefillFillsTheBuckets := by
  intro s a ha hr hl
  have run : refillExpired s = s.setFe ⟨refillBuckets a.bank 1 s.fe.buckets, some 100⟩ := by
    unfold refillExpired
    rw [ha, hr]
    rfl
  refine ⟨_, congrArg Host.Outcome.next run, rfl, (refillBuckets_length _ _ _).trans hl, fun c h1 h7 => ?_, rfl⟩
  have within : c - 1 < s.fe.buckets.length := by omega
  have number : 1 + (c - 1) = c := by omega
  simp only [State.setFe_fe, ForwardingEngine.tokens, refillBuckets_get, number, List.getElem?_eq_getElem within]
  rfl

end Sys2Proof.Machine
end

