-- ==== Sys2Proof/Proofs/WatchedSamples.lean ====
section
/-! PROOF. The tests of a watched frame, and the samples of the sync machine (O15 to O17). -/

namespace Sys2Proof.Machine

/-! ## The tests of a frame (R8 to R11) -/

section
variable {a : ActiveBank} {i : Nat} {m : MonitorState} {cm : CreepMonitor} {data : List Byte} {baseline : Option Nat}

/-- The tests of length and check byte are passed (R8, steps 1 and 2). -/
def Entitled (a : ActiveBank) (i : Nat) (data : List Byte) : Prop :=
  a.minLength i ≤ data.length ∧
    ¬ ((a.bank.monitor i).checkPos ≠ 0 ∧ checkOk (a.bank.monitor i).checkPos (a.bank.monitor i).checkSeed data = false)

/-- The extraction test of a frame monitor's extractions (R8, step 4). -/
def extracted (a : ActiveBank) (i : Nat) (m : MonitorState) (cm : CreepMonitor) (baseline : Option Nat)
    (data : List Byte) : FrameTest :=
  extractionTest (a.bank.extractionsOf i) (m.sync == .valid) cm baseline data

/-- The counter test of a frame (R10). -/
def countedBy (a : ActiveBank) (i : Nat) (m : MonitorState) (data : List Byte) : Option SampleError × Option Nat :=
  counterTest (a.bank.monitor i).counterMod
    (rawField data (a.bank.monitor i).counterStart (a.bank.monitor i).counterWidth) m.baseline

theorem checkOk_iff {pos seed : Nat} {v : Byte} (h : data[pos]? = some v) :
    checkOk pos seed data = true ↔ v.toNat = 255 - (seed + byteSum (data.take pos)) % 256 := by
  simp [checkOk, checkByte, h]

theorem testFrame_short (h : data.length < a.minLength i) :
    testFrame a i m cm data = ⟨some .length, m.baseline, [], []⟩ := if_pos h

theorem testFrame_unchecked (h : a.minLength i ≤ data.length) (hp : (a.bank.monitor i).checkPos ≠ 0)
    (hc : checkOk (a.bank.monitor i).checkPos (a.bank.monitor i).checkSeed data = false) :
    testFrame a i m cm data = ⟨some .check, m.baseline, [], []⟩ :=
  (if_neg (Nat.not_lt.mpr h)).trans (if_pos ⟨hp, hc⟩)

theorem testFrame_uncounted (h : Entitled a i data) (hm : (a.bank.monitor i).counterMod = 0) :
    testFrame a i m cm data = extracted a i m cm m.baseline data :=
  (if_neg (Nat.not_lt.mpr h.1)).trans ((if_neg h.2).trans (if_pos hm))

theorem testFrame_counted (h : Entitled a i data) (hm : (a.bank.monitor i).counterMod ≠ 0) :
    testFrame a i m cm data = match countedBy a i m data with
      | (some err, baseline) => ⟨some err, baseline, [], []⟩
      | (none, baseline) => extracted a i m cm baseline data :=
  (if_neg (Nat.not_lt.mpr h.1)).trans ((if_neg h.2).trans (if_neg hm))

theorem testFrame_counter_fails {err : SampleError} (h : Entitled a i data) (hm : (a.bank.monitor i).counterMod ≠ 0)
    (hc : countedBy a i m data = (some err, baseline)) : testFrame a i m cm data = ⟨some err, baseline, [], []⟩ := by
  rw [testFrame_counted h hm, hc]

theorem testFrame_counter_passes (h : Entitled a i data) (hm : (a.bank.monitor i).counterMod ≠ 0)
    (hc : countedBy a i m data = (none, baseline)) : testFrame a i m cm data = extracted a i m cm baseline data := by
  rw [testFrame_counted h hm, hc]

theorem extracted_error (e : SampleError) (h : (extracted a i m cm baseline data).error = some e) : e = .range := by
  have range := (extractionTest_tested _ _ cm baseline data).range (by rw [← extracted, h]; exact nofun)
  exact Option.some.inj (h.symm.trans range)

/-- The counter test of a frame whose counter is below the modulus (R10). -/
theorem counterTest_below {modulus ctr : Nat} {base : Option Nat} (h : ctr < modulus) :
    counterTest modulus ctr base = match base with
      | none => (none, some ctr)
      | some base => if ctr = base then (some .counterRepeat, some base)
        else if ctr = (base + 1) % modulus then (none, some ctr)
        else (some .counterJump, some ctr) := if_neg (Nat.not_le.mpr h)

theorem counterTest_error {modulus ctr : Nat} {base : Option Nat} {e : SampleError}
    (h : (counterTest modulus ctr base).1 = some e) : e = .counterJump ∨ e = .counterRepeat := by
  unfold counterTest at h
  split at h
  · exact .inl (Option.some.inj h).symm
  · split at h
    · cases h
    · split at h
      · exact .inr (Option.some.inj h).symm
      · split at h
        · cases h
        · exact .inl (Option.some.inj h).symm

/-- A frame that passes the tests of length and check byte fails neither of them. -/
theorem testFrame_entitled_error (h : Entitled a i data) {e : SampleError}
    (he : (testFrame a i m cm data).error = some e) : e ≠ .check ∧ e ≠ .length := by
  by_cases hm : (a.bank.monitor i).counterMod = 0
  · rw [testFrame_uncounted h hm] at he
    rw [extracted_error e he]
    exact ⟨nofun, nofun⟩
  · cases hc : countedBy a i m data with
    | mk error baseline =>
      cases error with
      | none =>
        rw [testFrame_counter_passes h hm hc] at he
        rw [extracted_error e he]
        exact ⟨nofun, nofun⟩
      | some err =>
        rw [testFrame_counter_fails h hm hc] at he
        obtain rfl := Option.some.inj he
        rcases counterTest_error (congrArg Prod.fst hc) with rfl | rfl <;> exact ⟨nofun, nofun⟩

end

/-- Settles O15: each test is the one before it passed, and the extraction test is `extractionTest_tested`. -/
theorem frameTestsInTheirOrder : Obligations.FrameTestsInTheirOrder := by
  intro a i m cm data e test good
  refine ⟨fun h => ?_, fun hl v hp hv => ⟨fun bad => ?_, fun ok => ?_⟩, fun hl hc => ?_⟩
  · simp only [test, testFrame_short h, and_self]
  · have unchecked : checkOk e.checkPos e.checkSeed data = false :=
      Bool.eq_false_iff.mpr fun h => bad ((checkOk_iff hv).mp h)
    simp only [test, testFrame_unchecked hl hp unchecked, and_self]
  · have entitled : Entitled a i data := ⟨hl, fun h => absurd h.2 (by simpa using (checkOk_iff hv).mpr ok)⟩
    exact ⟨fun h => (testFrame_entitled_error entitled h).1 rfl, fun h => (testFrame_entitled_error entitled h).2 rfl⟩
  · have entitled : Entitled a i data := by
      refine ⟨hl, fun ⟨hp, h⟩ => ?_⟩
      obtain ⟨v, hv, ok⟩ := hc.resolve_left hp
      exact absurd h (by simpa using (checkOk_iff hv).mpr ok)
    intro counter exts extracts
    have tested : ∀ baseline, test = extracted a i m cm baseline data → test.baseline = baseline ∧ extracts := by
      intro baseline h
      refine ⟨congrArg FrameTest.baseline h, ?_⟩
      show ExtractionTested exts _ cm data test
      rw [h]
      exact extractionTest_tested ..
    have fails : ∀ err baseline, e.counterMod ≠ 0 → counterTest e.counterMod counter m.baseline = (some err, baseline) →
        test.error = some err ∧ test.baseline = baseline ∧ test.refused = [] := by
      intro err baseline hm h
      simp only [test, testFrame_counter_fails entitled hm h, and_self]
    have passes : ∀ baseline, e.counterMod ≠ 0 → counterTest e.counterMod counter m.baseline = (none, baseline) →
        test.baseline = baseline ∧ extracts := fun baseline hm h => tested _ (testFrame_counter_passes entitled hm h)
    refine ⟨fun hm => tested _ (testFrame_uncounted entitled hm), fun hm h => fails _ _ hm (if_pos h),
      fun hm h hb => passes _ hm ?_, fun base hm h hb => ?_⟩
    · rw [counterTest_below h, hb]
    have below := counterTest_below (base := m.baseline) h
    rw [hb] at below
    refine ⟨fun hr => fails _ _ hm ?_, fun hr hs => passes _ hm ?_, fun hr hs => fails _ _ hm ?_⟩
    · rw [hb, below]
      exact if_pos hr
    · rw [hb, below]
      exact (if_neg hr).trans (if_pos hs)
    · rw [hb, below]
      exact (if_neg hr).trans (if_neg hs)

/-! ## Watch copies (R8, R12) -/

section
variable {i : Fin 24} {s : State} {a : ActiveBank} {f : Frame} {before after : List WatchCopy}

theorem takeWatchCopy_eq (ha : s.active = some a) (hw : s.mail.watch = before ++ ⟨i.val, f⟩ :: after)
    (hb : ∀ w ∈ before, w.monitor ≠ i.val) : takeWatchCopy i s =
      if (a.bank.monitor i).inUse = true ∧ f.ident = (a.bank.monitor i).ident then
        takeFrame i a f (s.setMail { s.mail with watch := before ++ after })
      else s.setMail { s.mail with watch := before ++ after } := by
  have first : takeFirst (fun w => w.monitor == i.val) s.mail.watch = some (⟨i.val, f⟩, before ++ after) :=
    takeFirst_some.mpr ⟨before, after, hw, by simp, fun w h => by simpa using hb w h, rfl⟩
  unfold takeWatchCopy
  rw [first, ha]

/-- The part before the sample of an arriving frame: the period timer started, the baseline of the test, a counter jump
raised, and the refused counts handed on (R8, R12, R110). -/
def sampled (i : Fin 24) (a : ActiveBank) (f : Frame) (s : State) : State :=
  let e := a.bank.monitor i
  let m := s.sm.state i
  let t := testFrame a i m s.cm f.data
  let s1 := setMonitor i { m with timer := some (e.period + e.period / 2), baseline := baselineAfter m t } s
  handRefused t.refused (if t.error = some .counterJump then raise .counterJump s1 else s1)

theorem takeFrame_good (h : (testFrame a i (s.sm.state i) s.cm f.data).error = none) :
    takeFrame i a f s = takeGood i a.bank (testFrame a i (s.sm.state i) s.cm f.data).values
      (setMonitor i { s.sm.state i with
        timer := some ((a.bank.monitor i).period + (a.bank.monitor i).period / 2)
        baseline := (testFrame a i (s.sm.state i) s.cm f.data).baseline } s) := by
  simp [takeFrame, h, refused_nil h, baselineAfter, handRefused]

theorem takeFrame_error {e : SampleError} (h : (testFrame a i (s.sm.state i) s.cm f.data).error = some e) :
    takeFrame i a f s = takeError i a.bank (sampled i a f s) := by
  simp only [takeFrame, h, sampled]

end

/-! ## A value accepted (R18) -/

section
variable {k : SignalKind} {debounce : Bool} {d : Int} {e : SvtEntry}

theorem acceptValue_continuous (h : k.codes = none) : acceptValue k debounce d e = (⟨.valid, some d, none⟩, true) := by
  simp [acceptValue, SignalKind.isDiscrete, h]

theorem isDiscrete_of_codes (h : k.codes ≠ none) : k.isDiscrete = true := Option.isSome_iff_ne_none.mpr h

theorem acceptValue_held (h : k.codes ≠ none) (hv : e.value = some d) :
    acceptValue k debounce d e = ({ e with candidate := none }, false) := by
  simp [acceptValue, isDiscrete_of_codes h, hv]

theorem acceptValue_changed (h : k.codes ≠ none) (hv : e.value ≠ some d) (hd : debounce = false ∨ e.candidate = some d) :
    acceptValue k debounce d e = ({ e with value := some d, candidate := none }, true) := by
  rcases hd with hd | hd <;> simp [acceptValue, isDiscrete_of_codes h, hv, hd]

theorem acceptValue_candidate (h : k.codes ≠ none) (hv : e.value ≠ some d) (hd : debounce = true)
    (hn : e.candidate ≠ some d) : acceptValue k debounce d e = ({ e with candidate := some d }, false) := by
  simp [acceptValue, isDiscrete_of_codes h, hv, hd, hn]

end

/-- Settles O16: `takeGood_spec` for the state with the timer started and the baseline of the test. -/
theorem watchCopyTakesAGoodSample : Obligations.WatchCopyTakesAGoodSample := by
  intro i s a f before after ha hw hb
  refine ⟨fun h => ?_, ?_⟩
  · refine congrArg Host.Outcome.next ((takeWatchCopy_eq ha hw hb).trans (if_neg ?_))
    rintro ⟨h1, h2⟩
    rcases h with h | h
    · simp [h1] at h
    · exact h h2
  · intro hm hs hu hi he e m test
    let v := s.setMail { s.mail with watch := before ++ after }
    let u := setMonitor i { m with timer := some (e.period + e.period / 2), baseline := test.baseline } v
    have run : exec (.watchCopy i) s = .next (takeGood i a.bank test.values u) :=
      congrArg Host.Outcome.next ((takeWatchCopy_eq ha hw hb).trans ((if_pos ⟨hu, hi⟩).trans
        (takeFrame_good (s := v) he)))
    have state : u.sm.state i = { m with timer := some (e.period + e.period / 2), baseline := test.baseline } :=
      state_setMonitor (s := v) i _ hm
    have entry : ∀ k, u.sm.entry k = s.sm.entry k := entry_congr rfl
    have spec := takeGood_spec i a.bank test.values (s := u) (by simpa [u, v] using hm) hs
    generalize takeGood i a.bank test.values u = t at run spec
    dsimp only at spec
    rw [state] at spec
    obtain ⟨others, counts, timer, baseline, low, enters, again, stays, only⟩ := spec
    have handed : ∀ {items}, Published items [] u t → Published items [] s t := fun h =>
      h.handed rfl rfl (List.append_nil _).symm rfl
    refine ⟨t, run, timer, baseline, congrArg (·.mail.watch) only, counts, fun j hj => ?_, fun hsync hk => ?_,
      fun h => ?_, fun hsync hk => ?_, fun hsync => ?_, fun hsync distinct => ?_, ?_⟩
    · exact (others j hj).trans (state_setMonitor_ne _ _ hj)
    · obtain ⟨new, rest⟩ := low hsync hk
      rw [new]
      exact ⟨hsync, rfl, rest⟩
    · obtain ⟨sync, window, valid, same, published, events⟩ := enters h
      exact ⟨sync, window, valid, fun k hk => (same k hk).trans (entry k), handed published, events⟩
    · obtain ⟨new, rest⟩ := again hsync hk
      rw [new]
      exact ⟨rfl, rfl, rest⟩
    · obtain ⟨new, events, -⟩ := stays hsync
      rw [new]
      exact ⟨hsync, rfl, events⟩
    · obtain ⟨-, -, published, entries⟩ := stays hsync
      obtain ⟨-, -, others, from_values, accepted⟩ := acceptGood_spec test.values (sm := u.sm) hs
      refine ⟨_, handed published, from_values, fun k hk => (entries k).trans ((others k hk).trans (entry k)),
        fun k debounce d hx => ?_⟩
      obtain ⟨new, publishes⟩ := accepted distinct _ hx
      rw [entry] at new publishes
      rw [entries, new]
      have silent : (acceptValue k debounce d (s.sm.entry k)).2 = false →
          ∀ y ∈ (acceptGood test.values u.sm).1, y.kind ≠ k := by
        rintro no y hy rfl
        obtain ⟨x, hx', rfl⟩ := from_values y hy
        have same : x = (x.1, debounce, d) := List.inj_on_of_nodup_map distinct hx' hx rfl
        obtain rfl : x.2.2 = d := congrArg (·.2.2) same
        simp [publishes.mp hy] at no
      refine ⟨fun hc => ?_, fun hc hv => ?_, fun hc hv hd => ?_, fun hc hv hd hn => ?_⟩
      · rw [acceptValue_continuous hc] at publishes ⊢
        exact ⟨rfl, publishes.mpr rfl⟩
      · rw [acceptValue_held hc hv] at silent ⊢
        exact ⟨rfl, silent rfl⟩
      · rw [acceptValue_changed hc hv hd] at publishes ⊢
        exact ⟨rfl, publishes.mpr rfl⟩
      · rw [acceptValue_candidate hc hv hd hn] at silent ⊢
        exact ⟨rfl, silent rfl⟩
    · rw [only]
      rfl

/-! ## Error samples (R12, R13, R15, R16) -/

section
variable {i : Fin 24} {s : State} {a : ActiveBank} {b : Bank} {f : Frame}

theorem takeError_acquiring (h : (s.sm.state i).sync = .acquiring) :
    takeError i b s = setMonitor i { s.sm.state i with good := 0 } (count (.errors i) s) := by
  simp only [takeError, h]

theorem takeError_lost (h : (s.sm.state i).sync = .lost) : takeError i b s = count (.errors i) s := by
  simp only [takeError, h]

theorem takeError_below (h : (s.sm.state i).sync = .valid)
    (hw : ((s.sm.state i).window.tail ++ [true]).count true < (b.monitor i).m) : takeError i b s =
      setMonitor i { s.sm.state i with window := (s.sm.state i).window.tail ++ [true] } (count (.errors i) s) := by
  have below : ¬ (b.monitor i).m ≤ countWhere id (pushWindow (s.sm.state i).window true) := by
    rw [countWhere_id]
    exact Nat.not_le.mpr hw
  simp only [takeError, h, if_neg below]
  rfl

theorem periodTimedOut_eq (ha : s.active = some a) (ht : (s.sm.state i).timer = some 0) : periodTimedOut i s =
    takeError i a.bank (setMonitor i { s.sm.state i with timer := some (a.bank.monitor i).period } s) := by
  simp only [periodTimedOut, ha, ht]

theorem setMonitor_errors (i : Fin 24) (x y : MonitorState) (s : State) :
    setMonitor i x (count (.errors i) (setMonitor i y s)) = { s with
      sm := { s.sm with monitors := s.sm.monitors.set i x }
      mail := { s.mail with counts := s.mail.counts ++ [.errors i] } } := by
  simp [setMonitor, count, State.setSm, State.setMail]

theorem sampled_eq (i : Fin 24) (a : ActiveBank) (f : Frame) (s : State) :
    let t := testFrame a i (s.sm.state i) s.cm f.data
    sampled i a f s = { setMonitor i { s.sm.state i with
        timer := some ((a.bank.monitor i).period + (a.bank.monitor i).period / 2)
        baseline := baselineAfter (s.sm.state i) t } s with
      events := if t.error = some .counterJump then (raise .counterJump s).events else s.events
      mail := { s.mail with toCreep := s.mail.toCreep ++ t.refused.map fun x => .refused x.1 x.2 } } := by
  simp only [sampled, handRefused_eq]
  split <;> rfl

end

/-- Settles O17: `takeError_spec` for the state at the timeout, and for the state sampled at a watch copy. -/
theorem periodTimeoutTakesAnErrorSample : Obligations.PeriodTimeoutTakesAnErrorSample := by
  refine ⟨?_, ?_⟩
  · intro i s a ha ht hm hs e m window still
    let u := setMonitor i { m with timer := some e.period } s
    have run : exec (.periodTimeout i) s = .next (takeError i a.bank u) :=
      congrArg Host.Outcome.next (periodTimedOut_eq ha ht)
    have state : u.sm.state i = { m with timer := some e.period } := state_setMonitor i _ hm
    refine ⟨fun hsync => ?_, fun hsync => ?_, fun hsync hw => ?_, fun hsync hw => ?_⟩
    · rw [run, takeError_acquiring (by rw [state]; exact hsync), state]
      exact congrArg Host.Outcome.next (setMonitor_errors ..)
    · rw [run, takeError_lost (by rw [state]; exact hsync)]
      rfl
    · rw [run, takeError_below (by rw [state]; exact hsync) (by rw [state]; exact hw), state]
      exact congrArg Host.Outcome.next (setMonitor_errors ..)
    · have spec := takeError_spec i a.bank (s := u) (by simpa [u] using hm) hs
      generalize takeError i a.bank u = t at run spec
      dsimp only at spec
      rw [state] at spec
      obtain ⟨others, -, loses, -⟩ := spec
      obtain ⟨published, new, lost, same, events, counts, faults⟩ := loses hsync hw
      refine ⟨t, run, ?_⟩
      rw [new]
      exact ⟨rfl, rfl, rfl, lost, same, fun j hj => (others j hj).trans (state_setMonitor_ne _ _ hj), events,
        published.handed rfl rfl (List.append_nil _).symm rfl, counts, _, faults, lossReport_reported _⟩
  · intro i s a f before after error ha hw hb hm hs hu hi he e m test window jumped timer
    let v := s.setMail { s.mail with watch := before ++ after }
    have run : exec (.watchCopy i) s = .next (takeError i a.bank (sampled i a f v)) :=
      congrArg Host.Outcome.next ((takeWatchCopy_eq ha hw hb).trans ((if_pos ⟨hu, hi⟩).trans
        (takeFrame_error (s := v) he)))
    let monitor : MonitorState := { m with timer := timer, baseline := baselineAfter m test }
    have state : (setMonitor i monitor v).sm.state i = monitor := state_setMonitor (s := v) i _ hm
    obtain ⟨u, eq, events⟩ : ∃ u, sampled i a f v = { s with
        sm := (setMonitor i monitor v).sm
        events := u
        mail := { s.mail with
          watch := before ++ after
          toCreep := s.mail.toCreep ++ test.refused.map fun x => .refused x.1 x.2 } } ∧ u.set = jumped := by
      refine ⟨_, sampled_eq i a f v, ?_⟩
      rw [show (testFrame a i (v.sm.state i) v.cm f.data).error = some error from he]
      by_cases hj : error = .counterJump
      · simp only [jumped, hj, if_true]
        rfl
      · simp [jumped, hj, v]
    rw [eq] at run
    have spec := takeError_spec i a.bank (s := { s with
      sm := (setMonitor i monitor v).sm
      events := u
      mail := { s.mail with
        watch := before ++ after
        toCreep := s.mail.toCreep ++ test.refused.map fun x => .refused x.1 x.2 } }) (by simpa [v] using hm) hs
    generalize takeError i a.bank _ = t at run spec
    dsimp only at spec
    rw [state] at spec
    obtain ⟨others, keeps, loses, only⟩ := spec
    refine ⟨t, run, congrArg (·.mail.watch) only, fun j hj => (others j hj).trans (state_setMonitor_ne _ _ hj),
      fun h => ?_, fun hsync hw => ?_, ?_⟩
    · obtain ⟨published, svt, ev, counts, faults, acquiring, lost, valid⟩ := keeps h
      refine ⟨svt, by rw [ev]; exact events, published.handed rfl rfl rfl rfl, counts, faults, fun hsync => ?_,
        fun hsync => ?_, fun hsync => ?_⟩
      · rw [acquiring hsync]
        simp [monitor, baselineAfter, hsync]
      · rw [lost hsync]
        simp [monitor, baselineAfter, hsync, test, m, he]
      · rw [valid hsync]
        simp [monitor, baselineAfter, hsync, window]
    · obtain ⟨published, new, gone, same, ev, counts, faults⟩ := loses hsync hw
      exact ⟨new, gone, same, by rw [ev, events], published.handed rfl rfl rfl rfl, counts, _, faults,
        lossReport_reported _⟩
    · rw [only]

end Sys2Proof.Machine
end

