-- ==== Sys2Proof/Proofs/Computation.lean ====
section
/-! PROOF. One computation of the Hold Pressure Calculator (O20). -/

namespace Sys2Proof.Machine

section
variable {b : Bank} {img : CalcImage} {s : State}

/-! ## Loads and pressures (R28 to R30, R33, R36) -/

theorem counted_of_pusher (h : img.pusher = ⟨.valid, some 1⟩ ∨
    (img.pusher.validity = .unmapped ∧ ∃ v, img.loads.p = ⟨.valid, some v⟩ ∧ 50 < v)) :
    img.counted = [.f1, .f2, .t1, .t2, .p] := by
  refine if_pos ?_
  rcases h with h | ⟨hp, v, hl, hv⟩
  · rw [CalcImage.pusherCounted, h]
    rfl
  · rw [CalcImage.pusherCounted, hp, Sig.valid?_iff.mpr hl]
    exact decide_eq_true hv

theorem counted_of_no_pusher (h : ¬ (img.pusher = ⟨.valid, some 1⟩ ∨
    (img.pusher.validity = .unmapped ∧ ∃ v, img.loads.p = ⟨.valid, some v⟩ ∧ 50 < v))) :
    img.counted = [.f1, .f2, .t1, .t2] := by
  refine if_neg fun hc => h ?_
  unfold CalcImage.pusherCounted at hc
  split at hc
  case h_1 => exact .inl (Sig.is_iff.mp hc)
  case h_2 => cases hc
  case h_3 => cases hc
  case h_4 hu =>
    split at hc
    case h_1 v hv => exact .inr ⟨hu, v, Sig.valid?_iff.mp hv, of_decide_eq_true hc⟩
    case h_2 => cases hc

theorem counted_nodup (img : CalcImage) : img.counted.Nodup := by
  unfold CalcImage.counted
  split <;> decide

theorem drive_mem_counted (img : CalcImage) : Axle.f1 ∈ img.counted ∧ Axle.t1 ∈ img.counted := by
  unfold CalcImage.counted
  split <;> decide

theorem loadUsed_of_valid {x : Axle} {v : Int} (h : img.loads.get x = ⟨.valid, some v⟩) : loadUsed b img x = v.toNat := by
  rw [loadUsed, Sig.valid?_iff.mpr h]

theorem loadUsed_of_not_valid {x : Axle} (h : (img.loads.get x).validity ≠ .valid) :
    loadUsed b img x = (b.axles.get x).rated := by
  rw [loadUsed, Sig.valid?_of_not_valid h]

theorem massZero_iff : massZero b img = true ↔ (img.counted.map (loadUsed b img)).sum = 0 := beq_iff_eq

theorem finalLoad_of_measured {x : Axle} (h : (img.counted.map (loadUsed b img)).sum ≠ 0) :
    finalLoad b img x = loadUsed b img x := if_neg (mt massZero_iff.mp h)

theorem finalLoad_of_zero {x : Axle} (h : (img.counted.map (loadUsed b img)).sum = 0) :
    finalLoad b img x = (b.axles.get x).rated := if_pos (massZero_iff.mpr h)

theorem largest_mem (f : Axle → Nat) {l : List Axle} (h : l ≠ []) : ∃ x ∈ l, (l.map f).foldr Nat.max 0 = f x := by
  induction l with
  | nil => exact absurd rfl h
  | cons x l ih =>
    rw [List.map_cons, List.foldr_cons]
    rcases Nat.le_total ((l.map f).foldr Nat.max 0) (f x) with hx | hx
    · exact ⟨x, List.mem_cons_self .., Nat.max_eq_left hx⟩
    · rw [show Nat.max _ _ = _ from Nat.max_eq_right hx]
      cases l with
      | nil => exact ⟨x, List.mem_cons_self .., (Nat.le_zero.mp hx).symm⟩
      | cons y l =>
        obtain ⟨z, hz, e⟩ := ih nofun
        exact ⟨z, List.mem_cons_of_mem _ hz, e⟩

theorem le_largest (f : Axle → Nat) {l : List Axle} {x : Axle} (h : x ∈ l) : f x ≤ (l.map f).foldr Nat.max 0 := by
  induction h with
  | head l => exact Nat.le_max_left ..
  | tail y _ ih => exact ih.trans (Nat.le_max_right ..)

theorem axlePressure_le_unclamped {x : Axle} (h : x ∈ img.counted) :
    axlePressure b img x ≤ if x.circuitA then (unclamped b img).a else (unclamped b img).b := by
  split
  case isTrue hx => exact le_largest _ (List.mem_filter.mpr ⟨h, hx⟩)
  case isFalse hx => exact le_largest _ (List.mem_filter.mpr ⟨h, by simpa using hx⟩)

theorem unclamped_a_mem (b : Bank) (img : CalcImage) :
    ∃ x ∈ img.counted, x.circuitA = true ∧ (unclamped b img).a = axlePressure b img x := by
  obtain ⟨x, hx, e⟩ := largest_mem (axlePressure b img) (l := img.counted.filter fun x => x.circuitA)
    (List.ne_nil_of_mem (List.mem_filter.mpr ⟨(drive_mem_counted img).1, rfl⟩))
  exact ⟨x, (List.mem_filter.mp hx).1, (List.mem_filter.mp hx).2, e⟩

theorem unclamped_b_mem (b : Bank) (img : CalcImage) :
    ∃ x ∈ img.counted, x.circuitA = false ∧ (unclamped b img).b = axlePressure b img x := by
  obtain ⟨x, hx, e⟩ := largest_mem (axlePressure b img) (l := img.counted.filter fun x => !x.circuitA)
    (List.ne_nil_of_mem (List.mem_filter.mpr ⟨(drive_mem_counted img).2, rfl⟩))
  exact ⟨x, (List.mem_filter.mp hx).1, by simpa using (List.mem_filter.mp hx).2, e⟩

theorem clampPressure_eq {floor top need : Nat} (h : floor ≤ top) :
    clampPressure floor top need = min top (max floor need) := by
  unfold clampPressure
  split
  · exact (Nat.min_eq_left (by omega)).symm
  · exact (Nat.min_eq_right (Nat.max_le.mpr ⟨h, by omega⟩)).symm

theorem excess_iff : excess b img = true ↔
    b.params.maxPressureA < (unclamped b img).a ∨ b.params.maxPressureB < (unclamped b img).b := by
  simp [excess]

/-! ## The marks of R29 -/

theorem PerAxle.get_set_ne {α : Type} (x : PerAxle α) {a c : Axle} (v : α) (h : c ≠ a) : (x.set a v).get c = x.get c := by
  cases a <;> cases c <;> first | rfl | exact absurd rfl h

/-- The loss mark of an axle after a computation that counts it (R29). -/
def markAfter (img : CalcImage) (marks : PerAxle Bool) (x : Axle) : Bool :=
  match (img.loads.get x).validity with
  | .valid => false
  | .lost => true
  | _ => marks.get x

/-- The loss of an axle's load that a computation reports (R29). -/
def lossNew (img : CalcImage) (marks : PerAxle Bool) (x : Axle) : Bool :=
  (img.loads.get x).validity == .lost && !marks.get x

theorem markLoss_spec (img : CalcImage) (x : Axle) (marks : PerAxle Bool) :
    (markLoss img x marks).2 = lossNew img marks x ∧ (markLoss img x marks).1.get x = markAfter img marks x ∧
      ∀ y, y ≠ x → (markLoss img x marks).1.get y = marks.get y := by
  unfold markLoss lossNew markAfter
  cases hv : (img.loads.get x).validity
  case valid => exact ⟨rfl, PerAxle.get_set .., fun y hy => PerAxle.get_set_ne _ _ hy⟩
  case lost =>
    cases hm : marks.get x
    case true => simp [hm]
    case false => exact ⟨rfl, PerAxle.get_set .., fun y hy => PerAxle.get_set_ne _ _ hy⟩
  all_goals simp

/-- What a computation makes of the loss marks of some axles, and which losses it reports (R29). -/
theorem markLosses_spec (img : CalcImage) {l : List Axle} (hl : l.Nodup) (marks : PerAxle Bool) :
    (markLosses img l marks).2 = l.filter (lossNew img marks) ∧
      ∀ x, (markLosses img l marks).1.get x = if x ∈ l then markAfter img marks x else marks.get x := by
  induction l generalizing marks with
  | nil => exact ⟨rfl, fun x => rfl⟩
  | cons x l ih =>
    obtain ⟨hx, hl⟩ := List.nodup_cons.mp hl
    obtain ⟨reported, here, others⟩ := markLoss_spec img x marks
    obtain ⟨rest, after⟩ := ih hl (markLoss img x marks).1
    have other : ∀ y ∈ l, (markLoss img x marks).1.get y = marks.get y := fun y hy =>
      others y fun e => hx (e ▸ hy)
    refine ⟨?_, fun y => (after y).trans ?_⟩
    · have same : l.filter (lossNew img (markLoss img x marks).1) = l.filter (lossNew img marks) :=
        List.filter_congr fun y hy => by simp only [lossNew, other y hy]
      simp only [markLosses, rest, same, reported, List.filter_cons]
    · by_cases hy : y ∈ l
      · simp only [hy, if_true, List.mem_cons, or_true, markAfter, other y hy]
      · rcases eq_or_ne y x with rfl | hne
        · simp only [hy, if_false, List.mem_cons, or_false, if_true, here]
        · simp only [hy, if_false, List.mem_cons, or_false, hne, others y hne]

theorem reportLosses_eq (l : List Axle) (s : State) : reportLosses l s = { s with
    mail := { s.mail with
      faults := s.mail.faults ++ l.map fun x => ⟨.minor, .signalLost, .signal (.axleLoad x), none⟩ } } := by
  unfold reportLosses
  induction l generalizing s with
  | nil => simp
  | cons x l ih =>
    rw [List.foldl_cons, ih]
    simp [report, State.setMail]

theorem compute_eq (b : Bank) (c : Calculator) (img : CalcImage) (s : State) : compute b c img s = { s with
    hpc := some ⟨img, resultOf b img (excess b img), (markLosses img img.counted c.lossMarks).1, massZero b img⟩
    events := if excess b img then (raise .capacity s).events else s.events
    mail := { s.mail with
      results := s.mail.results ++ [resultOf b img (excess b img)]
      faults := s.mail.faults ++
        (markLosses img img.counted c.lossMarks).2.map
          (fun x => ⟨.minor, .signalLost, .signal (.axleLoad x), none⟩) ++
        (if massZero b img = true ∧ c.loadMark = false then [⟨.minor, .loadImplausible, .none, none⟩] else []) ++
        (if excess b img = true ∧ c.result.capacity = false then [⟨.minor, .capacity, .none, none⟩] else []) } } := by
  unfold compute
  simp only [reportLosses_eq]
  split_ifs <;> simp [report, raise, State.setMail, State.setHpc, State.setEvents]

end

/-- Settles O20: `compute_eq` gives the next state, and the lemmas above what R26 to R38 ask of it. -/
theorem calcPublicationComputesOnce : Obligations.CalcPublicationComputesOnce := by
  intro s a c items rest ha hc hm b img need measured pusher lost product
  have run : takeCalcSet s = compute b c img (s.setMail { s.mail with toCalc := rest }) := by
    unfold takeCalcSet
    rw [hm, ha, hc]
  rw [compute_eq] at run
  obtain ⟨marked, marks⟩ := markLosses_spec img (counted_nodup img) c.lossMarks
  have capacity : (resultOf b img (excess b img)).capacity = excess b img := rfl
  have positive : 0 < 1000000000 := by decide
  refine ⟨_, resultOf b img (excess b img), congrArg Host.Outcome.next run, rfl, rfl,
    ⟨_, rfl, rfl, rfl, massZero_iff, marks⟩, counted_of_pusher, counted_of_no_pusher,
    fun x => ⟨fun v => loadUsed_of_valid, loadUsed_of_not_valid⟩, fun h => ⟨?_, fun x => finalLoad_of_measured h⟩,
    fun h => ⟨?_, fun x => finalLoad_of_zero h⟩, unclamped_a_mem b img, unclamped_b_mem b img, ?_, excess_iff, rfl,
    clampPressure_eq, clampPressure_eq, fun x hx => axlePressure_le_unclamped hx, Nat.le_max_left .., ?_, ?_, ?_, rfl⟩
  · have same : finalLoad b img = loadUsed b img := funext fun x => finalLoad_of_measured h
    rw [totalLoad, same]
    rfl
  · have same : finalLoad b img = fun x => (b.axles.get x).rated := funext fun x => finalLoad_of_zero h
    rw [totalLoad, same]
    rfl
  · simp only [marked, massZero_iff, capacity]
    rfl
  · exact (le_ceilDiv_mul positive).trans (Nat.mul_le_mul_right _ (Nat.le_max_right ..))
  · exact fun n floor hn => Nat.max_le.mpr ⟨floor, (ceilDiv_le_iff positive).mpr hn⟩
  · simp only [capacity]
    split <;> rfl

end Sys2Proof.Machine
end

