-- ==== Sys2Proof/Proofs/CreepEvents.lean ====
section
/-! PROOF. The Creep Monitor: pulses, evaluations, and the events it takes (O35 to O37). -/

namespace Sys2Proof.Machine

section
variable {b : Bank} {s : State}

/-! ## Pulses, and BLIND (R109, R111, R112) -/

theorem takePulse_lost {x : PubItem} (h : x.validity = .lost) (r : ChannelRec) : takePulse r x = ⟨.lost, none, 0⟩ := by
  simp [takePulse, h]

theorem takePulse_first {x : PubItem} {v : Int} (hx : x.validity = .valid) (hv : x.value = some v) {r : ChannelRec}
    (h : r.baseline = none ∨ x.entry = true) : takePulse r x = ⟨.valid, some v.toNat, r.pending⟩ := by
  cases hb : r.baseline with
  | none => simp [takePulse, hx, hv, hb]
  | some base =>
    have entry := h.resolve_left (by simp [hb])
    simp [takePulse, hx, hv, hb, entry]

theorem takePulse_delta {x : PubItem} {v : Int} {base : Nat} (hx : x.validity = .valid) (hv : x.value = some v)
    {r : ChannelRec} (hb : r.baseline = some base) (he : x.entry = false) : takePulse r x =
      ⟨.valid, some v.toNat, min 65535 (r.pending + ((v - base) % 65536).toNat)⟩ := by
  simp only [takePulse, hx, hv, hb, he]
  rfl

theorem takeWheelSet_enters {items : List PubItem} (h : 2 ≤ s.cm.validCount)
    (h' : (takePulses items s.cm).validCount < 2) :
    takeWheelSet b items s = enterBlind (s.setCm (takePulses items s.cm)) := if_pos ⟨h, h'⟩

theorem takeWheelSet_leaves {items : List PubItem} (h : s.cm.validCount < 2)
    (h' : 2 ≤ (takePulses items s.cm).validCount) :
    takeWheelSet b items s = leaveBlind b (s.setCm (takePulses items s.cm)) :=
  (if_neg fun g => by omega).trans (if_pos ⟨h, h'⟩)

theorem takeWheelSet_stays {items : List PubItem} (h : s.cm.validCount < 2 ↔ (takePulses items s.cm).validCount < 2) :
    takeWheelSet b items s = s.setCm (takePulses items s.cm) :=
  (if_neg fun g => by
    have := g.1
    have := h.mpr g.2
    omega).trans (if_neg fun g => by
      have := h.mp g.1
      have := g.2
      dsimp only [State.setCm_cm] at this
      omega)

theorem enterBlind_eq (s : State) : enterBlind s = { s with
    cm := { s.cm with blind := true, stationaryTimer := none, stationary := false }
    mail := { s.mail with
      faults := s.mail.faults ++ [⟨.major, .monitorBlind, .none, none⟩]
      creepReports := s.mail.creepReports ++ .blind true :: (if s.cm.stationary then [.decision false] else []) } } := by
  unfold enterBlind
  cases s.cm.stationary <;> simp [tellHold, report, State.setMail, State.setCm]

theorem channel_congr {c c' : CreepMonitor} (h : c.channels = c'.channels) (n : Nat) : c.channel n = c'.channel n := by
  rw [CreepMonitor.channel, h, CreepMonitor.channel]

theorem validCount_congr {c c' : CreepMonitor} (h : c.channels = c'.channels) : c.validCount = c'.validCount := by
  rw [CreepMonitor.validCount, h, CreepMonitor.validCount]

theorem takeWheelSet_channels (b : Bank) (items : List PubItem) (s : State) :
    (takeWheelSet b items s).cm.channels = (takePulses items s.cm).channels := by
  unfold takeWheelSet
  dsimp only
  split
  · rw [enterBlind_eq]
    rfl
  · split <;> rfl

theorem takeWheelSet_frame (b : Bank) (items : List PubItem) (s : State) : takeWheelSet b items s = { s with
    cm := (takeWheelSet b items s).cm
    mail := { s.mail with
      faults := (takeWheelSet b items s).mail.faults, creepReports := (takeWheelSet b items s).mail.creepReports } } := by
  unfold takeWheelSet
  dsimp only
  split
  · rw [enterBlind_eq]
    rfl
  · split <;> rfl

end

/-- Settles O35: the pulses by `takePulses_one` and `takePulses_none`, and BLIND by the counts before and after. -/
theorem creepPublicationAddsPulses : Obligations.CreepPublicationAddsPulses := by
  intro s a items rest ha hm hl
  let u := s.setMail { s.mail with toCreep := rest }
  have run : exec .creepPublication s = .next (takeWheelSet a.bank items u) := by
    refine congrArg Host.Outcome.next ?_
    unfold takeCreepSet
    rw [hm, ha]
  have channels : (takeWheelSet a.bank items u).cm.channels = (takePulses items s.cm).channels :=
    takeWheelSet_channels a.bank items u
  have frame := takePulses_frame items s.cm
  refine ⟨_, run, by rw [takeWheelSet_frame]; rfl, ?_, fun n hn => ?_, fun before after => ?_,
    fun before after => ?_, fun h => ?_, ?_⟩
  · intro n x hx r
    rw [channel_congr channels, takePulses_one items s.cm n x hl hx]
    exact ⟨fun h => takePulse_lost h _, fun v h hv => takePulse_first h hv, fun v base h hv => takePulse_delta h hv⟩
  · rw [channel_congr channels, takePulses_none items s.cm n hl hn]
  · rw [validCount_congr channels] at after
    rw [takeWheelSet_enters (s := u) before after, enterBlind_eq]
    exact ⟨congrArg (fun c : CreepMonitor => { c with blind := true, stationaryTimer := none, stationary := false }) frame,
      rfl, congrArg (fun c : CreepMonitor => s.mail.creepReports ++ .blind true ::
        (if c.stationary then [.decision false] else [])) frame⟩
  · rw [validCount_congr channels] at after
    rw [takeWheelSet_leaves (s := u) before after]
    exact ⟨congrArg (fun c : CreepMonitor => { c with
      blind := false, stationaryTimer := some a.bank.params.stopConfirm }) frame, rfl, rfl⟩
  · rw [validCount_congr channels] at h
    rw [takeWheelSet_stays (s := u) h]
    exact ⟨frame, rfl, rfl⟩
  · rw [takeWheelSet_frame]
    rfl

/-! ## The evaluation (R113, R114, R116, R117) -/

section
variable {b : Bank} {s : State}

theorem stationaryTest_eq (b : Bank) (x : Nat) (s : State) : stationaryTest b x s = { s with
    cm := { s.cm with
      stationary := if x = 0 then s.cm.stationary else false
      stationaryTimer := if x = 0 then s.cm.stationaryTimer else some b.params.stopConfirm }
    mail := { s.mail with
      creepReports := s.mail.creepReports ++ if x ≠ 0 ∧ s.cm.stationary = true then [.decision false] else [] } } := by
  by_cases hx : x = 0
  · simp [stationaryTest, hx]
  · cases hs : s.cm.stationary <;> simp [stationaryTest, hx, hs, tellHold, State.setCm, State.setMail]

/-- What a crossing reports, by the hold state told (R117, R118). -/
def crossingReports (told : HoldState) (crossed : Bool) (channel : Fin 8) : List CreepReport :=
  match told with
  | .holding => [.crossing crossed channel]
  | .handover | .parked | .secured => [.crossing true channel]
  | _ => []

theorem cross_eq (n : Fin 8) (s : State) : cross n s = { s with
    cm := { s.cm with accumulator := 0, crossed := s.cm.crossed || decide (s.cm.told = .holding) }
    events := (raise .creep s).events
    mail := { s.mail with
      creepReports := s.mail.creepReports ++ crossingReports s.cm.told s.cm.crossed n } } := by
  unfold cross
  cases ht : s.cm.told <;> cases hc : s.cm.crossed <;>
    simp [crossingReports, tellHold, State.setCm, State.setMail, ht, hc, raise, State.setEvents]

/-- An increment that reaches the Creep Limit while the accumulation counts (R116, R117). -/
def Crosses (b : Bank) (c : CreepMonitor) (x : Nat) : Prop :=
  c.counting = true ∧ b.params.creepLimit * 10 ≤ min 65535 (c.accumulator + x)

theorem accumulate_crosses {x : Ranked} (h : Crosses b s.cm x.distance) : accumulate b x s =
    cross x.channel (s.setCm { s.cm with accumulator := min 65535 (s.cm.accumulator + x.distance) }) := by
  rw [accumulate, if_pos h.1]
  exact if_pos h.2

theorem accumulate_below {x : Ranked} (h : ¬ Crosses b s.cm x.distance) : accumulate b x s = s.setCm { s.cm with
    accumulator := if s.cm.counting then min 65535 (s.cm.accumulator + x.distance) else s.cm.accumulator } := by
  unfold accumulate
  cases hc : s.cm.counting
  · rfl
  · exact if_neg fun g => h ⟨hc, g⟩

theorem evaluate_blind (h : s.cm.blind = true) : evaluate b s = s.setCm s.cm.clearPending := if_pos h

theorem evaluate_second {first second : Ranked} {rest : List Ranked} (h : s.cm.blind = false)
    (hr : ranking b s.cm = first :: second :: rest) : evaluate b s =
      accumulate b second (stationaryTest b second.distance (s.setCm s.cm.clearPending)) := by
  rw [evaluate, if_neg (by simp [h]), hr]
  rfl

theorem evaluationExpired_eq {a : ActiveBank} (ha : s.active = some a) (ht : s.cm.evalTimer = some 0) :
    evaluationExpired s = (evaluate a.bank s).setCm { (evaluate a.bank s).cm with evalTimer := some 20 } := by
  unfold evaluationExpired
  rw [ha, ht]
  rfl

end

/-- Settles O36: `ranking_second` names the channel, and its increment is tested and accumulated. -/
theorem evaluationTakesTheSecondLargest : Obligations.EvaluationTakesTheSecondLargest := by
  intro s a ha ht hl distance axle stands emptied
  have run := evaluationExpired_eq ha ht
  refine ⟨fun h => ?_, fun h hv => ?_⟩
  · rw [evaluate_blind h] at run
    exact congrArg Host.Outcome.next run
  · obtain ⟨first, second, rest, ranked, hf, hs, outranks, others⟩ := ranking_second a.bank s.cm hl hv
    let x := distance second
    let v : State := { s with
      cm := { s.cm with
        channels := emptied
        stationary := if x = 0 then s.cm.stationary else false
        stationaryTimer := if x = 0 then s.cm.stationaryTimer else some a.bank.params.stopConfirm }
      mail := { s.mail with
        creepReports := s.mail.creepReports ++ if x ≠ 0 ∧ s.cm.stationary = true then [.decision false] else [] } }
    have evaluated : evaluate a.bank s = accumulate a.bank (s.cm.ranked a.bank second) v := by
      rw [evaluate_second h ranked, stationaryTest_eq]
      rfl
    rw [evaluated] at run
    have decision : x ≠ 0 ∧ s.cm.stationary = true → v.mail.creepReports = s.mail.creepReports ++ [.decision false] :=
      fun moved => congrArg (s.mail.creepReports ++ ·) (if_pos moved)
    have none : ¬ (x ≠ 0 ∧ s.cm.stationary = true) → v.mail.creepReports = s.mail.creepReports := fun still =>
      (congrArg (s.mail.creepReports ++ ·) (if_neg still)).trans (List.append_nil _)
    by_cases hc : Crosses a.bank v.cm x
    · rw [accumulate_crosses hc, cross_eq] at run
      refine ⟨_, first, second, congrArg Host.Outcome.next run, hf, hs, outranks, others, rfl, rfl, h, rfl, rfl,
        fun h0 => ⟨if_pos h0, if_pos h0⟩, fun h0 => ⟨if_neg h0, if_neg h0⟩, fun hn => ?_, fun _ hn => absurd hc hn,
        fun hn => absurd hc hn, fun _ => ⟨rfl, rfl, crossingReports s.cm.told s.cm.crossed second, ?_, ?_, ?_, ?_⟩, rfl⟩
      · exact absurd hc.1 (by simp [v, hn])
      · intro moved
        exact (congrArg (· ++ crossingReports s.cm.told s.cm.crossed second) (decision moved)).trans
          (List.append_assoc ..)
      · intro still
        exact congrArg (· ++ crossingReports s.cm.told s.cm.crossed second) (none still)
      · intro told
        simp [v, told, crossingReports]
      · rintro (told | told | told) <;> simp [v, told, crossingReports]
    · rw [accumulate_below hc] at run
      refine ⟨_, first, second, congrArg Host.Outcome.next run, hf, hs, outranks, others, rfl, rfl, h, rfl, rfl,
        fun h0 => ⟨if_pos h0, if_pos h0⟩, fun h0 => ⟨if_neg h0, if_neg h0⟩, fun hn => ?_, fun hn _ => ?_,
        fun _ => ⟨rfl, rfl, decision, none⟩, fun hn => absurd hn hc, rfl⟩
      · exact if_neg (by simp [v, hn])
      · exact if_pos hn

/-! ## The events (R110, R114, R115) -/

/-- Settles O37: one case for each of the three commands. -/
theorem creepMonitorTakesItsEvents : Obligations.CreepMonitorTakesItsEvents := by
  intro s
  refine ⟨fun h => ?_, fun r rest hr => ?_, fun n count rest hm hl => ?_⟩
  · refine congrArg Host.Outcome.next ?_
    unfold stationaryExpired
    rw [h]
    cases s.cm.stationary <;> simp [tellHold, State.setCm, State.setMail]
  · refine congrArg Host.Outcome.next ?_
    unfold takeStateReport
    rw [hr]
    obtain ⟨state, episode⟩ := r
    cases state <;> cases episode <;> simp [HoldState.counts, State.setCm, State.setMail]
  · refine congrArg Host.Outcome.next ?_
    unfold takeRefused
    rw [hm]
    rfl

end Sys2Proof.Machine
end

