-- ==== Sys2Proof/Proofs/QueueRules.lean ====
section
/-! PROOF. Offers, the endings of a transmission, and the recovery of a port (O38 to O41). -/

namespace Sys2Proof.Machine

section
variable {p : Port} {s : State} {e : Entry} {cls : TxClass}

/-! ## Offers (R155, R161, R165) -/

/-- A queue takes no further entry of a class (R155). -/
def Full (s : State) (p : Port) (cls : TxClass) : Prop :=
  32 ≤ (queueOf s p).entries.length ∨
    (((txBank s).minima.get p).get cls ≤ (queueOf s p).dedicatedCount cls ∧
      (txBank s).sharedSpace p ≤ (queueOf s p).sharedCount)

theorem spaceFor_full (h : Full s p cls) : spaceFor s p cls = none := by
  unfold spaceFor
  rcases h with h | ⟨h, h'⟩
  · exact if_pos h
  · dsimp only
    split
    · rfl
    · rw [if_neg (by omega), if_neg (by omega)]

theorem spaceFor_free (h : ¬ Full s p cls) : spaceFor s p cls =
    some (decide ((queueOf s p).dedicatedCount cls < ((txBank s).minima.get p).get cls)) := by
  obtain ⟨hl, hs⟩ := not_or.mp h
  unfold spaceFor
  refine (if_neg hl).trans ?_
  by_cases hd : (queueOf s p).dedicatedCount cls < ((txBank s).minima.get p).get cls
  · simp [hd]
  · have shared : (queueOf s p).sharedCount < (txBank s).sharedSpace p := by omega
    simp [hd, shared]

theorem replaceFirst_append {α : Type} {f : α → Bool} (g : α → α) {before : List α} {x : α} (after : List α)
    (hb : ∀ y ∈ before, f y = false) (hx : f x = true) :
    replaceFirst f g (before ++ x :: after) = before ++ g x :: after := by
  induction before with
  | nil => simp [replaceFirst, hx]
  | cons y ys ih => simp [replaceFirst, hb y (by simp), ih fun z hz => hb z (by simp [hz])]

theorem offer_supersedes {before after : List Entry} {x : Entry} (hc : e.cls = .hold)
    (hw : (queueOf s p).waiting = before ++ x :: after) (hx : x.cls = .hold) (hb : ∀ y ∈ before, y.cls ≠ .hold) :
    offer p e s = (true, setQueue p { queueOf s p with
      waiting := before ++ { e with dedicated := x.dedicated } :: after } s) := by
  have waits : (queueOf s p).hasWaiting .hold = true := by simp [TxQueue.hasWaiting, hw, hx]
  refine (if_pos ⟨hc, waits⟩).trans ?_
  rw [hw, replaceFirst_append _ _ (fun y hy => by simpa using hb y hy) (by simp [hx])]

theorem offer_panics (hc : e.cls = .forward) (hp : p = .b) (h : panicStands s = true) :
    offer p e s = (false, refuseOffer p e s) :=
  (if_neg fun g => by simp [hc] at g).trans (if_pos ⟨hc, hp, h⟩)

theorem offer_judged (hh : e.cls = .hold → (queueOf s p).hasWaiting .hold = false)
    (hf : e.cls = .forward → ¬ (p = .b ∧ panicStands s = true)) : offer p e s = match spaceFor s p e.cls with
      | none => (false, refuseOffer p e s)
      | some d => (true, trySend p (setQueue p { queueOf s p with
          waiting := (queueOf s p).waiting ++ [{ e with dedicated := d }] } s)) :=
  (if_neg fun g => by simp [hh g.1] at g).trans (if_neg fun g => hf g.1 g.2)

theorem refuseOffer_eq (p : Port) (e : Entry) (s : State) : refuseOffer p e s = { s with
    sr := { s.sr with resetPending := if e.reset then .due else s.sr.resetPending }
    mail := { s.mail with counts := s.mail.counts ++ [.queueDrop p] } } := noteResetOut_eq e _

/-- A count plays no part in a start. -/
theorem trySend_count (p : Port) (c : Counter) (s : State) : trySend p (count c s) = count c (trySend p s) := by
  have same : trySend p (count c s) = if s.loading || (s.links.get p).busOff || (queueOf s p).sending.isSome
      then count c s else match choose s p with
        | none => count c s
        | some (e, rest) => noteStart e (setQueue p ⟨rest, some (startEntry s e)⟩ (count c s)) := rfl
  rw [same, trySend]
  split
  · rfl
  · cases choose s p with
    | none => rfl
    | some x =>
      unfold noteStart
      dsimp only
      split <;> rfl

theorem takeOffer_eq {f : Frame} {reset : Bool} {before after : List Offer}
    (hm : s.mail.offers = before ++ ⟨p, cls, f, reset⟩ :: after) (hb : ∀ o ∈ before, ¬ (o.port = p ∧ o.cls = cls)) :
    let u := s.setMail { s.mail with offers := before ++ after }
    let made := offer p (newEntry cls f reset) u
    takeOffer p cls s = if cls = .forward ∧ (s.links.get p).busOff = true then count (.queueDrop p) u
      else if made.1 = true ∧ cls = .forward then count (.forwarded p.other) made.2 else made.2 := by
  have first : takeFirst (fun o => o.port == p && o.cls == cls) s.mail.offers =
      some (⟨p, cls, f, reset⟩, before ++ after) :=
    takeFirst_some.mpr ⟨before, after, hm, by simp, fun o ho => by simpa using hb o ho, rfl⟩
  unfold takeOffer
  rw [first]
  rfl

end

/-- Settles O38: the offer's four outcomes by the lemmas above. -/
theorem queueOfferAdmitsOrRefuses : Obligations.QueueOfferAdmitsOrRefuses := by
  intro p cls f reset s before after hm hb q minimum space full panics out refused
  let u := s.setMail { s.mail with offers := before ++ after }
  let e := newEntry cls f reset
  have run : takeOffer p cls s = if cls = .forward ∧ (s.links.get p).busOff = true then count (.queueDrop p) u
      else if (offer p e u).1 = true ∧ cls = .forward then count (.forwarded p.other) (offer p e u).2
      else (offer p e u).2 := takeOffer_eq hm hb
  have panic : panicStands u = true ↔ (txBank s).params.panicWatermark ≤ s.tx.owed := decide_eq_true_iff
  have refuses : ¬ (cls = .forward ∧ (s.links.get p).busOff = true) →
      offer p e u = (false, refuseOffer p e u) → refused := by
    intro hoff ho
    refine congrArg Host.Outcome.next (run.trans ((if_neg hoff).trans ?_))
    rw [ho, if_neg (by simp), refuseOffer_eq]
    rfl
  refine ⟨fun hc hoff => ?_, fun hc hoff hp => ?_, fun hc ahead x behind hw hx ha => ?_, fun hf hh => ⟨fun h => ?_, fun h => ?_⟩⟩
  · exact congrArg Host.Outcome.next (run.trans (if_pos ⟨hc, hoff⟩))
  · exact refuses (by simp [hoff]) (offer_panics hc hp.1 (panic.mpr hp.2))
  · have made := offer_supersedes (s := u) (e := e) hc hw hx ha
    refine congrArg Host.Outcome.next (run.trans ((if_neg (by simp [hc])).trans ?_))
    rw [made, if_neg (by simp [hc])]
    simp only [out, List.append_nil, hc, e, newEntry]
    rfl
  all_goals
    have judged := offer_judged (s := u) (e := e) hh fun hc hp => (hf hc).2 ⟨hp.1, panic.mp hp.2⟩
    have on : ¬ (cls = .forward ∧ (s.links.get p).busOff = true) := fun g => by simp [(hf g.1).1] at g
  · rw [spaceFor_full (s := u) (cls := e.cls) h] at judged
    exact refuses on judged
  · rw [spaceFor_free (s := u) (cls := e.cls) h] at judged
    rw [if_neg on, judged] at run
    by_cases hc : cls = .forward
    · rw [if_pos ⟨rfl, hc⟩, ← trySend_count] at run
      refine ⟨_, congrArg Host.Outcome.next run, ?_⟩
      rw [if_pos hc]
      exact trySend_sends p _
    · rw [if_neg fun g => hc g.2] at run
      refine ⟨_, congrArg Host.Outcome.next run, ?_⟩
      rw [if_neg hc]
      simp only [out, List.append_nil]
      exact trySend_sends p _

/-! ## The endings of a transmission (R141, R142, R157 to R159) -/

section
variable {p : Port} {s : State} {e : Entry}

theorem noteResetOut_all (l : List Entry) (s : State) : l.foldl (fun s e => noteResetOut e s) s = { s with
    sr := { s.sr with resetPending := if l.any Entry.reset then .due else s.sr.resetPending } } := by
  induction l generalizing s with
  | nil => rfl
  | cons e l ih =>
    rw [List.foldl_cons, ih, noteResetOut_eq]
    by_cases he : e.reset = true <;> cases h : l.any Entry.reset <;> simp [he, h]

theorem transmissionSucceeded_eq (hs : (queueOf s p).sending = some e) : transmissionSucceeded p s =
    let s1 := entrySucceeded e (setQueue p ⟨(queueOf s p).waiting, none⟩ s)
    trySend p (setLink p { s1.links.get p with errors := 0 } s1) := by
  unfold transmissionSucceeded
  rw [hs]

theorem demandSucceeded_stale (h : e.stale = true) : demandSucceeded e s = s := if_pos h

theorem demandSucceeded_fresh {c : Nat} (h : e.stale = false) (ha : e.alive = some c) : demandSucceeded e s = { s with
    tx := { s.tx with
      nextDemand := (c + 1) % 15, owed := 0, outstanding := (queueOf s .b).hasWaiting .hold, starved := false } } := by
  rw [demandSucceeded, if_neg (by simp [h]), ha]
  rfl

theorem statusSucceeded_eq {c : Nat} (ha : e.alive = some c) : statusSucceeded e s = { s with
    tx := { s.tx with nextStatus := if e.stale then s.tx.nextStatus else (c + 1) % 15 }
    events := { s.events with set := s.events.set &&& ~~~(e.carried &&& ~~~s.events.again) } } := by
  unfold statusSucceeded
  rw [ha]
  cases e.stale <;> rfl

/-- What a success leaves as it is, whatever the entry's class. -/
theorem entrySucceeded_frame (e : Entry) (s : State) :
    (entrySucceeded e s).tx.queues = s.tx.queues ∧ (entrySucceeded e s).events.again = s.events.again ∧
      (e.cls ≠ .status → (entrySucceeded e s).events.set = s.events.set) ∧
      (entrySucceeded e s).sr = { s.sr with
        resetPending := if e.cls = .service ∧ e.reset = true then .due else s.sr.resetPending } ∧
      entrySucceeded e s = { s with
        tx := (entrySucceeded e s).tx, events := (entrySucceeded e s).events, sr := (entrySucceeded e s).sr } := by
  unfold entrySucceeded
  cases hc : e.cls
  case hold =>
    unfold demandSucceeded
    dsimp only
    split <;> exact ⟨rfl, rfl, fun _ => rfl, rfl, rfl⟩
  case forward => exact ⟨rfl, rfl, fun _ => rfl, rfl, rfl⟩
  case status =>
    unfold statusSucceeded
    dsimp only
    split <;> exact ⟨rfl, rfl, fun h => absurd rfl h, rfl, rfl⟩
  case service =>
    dsimp only
    rw [noteResetOut_eq]
    exact ⟨rfl, rfl, fun _ => rfl, by simp, rfl⟩

end

/-- Settles O39: the effect of the entry's class, then `trySend_sends`. -/
theorem transmissionSuccessTakesTheEntryOut : Obligations.TransmissionSuccessTakesTheEntryOut := by
  intro p s e hs
  have run := transmissionSucceeded_eq hs
  let v := setQueue p ⟨(queueOf s p).waiting, none⟩ s
  have held : e.cls = .hold → entrySucceeded e v = demandSucceeded e v := fun hc => by rw [entrySucceeded, hc]
  have status : e.cls = .status → entrySucceeded e v = statusSucceeded e v := fun hc => by rw [entrySucceeded, hc]
  have plain : e.cls = .forward ∨ e.cls = .service → (entrySucceeded e v).tx = v.tx := by
    rintro (hc | hc) <;> rw [entrySucceeded, hc]
    rw [noteResetOut_eq]
  obtain ⟨queues, again, set, reset, frame⟩ := entrySucceeded_frame e v
  dsimp only at run
  rw [show setQueue p ⟨(queueOf s p).waiting, none⟩ s = v from rfl] at run
  generalize entrySucceeded e v = w at *
  have links : w.links = s.links := (congrArg State.links frame).trans rfl
  refine ⟨_, _, congrArg Host.Outcome.next run, trySend_sends p _, queues, by rw [← links]; rfl, again, set,
    fun c hc hp stale alive => ?_, fun hc stale => ?_, fun c hc alive => ?_, fun hc => ?_, reset, ?_⟩
  · subst hp
    show w.tx = { s.tx with
      queues := w.tx.queues, nextDemand := (c + 1) % 15, owed := 0, starved := false
      outstanding := (queueOf s .b).hasWaiting .hold }
    rw [held hc, demandSucceeded_fresh stale alive]
    rfl
  · show w.tx = { s.tx with queues := w.tx.queues }
    rw [held hc, demandSucceeded_stale stale]
    rfl
  · show w.events.set = _ ∧ w.tx = { s.tx with
      queues := w.tx.queues, nextStatus := if e.stale then s.tx.nextStatus else (c + 1) % 15 }
    rw [status hc, statusSucceeded_eq alive]
    exact ⟨rfl, rfl⟩
  · show w.tx = { s.tx with queues := w.tx.queues }
    rw [plain hc]
    rfl
  · rw [frame]
    rfl

/-! ## Errors and BUS_OFF (R141, R142, R158, R159) -/

section
variable {p : Port} {s : State} {e : Entry}

/-- An entry that comes back from a failed transmission, one from before an activation to start anew (R158, R168). -/
def dropsFailed (p : Port) (e : Entry) (s : State) : Prop :=
  (e.cls = .hold ∧ e.stale = true) ∨ (e.cls = .forward ∧ p = .b ∧ (txBank s).params.panicWatermark ≤ s.tx.owed)

def givesWay (p : Port) (e : Entry) (s : State) : Prop :=
  e.cls = .hold ∧ e.stale = false ∧ ∃ x ∈ (queueOf s p).waiting, x.cls = .hold

theorem hasWaiting_iff {q : TxQueue} {cls : TxClass} : q.hasWaiting cls = true ↔ ∃ x ∈ q.waiting, x.cls = cls := by
  simp [TxQueue.hasWaiting]

theorem failedOutcome_dropped (h : dropsFailed p e s) : failedOutcome p e s = .dropped := by
  unfold failedOutcome
  rcases h with ⟨hc, hs⟩ | ⟨hc, hp, ho⟩
  · simp [hc, hs]
  · simp [hc, hp, panicStands, ho]

theorem failedOutcome_replaced (h : givesWay p e s) : failedOutcome p e s = .replaced := by
  obtain ⟨hc, hs, hw⟩ := h
  simp [failedOutcome, hc, hs, hasWaiting_iff.mpr hw]

theorem failedOutcome_returned (hd : ¬ dropsFailed p e s) (hg : ¬ givesWay p e s) :
    failedOutcome p e s = .returned := by
  unfold failedOutcome
  split
  case h_1 hc =>
    have stale : e.stale = false := by simpa [dropsFailed, hc] using hd
    have none : (queueOf s p).hasWaiting .hold = false := by
      simpa [givesWay, hc, stale, TxQueue.hasWaiting] using hg
    simp [stale, none]
  case h_2 hc =>
    refine if_neg fun g => hd (.inr ⟨hc, g.1, ?_⟩)
    exact of_decide_eq_true g.2
  all_goals rfl

theorem entryFailed_eq {kept : List Entry} {dropped : List Counter}
    (hd : dropsFailed p e s → kept = (queueOf s p).waiting ∧ dropped = [.queueDrop p])
    (hg : givesWay p e s → kept = (queueOf s p).waiting ∧ dropped = [])
    (hr : ¬ dropsFailed p e s → ¬ givesWay p e s → kept = returnEntry e :: (queueOf s p).waiting ∧ dropped = []) :
    entryFailed p e s = { s with
      tx := { s.tx with queues := s.tx.queues.set p ⟨kept, none⟩ }
      sr := { s.sr with resetPending := if e.reset then .due else s.sr.resetPending }
      mail := { s.mail with counts := s.mail.counts ++ dropped } } := by
  unfold entryFailed
  rw [noteResetOut_eq]
  by_cases d : dropsFailed p e s
  · obtain ⟨rfl, rfl⟩ := hd d
    rw [failedOutcome_dropped d]
    rfl
  · by_cases g : givesWay p e s
    · obtain ⟨rfl, rfl⟩ := hg g
      rw [failedOutcome_replaced g, List.append_nil]
      rfl
    · obtain ⟨rfl, rfl⟩ := hr d g
      rw [failedOutcome_returned d g, List.append_nil]
      rfl

theorem transmissionFailed_eq (hs : (queueOf s p).sending = some e) : transmissionFailed p s =
    let s1 := count (.txError p) (entryFailed p e s)
    let errors := (s1.links.get p).errors + 1
    let s2 := setLink p { s1.links.get p with errors := errors } s1
    if 16 ≤ errors then enterBusOff p s2 else trySend p s2 := by
  unfold transmissionFailed
  rw [hs]
  rfl

theorem enterBusOff_eq (p : Port) (s : State) : enterBusOff p s =
    let gone := (queueOf s p).waiting.filter fun x => x.cls != .hold
    { s with
      tx := { s.tx with
        queues := s.tx.queues.set p ⟨(queueOf s p).waiting.filter fun x => x.cls == .hold, (queueOf s p).sending⟩ }
      links := s.links.set p { s.links.get p with busOff := true, recovery := some 500 }
      sr := { s.sr with resetPending := if gone.any Entry.reset then .due else s.sr.resetPending }
      mail := { s.mail with
        counts := s.mail.counts ++ List.replicate gone.length (.queueDrop p)
        faults := s.mail.faults ++ [⟨if p = .b then .major else .minor, .portBusOff, .port p, none⟩] } } := by
  unfold enterBusOff flushQueue
  simp only [noteResetOut_all, countTimes_eq]
  cases p <;> rfl

end

/-- Settles O40: `transmissionFailed_eq` and `entryFailed_eq` give the queue, and the sixteenth error adds what
`enterBusOff_eq` says. -/
theorem transmissionErrorReturnsOrDrops : Obligations.TransmissionErrorReturnsOrDrops := by
  intro p s e hs q again drops gives errors kept dropped hd hg hr counts
  have run := transmissionFailed_eq hs
  dsimp only at run
  rw [entryFailed_eq hd hg hr] at run
  refine ⟨fun h => ?_, ?_⟩
  · exact ⟨_, congrArg Host.Outcome.next (run.trans (if_neg (Nat.not_le.mpr h))), trySend_sends p _⟩
  · intro h held gone
    have reset : ∀ r : ResetPending, (if gone.any Entry.reset then .due else if e.reset then .due else r) =
        if e.reset || gone.any Entry.reset then .due else r := fun r => by
      cases e.reset <;> cases gone.any Entry.reset <;> rfl
    refine congrArg Host.Outcome.next (run.trans ((if_pos h).trans ((enterBusOff_eq p _).trans ?_)))
    rw [← reset]
    cases p <;> rfl

theorem trySend_hold {p : Port} {s : State} (hl : s.loading = false) (hb : (s.links.get p).busOff = false)
    (hs : (queueOf s p).sending = none) (hw : (queueOf s p).hasWaiting .hold = true) :
    ∃ e, (queueOf (trySend p s) p).sending = some e ∧ e.cls = .hold := by
  have first : choose s p = takeFirst (fun e => e.cls == .hold) (queueOf s p).waiting := by
    simp [choose, hw, heldBack]
  obtain ⟨x, rest, chosen⟩ : ∃ x rest, choose s p = some (x, rest) := by
    rw [first]
    cases ht : takeFirst (fun e : Entry => e.cls == .hold) (queueOf s p).waiting with
    | none =>
      obtain ⟨x, hx, hc⟩ := hasWaiting_iff.mp hw
      simpa [hc] using takeFirst_none.mp ht x hx
    | some y => exact ⟨y.1, y.2, rfl⟩
  have hold : x.cls = .hold := by
    rw [first] at chosen
    obtain ⟨before, after, -, hc, -⟩ := takeFirst_some.mp chosen
    simpa using hc
  refine ⟨startEntry s x, ?_, (startEntry_keeps s x).1.trans hold⟩
  rw [trySend, if_neg (by simp [hl, hb, hs]), chosen]
  simp [noteStart, hold]

/-- Settles O41: the port is at its start values, and `trySend_hold` says that a HOLD entry goes first. -/
theorem recoveryReturnsThePort : Obligations.RecoveryReturnsThePort := by
  intro p s h
  have run : recovered p s = trySend p (setLink p .start s) := by
    simp only [recovered, h]
  have kept := trySend_kept p (setLink p .start s)
  refine ⟨_, congrArg Host.Outcome.next run, trySend_sends p _, kept.len, kept.eset, fun hl hs hw => ?_⟩
  exact trySend_hold hl (by rw [setLink_links, PerPort.get_set]; rfl) hs hw

end Sys2Proof.Machine
end

