-- ==== Sys2Proof/Proofs/PeriodicFrames.lean ====
section
/-! PROOF. The frames of the Demand Period and the Status Period (O42, O43). -/

namespace Sys2Proof.Machine

section
variable {p : Port} {s t : State} {e e' : Entry}

/-! ## A start and the timers -/

theorem trySend_tx (p : Port) (s : State) : (trySend p s).tx = { s.tx with queues := (trySend p s).tx.queues } :=
  congrArg State.tx (trySend_kept p s).frame

theorem trySend_statusTimer (p : Port) (s : State) (x : Timer) :
    (trySend p s).setTx { (trySend p s).tx with statusTimer := x } =
      trySend p (s.setTx { s.tx with statusTimer := x }) := by
  have same : (trySend p s).tx.demandTimer = s.tx.demandTimer := (congrArg Scheduler.demandTimer (trySend_tx p s)).trans rfl
  have both := trySend_timers p s s.tx.demandTimer x
  rw [← same] at both
  exact both.trans (by rw [same])

theorem trySend_demandTimer (p : Port) (s : State) (x : Timer) :
    (trySend p s).setTx { (trySend p s).tx with demandTimer := x } =
      trySend p (s.setTx { s.tx with demandTimer := x }) := by
  have same : (trySend p s).tx.statusTimer = s.tx.statusTimer := (congrArg Scheduler.statusTimer (trySend_tx p s)).trans rfl
  have both := trySend_timers p s x s.tx.statusTimer
  rw [← same] at both
  exact both.trans (by rw [same])

theorem sealBytes_six (seed alive : Nat) (a b c d e f : Byte) : sealBytes seed alive [a, b, c, d, e, f] =
    [a, b, c, d, e, f] ++ [byte alive] ++
      [byte (255 - (seed + byteSum ([a, b, c, d, e, f] ++ [byte alive])) % 256)] := rfl

theorem sealBytes_statusBytes (seed alive : Nat) (state : HoldState) (cause : Option Cause) (degraded service : Bool)
    (events : BitVec 16) (record : Option FaultRecord) :
    let body := [byte (state.code + 16 * Cause.code cause + 64 * bit degraded + 128 * bit service),
      byte events.toNat, byte (events.toNat / 256)] ++ faultBytes record ++ [byte alive]
    sealBytes seed alive (statusBytes state cause degraded service events record) =
      body ++ [byte (255 - (seed + byteSum body) % 256)] := by
  cases record <;> rfl

/-! ## The Status Period (R166) -/

theorem statusPeriodExpired_eq (h : s.tx.statusTimer = some 0) : statusPeriodExpired s =
    let s1 := if (queueOf s .c).hasWaiting .status then s
      else (offer .c (newEntry .status ⟨(txBank s).params.statusIdent, false, []⟩ false) s).2
    s1.setTx { s1.tx with statusTimer := some (txBank s).params.statusPeriod } := by
  simp only [statusPeriodExpired, h]

theorem statusPeriodExpired_offers (h : s.tx.statusTimer = some 0) (hw : (queueOf s .c).hasWaiting .status = false) :
    let q := queueOf s .c
    let entry := fun d : Bool =>
      (⟨.status, d, ⟨(txBank s).params.statusIdent, false, []⟩, none, 0, false, false⟩ : Entry)
    (Full s .c .status → statusPeriodExpired s = { s with
      tx := { s.tx with statusTimer := some (txBank s).params.statusPeriod }
      mail := { s.mail with counts := s.mail.counts ++ [.queueDrop .c] } }) ∧
    (¬ Full s .c .status → statusPeriodExpired s = trySend .c { s with
      tx := { s.tx with
        statusTimer := some (txBank s).params.statusPeriod
        queues := s.tx.queues.set .c { q with
          waiting := q.waiting ++ [entry (decide (q.dedicatedCount .status < (txBank s).minima.c.status))] } } }) := by
  intro q entry
  have run := statusPeriodExpired_eq h
  obtain ⟨full, free⟩ := offer_space (s := s) (p := .c)
    (e := newEntry .status ⟨(txBank s).params.statusIdent, false, []⟩ false) rfl nofun nofun
  simp only [hw, Bool.false_eq_true, if_false] at run
  refine ⟨fun hf => ?_, fun hf => ?_⟩
  · rw [run, full hf]
    rfl
  · rw [run, free hf, trySend_statusTimer]
    rfl

/-- On an idle port a single waiting entry is started. -/
theorem sends_only (h : Sends p s t) (hi : Idle p s) (hq : queueOf s p = ⟨[e], none⟩) (hf : ¬ HeldBack s p e.cls) :
    ∃ e', Started s e e' ∧ queueOf t p = ⟨[], some e'⟩ ∧
      t.events.again = if e.cls = .status then 0 else s.events.again := by
  refine h.starts hi [] e [] ⟨by rw [hq]; rfl, nofun, hf, fun x hx hr => ?_⟩
  rw [hq] at hx
  obtain rfl := List.mem_singleton.mp hx
  exact absurd hr (Nat.lt_irrefl _)

theorem queues_eq {x y : PerPort TxQueue} (p : Port) (q : TxQueue) (h : x.get p = q) (ho : x.get p.other = y.get p.other) :
    x = y.set p q := by
  obtain ⟨xc, xb⟩ := x
  subst h
  cases p
  case c => exact congrArg (PerPort.mk xc) ho
  case b => exact congrArg (PerPort.mk · xb) ho

end

/-- Settles O43: `statusPeriodExpired_offers` for the offer; on an idle port with an empty queue there is space. -/
theorem statusPeriodOffersAStatus : Obligations.StatusPeriodOffersAStatus := by
  intro s ht params
  refine ⟨fun hw => ?_, fun hw => ?_, fun hl hb hq hm => ?_⟩
  · have run := statusPeriodExpired_eq ht
    simp only [hw, if_true] at run
    exact congrArg Host.Outcome.next run
  · intro q minimum space full
    obtain ⟨refused, admitted⟩ := statusPeriodExpired_offers ht hw
    exact ⟨fun h => congrArg Host.Outcome.next (refused h),
      fun h => ⟨_, congrArg Host.Outcome.next (admitted h), trySend_sends .c _⟩⟩
  · intro body
    have free : ¬ Full s .c .status := by
      have none : (queueOf s .c).entries.length = 0 ∧ (queueOf s .c).dedicatedCount .status = 0 := by
        rw [hq]
        exact ⟨rfl, rfl⟩
      rintro (h | ⟨h, -⟩)
      · omega
      · rw [none.2] at h
        exact absurd hm (Nat.not_lt.mpr h)
    have run := (statusPeriodExpired_offers ht (by rw [hq]; rfl)).2 free
    have waiting : (queueOf s .c).waiting = [] := by rw [hq]
    have idle : (queueOf s .c).sending = none := by rw [hq]
    have count : (queueOf s .c).dedicatedCount .status = 0 := by rw [hq]; rfl
    dsimp only at run
    rw [waiting, List.nil_append, count, decide_eq_true hm, idle] at run
    generalize hu : State.mk _ _ _ _ _ _ _ _ _ _ _ _ _ _ _ _ = u at run
    have sends := trySend_sends .c u
    generalize trySend .c u = t at run sends
    subst hu
    obtain ⟨e', started, queue, again⟩ := sends_only sends ⟨hl, hb, rfl⟩ rfl nofun
    obtain ⟨alive, carried, frame⟩ := started.status rfl
    obtain ⟨cls, dedicated, stale, reset⟩ := started.same
    have entry : e' = ⟨.status, true, ⟨params.statusIdent, false, body ++ [byte (255 - (params.txSeed + byteSum body) % 256)]⟩,
        some s.tx.nextStatus, s.events.set, false, false⟩ := by
      obtain ⟨_, _, _, _, _, _, _⟩ := e'
      simp only [Entry.mk.injEq]
      refine ⟨cls, dedicated, frame.trans ?_, alive, carried, stale, reset⟩
      rw [sealBytes_statusBytes]
      rfl
    have queues : t.tx.queues = s.tx.queues.set .c ⟨[], some e'⟩ := queues_eq .c _ queue sends.other
    have only := sends.only
    rw [queues, again] at only
    rw [entry] at only
    exact (congrArg Host.Outcome.next run).trans (congrArg Host.Outcome.next only)

/-! ## The Demand Period (R160, R163 to R165) -/

section
variable {s w : State}

/-- The owed count after a generation (R163). -/
def owedNow (s : State) : Nat := if s.tx.outstanding then min 255 (s.tx.owed + 1) else s.tx.owed

/-- A generation brings the owed count to the Panic Watermark (R165). -/
def Panics (s : State) : Prop :=
  s.tx.owed < (txBank s).params.panicWatermark ∧ (txBank s).params.panicWatermark ≤ owedNow s

/-- A stretch's first generation at the Panic Watermark, on an ACTIVE port (R165). -/
def Starves (s : State) : Prop :=
  (txBank s).params.panicWatermark ≤ owedNow s ∧ s.links.b.busOff = false ∧ s.tx.starved = false

/-- The event of a generation at the HP Watermark (R164). -/
def lateBit (s : State) : BitVec 16 := if (txBank s).params.hpWatermark ≤ owedNow s then 1#16 <<< 11 else 0

/-- A generation before its frame is offered: the owed count and the watermarks (R163 to R165). -/
structure Marked (s w : State) : Prop where
  tx : w.tx = { s.tx with
    owed := owedNow s, outstanding := true, queues := w.tx.queues, starved := w.tx.starved }
  events : w.events = ⟨s.events.set ||| lateBit s, s.events.again ||| lateBit s⟩
  starves : Starves s → w.tx.starved = true ∧ w.mail.faults = s.mail.faults ++ [⟨.major, .demandStarved, .none, none⟩]
  rests : ¬ Starves s → w.tx.starved = s.tx.starved ∧ w.mail.faults = s.mail.faults
  panics : Panics s → queueOf w .b = ⟨(queueOf s .b).waiting.filter (fun e => e.cls != .forward), (queueOf s .b).sending⟩ ∧
    w.mail.counts = s.mail.counts ++
      List.replicate ((queueOf s .b).waiting.filter fun e => e.cls == .forward).length (.queueDrop .b)
  calm : ¬ Panics s → queueOf w .b = queueOf s .b ∧ w.mail.counts = s.mail.counts
  other : queueOf w .c = queueOf s .c
  frame : w = { s with
    tx := w.tx, events := w.events, mail := { s.mail with counts := w.mail.counts, faults := w.mail.faults } }

theorem watermarks_marked (s : State) : Marked s (watermarks s.tx.owed (oweDemand s)) := by
  have eq := watermarks_eq s.tx.owed (oweDemand s)
  have queues := congrArg (·.tx.queues) eq
  have counts := congrArg (·.mail.counts) eq
  refine ⟨?_, ?_, fun h => ⟨?_, ?_⟩, fun h => ⟨?_, ?_⟩, fun h => ⟨?_, ?_⟩, fun h => ⟨?_, ?_⟩, ?_, ?_⟩
  · rw [eq]
    rfl
  · refine (congrArg (·.events) eq).trans ?_
    unfold lateBit
    by_cases h : (txBank s).params.hpWatermark ≤ owedNow s
    · rw [if_pos h]
      exact if_pos h
    · have zero : ∀ x : BitVec 16, x ||| 0 = x := fun x => by simp
      rw [if_neg h, zero, zero]
      exact if_neg h
  · exact (congrArg (·.tx.starved) eq).trans (if_pos h)
  · exact (congrArg (·.mail.faults) eq).trans (congrArg (s.mail.faults ++ ·) (if_pos h))
  · exact (congrArg (·.tx.starved) eq).trans (if_neg h)
  · exact (congrArg (·.mail.faults) eq).trans
      ((congrArg (s.mail.faults ++ ·) (if_neg h)).trans (List.append_nil _))
  · exact congrArg (PerPort.get · .b) (queues.trans (if_pos h))
  · exact counts.trans (congrArg (s.mail.counts ++ ·) (if_pos h))
  · exact congrArg (PerPort.get · .b) (queues.trans (if_neg h))
  · exact counts.trans ((congrArg (s.mail.counts ++ ·) (if_neg h)).trans (List.append_nil _))
  · refine congrArg (PerPort.get · .c) queues |>.trans ?_
    dsimp only
    split <;> rfl
  · rw [eq]
    rfl

/-- The entry of a Hold Demand Frame as it waits (R160, R187). -/
def demandEntry (s : State) (dedicated : Bool) : Entry :=
  ⟨.hold, dedicated, demandFrame s, none, 0, false, false⟩

/-- The state after an offer, the Demand Period timer started again. -/
def timed (s u : State) : State := u.setTx { u.tx with demandTimer := some (txBank s).params.demandPeriod }

/-- What an offered demand frame makes of the queue of Port B (R155, R161). -/
theorem runDemandPeriod_offers (s : State) : ∃ w, Marked s w ∧
    let entry := demandEntry s
    (∀ before e after, (queueOf w .b).waiting = before ++ e :: after → e.cls = .hold → (∀ x ∈ before, x.cls ≠ .hold) →
      runDemandPeriod s = timed s (setQueue .b { queueOf w .b with waiting := before ++ entry e.dedicated :: after } w)) ∧
    ((queueOf w .b).hasWaiting .hold = false →
      (Full w .b .hold → runDemandPeriod s = timed s { w with
        mail := { w.mail with counts := w.mail.counts ++ [.queueDrop .b] } }) ∧
      (¬ Full w .b .hold → runDemandPeriod s = trySend .b (timed s (setQueue .b { queueOf w .b with
        waiting := (queueOf w .b).waiting ++
          [entry (decide ((queueOf w .b).dedicatedCount .hold < (txBank s).minima.b.hold))] } w)))) := by
  have marked := watermarks_marked s
  have run : runDemandPeriod s = (offer .b (newEntry .hold (demandFrame (watermarks s.tx.owed (oweDemand s))) false)
      (watermarks s.tx.owed (oweDemand s))).2.setTx
        { (offer .b (newEntry .hold (demandFrame (watermarks s.tx.owed (oweDemand s))) false)
          (watermarks s.tx.owed (oweDemand s))).2.tx with
          demandTimer := some (txBank s).params.demandPeriod } := rfl
  generalize watermarks s.tx.owed (oweDemand s) = w at marked run
  have frame : demandFrame w = demandFrame s := by
    rw [marked.frame]
    rfl
  rw [frame] at run
  have space := fun hn => offer_space (s := w) (p := .b) (e := newEntry .hold (demandFrame s) false) rfl (fun _ => hn) nofun
  refine ⟨w, marked, fun before e after hw he hb => ?_, fun hn => ⟨fun hf => ?_, fun hf => ?_⟩⟩
  · rw [run, offer_hold hw he hb]
    rfl
  · rw [run, (space hn).1 hf]
    rfl
  · have bank : txBank w = txBank s := by
      rw [marked.frame]
      rfl
    rw [run, (space hn).2 hf, trySend_demandTimer, bank]
    rfl

/-- What an offered demand frame leaves as it is: all but the queue of Port B, the counts and a start (R155). -/
structure Offered (s w t : State) : Prop where
  tx : t.tx = { w.tx with queues := t.tx.queues, demandTimer := some (txBank s).params.demandPeriod }
  set : t.events.set = w.events.set
  other : queueOf t .c = queueOf w .c
  waits : ∀ x ∈ (queueOf t .b).waiting, x.cls = .hold ∨ x ∈ (queueOf w .b).waiting
  faults : t.mail.faults = w.mail.faults
  frame : t = { w with
    tx := t.tx, events := { w.events with again := t.events.again }, mail := { w.mail with counts := t.mail.counts } }

theorem timed_offered {q : TxQueue} (h : ∀ x ∈ q.waiting, x.cls = .hold ∨ x ∈ (queueOf w .b).waiting) :
    Offered s w (timed s (setQueue .b q w)) := ⟨rfl, rfl, rfl, h, rfl, rfl⟩

theorem trySend_offered {u : State} (h : Offered s w u) : Offered s w (trySend .b u) := by
  have kept := trySend_kept .b u
  have tx := trySend_tx .b u
  refine ⟨by rw [tx, h.tx], kept.eset.trans h.set, kept.other.trans h.other, fun x hx => h.waits x (kept.sub x hx), ?_, ?_⟩
  · rw [kept.frame]
    exact h.faults
  · rw [kept.frame, h.frame]

/-- The first waiting HOLD entry. -/
theorem first_hold {q : TxQueue} (h : q.hasWaiting .hold = true) : ∃ before e after,
    q.waiting = before ++ e :: after ∧ e.cls = .hold ∧ ∀ x ∈ before, x.cls ≠ .hold := by
  cases ht : takeFirst (fun e : Entry => e.cls == .hold) q.waiting with
  | none =>
    obtain ⟨x, hx, hc⟩ := hasWaiting_iff.mp h
    simpa [hc] using takeFirst_none.mp ht x hx
  | some y =>
    obtain ⟨before, after, hw, hc, hb, -⟩ := takeFirst_some.mp ht
    exact ⟨before, y.1, after, hw, by simpa using hc, fun x hx => by simpa using hb x hx⟩

theorem mem_superseded {before after : List Entry} {e e' x : Entry} (he : e'.cls = .hold)
    (h : x ∈ before ++ e' :: after) : x.cls = .hold ∨ x ∈ before ++ e :: after := by
  rcases List.mem_append.mp h with h | h
  · exact .inr (List.mem_append_left _ h)
  · rcases List.mem_cons.mp h with rfl | h
    · exact .inl he
    · exact .inr (List.mem_append_right _ (List.mem_cons_of_mem _ h))

end

/-- A generation, from `runDemandPeriod_offers` for the queue as the watermarks leave it. -/
theorem runDemandPeriod_made (s : State) : DemandMade s (runDemandPeriod s) := by
  obtain ⟨w, marked, supersedes, judged⟩ := runDemandPeriod_offers s
  have offered : Offered s w (runDemandPeriod s) := by
    cases hw : (queueOf w .b).hasWaiting .hold
    case true =>
      obtain ⟨before, e, after, waiting, hold, first⟩ := first_hold hw
      rw [supersedes before e after waiting hold first]
      refine timed_offered fun x hx => ?_
      rw [waiting]
      exact mem_superseded rfl hx
    case false =>
      by_cases hf : Full w .b .hold
      · rw [(judged hw).1 hf]
        exact ⟨rfl, rfl, rfl, fun x hx => .inr hx, rfl, rfl⟩
      · rw [(judged hw).2 hf]
        refine trySend_offered (timed_offered fun x hx => ?_)
        rcases List.mem_append.mp hx with h | h
        · exact .inr h
        · exact .inl (by rw [List.mem_singleton.mp h]; rfl)
  generalize runDemandPeriod s = t at *
  have tx : t.tx = { s.tx with
      owed := owedNow s, outstanding := true, queues := t.tx.queues, starved := t.tx.starved
      demandTimer := some (txBank s).params.demandPeriod } := by rw [offered.tx, marked.tx]
  have starved : t.tx.starved = w.tx.starved := by rw [offered.tx]
  have bank : txBank w = txBank s := by rw [marked.frame]; rfl
  have made : ∀ queue again counts, { w with
      tx := { w.tx with
        queues := w.tx.queues.set .b queue, demandTimer := some (txBank s).params.demandPeriod }
      events := ⟨w.events.set, again⟩
      mail := { w.mail with counts := counts } } = { s with
      tx := { t.tx with queues := s.tx.queues.set .b queue }
      events := ⟨t.events.set, again⟩
      mail := { s.mail with counts := counts, faults := t.mail.faults } } := by
    intro queue again counts
    have queues : w.tx.queues.set .b queue = s.tx.queues.set .b queue := by
      have other : w.tx.queues.c = s.tx.queues.c := marked.other
      simp only [PerPort.set, other]
    rw [tx, starved, queues, offered.set, offered.faults, marked.tx]
    rw [marked.frame]
  unfold DemandMade
  intro params owed d q covered entry panics late
  refine ⟨congrArg Scheduler.owed tx, congrArg Scheduler.outstanding tx, congrArg Scheduler.demandTimer tx,
    by rw [tx], by rw [tx], by rw [tx],
    by rw [offered.set, marked.events]; rfl, fun h => ?_, fun h => ?_, fun h x hx => ?_, ?_, ?_,
    offered.other.trans marked.other, ?_⟩
  · rw [starved, offered.faults]
    exact marked.starves h
  · rw [starved, offered.faults]
    exact marked.rests h
  · rcases offered.waits x hx with hc | hw
    · simp [hc]
    · rw [(marked.panics h).1] at hw
      simpa using (List.mem_filter.mp hw).2
  · intro entries discarded remains counts
    obtain ⟨queue, counted⟩ : queueOf w .b = ⟨entries, q.sending⟩ ∧ w.mail.counts = counts := by
      by_cases h : Panics s
      · obtain ⟨rfl, rfl⟩ := remains.1 h
        exact marked.panics h
      · obtain ⟨rfl, rfl⟩ := remains.2 h
        refine (marked.calm h).imp_right fun e => e.trans ?_
        exact (List.append_nil _).symm
    have again : w.events.again = s.events.again ||| late := by rw [marked.events]; rfl
    refine ⟨fun before e after he hc hb => ?_, ?_⟩
    · have eq := supersedes before e after (by rw [queue]; exact he) hc hb
      refine ⟨?_, ?_, ?_⟩
      · rw [eq, queue]
        rfl
      · rw [eq, ← again]
        rfl
      · rw [eq, ← counted]
        rfl
    · intro hn left minimum full made'
      have none : (queueOf w .b).hasWaiting .hold = false := by
        rw [queue]
        exact Bool.eq_false_iff.mpr fun h => by
          obtain ⟨x, hx, hc⟩ := hasWaiting_iff.mp h
          exact hn x hx hc
      have full_iff : Full w .b .hold ↔ full := by
        unfold Full
        rw [queue, bank]
        rfl
      refine ⟨fun hf => ?_, fun hf => ?_⟩
      · refine ((judged none).1 (full_iff.mpr hf)).trans (Eq.trans ?_ (made left (s.events.again ||| late) _))
        rw [← again, ← counted, show left = queueOf w .b from queue.symm, queueOf, PerPort.set_get]
        rfl
      · have sends := trySend_sends .b (timed s (setQueue .b { queueOf w .b with
          waiting := (queueOf w .b).waiting ++
            [demandEntry s (decide ((queueOf w .b).dedicatedCount .hold < (txBank s).minima.b.hold))] } w))
        rw [← (judged none).2 (mt full_iff.mp hf)] at sends
        have eq : timed s (setQueue .b { queueOf w .b with
            waiting := (queueOf w .b).waiting ++
              [demandEntry s (decide ((queueOf w .b).dedicatedCount .hold < (txBank s).minima.b.hold))] } w) =
            made' ⟨entries ++ [entry (decide (left.dedicatedCount .hold < minimum))], q.sending⟩ [] := by
          refine Eq.trans ?_ (made _ (s.events.again ||| late) _)
          rw [queue, List.append_nil, ← counted, ← again]
          rfl
        rw [← eq]
        exact sends
  · intro hl hb hs hw hlen hded sealed
    obtain ⟨sending, sublist, waits⟩ : (queueOf w .b).sending = none ∧ (queueOf w .b).entries.Sublist q.entries ∧
        ∀ x ∈ (queueOf w .b).waiting, x ∈ q.waiting := by
      by_cases h : Panics s
      · rw [(marked.panics h).1]
        exact ⟨hs, (List.Sublist.refl _).append List.filter_sublist, fun x hx => (List.mem_filter.mp hx).1⟩
      · rw [(marked.calm h).1]
        exact ⟨hs, List.Sublist.refl _, fun x hx => hx⟩
    have none : ∀ x ∈ (queueOf w .b).waiting, x.cls ≠ .hold := fun x hx hc =>
      Bool.eq_false_iff.mp hw (hasWaiting_iff.mpr ⟨x, waits x hx, hc⟩)
    have dedicated : (queueOf w .b).dedicatedCount .hold < (txBank s).minima.b.hold :=
      (countWhere_sublist _ sublist).trans_lt hded
    have free : ¬ Full w .b .hold := by
      rintro (h | ⟨h, -⟩)
      · exact absurd (h.trans sublist.length_le) (Nat.not_le.mpr hlen)
      · rw [bank] at h
        exact absurd h (Nat.not_le.mpr dedicated)
    have eq := (judged (Bool.eq_false_iff.mpr fun h => by
      obtain ⟨x, hx, hc⟩ := hasWaiting_iff.mp h
      exact none x hx hc)).2 free
    have sends := trySend_sends .b (timed s (setQueue .b { queueOf w .b with
      waiting := (queueOf w .b).waiting ++ [demandEntry s true] } w))
    dsimp only at eq
    rw [decide_eq_true dedicated] at eq
    rw [← eq] at sends
    have idle : s.loading = w.loading ∧ s.links = w.links := by rw [marked.frame]; exact ⟨rfl, rfl⟩
    obtain ⟨e, started, queue, -⟩ := sends.starts
      ⟨(idle.1.symm.trans hl), (congrArg (fun l : PerPort Link => l.b.busOff) idle.2).symm.trans hb, sending⟩
      (queueOf w .b).waiting (demandEntry s true) [] ⟨rfl, none, nofun, fun x _ hr => absurd hr (Nat.not_lt_zero _)⟩
    obtain ⟨alive, frame⟩ := started.demand rfl rfl
    obtain ⟨cls, ded, -, -⟩ := started.same
    have next : w.tx.nextDemand = s.tx.nextDemand := by rw [marked.tx]
    refine ⟨e, congrArg TxQueue.sending queue, cls, ded, alive.trans (congrArg some next), frame.trans ?_⟩
    change (⟨(txBank w).params.demandIdent, false,
      sealBytes (txBank w).params.txSeed w.tx.nextDemand (demandEntry s true).frame.data⟩ : Frame) = _
    rw [bank, next]
    exact congrArg (Frame.mk _ _) (sealBytes_six _ _ _ _ _ _ _ _)
  · rw [offered.frame, marked.frame]

/-- Settles O42: `runDemandPeriod_made` is the whole of it; the expiry runs where the timer stands at 0. -/
theorem demandPeriodGeneratesADemand : Obligations.DemandPeriodGeneratesADemand := by
  intro s ht
  refine ⟨_, congrArg Host.Outcome.next ?_, runDemandPeriod_made s⟩
  simp only [demandPeriodExpired, ht]

end Sys2Proof.Machine
end

