-- ==== Sys2Proof/Proofs/HoldEvents.lean ====
section
/-! PROOF. The Hold Controller's results, expiries and reports (O24 to O34). -/

namespace Sys2Proof.Machine

section
variable {s : State} {a : ActiveBank} {b : Bank}

/-! ## An event of the controller under its bank -/

theorem holdEvent_under {f : Bank → State → State} (ha : s.active = some a)
    (h : s.hc.state = .starting → (f a.bank s).hc.state = .starting) : holdEvent f s = f a.bank s := by
  unfold holdEvent
  simp only [ha]
  exact withStart_eq ((em _).symm.imp_right h)

theorem exec_under {c : Instr} {f : Bank → State → State} (hf : holdAct c = some f) (ha : s.active = some a)
    (h : s.hc.state = .starting → (f a.bank s).hc.state = .starting) : exec c s = .next (f a.bank s) :=
  (exec_holdAct s hf).trans (congrArg Host.Outcome.next (holdEvent_under ha h))

/-- An event whose state is not STARTING (R160). -/
theorem exec_in {c : Instr} {f : Bank → State → State} {x : HoldState} (hf : holdAct c = some f) (ha : s.active = some a)
    (hs : s.hc.state = x) (hx : x ≠ .starting) : exec c s = .next (f a.bank s) :=
  exec_under hf ha fun h => absurd (hs.symm.trans h) hx

/-! ## Changes of state -/

/-- What a change of hold state leaves, whichever state it enters (R44, R49). -/
theorem changeState_entered (new : HoldState) (cause : Option Cause) (asked : Circuits) (episode : Bool) :
    let t := changeState b new cause asked episode s
    t.hc.state = new ∧ t.hc.cause = cause ∧ t.events.set = s.events.set ||| 1#16 ∧
      t.mail.stateReports = s.mail.stateReports ++ [⟨new, episode⟩] ∧ TimersStopped t.hc ∧ t.hc.quiet = none ∧
      RecordKept s.hc t.hc ∧ t.hc.reapply = s.hc.reapply ∧ HoldOnly s t ∧ t.mail.faults = s.mail.faults :=
  ⟨rfl, rfl, rfl, rfl, by constructor <;> rfl, rfl, by constructor <;> rfl, rfl, rfl, rfl⟩

theorem enterSecured_stopped (cause : Cause) : TimersStopped (enterSecured b cause s).hc ∧
    (enterSecured b cause s).hc.claims = noClaims ∧ (enterSecured b cause s).hc.parkExit = false ∧
    (enterSecured b cause s).hc.reapply = s.hc.reapply ∧
    (enterSecured b cause s).hc.quiet = if s.hc.springApplied ∧ s.hc.stationary then some 2000 else none := by
  rw [enterSecured_eq]
  exact ⟨by constructor <;> rfl, rfl, rfl, rfl, rfl⟩

/-- SECURED with a fault report, which is made after the change (R169; log 29). -/
theorem enterSecured_reported (cause : Cause) (kind : FaultKind) (subject : Subject) :
    let t := reportChange .major kind subject (enterSecured b cause s)
    Entered .secured (some cause) b.maxPressure false s t ∧ t.hc = (enterSecured b cause s).hc ∧
      t.mail.faults = s.mail.faults ++ [⟨.major, kind, subject, some .secured⟩] ∧ RecordKept s.hc t.hc ∧ HoldOnly s t := by
  rw [enterSecured_eq]
  exact ⟨⟨rfl, rfl, rfl, rfl, rfl⟩, rfl, rfl, by constructor <;> rfl, rfl⟩

theorem enterParked_stopped : TimersStopped (enterParked b s).hc ∧ (enterParked b s).hc.quiet = none ∧
    (enterParked b s).hc.parkExit = false ∧ (enterParked b s).hc.claims = s.hc.claims :=
  ⟨by constructor <;> rfl, rfl, rfl, rfl⟩

/-- A truck that moves, or stands with the spring brake applied, has no quiet timer at the entry. -/
theorem not_quiet {h : HoldController} (hq : ¬ (Applied h ∧ h.stationary = true)) :
    (if h.springApplied ∧ h.stationary then some 2000 else none : Timer) = none :=
  if_neg fun k => hq ⟨applied_iff.mp k.1, k.2⟩

/-- The tests of INACTIVE lead to no state of the start (R54). -/
theorem inactiveTest_state (hs : s.hc.state = .inactive) :
    (inactiveTest b s).hc.state ≠ .starting ∧ (inactiveTest b s).hc.state ≠ .off := by
  unfold inactiveTest
  split
  · exact ⟨nofun, nofun⟩
  split
  · rw [(enterHandover_entered _ _ _).state]
    exact ⟨nofun, nofun⟩
  split
  · exact ⟨nofun, nofun⟩
  · rw [hs]
    exact ⟨nofun, nofun⟩

/-! ## Claims that leave the table -/

theorem limitedFloors_none {h : HoldController} (hn : h.noClaim = true) : h.limitedFloors b = .zero := by
  have : h.standing = [] := by simpa [HoldController.noClaim] using hn
  simp [HoldController.limitedFloors, this]

/-- The removal of every claim leaves the demand (R59). -/
theorem removeClaims_all {f : Claim → Bool} {h : HoldController} (hf : ∀ c, some c ∈ h.claims → f c = true)
    (hr : h.resultPressure.within h.demand.pressure) :
    removeClaims b f h = { h with claims := h.claims.map fun c => c.filter fun x => !f x } ∧
      (removeClaims b f h).noClaim = true := by
  have none : ∀ c, some c ∉ h.claims.map fun c => c.filter fun x => !f x := by
    intro c hc
    obtain ⟨x, hx, hxc⟩ := List.mem_map.mp hc
    obtain ⟨rfl, hfc⟩ := Option.filter_eq_some_iff.mp hxc
    simp [hf c hx] at hfc
  refine ⟨?_, noClaim_iff.mpr fun c hc => none c (removeClaims_claims b f h ▸ hc)⟩
  unfold removeClaims
  dsimp only
  split
  · refine ratchet_of_within hr ?_
    rw [limitedFloors_none (noClaim_iff.mpr none)]
    exact Circuits.zero_within _
  · rfl

/-- The removal of the claim of one slot. -/
theorem filter_slot {claims : List (Option Claim)} {f : Claim → Bool} {slot : Nat} {c : Claim}
    (hc : claims[slot]? = some (some c)) (hf : f c = true)
    (only : ∀ i x, claims[i]? = some (some x) → f x = true → i = slot) :
    claims.map (fun c => c.filter fun x => !f x) = claims.set slot none := by
  refine List.ext_getElem? fun i => ?_
  rw [List.getElem?_map]
  by_cases hi : i = slot
  · subst hi
    rw [hc, List.getElem?_set_self (List.getElem?_eq_some_iff.mp hc).1]
    simp [Option.filter, hf]
  · rw [List.getElem?_set_ne (Ne.symm hi)]
    match h : claims[i]? with
    | none => rfl
    | some none => rfl
    | some (some x) =>
      have : f x = false := Bool.eq_false_iff.mpr fun k => hi (only i x h k)
      simp [Option.filter, this]

theorem floorArg_getD (v : Nat) : (floorArg v).getD 0 = v := by
  unfold floorArg
  split
  case isTrue h => exact h.symm
  case isFalse h => rfl

/-- A claim put into the table of a ratcheted demand raises it to the claim's limited floors (R59). -/
theorem ratchet_put {h : HoldController} {i : Nat} {c : Claim} (hi : i < h.claims.length)
    (hr : h.resultPressure.within h.demand.pressure) (hf : (h.limitedFloors b).within h.demand.pressure) :
    ratchet b (putClaim i c h) = { h with
      claims := h.claims.set i (some c)
      demand := { h.demand with pressure := h.demand.pressure.sup (c.floors.inf b.maxPressure) } } := by
  have placed : some c ∈ (putClaim i c h).claims := List.mem_of_getElem? (List.getElem?_set_self hi)
  have left := Circuits.within_sup_left h.demand.pressure (c.floors.inf b.maxPressure)
  have pressure : (h.demand.pressure.sup h.resultPressure).sup ((putClaim i c h).limitedFloors b) =
      h.demand.pressure.sup (c.floors.inf b.maxPressure) := by
    refine Circuits.eq_of_within ?_ (Circuits.sup_within.mpr ⟨?_, ?_⟩)
    · refine Circuits.sup_within.mpr ⟨Circuits.sup_within.mpr ⟨left, Circuits.within_trans hr left⟩, ?_⟩
      refine limitedFloors_within.mpr fun x hx => ?_
      rcases List.mem_or_eq_of_mem_set hx with hx | hx
      · exact Circuits.within_trans (limitedFloors_within.mp hf x hx) left
      · cases hx
        exact Circuits.within_sup_right _ _
    · exact Circuits.within_trans (Circuits.within_sup_left _ _) (Circuits.within_sup_left _ _)
    · exact Circuits.within_trans (limitedFloors_within.mp (Circuits.within_refl _) c placed)
        (Circuits.within_sup_right _ _)
  rw [ratchet_eq, ← pressure]
  rfl

end

/-- Settles O24: the ratchet, then `handoverTest` and `evaluateCriterion` on the raised demand. -/
theorem calcResultRatchets : Obligations.CalcResultRatchets := by
  intro s a r rest ha hm floors raised mail u
  have result : exec .calcResult s = .next (holdEvent takeResult s) := rfl
  have taken : takeResult a.bank s = if s.hc.state = .holding then evaluateCriterion a.bank (handoverTest a.bank u)
      else { s with hc := { s.hc with result := some r }, mail := mail } := by
    unfold takeResult
    rw [hm]
    rfl
  refine ⟨fun hs => ?_, fun hs => ⟨fun hc => .inr (.inr (.inr (.inl ⟨r, rfl, hc⟩))), fun hh => ?_, fun hh => ?_⟩⟩
  · rw [if_neg hs] at taken
    rw [result, holdEvent_under ha fun h => by rw [taken]; exact h, taken]
  all_goals
    have state : u.hc.state = .holding := hs
    rw [result, holdEvent_eq ha (by rw [hs]; decide), taken, if_pos hs]
  · rw [handoverTest_some state (handsOver_iff.mpr hh),
      evaluateCriterion_out (by rw [(enterHandover_entered _ _ _).state]; decide)]
    exact ⟨_, rfl, enterHandover_moved _ _ _, enterHandover_started _ _ _⟩
  · rw [handoverTest_none (Bool.eq_false_iff.mpr (mt handsOver_iff.mp hh))]
    exact evaluateCriterion_tested state

/-- Settles O25: the change to INACTIVE with its report, the tests of R54, and the demand frame at the end of the
event. -/
theorem startWindowExpiryLeavesStarting : Obligations.StartWindowExpiryLeavesStarting := by
  intro s a ha hs ht
  let left := changeState a.bank .inactive none .zero false s
  let w := if s.hc.allOnce then left else reportChange .major .signalLost (startSubject s) left
  have hold : w.hc = left.hc := by
    unfold w
    split <;> rfl
  have faults : w.mail.faults = if s.hc.allOnce then s.mail.faults else
      s.mail.faults ++ [⟨.major, .signalLost, startSubject s, some .inactive⟩] := by
    unfold w
    split <;> rfl
  have only : w = { left with mail := { left.mail with faults := w.mail.faults } } := by
    unfold w
    split <;> rfl
  have run : exec .startWindowExpiry s = .next (runDemandPeriod (inactiveTest a.bank w)) := by
    have expired : startWindowExpired a.bank s = inactiveTest a.bank w := if_pos ⟨ht, hs⟩
    have state := inactiveTest_state (b := a.bank) (s := w) (by rw [hold]; rfl)
    refine congrArg Host.Outcome.next ?_
    unfold holdEvent
    rw [ha]
    dsimp only
    rw [expired]
    exact if_pos ⟨hs, state⟩
  refine ⟨w, _, _, run, ?_, by rw [hold]; rfl, by rw [hold]; constructor <;> rfl, by rw [hold]; constructor <;> rfl,
    by rw [hold]; rfl, by rw [only]; rfl, fun h => ⟨startSubject s, ?_, fun k hk => ?_⟩, fun h => ?_,
    inactiveTest_tested (by rw [hold]; rfl), fun h => inactiveTest_moving (by rw [hold]; exact h), runDemandPeriod_made _⟩
  · rw [only]
    exact ⟨rfl, rfl, rfl, rfl, rfl⟩
  · rw [faults, if_neg (by simp [h])]
  · unfold startSubject
    rw [wanting_subject s.sm hk]
  · rw [faults, if_pos h]

/-- Settles O26: the claim is placed in the empty table, and the entry into HOLDING tests the handover conditions. -/
theorem armedConfirmationHolds : Obligations.ArmedConfirmationHolds := by
  intro s a r ha hs ht hr hc
  have run : exec .armedConfirmExpiry s = .next (enterHolding a.bank s.hc.resultPressure true (placeDriver s)) := by
    rw [exec_in (f := armedConfirmed) rfl ha hs nofun, armedConfirmed, if_pos ⟨ht, hs⟩]
  have claims : (placeDriver s).hc.claims = driverAlone s.now := by
    change s.hc.claims.set 1 _ = _
    rw [hc]
    rfl
  have pressure : s.hc.resultPressure = r.pressure := by
    unfold HoldController.resultPressure
    rw [hr]
  rw [run]
  refine ⟨enterHolding_begun (by rw [← claims]; rfl) ?_, _, rfl, ?_⟩
  · rw [limitedFloors_driver claims]
    change ((s.hc.resultPressure).sup s.hc.resultPressure).sup .zero = _
    rw [pressure]
    exact Circuits.eq_of (by simp [Circuits.zero]) (by simp [Circuits.zero])
  · rw [enterHolding_heldFrom]
    unfold handoverTest
    split
    · rw [enterHandover_eq]
      exact ⟨rfl, rfl⟩
    · exact ⟨rfl, rfl⟩

/-- Settles O28: both expiries hand over through `enterHandover`; a claim that leaves others behind tests the
conditions first. -/
theorem expiriesHandOver : Obligations.ExpiriesHandOver := by
  intro s a ha hs
  refine ⟨fun ht => ?_, fun tag slot c hne hc src key ht hr => ?_⟩
  · rw [exec_in (f := maxHoldExpired) rfl ha hs nofun, maxHoldExpired, if_pos ⟨ht, hs⟩]
    have moved := enterHandover_moved a.bank s.hc.demand.pressure s
    exact ⟨_, rfl, moved.entered, enterHandover_started _ _ _, moved.kept, moved.only, moved.faults⟩
  · let f := fun c : Claim => c.hasKey .service tag.val
    have keyed : ∀ x, f x = true ↔ x.source = .service ∧ x.tag = tag.val := fun x => by simp [f, Claim.hasKey]
    have mem : some c ∈ s.hc.claims := List.mem_of_getElem? hc
    have due : claimDue s.hc tag.val = true :=
      List.any_eq_true.mpr ⟨c, mem_standing.mpr mem, by simp [Claim.hasKey, src, key, ht]⟩
    let left := raise .claimExpired (onHold (removeClaims a.bank f) s)
    have run : exec (.claimExpiry tag) s = .next
        (if left.hc.noClaim then enterHandover a.bank left.hc.demand.pressure left else handoverTest a.bank left) := by
      rw [exec_in (f := claimExpired tag) rfl ha hs nofun, claimExpired, if_pos due]
    refine ⟨fun only => ?_, fun only hf => ?_⟩
    · obtain ⟨removed, empty⟩ := removeClaims_all (b := a.bank) (f := f) (h := s.hc) (fun x hx => by
        obtain ⟨i, hi⟩ := List.getElem?_of_mem hx
        obtain rfl := only i x hi
        obtain rfl : c = x := by simpa [hc] using hi
        exact (keyed c).mpr ⟨src, key⟩) hr
      have same : left = raisedIn 2 { s with hc := { s.hc with
          claims := s.hc.claims.map fun c => c.filter fun x => !f x } } := by
        unfold left onHold
        rw [removed]
        rfl
      have none : left.hc.noClaim = true := empty
      rw [run, if_pos none, enterHandover_eq, same]
      refine ⟨_, rfl, rfl, rfl, by constructor <;> rfl, rfl, rfl, by constructor <;> rfl, rfl, rfl⟩
    · intro rest hx
      have removed := removeClaims_of_within (b := a.bank) (f := f) hr hf
      rw [filter_slot hc ((keyed c).mpr ⟨src, key⟩) fun i x hi hk => only i x hi ((keyed x).mp hk).1 ((keyed x).mp hk).2]
        at removed
      have same : left = raisedIn 2 { s with hc := { s.hc with claims := rest } } := by
        unfold left onHold
        rw [removed]
        rfl
      have stands : ¬ left.hc.noClaim = true := by
        obtain ⟨x, hx⟩ := hx
        rw [noClaim_iff, same]
        exact fun k => k x hx
      rw [run, if_neg stands, same]
      exact handoverTest_tested hs

/-- Settles O29: in INACTIVE the tests run once, and elsewhere the timer alone stops. -/
theorem guardExpiryTestsInactive : Obligations.GuardExpiryTestsInactive := by
  intro s a ha ht u
  have expired : guardExpired a.bank s = if u.hc.state = .inactive then inactiveTest a.bank u else u := if_pos ht
  refine ⟨fun hs => ?_, fun hs => ?_⟩
  · rw [if_neg hs] at expired
    rw [exec_under (f := guardExpired) rfl ha fun h => by rw [expired]; exact h, expired]
  · rw [exec_in (f := guardExpired) rfl ha hs nofun, expired, if_pos hs]
    exact inactiveTest_tested hs

/-- Settles O30: the lowered demand is 0 on both circuits, which ends the release, or the timer starts again. -/
theorem rampStepLowersTheDemand : Obligations.RampStepLowersTheDemand := by
  intro s a ramp ha hs ht hr p lowered
  have run : exec .rampStepExpiry s = .next (rampStepped a.bank s) := exec_in rfl ha hs nofun
  let u := onHold (fun h => { h with
    demand := { h.demand with pressure := lowered }, rampStep := some a.bank.params.demandPeriod }) s
  have stepped : rampStepped a.bank s = if lowered = .zero then completeRelease a.bank u else u := by
    unfold rampStepped
    rw [ht, hr]
    exact if_pos hs
  refine ⟨fun hne => ?_, fun hz => ?_⟩
  · rw [run, stepped]
    exact congrArg Host.Outcome.next (if_neg hne)
  · intro guard
    let w := onHold (fun h => { h with guard := guard }) (changeState a.bank .inactive none .zero false u)
    have done : exec .rampStepExpiry s = .next (inactiveTest a.bank w) := by
      rw [run, stepped]
      exact congrArg Host.Outcome.next (if_pos hz)
    refine ⟨w, ⟨rfl, rfl, rfl, rfl, rfl⟩, rfl, by constructor <;> rfl, by constructor <;> rfl, rfl, rfl, rfl, rfl, ?_,
      fun hm => ?_⟩
    · rw [done]
      exact inactiveTest_tested rfl
    · exact done.trans (congrArg Host.Outcome.next (inactiveTest_moving (s := w) hm))

/-- Settles O31: one case for each of the three timers, and for the handover its two stages. -/
theorem handoverAndSecuredExpiriesAct : Obligations.HandoverAndSecuredExpiriesAct := by
  intro s a ha parks
  have parked : ∀ {c : Instr}, exec c s = .next (enterParked a.bank s) → parks c := fun run =>
    have moved := enterParked_moved a.bank s
    have ⟨stopped, quiet, exit, claims⟩ := enterParked_stopped (b := a.bank) (s := s)
    ⟨_, run, moved.entered, stopped, quiet, exit, claims, moved.kept, moved.only, moved.faults⟩
  refine ⟨fun hs ht hp => ?_, fun hs ht hp => ?_, fun hs hp ht => parked ?_, fun hs ht => parked ?_⟩
  · rw [exec_in (f := handoverConfirmExpired) rfl ha hs nofun, handoverConfirmExpired, if_pos ht, hp]
    obtain ⟨entered, hc, faults, kept, only⟩ := enterSecured_reported (b := a.bank) (s := s) .handoverFailed .handoverFailed
      (.signal .springState)
    obtain ⟨stopped, claims, -, -, quiet⟩ := enterSecured_stopped (b := a.bank) (s := s) .handoverFailed
    rw [← hc] at stopped claims quiet
    exact ⟨_, rfl, entered, claims, stopped, quiet, faults, kept, only⟩
  · rw [exec_in (f := handoverConfirmExpired) rfl ha hs nofun, handoverConfirmExpired, if_pos ht, hp]
    rfl
  · rw [exec_in (f := overlapExpired) rfl ha hs nofun, overlapExpired, if_pos ⟨ht, hp⟩]
  · rw [exec_in (f := quietExpired) rfl ha hs nofun, quietExpired, if_pos ⟨ht, hs⟩]

/-- Settles O27: `evaluateCriterion` on the state with the timer stopped, by its three outcomes. -/
theorem minHoldExpiryEvaluatesTheCriterion : Obligations.MinHoldExpiryEvaluatesTheCriterion := by
  intro s a ha hs ht
  let u := onHold (fun h => { h with minHold := none }) s
  have run : exec .minHoldExpiry s = .next (evaluateCriterion a.bank u) := by
    rw [exec_in (f := minHoldExpired) rfl ha hs nofun, minHoldExpired, if_pos ht]
  have tested : CriterionTested a.bank u (.next (evaluateCriterion a.bank u)) := evaluateCriterion_tested hs
  rw [run]
  refine ⟨tested, tested.fails (.inl rfl), fun forward hc hm hi hx hr hb => ?_⟩
  let met : HoldController := { u.hc with metMemory := true }
  obtain ⟨removed, empty⟩ := removeClaims_all (b := a.bank) (f := fun c => c.source == .driver || c.source == .monitor)
    (h := met) (fun c h => by simpa using hx c h) hr
  have released : evaluateCriterion a.bank u = enterReleasing a.bank
      { u with hc := removeClaims a.bank (fun c => c.source == .driver || c.source == .monitor) met } := by
    have active : u.hc.criterionActive a.bank = true := rfl
    have criterion : u.hc.criterion a.bank = true := hc
    have memory : u.hc.metMemory = false := hm
    unfold evaluateCriterion
    rw [if_pos ⟨hs, active⟩, if_pos criterion, memory]
    exact if_pos empty
  have cleared : ∀ c ∈ met.claims.map fun c => c.filter fun x => !(x.source == .driver || x.source == .monitor),
      c = none := by
    intro c h
    cases c with
    | none => rfl
    | some x =>
      rw [removed] at empty
      exact absurd h (noClaim_iff.mp empty x)
  rw [removed] at released
  intro p time
  let left := met.claims.map fun c => c.filter fun x => !(x.source == .driver || x.source == .monitor)
  let w := onHold (fun h => { h with
      ramp := some (rampOf a.bank met), rampStep := some a.bank.params.demandPeriod })
    (changeState a.bank .releasing none p false { u with hc := { met with claims := left } })
  have ramp : rampOf a.bank met = _ := rampOf_eq hi
  have still : rollbackTest a.bank w = w := by
    have rests : w.hc.rollback a.bank (rampOf a.bank met).forward = false := by
      rw [ramp]
      exact hb
    exact if_neg (Bool.eq_false_iff.mp rests)
  exact ⟨w, congrArg Host.Outcome.next (released.trans still), ⟨rfl, rfl, rfl, rfl, rfl⟩, cleared,
    congrArg some ramp, rfl, rfl, rfl, rfl, by constructor <;> rfl, rfl, rfl⟩

/-- Settles O32: by the hold state that the report finds. -/
theorem decisionReportIsRecorded : Obligations.DecisionReportIsRecorded := by
  intro s a d rest ha hm u
  have taken : takeDecisionReport a.bank s = match s.hc.state with
      | .inactive | .armed => standTest a.bank u
      | .secured => onHold (fun h => if d then startQuiet h else { h with quiet := none }) u
      | _ => u := by
    unfold takeDecisionReport popCreepReport
    rw [hm]
    rfl
  have run : exec .decisionReport s = .next (takeDecisionReport a.bank s) :=
    exec_under rfl ha fun h => by rw [taken, h]; exact h
  refine ⟨fun h1 h2 h3 => ?_, fun hs => ?_, fun hs => ?_⟩
  · rw [run, taken]
    split
    case h_1 h => exact absurd h h1
    case h_2 h => exact absurd h h2
    case h_3 h => exact absurd h h3
    case h_4 => rfl
  · rw [run, taken, hs]
    refine congrArg (fun h => Host.Outcome.next { u with hc := h }) ?_
    cases d
    case false => rfl
    case true =>
      have test : u.hc.quietTest = s.hc.springApplied := Bool.and_true _
      change startQuiet u.hc = _
      unfold startQuiet
      rw [test]
      by_cases h : s.hc.springApplied = true ∧ s.hc.quiet = none
      · have starts : (s.hc.springApplied && u.hc.quiet.isNone) = true := by simp [u, h]
        rw [if_pos starts, if_pos rfl, if_pos h]
        rfl
      · have rests : ¬ (s.hc.springApplied && u.hc.quiet.isNone) = true := by simpa [u] using h
        rw [if_neg rests, if_pos rfl, if_neg h]
  · have tested : StandTested a.bank u (.next (standTest a.bank u)) := standTest_tested hs
    rw [run, taken]
    rcases hs with hs | hs <;> (rw [hs]; exact tested)

/-- Settles O33: by the hold state that the report finds; BLIND is on record before its tests. -/
theorem blindReportActsByState : Obligations.BlindReportActsByState := by
  intro s a entered rest ha hm u
  have taken : takeBlindReport a.bank s = match s.hc.state with
      | .inactive | .armed => standTest a.bank u
      | .holding => handoverTest a.bank u
      | .parked => if blindParked u.hc then enterSecured a.bank .blind u else u
      | _ => u := by
    unfold takeBlindReport popCreepReport
    rw [hm]
    rfl
  have run : exec .blindReport s = .next (takeBlindReport a.bank s) :=
    exec_under rfl ha fun h => by rw [taken, h]; exact h
  rw [run, taken]
  refine ⟨fun h1 h2 h3 h4 => ?_, fun hs => ?_, fun hs => ?_, fun hs => ?_⟩
  · split
    case h_1 h => exact absurd h h1
    case h_2 h => exact absurd h h2
    case h_3 h => exact absurd h h3
    case h_4 h => exact absurd h h4
    case h_5 => rfl
  · have tested : StandTested a.bank u (.next (standTest a.bank u)) := standTest_tested hs
    rcases hs with hs | hs <;> (rw [hs]; exact tested)
  · have tested : HoldTested a.bank u (.next (handoverTest a.bank u)) := handoverTest_tested hs
    rw [hs]
    exact ⟨fun he => tested.leaves (.inr (.inr (.inr (.inr he)))), tested⟩
  · have turns : blindParked u.hc = true ↔ entered = true ∧ ¬ Applied s.hc := by
      have state : (u.hc.state == .parked) = true := by simpa using hs
      unfold blindParked
      rw [state, ← applied_iff]
      simp [u, HoldController.springApplied]
    rw [hs]
    refine ⟨fun he hn => ?_, fun h => ?_⟩
    · dsimp only
      rw [if_pos (turns.mpr ⟨he, hn⟩)]
      refine ⟨_, rfl, enterSecured_moved _ _ _, ?_⟩
      rw [(enterSecured_stopped _).2.2.2.2]
      exact not_quiet fun k => hn k.1
    · refine congrArg Host.Outcome.next (if_neg fun k => ?_)
      obtain ⟨he, hn⟩ := turns.mp k
      rcases h with h | h
      · exact absurd he (by simp [h])
      · exact hn h

section
variable {s : State} {b : Bank}

/-- The floors of an escalation's claim, the absent one as 0 (R118). -/
theorem escalationFloor_getD (top demand : Nat) :
    (escalationFloor top demand).getD 0 = min top (ceilDiv (demand * 125) 100) :=
  floorArg_getD _

theorem le_quarterMore (n : Nat) : n ≤ ceilDiv (n * 125) 100 := by
  unfold ceilDiv
  omega

/-- A crossing report that is an escalation, a rollaway, or neither (R121). -/
theorem takeCrossing_rollaway (n : Fin 8) (h : s.hc.state ∈ [HoldState.holding, .handover, .parked, .secured]) :
    takeCrossing b true n s = takeRollaway b n s := by
  unfold takeCrossing
  generalize s.hc.state = x at h
  cases x
  case holding | handover | parked | secured => rfl
  all_goals simp at h

theorem takeCrossing_discards {r : Bool} (n : Fin 8)
    (h : (r = false ∧ s.hc.state ≠ .holding) ∨ s.hc.state ∉ [HoldState.holding, .handover, .parked, .secured]) :
    takeCrossing b r n s = s := by
  unfold takeCrossing
  generalize s.hc.state = x at h
  cases x
  case off | starting | inactive | armed | releasing => cases r <;> rfl
  case holding => simp at h
  all_goals
    obtain rfl : r = false := by simpa using h
    rfl

end

/-- Settles O34: an escalation raises the demand to the floors of its claim, and a rollaway secures. -/
theorem crossingReportActsByState : Obligations.CrossingReportActsByState := by
  intro s a rollaway n rest ha hm p top floorA floorB
  have taken : takeCrossingReport a.bank s =
      takeCrossing a.bank rollaway n { s with mail := { s.mail with creepReports := rest } } := by
    unfold takeCrossingReport popCreepReport
    rw [hm]
    rfl
  refine ⟨fun hr hs hp hres hf hl => ?_, fun hr hs => ?_, fun h => ?_⟩
  · subst hr
    have escalated : takeCrossingReport a.bank s =
        escalate a.bank { s with mail := { s.mail with creepReports := rest } } := by
      rw [taken, takeCrossing]
      simp only [hs]
    rw [exec_in (f := takeCrossingReport) rfl ha hs nofun, escalated]
    let claim : Claim := ⟨.monitor, 0, escalationFloor top.a p.a, escalationFloor top.b p.b, none, s.now, none⟩
    have floors : claim.floors = ⟨floorA, floorB⟩ :=
      Circuits.eq_of (escalationFloor_getD _ _) (escalationFloor_getD _ _)
    have limited : claim.floors.inf top = ⟨floorA, floorB⟩ := by
      rw [floors]
      exact Circuits.eq_of (min_eq_left (min_le_left _ _)) (min_eq_left (min_le_left _ _))
    have rises : p.within ⟨floorA, floorB⟩ :=
      ⟨le_min hp.1 (le_quarterMore _), le_min hp.2 (le_quarterMore _)⟩
    have pressure : p.sup (claim.floors.inf top) = ⟨floorA, floorB⟩ := by
      rw [limited]
      exact Circuits.eq_of (max_eq_right rises.1) (max_eq_right rises.2)
    have record : ratchet a.bank (putClaim 0 claim s.hc) = { s.hc with
        claims := s.hc.claims.set 0 (some claim), demand := { s.hc.demand with pressure := ⟨floorA, floorB⟩ } } := by
      rw [ratchet_put (by omega) hres hf, ← pressure]
    exact congrArg (fun h => Host.Outcome.next { s with hc := h, mail := { s.mail with creepReports := rest } }) record
  · subst hr
    have rolls : takeCrossingReport a.bank s =
        takeRollaway a.bank n { s with mail := { s.mail with creepReports := rest } } := by
      rw [taken]
      exact takeCrossing_rollaway n (by simpa using hs)
    have out : s.hc.state ≠ .starting := by rcases hs with h | h | h | h <;> (rw [h]; exact nofun)
    rw [exec_in (f := takeCrossingReport) rfl ha rfl out, rolls]
    obtain ⟨entered, hc, faults, kept, only⟩ := enterSecured_reported (b := a.bank)
      (s := { s with mail := { s.mail with creepReports := rest } }) .rollaway .rollaway (.signal (.wheelPulse n))
    obtain ⟨stopped, claims, exit, reapply, quiet⟩ := enterSecured_stopped (b := a.bank)
      (s := { s with mail := { s.mail with creepReports := rest } }) .rollaway
    rw [← hc] at stopped claims exit reapply quiet
    refine ⟨_, rfl, ?_, claims, stopped, kept, fun h => quiet.trans (if_pos ⟨applied_iff.mpr h.1, h.2⟩),
      fun h => quiet.trans (not_quiet h), exit, reapply, faults, only⟩
    exact ⟨entered.state, entered.cause, entered.demand, entered.event, entered.told⟩
  · have discarded : takeCrossingReport a.bank s = { s with mail := { s.mail with creepReports := rest } } := by
      rw [taken]
      exact takeCrossing_discards n h
    rw [exec_under (f := takeCrossingReport) rfl ha fun h => by rw [discarded]; exact h, discarded]

end Sys2Proof.Machine
end

