-- ==== Sys2Proof/Proofs/Publications.lean ====
section
/-! PROOF. Publication sets at the Hold Controller (O22, O23). -/

namespace Sys2Proof.Machine

section
variable {s : State} {a : ActiveBank} {b : Bank} {set : HcSet} {rest : List HcSet}

/-! ## The signal sources in STARTING -/

/-- What the requests and releases of a set leave of the record in STARTING (R80). -/
structure StartingKept (s t : State) : Prop where
  state : t.hc.state = .starting
  image : t.hc.image = s.hc.image
  stationary : t.hc.stationary = s.hc.stationary
  allOnce : t.hc.allOnce = s.hc.allOnce

theorem StartingKept.trans {s t u : State} (h : StartingKept s t) (k : StartingKept t u) : StartingKept s u :=
  ⟨k.state, k.image.trans h.image, k.stationary.trans h.stationary, k.allOnce.trans h.allOnce⟩

theorem latchStep_starting (items : List PubItem) (src : Source) (hs : s.hc.state = .starting) :
    StartingKept s (latchStep b items src s) := by
  have still : StartingKept s s := ⟨hs, rfl, rfl, rfl⟩
  have latched : ∀ l, StartingKept s (onHold (fun h => h.setLatch src l) s) := fun l => by
    cases src <;> exact ⟨hs, rfl, rfl, rfl⟩
  have rise : StartingKept s (signalRise b src s) := by
    have refused : requestClaim b ⟨src, 0, none, none, none⟩ s = (⟨.notReady, none⟩, s) := by
      unfold requestClaim
      rw [hs]
    unfold signalRise
    rw [refused]
    cases src <;> exact ⟨hs, rfl, rfl, rfl⟩
  have fall : StartingKept s (signalFall b src s) := by
    let v := onHold (removeClaims b fun c => c.hasKey src 0) (onHold (fun h => h.setLatch src .idle) s)
    have kept : StartingKept s v := (latched .idle).trans (by
      unfold v onHold
      rw [removeClaims_eq]
      exact ⟨(latched .idle).state, rfl, rfl, rfl⟩)
    have after : afterRemoval b v = v := if_neg (by rw [kept.state]; exact nofun)
    unfold signalFall
    dsimp only
    split
    · exact after.symm ▸ kept
    · exact latched .idle
  unfold latchStep
  split
  · split
    · split
      · exact rise
      · exact still
    · split
      · exact fall
      · exact still
  · exact still

theorem takeLatches_starting (items : List PubItem) (hs : s.hc.state = .starting) :
    StartingKept s (takeLatches b items s) :=
  have rear := latchStep_starting (b := b) items .pendantRear hs
  have side := latchStep_starting (b := b) items .pendantSide rear.state
  (rear.trans side).trans (latchStep_starting items .discharge side.state)

/-! ## The set in its hold state -/

/-- A set that leaves the hold state to what the state makes of it. -/
theorem hcPublication_stays (ha : s.active = some a) (hm : s.mail.toHc = set :: rest) {u : State}
    (hu : takeLatches a.bank set.items (withSet set rest s) = u) (hs : s.hc.state ≠ .starting)
    (h : u.hc.state = s.hc.state) : exec .hcPublication s = .next (setInState a.bank set u) := by
  subst hu
  rw [hcPublication_eq ha hm, if_pos h, withStart_eq (.inl hs)]

theorem hcPublication_moves (ha : s.active = some a) (hm : s.mail.toHc = set :: rest) {u : State}
    (hu : takeLatches a.bank set.items (withSet set rest s) = u) (hs : s.hc.state ≠ .starting)
    (h : u.hc.state ≠ s.hc.state) : exec .hcPublication s = .next u := by
  subst hu
  rw [hcPublication_eq ha hm, if_neg h, withStart_eq (.inl hs)]

/-- The park-exit mark after a set (R134). -/
theorem clearParkExit_eq {h : HoldController} {mark : Bool}
    (hm : mark = true ↔ h.parkExit = true ∧ ¬ ((Carries set .springState ∧ ¬ Applied h) ∨
      (Carries set .parkSwitch ∧ h.image.parkSwitch = ⟨.valid, some 1⟩))) :
    clearParkExit set h = { h with parkExit := mark } := by
  have cleared : ((set.has .springState && !h.springApplied) || (set.has .parkSwitch && h.parkSet)) = true ↔
      (Carries set .springState ∧ ¬ Applied h) ∨ (Carries set .parkSwitch ∧ h.image.parkSwitch = ⟨.valid, some 1⟩) := by
    rw [← applied_iff, ← Sig.is_iff, ← HcSet.has_iff, ← HcSet.has_iff]
    simp [HoldController.parkSet]
  unfold clearParkExit
  rw [← cleared] at hm
  split
  case isTrue k =>
    have : mark = false := Bool.eq_false_iff.mpr fun h => (hm.mp h).2 k
    rw [this]
  case isFalse k =>
    have : mark = h.parkExit := Bool.eq_iff_iff.mpr (hm.trans ⟨fun h => h.1, fun h => ⟨h, k⟩⟩)
    rw [this]

/-- A test of INACTIVE starts no Start Window. -/
theorem inactiveTest_startWindow (h : s.hc.startWindow = none) : (inactiveTest b s).hc.startWindow = none := by
  unfold inactiveTest
  split
  · rfl
  split
  · rw [enterHandover_eq]
    rfl
  split
  · rfl
  · exact h

theorem movesCriterion_iff : set.movesCriterion = true ↔ MovesCriterion set := by
  unfold HcSet.movesCriterion MovesCriterion
  simp only [Bool.or_eq_true, HcSet.has_iff, or_assoc]

end

/-- Settles O22: the latches first (`takeLatches_taken`); then the set is judged in the hold state they leave. -/
theorem publicationLeavesStarting : Obligations.PublicationLeavesStarting := by
  intro s a set rest ha hm
  generalize hu : takeLatches a.bank set.items (withSet set rest s) = u
  refine ⟨u, hu ▸ takeLatches_taken a.bank set _, fun hs ho => ?_, fun hs ho => ?_, fun hs => ?_⟩
  · have kept : StartingKept (withSet set rest s) u := hu ▸ takeLatches_starting set.items hs
    let w := leaveStarting a.bank u
    have all : u.hc.allOnce = true := by
      rw [kept.allOnce]
      change set.allOnce.getD _ = true
      rw [ho]
      rfl
    have leaves : setInState a.bank set u = w := by
      unfold setInState
      rw [kept.state]
      exact if_pos (by rw [ho, all]; rfl)
    have applied : ∀ h : Applied u.hc, w = enterParked a.bank u := fun h => if_pos (applied_iff.mpr h)
    let i := changeState a.bank .inactive none .zero false u
    have not_applied : ∀ h : ¬ Applied u.hc, w = inactiveTest a.bank i := fun h => if_neg (mt applied_iff.mp h)
    have out : w.hc.state ≠ .starting ∧ w.hc.state ≠ .off := by
      by_cases h : Applied u.hc
      · rw [applied h]
        exact ⟨nofun, nofun⟩
      · rw [not_applied h]
        exact inactiveTest_state rfl
    have run : exec .hcPublication s = .next (runDemandPeriod w) := by
      rw [hcPublication_eq ha hm, hu, if_pos (kept.state.trans hs.symm), leaves]
      exact congrArg Host.Outcome.next (if_pos ⟨hs, out⟩)
    refine ⟨w, _, run, runDemandPeriod_made w, kept.image, fun h => ?_, fun h => ?_, ?_⟩
    · rw [applied h]
      exact enterParked_moved _ _
    · rw [not_applied h]
      exact ⟨i, ⟨⟨rfl, rfl, rfl, rfl, rfl⟩, by constructor <;> rfl, rfl, rfl⟩, by constructor <;> rfl, rfl, rfl,
        inactiveTest_tested rfl, fun hm => inactiveTest_moving (s := i) (kept.stationary.trans hm)⟩
    · rw [(runDemandPeriod_generated w).hc]
      by_cases h : Applied u.hc
      · rw [applied h]
        rfl
      · rw [not_applied h]
        exact inactiveTest_startWindow rfl
  · have kept : StartingKept (withSet set rest s) u := hu ▸ takeLatches_starting set.items hs
    have stays : setInState a.bank set u = u := by
      unfold setInState
      rw [kept.state]
      refine if_neg fun k => ?_
      have all : set.allOnce.isSome = true ∧ set.allOnce.getD s.hc.allOnce = true := by
        rw [← show u.hc.allOnce = set.allOnce.getD s.hc.allOnce from kept.allOnce]
        simpa using k
      obtain ⟨x, hx⟩ := Option.isSome_iff_exists.mp all.1
      rw [hx] at all ho
      exact ho (congrArg some all.2)
    rw [hcPublication_eq ha hm, hu, if_pos (kept.state.trans hs.symm), stays, withStart_eq (.inr kept.state)]
  · have out : s.hc.state ≠ .starting := by rcases hs with h | h <;> (rw [h]; exact nofun)
    refine ⟨hcPublication_moves ha hm hu out, fun h mark hmark => ?_⟩
    have tests : setInState a.bank set u = standTest a.bank { u with hc := { u.hc with parkExit := mark } } := by
      have eq : onHold (clearParkExit set) u = { u with hc := { u.hc with parkExit := mark } } :=
        congrArg u.setHc (clearParkExit_eq hmark)
      unfold setInState
      rw [eq]
      rcases hs with hs | hs <;> rw [h.trans hs]
    rw [hcPublication_stays ha hm hu out h, tests]
    exact standTest_tested (by rwa [h])

section
variable {b : Bank} {set : HcSet} {u : State}

/-! ## The set in HOLDING, RELEASING, HANDOVER, PARKED and SECURED -/

theorem setInState_holding (hs : u.hc.state = .holding) :
    setInState b set u =
      if set.movesCriterion then evaluateCriterion b (handoverTest b u) else handoverTest b u := by
  unfold setInState
  rw [hs]

theorem setInState_releasing (hs : u.hc.state = .releasing) {ramp : Ramp} (hr : u.hc.ramp = some ramp) :
    setInState b set u =
      if set.has .ignition && u.hc.ignitionOff then enterHandover b ramp.start u
      else if set.has .outputSpeed then rollbackTest b u else u := by
  unfold setInState
  rw [hs, hr]
  rfl

theorem setInState_handover (hs : u.hc.state = .handover) :
    setInState b set u = if set.has .springState then springInHandover b u else u := by
  unfold setInState
  rw [hs]

theorem setInState_parked (hs : u.hc.state = .parked) :
    setInState b set u =
      if set.has .springState && blindParked u.hc then enterSecured b .blind u
      else if exitTested set u.hc then parkExitTest b u else u := by
  unfold setInState
  rw [hs]

theorem setInState_secured (hs : u.hc.state = .secured) :
    setInState b set u = if set.has .springState then onHold springInSecured u else u := by
  unfold setInState
  rw [hs]

theorem blindParked_iff (hs : u.hc.state = .parked) :
    blindParked u.hc = true ↔ u.hc.blind = true ∧ ¬ Applied u.hc := by
  rw [← applied_iff]
  simp [blindParked, hs]

theorem exitTested_iff : exitTested set u.hc = true ↔
    (Carries set .parkSwitch ∨ (Carries set .brakePedal ∧ u.hc.image.brakePedal = ⟨.valid, some 1⟩)) ∧
      u.hc.image.parkSwitch = ⟨.valid, some 0⟩ := by
  rw [← HcSet.has_iff, ← HcSet.has_iff, ← Sig.is_iff, ← Sig.is_iff]
  simp only [exitTested, HoldController.pedalPressed, Bool.or_eq_true, Bool.and_eq_true]
  tauto

/-- SPRING_STATE in OVERLAP (R128). -/
theorem springInHandover_overlap (hp : u.hc.phase = some .overlap) :
    springInHandover b u = if u.hc.springApplied then u
      else if u.hc.deadline then
        reportChange .major .handoverFailed (.signal .springState) (enterSecured b .handoverFailed u)
      else onHold (fun h => { h with phase := some .awaiting, overlapTimer := none }) u := by
  unfold springInHandover
  rw [hp]

theorem springInHandover_awaiting (hp : u.hc.phase = some .awaiting) :
    springInHandover b u = if u.hc.springApplied then onHold (startOverlap b) u else u := by
  unfold springInHandover
  rw [hp]

/-- SPRING_STATE in SECURED (R137). -/
theorem springInSecured_starts {h : HoldController} (ha : Applied h) (hs : h.stationary = true) (hq : h.quiet = none) :
    springInSecured h = { h with quiet := some 2000 } := by
  have test : (h.quietTest && h.quiet.isNone) = true := by
    simp [HoldController.quietTest, applied_iff.mpr ha, hs, hq]
  exact (if_pos (applied_iff.mpr ha)).trans (if_pos test)

theorem springInSecured_keeps {h : HoldController} (ha : Applied h) (hq : h.stationary = false ∨ h.quiet ≠ none) :
    springInSecured h = h := by
  have test : ¬ (h.quietTest && h.quiet.isNone) = true := by
    rcases hq with hq | hq <;> simp [HoldController.quietTest, hq]
  exact (if_pos (applied_iff.mpr ha)).trans (if_neg test)

end

/-- Settles O23: the latches first; where they leave the hold state as it was, the set is judged by it. -/
theorem publicationHandsOver : Obligations.PublicationHandsOver := by
  intro s a set rest ha hm b r
  generalize hu : takeLatches a.bank set.items (withSet set rest s) = u
  have run : ∀ {x : HoldState}, u.hc.state = s.hc.state → u.hc.state = x → x ≠ .starting →
      r = .next (setInState b set u) := fun h hs hx =>
    hcPublication_stays ha hm hu (fun k => hx (hs.symm.trans (h.trans k))) h
  refine ⟨u, hu ▸ takeLatches_taken a.bank set _, fun hs h => hcPublication_moves ha hm hu hs h, fun same => ?_⟩
  intro springs
  have spring : set.has .springState = true ↔ springs := HcSet.has_iff
  refine ⟨fun hs => ?_, fun hs => ?_, fun ramp hs hr hc => ?_, fun hs => ?_, fun hs => ?_, fun hs => ?_⟩
  all_goals rw [run same hs nofun]
  case refine_1 =>
    unfold setInState
    rw [hs]
  case refine_2 =>
    rw [setInState_holding hs]
    refine ⟨fun hh => ?_, fun hh hn => ?_, fun hh hc => ?_⟩
    · have out : evaluateCriterion b (enterHandover b u.hc.demand.pressure u) = enterHandover b u.hc.demand.pressure u :=
        evaluateCriterion_out (by rw [(enterHandover_entered _ _ _).state]; exact nofun)
      rw [handoverTest_some hs (handsOver_iff.mpr hh), out, ite_self]
      exact ⟨_, rfl, enterHandover_moved _ _ _, enterHandover_started _ _ _⟩
    all_goals rw [handoverTest_none (Bool.eq_false_iff.mpr (mt handsOver_iff.mp hh))]
    · rw [if_neg (mt movesCriterion_iff.mp hn)]
    · rw [if_pos (movesCriterion_iff.mpr hc)]
      exact evaluateCriterion_tested hs
  case refine_3 =>
    rw [setInState_releasing hs hr]
    intro off
    have off_iff : (set.has .ignition && u.hc.ignitionOff) = true ↔ off := by
      rw [Bool.and_eq_true]
      exact and_congr HcSet.has_iff Sig.is_iff
    refine ⟨fun ho => ?_, fun ho hc => ?_, fun ho hn => ?_⟩
    · rw [if_pos (off_iff.mpr ho)]
      refine ⟨_, rfl, enterHandover_moved _ _ _, enterHandover_started _ _ _, ?_, ?_⟩ <;> rw [enterHandover_eq] <;> rfl
    · rw [if_neg (mt off_iff.mp ho), if_pos (HcSet.has_iff.mpr hc)]
      exact rollbackTest_tested hr ‹_›
    · rw [if_neg (mt off_iff.mp ho), if_neg (mt HcSet.has_iff.mp hn)]
  case refine_4 =>
    rw [setInState_handover hs]
    refine ⟨fun hn => by rw [if_neg (mt spring.mp hn)], fun hc hp => ?_, fun hc hp => ?_⟩
    all_goals rw [if_pos (spring.mpr hc)]
    · rw [springInHandover_awaiting hp]
      exact ⟨fun h => by rw [if_pos (applied_iff.mpr h)]; rfl, fun h => by rw [if_neg (mt applied_iff.mp h)]⟩
    · rw [springInHandover_overlap hp]
      refine ⟨fun h => by rw [if_pos (applied_iff.mpr h)], fun h hd => ?_, fun h hd => ?_⟩
      all_goals rw [if_neg (mt applied_iff.mp h), hd]
      · rfl
      · obtain ⟨entered, hold, faults, kept, only⟩ := enterSecured_reported (b := b) (s := u) .handoverFailed
          .handoverFailed (.signal .springState)
        obtain ⟨stopped, claims, -, -, quiet⟩ := enterSecured_stopped (b := b) (s := u) .handoverFailed
        rw [← hold] at stopped claims quiet
        exact ⟨_, rfl, entered, stopped, claims, quiet.trans (not_quiet fun k => h k.1), kept, only, faults⟩
  case refine_5 =>
    rw [setInState_parked hs]
    intro turns pressed tested
    have turns_iff : (set.has .springState && blindParked u.hc) = true ↔ turns := by
      rw [Bool.and_eq_true]
      exact and_congr spring (blindParked_iff hs)
    have tested_iff : exitTested set u.hc = true ↔ tested := exitTested_iff
    have pressed_iff : u.hc.pedalPressed = true ↔ pressed := Sig.is_iff
    refine ⟨fun ht => ?_, fun hn ht hm hp => ?_, fun hn ht hp => ?_, fun hn ht => ?_⟩
    · rw [if_pos (turns_iff.mpr ht)]
      refine ⟨_, rfl, enterSecured_moved _ _ _, ?_⟩
      rw [(enterSecured_stopped _).2.2.2.2]
      exact not_quiet fun k => ht.2.2 k.1
    all_goals rw [if_neg (mt turns_iff.mp hn)]
    · let w := onHold (fun h => { h with parkExit := true }) (changeState b .inactive none .zero false u)
      have exits : parkExitTest b u = inactiveTest b w := if_pos ⟨hm, pressed_iff.mpr hp⟩
      rw [if_pos (tested_iff.mpr ht), exits]
      exact ⟨w, ⟨⟨rfl, rfl, rfl, rfl, rfl⟩, by constructor <;> rfl, rfl, rfl⟩, by constructor <;> rfl, rfl, rfl,
        inactiveTest_tested rfl⟩
    · have refused : parkExitTest b u = raise .parkExitRefused u := if_neg fun k => by
        rcases hp with h | h
        · exact absurd k.1 (by simp [h])
        · exact h (pressed_iff.mp k.2)
      rw [if_pos (tested_iff.mpr ht), refused]
      rfl
    · rw [if_neg (mt tested_iff.mp ht)]
  case refine_6 =>
    rw [setInState_secured hs]
    refine ⟨fun hc h hst hq => ?_, fun hc h => ?_, fun h => ?_⟩
    · rw [if_pos (spring.mpr hc)]
      exact congrArg (fun h => Host.Outcome.next { u with hc := h }) (springInSecured_starts h hst hq)
    · rw [if_pos (spring.mpr hc)]
      exact congrArg (fun h => Host.Outcome.next { u with hc := h }) (if_neg (mt applied_iff.mp h))
    · rcases h with hn | ⟨h, hq⟩
      · rw [if_neg (mt spring.mp hn)]
      · have keeps : onHold springInSecured u = u :=
          congrArg (fun h => { u with hc := h }) (springInSecured_keeps h hq)
        rw [keeps, ite_self]

end Sys2Proof.Machine
end

