-- ==== Sys2Proof/Proofs/ClaimRequests.lean ====
section
/-! PROOF. Claim requests and releases, by TEST_HOLD, RELEASE_TEST and the signal sources (O52, O53). -/

namespace Sys2Proof.Machine

section
variable {s : State} {a : ActiveBank} {b : Bank} {p : Port}

/-! ## A response with what a claim changes -/

theorem answered_handoverTest (code : Nat) (status : Status) (data : List Byte) :
    answered p code status data (handoverTest b s) = handoverTest b (answered p code status data s) := by
  unfold handoverTest
  by_cases h : s.hc.state = .holding ∧ s.hc.handoverCondition = true
  · have h' : (answered p code status data s).hc.state = .holding ∧
        (answered p code status data s).hc.handoverCondition = true := h
    rw [if_pos h, if_pos h', enterHandover_eq, enterHandover_eq]
    rfl
  · have h' : ¬ ((answered p code status data s).hc.state = .holding ∧
        (answered p code status data s).hc.handoverCondition = true) := h
    rw [if_neg h, if_neg h']

theorem answered_enterHolding (code : Nat) (status : Status) (data : List Byte) (start : Circuits) (episode : Bool) :
    answered p code status data (enterHolding b start episode s) =
      enterHolding b start episode (answered p code status data s) :=
  answered_handoverTest code status data

/-! ## Entry into HOLDING with a claim of its own -/

theorem limitedFloors_single {h : HoldController} {c : Claim} (hc : h.claims = [none, some c, none, none, none, none]) :
    h.limitedFloors b = c.floors.inf b.maxPressure := by
  simp [HoldController.limitedFloors, HoldController.standing, hc, Circuits.sup, Circuits.inf, Circuits.zero]

/-- HOLDING begun with one claim in slot 1, at a start value raised to its floors (R58, R76, R78). -/
theorem enterHolding_put_begun {u : State} {start asked : Circuits} {episode : Bool} {c : Claim}
    (hn : u.hc.claims = noClaims)
    (ha : (start.sup u.hc.resultPressure).sup (c.floors.inf b.maxPressure) = asked) :
    HoldBegun b [none, some c, none, none, none, none] asked episode u
      (.next (enterHolding b start episode (onHold (putClaim 1 c) u))) := by
  have claims : (onHold (putClaim 1 c) u).hc.claims = [none, some c, none, none, none, none] := by
    change u.hc.claims.set 1 _ = _
    rw [hn]
    rfl
  refine enterHolding_begun (by rw [← claims]; rfl) ?_
  rw [limitedFloors_single claims]
  exact ha

/-- HOLDING begun is HOLDING, or HANDOVER at once. -/
theorem begun_state {u v : State} {claims : List (Option Claim)} {asked : Circuits} {episode : Bool}
    (h : HoldBegun b claims asked episode u (.next v)) : v.hc.state = .holding ∨ v.hc.state = .handover := by
  by_cases k : HandsOver { u.hc with claims := claims }
  · obtain ⟨t, ht, state, -⟩ := h.leaves k
    cases ht
    exact .inr state
  · obtain ⟨t, ht, entered, -⟩ := h.stands k
    cases ht
    exact .inl entered.state

/-! ## A request by hold state (R75 to R78) -/

theorem requestClaim_holding (r : ClaimRequest) (hs : s.hc.state = .holding) :
    requestClaim b r s = requestInHolding b r s := by
  unfold requestClaim
  rw [hs]

theorem requestClaim_refreshes {r : ClaimRequest} {slot : Nat} {c : Claim} (hs : s.hc.state = .holding)
    (hc : s.hc.claims[slot]? = some (some c)) (hk : c.source = r.source ∧ c.tag = r.tag)
    (only : ∀ i x, s.hc.claims[i]? = some (some x) → x.source = r.source ∧ x.tag = r.tag → i = slot)
    (hr : s.hc.resultPressure.within s.hc.demand.pressure) (hf : (s.hc.limitedFloors b).within s.hc.demand.pressure) :
    requestClaim b r s = (⟨.ok, some slot⟩, { s with hc := { s.hc with
      claims := s.hc.claims.set slot (some (r.claim c.granted))
      demand := { s.hc.demand with
        pressure := s.hc.demand.pressure.sup ((r.claim c.granted).floors.inf b.maxPressure) } } }) := by
  have found : slotOf s.hc.claims r.source r.tag = some slot :=
    slotOf_eq hc hk.1 hk.2 fun i x hi h1 h2 => only i x hi ⟨h1, h2⟩
  have granted : ((s.hc.claims[slot]?).join.map Claim.granted).getD s.now = c.granted := by rw [hc]; rfl
  rw [requestClaim_holding r hs, requestInHolding, found]
  dsimp only
  rw [granted]
  exact congrArg (fun h => ((⟨.ok, some slot⟩ : ClaimAnswer), { s with hc := h }))
    (ratchet_put (List.getElem?_eq_some_iff.mp hc).1 hr hf)

theorem requestClaim_places {r : ClaimRequest} {slot : Nat} (hs : s.hc.state = .holding)
    (none' : ∀ c, some c ∈ s.hc.claims → ¬ (c.source = r.source ∧ c.tag = r.tag)) (h1 : 1 ≤ slot) (h5 : slot ≤ 5)
    (free : s.hc.claims[slot]? = some none) (lowest : ∀ i, 1 ≤ i → i < slot → s.hc.claims[i]? ≠ some none)
    (hr : s.hc.resultPressure.within s.hc.demand.pressure) (hf : (s.hc.limitedFloors b).within s.hc.demand.pressure) :
    requestClaim b r s = (⟨.ok, some slot⟩, { s with hc := { s.hc with
      claims := s.hc.claims.set slot (some (r.claim s.now))
      demand := { s.hc.demand with
        pressure := s.hc.demand.pressure.sup ((r.claim s.now).floors.inf b.maxPressure) } } }) := by
  have absent : slotOf s.hc.claims r.source r.tag = none := slotOf_none.mpr none'
  have put := ratchet_put (b := b) (c := r.claim s.now) (List.getElem?_eq_some_iff.mp free).1 hr hf
  rw [requestClaim_holding r hs, requestInHolding, absent]
  dsimp only
  rw [freeSlot_some h1 h5 free lowest]
  refine congrArg (fun h => ((⟨.ok, some slot⟩ : ClaimAnswer), { s with hc := h })) ?_
  by_cases h : (r.claim s.now).hasFloor = true
  · exact (if_pos h).trans put
  · have floors : (r.claim s.now).floors = .zero := by
      obtain ⟨ha, hb⟩ : (r.claim s.now).floorA = none ∧ (r.claim s.now).floorB = none := by
        simpa [Claim.hasFloor] using h
      unfold Claim.floors
      rw [ha, hb]
      rfl
    have zero : s.hc.demand.pressure.sup ((r.claim s.now).floors.inf b.maxPressure) = s.hc.demand.pressure := by
      rw [floors]
      exact Circuits.eq_of (by simp [Circuits.zero]) (by simp [Circuits.zero])
    rw [zero]
    exact if_neg h

theorem requestClaim_noSlot {r : ClaimRequest} (hs : s.hc.state = .holding)
    (none' : ∀ c, some c ∈ s.hc.claims → ¬ (c.source = r.source ∧ c.tag = r.tag))
    (full : ∀ i, 1 ≤ i → i ≤ 5 → s.hc.claims[i]? ≠ some none) :
    requestClaim b r s = (⟨.noSlot, none⟩, s) := by
  have absent : slotOf s.hc.claims r.source r.tag = none := slotOf_none.mpr none'
  rw [requestClaim_holding r hs, requestInHolding, absent]
  dsimp only
  rw [freeSlot_none full]

theorem requestClaim_early (r : ClaimRequest) (hs : s.hc.state = .off ∨ s.hc.state = .starting) :
    requestClaim b r s = (⟨.notReady, none⟩, s) := by
  unfold requestClaim
  rcases hs with h | h <;> rw [h]

theorem requestClaim_late (r : ClaimRequest)
    (hs : s.hc.state = .handover ∨ s.hc.state = .parked ∨ s.hc.state = .secured) :
    requestClaim b r s = (⟨.satisfied, none⟩, s) := by
  unfold requestClaim
  rcases hs with h | h | h <;> rw [h]

theorem requestClaim_barred (r : ClaimRequest) {status : Status} (hs : s.hc.state = .inactive ∨ s.hc.state = .armed)
    (h : EntryRefused b s.hc status) : requestClaim b r s = (⟨status, none⟩, s) := by
  have code := entryRefused_iff.mp h
  unfold requestClaim
  rcases hs with h | h <;> (rw [h]; dsimp only; rw [code])

theorem requestClaim_granted (r : ClaimRequest) (hs : s.hc.state = .inactive ∨ s.hc.state = .armed)
    (h : EntryHolds b s.hc) : requestClaim b r s =
      (⟨.ok, some 1⟩, enterHolding b s.hc.resultPressure true (onHold (putClaim 1 (r.claim s.now)) s)) := by
  have code := entryHolds_iff.mpr h
  unfold requestClaim
  rcases hs with h | h <;> (rw [h]; dsimp only; rw [code])

theorem requestClaim_releasing (r : ClaimRequest) {ramp : Ramp} (hs : s.hc.state = .releasing) (h : s.hc.ramp = some ramp) :
    requestClaim b r s =
      (⟨.ok, some 1⟩, enterHolding b ramp.start false (onHold (putClaim 1 (r.claim s.now)) s)) := by
  unfold requestClaim
  rw [hs, h]
  rfl

/-! ## TEST_HOLD and RELEASE_TEST as requests -/

variable {f : Frame} {rest : List Request}

/-- The arguments of a TEST_HOLD by the bytes of its frame (R188). -/
theorem testHold_arguments {tag e0 e1 a0 a1 b0 b1 : Byte} {tail : List Byte}
    (hd : f.data = 11 :: tag :: e0 :: e1 :: a0 :: a1 :: b0 :: b1 :: tail) :
    argByte f 1 = tag.toNat ∧ argWord f 2 = e0.toNat + 256 * e1.toNat ∧ argWord f 4 = a0.toNat + 256 * a1.toNat ∧
      argWord f 6 = b0.toNat + 256 * b1.toNat := by
  unfold argWord argByte
  rw [hd]
  exact ⟨rfl, rfl, rfl, rfl⟩

theorem testHoldArguments_iff : testHoldArguments f = true ↔
    1 ≤ argByte f 1 ∧ argByte f 1 ≤ 3 ∧ 1 ≤ argWord f 2 ∧ argWord f 2 ≤ 600 ∧ argWord f 4 ≤ 1000 ∧ argWord f 6 ≤ 1000 := by
  simp only [testHoldArguments, Bool.and_eq_true, decide_eq_true_eq, and_assoc]

/-- A TEST_HOLD whose arguments fit, out of service mode, is its claim request. -/
theorem testHold_request {ans : ClaimAnswer} {v : State} (hf : testHoldArguments f = true)
    (hs : s.sr.serviceMode = false) (ha : s.active = some a)
    (hr : requestClaim a.bank (testHoldRequest f) s = (ans, v)) :
    testHold f s = (⟨ans.status, if ans.status = .ok then (ans.slot.map byte).toList else []⟩, v) := by
  unfold testHold
  rw [hf, hs, ha]
  dsimp only
  rw [hr]
  rfl

theorem testHold_refused {status : Status} (hf : testHoldArguments f = true) (hs : s.sr.serviceMode = false)
    (ha : s.active = some a) (hr : requestClaim a.bank (testHoldRequest f) s = (⟨status, none⟩, s)) :
    testHold f s = (.just status, s) := by
  rw [testHold_request hf hs ha hr]
  exact congrArg (fun d => ((⟨status, d⟩ : Answer), s)) (ite_self _)

theorem testHold_next (h : Asks p f rest s) (hr : Ready s) (hm : f.remote = false) {tail : List Byte}
    (hd : f.data = 11 :: tail) (hl : 7 ≤ tail.length) :
    exec (.testHold p) s = .next (answered p 11 (testHold f (taken rest s)).1.status
      (padTo 6 (testHold f (taken rest s)).1.data) (testHold f (taken rest s)).2) :=
  congrArg Host.Outcome.next (serveNow_asks (n := 7) testHold h hr hm hd rfl hl)

end

section
variable {s : State} {a : ActiveBank} {set : HcSet} {rest : List HcSet} {src : Source} {x : PubItem}

theorem signal_carried (hi : set.items = [x]) (hk : src.SignalOf x.kind) : Carries set src.kind := by
  refine ⟨x, hi ▸ List.mem_singleton_self x, ?_⟩
  rcases hk with ⟨rfl, hk⟩ | ⟨rfl, hk⟩ | ⟨rfl, hk⟩ <;> exact hk

theorem signal_absent (hi : set.items = [x]) (hk : src.SignalOf x.kind) :
    Absent (withSet set rest s).hc ↔ Absent s.hc := by
  unfold Absent withSet recorded
  rw [hi]
  rcases hk with ⟨-, hk⟩ | ⟨-, hk⟩ | ⟨-, hk⟩ <;> simp only [List.foldl, HcImage.take, hk]

/-- A set of one signal source's kind: what it makes of the source, and the tests of the hold state after it (R73). -/
theorem signal_taken (ha : s.active = some a) (hm : s.mail.toHc = set :: rest) (hi : set.items = [x])
    (hk : src.SignalOf x.kind) (ho : s.hc.state = .starting → set.allOnce ≠ some true) :
    ∃ v, SourceTaken a.bank set src (withSet set rest s) v ∧
      (v.hc.state = s.hc.state → v.hc.allOnce = (withSet set rest s).hc.allOnce →
        StateTested a.bank v (exec .hcPublication s)) ∧
      (v.hc.state ≠ s.hc.state → s.hc.state ≠ .starting → exec .hcPublication s = .next v) := by
  have kind : src.SignalOf src.kind := by rw [(setLatch_eq (h := s.hc) (l := .idle) hk).2]; exact hk
  have run := (hcPublication_signal ha hm hi hk).1
  have taken := latchStep_taken a.bank set kind (withSet set rest s)
  rw [hi] at taken
  generalize latchStep a.bank [x] src (withSet set rest s) = v at run taken
  have same : (withSet set rest s).hc.state = s.hc.state := rfl
  refine ⟨v, taken, fun hs hall => ?_, fun hs hn => ?_⟩
  · have rests := setInState_tested (v := v) (b := a.bank) hi hk fun h => by
      rw [hall]
      exact allOnce_none ho (hs.symm.trans h)
    rw [run, same, if_pos hs, ← hs]
    exact rests
  · rw [run, same, if_neg hs, withStart_eq (.inl hn)]

end

/-- Settles O52: TEST_HOLD by the tests it meets in order, and a rising source as the same request without floors. -/
theorem testHoldPlacesAServiceClaim : Obligations.TestHoldPlacesAServiceClaim := by
  refine ⟨?_, ?_⟩
  · intro p s f rest tag e0 e1 a0 a1 b0 b1 tail asks ready data hd expiry floorA floorB fits present claim answer refuses same
    have run := testHold_next asks ready data hd (by simp)
    obtain ⟨h1, h2, h4, h6⟩ := testHold_arguments hd
    have fits_iff : testHoldArguments f = true ↔ fits := by rw [testHoldArguments_iff, h1, h2, h4, h6]
    have request : testHoldRequest f = ⟨.service, tag.toNat, present floorA, present floorB, some expiry⟩ := by
      unfold testHoldRequest
      rw [h1, h2, h4, h6]
      rfl
    have refused : ∀ st, testHold f (taken rest s) = (.just st, taken rest s) → refuses st := fun st h => by
      rw [h] at run
      exact run
    have service : (taken rest s).sr.serviceMode = s.sr.serviceMode := taken_serviceMode rest s
    refine ⟨fun h => refused _ ?_, fun h hs => refused _ ?_, fun h hs ho => ?_, fun a h hs ha => ?_⟩
    · have misfits : testHoldArguments f = false := Bool.eq_false_iff.mpr (mt fits_iff.mp h)
      unfold testHold
      rw [misfits]
      rfl
    · unfold testHold
      rw [fits_iff.mpr h, service, hs]
      rfl
    · cases ha : s.active with
      | none =>
        refine refused _ ?_
        unfold testHold
        rw [fits_iff.mpr h, service, hs, taken_active, ha]
        rfl
      | some a =>
        refine refused _ (testHold_refused (fits_iff.mpr h) (service.trans hs) ha (requestClaim_early _ ?_))
        simpa [ha] using ho
    · intro top d floored places begins
      have judged : ∀ st, requestClaim a.bank (testHoldRequest f) (taken rest s) = (⟨st, none⟩, taken rest s) → refuses st :=
        fun st hr => refused st (testHold_refused (fits_iff.mpr h) (service.trans hs) ha hr)
      have accepted : ∀ slot v, requestClaim a.bank (testHoldRequest f) (taken rest s) = (⟨.ok, some slot⟩, v) →
          exec (.testHold p) s = .next (answered p 11 .ok [byte slot, 0, 0, 0, 0, 0] v) := fun slot v hr => by
        rw [testHold_request (fits_iff.mpr h) (service.trans hs) ha hr] at run
        exact run
      have claimed : ∀ granted, (testHoldRequest f).claim granted = claim granted := fun granted => by
        rw [request]
        rfl
      have floors : ∀ granted, (claim granted).floors.inf top = ⟨min floorA top.a, min floorB top.b⟩ := fun granted => by
        have raw : (claim granted).floors = ⟨floorA, floorB⟩ :=
          Circuits.eq_of (floorArg_getD floorA) (floorArg_getD floorB)
        rw [raw]
        rfl
      have placed : ∀ slot granted, requestClaim a.bank (testHoldRequest f) (taken rest s) = (⟨.ok, some slot⟩,
          { taken rest s with hc := { s.hc with
            claims := s.hc.claims.set slot (some ((testHoldRequest f).claim granted))
            demand := { s.hc.demand with
              pressure := d.sup (((testHoldRequest f).claim granted).floors.inf top) } } }) → places slot granted :=
        fun slot granted hr => by
          rw [claimed, floors] at hr
          exact accepted slot _ hr
      have begun : ∀ (start : Circuits) (episode : Bool), s.hc.claims = noClaims →
          requestClaim a.bank (testHoldRequest f) (taken rest s) = (⟨.ok, some 1⟩, enterHolding a.bank start episode
            (onHold (putClaim 1 ((testHoldRequest f).claim s.now)) (taken rest s))) →
          ∀ x, start.sup s.hc.resultPressure = x → begins x episode := by
        intro start episode hn hr x hx
        rw [claimed] at hr
        have next := (accepted 1 _ hr).trans (congrArg Host.Outcome.next (answered_enterHolding ..))
        change HoldBegun _ _ _ _ _ (exec (.testHold p) s)
        rw [next]
        refine enterHolding_put_begun (u := answer .ok 1) hn ?_
        change (start.sup s.hc.resultPressure).sup ((claim s.now).floors.inf top) = _
        rw [hx, floors]
        rfl
      refine ⟨fun hl => judged _ (requestClaim_late _ hl), fun st hi hr => judged _ (requestClaim_barred _ hi hr),
        fun hi he hn => begun _ _ hn (requestClaim_granted _ hi he) _ ?_,
        fun ramp hr hp hn => begun _ _ hn (requestClaim_releasing _ hr hp) _ rfl, fun hh hr hf => ⟨?_, fun hn => ⟨?_, ?_⟩⟩⟩
      · exact Circuits.eq_of (Nat.max_self _) (Nat.max_self _)
      · intro slot c hc hk only
        exact placed slot c.granted (requestClaim_refreshes hh hc (by rw [request]; exact hk) (by rw [request]; exact only)
          hr hf)
      · intro slot s1 s5 free lowest
        exact placed slot s.now (requestClaim_places hh (by rw [request]; exact hn) s1 s5 free lowest hr hf)
      · intro full
        exact judged _ (requestClaim_noSlot hh (by rw [request]; exact hn) full)
  · intro s a src set rest x ha hm hi hk ho b u r asserted refused same claims placed rises
    obtain ⟨v, taken, tested, left⟩ := signal_taken ha hm hi hk ho
    have sig := (hcPublication_signal ha hm hi hk).2
    have latch : u.hc.latch src = s.hc.latch src := by cases src <;> rfl
    have carried : Carries set src.kind := signal_carried hi hk
    refine ⟨fun h0 h1 => ?_, fun hr hl => ?_⟩
    · have still : v = u := taken.still (by rw [sig]; simpa using h0) (by rw [sig, latch]; simpa [rises] using h1)
      subst still
      exact tested rfl rfl
    · have requested : Requested b src u v := taken.rises carried (by rw [sig, hr.1, hr.2]) (latch.trans hl)
      have state : refused.hc.state = s.hc.state := by cases src <;> rfl
      have refusal : v = refused → StateTested b refused r := fun h => by
        subst h
        exact tested state (by cases src <;> rfl)
      have begins : ∀ asked episode, s.hc.state ≠ .holding → s.hc.state ≠ .handover → s.hc.state ≠ .starting →
          HoldBegun b claims asked episode asserted (.next v) → HoldBegun b claims asked episode asserted r := by
        intro asked episode n1 n2 n3 begun
        have run : r = .next v := by
          refine left (fun k => ?_) n3
          rcases begun_state begun with h | h
          · exact n1 (k.symm.trans h)
          · exact n2 (k.symm.trans h)
        rw [run]
        exact begun
      have holds : ∀ slot granted, s.hc.state = .holding → v = placed slot granted → HoldTested b (placed slot granted) r := by
        intro slot granted hs h
        have state : (placed slot granted).hc.state = s.hc.state := by cases src <;> rfl
        subst h
        exact (tested state (by cases src <;> rfl)).hold (state.trans hs)
      refine ⟨fun hs => ?_, fun hs => ⟨fun hn => ?_, fun he hn => ?_⟩, fun hs hw hf => ⟨?_, fun hn => ⟨?_, fun full => ?_⟩⟩,
        fun ramp hs hp hn => ?_, fun hs => ?_⟩
      · refine (refusal (requested.early hs)).other ?_ ?_ ?_ <;>
          (rw [state]; rcases hs with h | h <;> (rw [h]; exact nofun))
      · exact (refusal (requested.refused hs hn)).stand (by rwa [state])
      · refine begins _ _ ?_ ?_ ?_ (requested.granted hs he hn) <;> rcases hs with h | h <;> (rw [h]; exact nofun)
      · intro slot c hc hk' only
        exact holds slot c.granted hs
          (requested.refreshed hs hw hf slot c hc hk'.1 hk'.2 fun i y h k1 k2 => only i y h ⟨k1, k2⟩)
      · intro slot h1 h5 free lowest
        exact holds slot s.now hs (requested.placed hs hn slot h1 h5 free lowest)
      · exact (refusal (requested.full hs hn full)).hold (state.trans hs)
      · refine begins _ _ ?_ ?_ ?_ (requested.returns hs ramp hp hn) <;> (rw [hs]; exact nofun)
      · have late : v = asserted := requested.late hs
        have kept : asserted.hc.state = s.hc.state := by cases src <;> rfl
        subst late
        refine (tested kept (by cases src <;> rfl)).other ?_ ?_ ?_ <;>
          (rw [kept]; rcases hs with h | h | h <;> (rw [h]; exact nofun))

section
variable {s : State} {b : Bank} {p : Port} {f : Frame} {rest : List Request}

/-! ## The table after a removal (R86) -/

theorem afterRemoval_stands (hs : s.hc.state = .holding) (h : ∃ x, some x ∈ s.hc.claims) :
    afterRemoval b s = handoverTest b s := by
  obtain ⟨x, hx⟩ := h
  unfold afterRemoval
  rw [if_pos hs, if_neg fun k => noClaim_iff.mp k x hx]

theorem afterRemoval_absent (hs : s.hc.state = .holding) (h : ∀ x, some x ∉ s.hc.claims) (ha : Absent s.hc) :
    afterRemoval b s = enterHandover b s.hc.demand.pressure s := by
  unfold afterRemoval
  rw [if_pos hs, if_pos (noClaim_iff.mpr h), if_pos (absent_iff.mpr ha)]

theorem afterRemoval_present (hs : s.hc.state = .holding) (h : ∀ x, some x ∉ s.hc.claims) (hl : s.hc.claims.length = 6)
    (ha : ¬ Absent s.hc) :
    afterRemoval b s = raisedIn 12 { s with hc := { s.hc with
      claims := driverAlone s.now, minHold := some b.params.minHold, metMemory := false } } := by
  have claims : s.hc.claims.set 1 (some (driverClaim s.now)) = driverAlone s.now := by
    rw [noClaims_of_noClaim hl (noClaim_iff.mpr h)]
    rfl
  unfold afterRemoval
  rw [if_pos hs, if_pos (noClaim_iff.mpr h), if_neg (mt absent_iff.mp ha), ← claims]
  rfl

theorem answered_enterHandover (code : Nat) (status : Status) (data : List Byte) (held : Circuits) :
    answered p code status data (enterHandover b held s) = enterHandover b held (answered p code status data s) := by
  rw [enterHandover_eq, enterHandover_eq]
  rfl

theorem releaseTest_next (h : Asks p f rest s) (hr : Ready s) (hm : f.remote = false) {tail : List Byte}
    (hd : f.data = 12 :: tail) (hl : 1 ≤ tail.length) :
    exec (.releaseTest p) s = .next (answered p 12 (releaseTest f (taken rest s)).1.status
      (padTo 6 (releaseTest f (taken rest s)).1.data) (releaseTest f (taken rest s)).2) :=
  congrArg Host.Outcome.next (serveNow_asks (n := 1) releaseTest h hr hm hd rfl hl)

theorem hasClaim_iff {h : HoldController} {src : Source} {tag : Nat} :
    h.hasClaim src tag = true ↔ ∃ c, some c ∈ h.claims ∧ c.source = src ∧ c.tag = tag := by
  rw [HoldController.hasClaim, Option.isSome_iff_ne_none, Ne, slotOf_none]
  push Not
  rfl

end

/-- Settles O53: RELEASE_TEST by the claim that its tag names, and a falling source by its latch. -/
theorem releaseTestRemovesTheClaim : Obligations.ReleaseTestRemovesTheClaim := by
  refine ⟨?_, ?_⟩
  · intro p s f rest tag tail asks ready data hd same answer r
    have run : r = _ := releaseTest_next asks ready data hd (by simp)
    have arg : argByte f 1 = tag.toNat := by
      unfold argByte
      rw [hd]
      rfl
    have refused : ∀ st, releaseTest f (taken rest s) = (.just st, taken rest s) → r = .next (answer st) := fun st h => by
      rw [h] at run
      exact run
    have bound : tag ≠ 0 → tag.toNat ≤ 3 → ¬ (argByte f 1 < 1 ∨ 3 < argByte f 1) := by
      intro h0 h3
      have : tag.toNat ≠ 0 := fun h => h0 (BitVec.eq_of_toNat_eq h)
      rw [arg]
      omega
    refine ⟨fun h => refused _ ?_, fun h0 h3 h => refused _ ?_, fun a slot c h0 h3 ha hs hl hc hk only hr hf => ?_⟩
    · refine if_pos ?_
      rw [arg]
      rcases h with rfl | h
      · exact .inl (by decide)
      · exact .inr h
    · unfold releaseTest
      dsimp only
      rw [if_neg (bound h0 h3), taken_active]
      cases ha : s.active with
      | none => rfl
      | some a =>
        refine if_neg fun k => ?_
        obtain ⟨c, hc, hk⟩ := hasClaim_iff.mp k
        rw [arg] at hk
        exact (h.resolve_left (by simp [ha])) c hc hk
    · intro left u
      have keyed : ∀ x : Claim, x.hasKey .service tag.toNat = true ↔ same x := fun x => by simp [Claim.hasKey, same]
      let v : State := { taken rest s with hc := { s.hc with claims := left } }
      have removed : releaseTest f (taken rest s) = (.just .ok, afterRemoval a.bank v) := by
        have found : (taken rest s).hc.hasClaim .service (argByte f 1) = true :=
          hasClaim_iff.mpr ⟨c, List.mem_of_getElem? hc, by rw [arg]; exact hk⟩
        have table : removeClaims a.bank (fun c => c.hasKey .service tag.toNat) s.hc = { s.hc with claims := left } := by
          rw [removeClaims_of_within hr hf, filter_slot hc ((keyed c).mpr hk) fun i x hi h => only i x hi ((keyed x).mp h)]
        unfold releaseTest
        dsimp only
        rw [if_neg (bound h0 h3), taken_active, ha]
        dsimp only
        rw [if_pos found, arg]
        exact congrArg (fun h => ((.just .ok : Answer), afterRemoval a.bank { taken rest s with hc := h })) table
      have next : r = .next (answered p 12 .ok [0, 0, 0, 0, 0, 0] (afterRemoval a.bank v)) := by
        rw [removed] at run
        exact run
      refine ⟨fun hx => ?_, fun hx hp => ?_, fun hx hp => ?_⟩
      · rw [next, afterRemoval_stands (s := v) hs hx, answered_handoverTest]
        exact handoverTest_tested hs
      · have length : left.length = 6 := (List.length_set ..).trans hl
        rw [next, afterRemoval_present (s := v) hs hx length hp]
        rfl
      · rw [next, afterRemoval_absent (s := v) hs hx hp, answered_enterHandover]
        exact ⟨_, rfl, enterHandover_moved _ _ _, enterHandover_started _ _ _⟩
  · intro s a src set rest x ha hm hi hk ho hv hx b u r idle same
    obtain ⟨v, taken, tested, leaves⟩ := signal_taken ha hm hi hk ho
    have sig := (hcPublication_signal ha hm hi hk).2
    have latch : u.hc.latch src = s.hc.latch src := by cases src <;> rfl
    have carried : Carries set src.kind := signal_carried hi hk
    have released : Released b src u v := taken.falls carried (by rw [sig, hv, hx])
    have state : idle.hc.state = s.hc.state := by cases src <;> rfl
    refine ⟨fun h => ?_, fun slot c hl hs hlen hc hk' only hw hf => ?_⟩
    · have still : v = idle := released.unheld (by rwa [latch])
      subst still
      exact tested state (by cases src <;> rfl)
    · intro left w
      obtain ⟨stands, present, absent⟩ := released.held (latch.trans hl) hs hlen slot c hc hk'.1 hk'.2
        (fun i y h k1 k2 => only i y h ⟨k1, k2⟩) hw hf
      have kept : w.hc.state = .holding ∧ w.hc.allOnce = u.hc.allOnce := by
        cases src <;> exact ⟨hs, rfl⟩
      have out : s.hc.state ≠ .starting := by rw [hs]; exact nofun
      have same_absent : Absent u.hc ↔ Absent s.hc := signal_absent hi hk
      refine ⟨fun hy => ?_, fun hn hp => ?_, fun hn hp => ?_⟩
      · have first : HoldTested b w (.next v) := stands hy
        refine ⟨fun hh => ?_, fun hh => ?_⟩
        · obtain ⟨t, ht, moved, started⟩ := first.leaves hh
          cases ht
          exact ⟨v, leaves (by rw [moved.entered.state, hs]; exact nofun) out, moved, started⟩
        · have still : v = w := Host.Outcome.next.inj (first.stays hh)
          rw [still] at tested
          exact ((tested (kept.1.trans hs.symm) kept.2).hold kept.1).stays hh
      · let x := raisedIn 12 { w with hc := { w.hc with
          claims := driverAlone s.now, minHold := some b.params.minHold, metMemory := false } }
        have driver : v = x := present hn (mt same_absent.mp hp)
        have held : v.hc.state = .holding ∧ v.hc.allOnce = u.hc.allOnce := by
          rw [driver]
          exact kept
        change HoldTested b x r
        rw [← driver]
        exact (tested (held.1.trans hs.symm) held.2).hold held.1
      · obtain ⟨moved, started⟩ := absent hn (same_absent.mpr hp)
        exact ⟨v, leaves (by rw [moved.entered.state, hs]; exact nofun) out, moved, started⟩

end Sys2Proof.Machine
end

