-- ==== Sys2Proof/Proofs/FaultsAndCounters.lean ====
section
/-! PROOF. The Fault Record and the 86 counters (O44, O51). -/

namespace Sys2Proof.Machine

section
variable {s : State}

/-! ## The counters as rows (R174, R175) -/

/-- The counters of a port in their order, and those of a frame monitor. -/
def PortCounters.row (x : PortCounters) : List Nat :=
  [x.rx, x.forwarded, x.policed, x.blocked, x.queueDrop, x.txError, x.idConflict]

def MonitorCounters.row (x : MonitorCounters) : List Nat := [x.good, x.errors, x.losses]

/-- The row of a port or of a frame monitor. -/
def FaultCapture.row (fc : FaultCapture) : Port ⊕ Fin 24 → List Nat
  | .inl p => (fc.ports.get p).row
  | .inr i => (fc.monitor i).row

/-- The row of a counter and its place there. -/
def Counter.place : Counter → (Port ⊕ Fin 24) × Nat
  | .rx p => (.inl p, 0)
  | .forwarded p => (.inl p, 1)
  | .policed p => (.inl p, 2)
  | .blocked p => (.inl p, 3)
  | .queueDrop p => (.inl p, 4)
  | .txError p => (.inl p, 5)
  | .idConflict p => (.inl p, 6)
  | .good i => (.inr i, 0)
  | .errors i => (.inr i, 1)
  | .losses i => (.inr i, 2)

/-- The counter at a place. -/
def Counter.atPlace : (Port ⊕ Fin 24) × Nat → Option Counter
  | (.inl p, k) => [Counter.rx p, .forwarded p, .policed p, .blocked p, .queueDrop p, .txError p, .idConflict p][k]?
  | (.inr i, k) => [Counter.good i, .errors i, .losses i][k]?

theorem Counter.atPlace_place (c : Counter) : Counter.atPlace c.place = some c := by cases c <;> rfl

theorem Counter.place_injective {c d : Counter} (h : c.place = d.place) : c = d :=
  Option.some.inj (c.atPlace_place.symm.trans ((congrArg Counter.atPlace h).trans d.atPlace_place))

theorem Counter.read_row (c : Counter) (fc : FaultCapture) : (fc.row c.place.1)[c.place.2]? = some (c.read fc) := by
  cases c <;> rfl

theorem monitor_update {fc : FaultCapture} (hl : fc.monitors.length = 24) (i j : Fin 24)
    (f : MonitorCounters → MonitorCounters) :
    (updateMonitor i f fc).monitor j = if j = i then f (fc.monitor i) else fc.monitor j := by
  unfold updateMonitor FaultCapture.monitor
  by_cases h : j = i
  · subst h
    rw [if_pos rfl, List.getElem?_set_self (by omega)]
    rfl
  · rw [if_neg h, List.getElem?_set_ne fun k => h (Fin.ext k.symm)]

/-- A count changes its own place of its own row. -/
theorem countInto_row {fc : FaultCapture} (hl : fc.monitors.length = 24) (c : Counter) (x : Port ⊕ Fin 24) :
    (countInto c fc).row x =
      if x = c.place.1 then (fc.row x).set c.place.2 (bump (c.read fc)) else fc.row x := by
  cases c
  case good i | errors i | losses i =>
    cases x with
    | inl q => rfl
    | inr j =>
      unfold countInto FaultCapture.row
      dsimp only
      rw [monitor_update hl]
      by_cases h : j = i
      · subst h
        rw [if_pos rfl]
        exact (if_pos rfl).symm
      · rw [if_neg h]
        exact (if_neg fun k => h (Sum.inr.inj k)).symm
  all_goals
    rename_i p
    cases x with
    | inl q => cases p <;> cases q <;> rfl
    | inr j => rfl

/-- A count adds 1 to its counter, up to 65,535, and to no other (R174). -/
theorem read_countInto {fc : FaultCapture} (hl : fc.monitors.length = 24) (c other : Counter) :
    other.read (countInto c fc) = if other = c then bump (c.read fc) else other.read fc := by
  have row := other.read_row (countInto c fc)
  rw [countInto_row hl] at row
  by_cases h : other = c
  · subst h
    have place := (List.getElem?_eq_some_iff.mp (other.read_row fc)).1
    rw [if_pos rfl, List.getElem?_set_self place] at row
    rw [if_pos rfl]
    exact (Option.some.inj row).symm
  · rw [if_neg h]
    have same : (fc.row other.place.1)[other.place.2]? = some (other.read (countInto c fc)) := by
      by_cases k : other.place.1 = c.place.1
      · rw [if_pos k, List.getElem?_set_ne fun e => h (Counter.place_injective (Prod.ext k e.symm))] at row
        exact row
      · rwa [if_neg k] at row
    exact (Option.some.inj (same.symm.trans (other.read_row fc)))

end

/-- Settles O44: a report is captured or is a repeat, as the record decides, and a count adds to one counter. -/
theorem faultCaptureTakesReportsAndCounts : Obligations.FaultCaptureTakesReportsAndCounts := by
  intro s
  refine ⟨fun n r hr => ?_, fun c rest hc hl => ?_⟩
  · let u := s.setMail { s.mail with faults := s.mail.faults.eraseIdx n }
    have run : exec (.faultReport n) s = .next (takeReport r u) := by
      refine congrArg Host.Outcome.next ?_
      unfold takeFault
      rw [hr]
    refine ⟨fun h => ?_, fun old ho h => ?_⟩
    · have captured : takeReport r u = capture r u := by
        have record : u.fc.record = s.fc.record := rfl
        unfold takeReport
        rw [record]
        rcases h with h | ⟨old, h, hsev⟩
        · rw [h]
        · rw [h]
          exact if_pos hsev
      rw [run, captured]
      exact ⟨_, rfl, rfl, rfl, rfl⟩
    · have counted : takeReport r u = countRepeat old u := by
        have record : u.fc.record = some old := ho
        unfold takeReport
        rw [record]
        exact if_neg h
      rw [run, counted]
      rfl
  · have run : exec .counterCount s = .next ((s.setMail { s.mail with counts := rest }).setFc (countInto c s.fc)) := by
      refine congrArg Host.Outcome.next ?_
      unfold takeCount
      rw [hc]
    refine ⟨_, run, ?_, fun other hne => ?_, countInto_record c s.fc, rfl⟩
    · exact (read_countInto hl c c).trans (if_pos rfl)
    · exact (read_countInto hl c other).trans (if_neg hne)

section
variable {fc : FaultCapture}

/-! ## READ_COUNTERS (R175) -/

/-- A group of a frame monitor. -/
theorem groupCounters_monitor {g : Nat} (h6 : 6 ≤ g) (hg : g ≤ 29) : ∃ i : Fin 24, i.val = g - 6 ∧
    groupCounters g = [.good i, .errors i, .losses i] ∧ clearGroup g fc = updateMonitor i (fun _ => .zero) fc := by
  refine ⟨⟨g - 6, by omega⟩, rfl, ?_, ?_⟩
  · unfold groupCounters
    split
    case h_7 => exact dif_pos (by omega)
    all_goals exact absurd h6 (by decide)
  · unfold clearGroup
    dsimp only
    split
    case h_7 => exact if_pos hg
    all_goals exact absurd h6 (by decide)

/-- A group's values are those of its counters. -/
theorem counterGroup_eq {g : Nat} (hg : g ≤ 29) :
    counterGroup fc g = some ((groupCounters g).map fun c => c.read fc) := by
  by_cases h6 : 6 ≤ g
  · obtain ⟨i, hi, group, -⟩ := groupCounters_monitor (fc := fc) h6 hg
    have values : counterGroup fc g =
        some [(fc.monitor (g - 6)).good, (fc.monitor (g - 6)).errors, (fc.monitor (g - 6)).losses] := by
      unfold counterGroup
      dsimp only
      split
      case h_7 => exact if_pos hg
      all_goals exact absurd h6 (by decide)
    rw [← hi] at values
    exact values.trans (congrArg (fun l => some (l.map fun c : Counter => c.read fc)) group).symm
  · interval_cases g <;> rfl

theorem counterGroup_none {g : Nat} (hg : 29 < g) : counterGroup fc g = none := by
  unfold counterGroup
  dsimp only
  split
  case h_7 => exact if_neg (Nat.not_le.mpr hg)
  all_goals exact absurd hg (by decide)

/-- A group has three counters or one. -/
theorem groupCounters_size {g : Nat} (hg : g ≤ 29) :
    (∃ c d e, groupCounters g = [c, d, e]) ∨ ∃ c, groupCounters g = [c] := by
  by_cases h6 : 6 ≤ g
  · obtain ⟨i, -, group, -⟩ := groupCounters_monitor (fc := .zero) h6 hg
    exact .inl ⟨_, _, _, group⟩
  · obtain (rfl | rfl) | (rfl | rfl | rfl | rfl) : (g = 2 ∨ g = 5) ∨ g = 0 ∨ g = 1 ∨ g = 3 ∨ g = 4 := by omega
    iterate 2 exact .inr ⟨_, rfl⟩
    all_goals exact .inl ⟨_, _, _, rfl⟩

/-- A cleared group: its counters are 0, the others stay. -/
theorem read_clearGroup {g : Nat} (hg : g ≤ 29) (hl : fc.monitors.length = 24) (c : Counter) :
    c.read (clearGroup g fc) = if c ∈ groupCounters g then 0 else c.read fc := by
  by_cases h6 : 6 ≤ g
  · obtain ⟨i, -, group, clear⟩ := groupCounters_monitor (fc := fc) h6 hg
    rw [group, clear]
    have at_monitor : ∀ j : Fin 24, (updateMonitor i (fun _ => .zero) fc).monitor j =
        if j = i then .zero else fc.monitor j := fun j => monitor_update hl i j _
    cases c
    case good j | errors j | losses j =>
      unfold Counter.read
      dsimp only
      rw [at_monitor]
      by_cases h : j = i
      · subst h
        simp [MonitorCounters.zero]
      · simp [h]
    all_goals rfl
  · interval_cases g
    all_goals
      cases c
      case good | errors | losses => rfl
      all_goals
        rename_i p
        cases p <;> rfl

end

/-- Settles O51: `counterGroup_eq` for what is read, `clearGroup` for what the flag clears. -/
theorem countersReadAndFaultCleared : Obligations.CountersReadAndFaultCleared := by
  intro p s f rest asks ready data
  refine ⟨fun group flag tail hd => ?_, fun tail hd => ?_⟩
  · intro low high refuses
    have run : exec (.readCounters p) s = _ :=
      congrArg Host.Outcome.next (serveNow_asks (n := 2) (code := 7) readCounters asks ready data hd rfl (by simp))
    have args : argByte f 1 = group.toNat ∧ argByte f 2 = flag.toNat := by
      unfold argByte
      rw [hd]
      exact ⟨rfl, rfl⟩
    have refused : ∀ st, readCounters f (taken rest s) = (.just st, taken rest s) → refuses st := fun st h => by
      rw [h] at run
      exact run
    have group_eq : group.toNat ≤ 29 → counterGroup (taken rest s).fc (argByte f 1) =
        some ((groupCounters group.toNat).map fun c => c.read s.fc) := fun hg => by
      rw [args.1]
      exact counterGroup_eq hg
    refine ⟨fun hg => refused _ ?_, fun hg hf => refused _ ?_, fun hg hf hl => ?_⟩
    · unfold readCounters
      rw [args.1, counterGroup_none hg]
    · unfold readCounters
      rw [group_eq hg, args.2]
      dsimp only
      split
      case h_1 h => omega
      case h_2 h => omega
      case h_3 => rfl
    · let fc := if flag = 1 then clearGroup group.toNat s.fc else s.fc
      have reads : readCounters f (taken rest s) =
          (⟨.ok, ((groupCounters group.toNat).map fun c => c.read s.fc).flatMap (bytesOf 2)⟩, { taken rest s with fc := fc }) := by
        unfold readCounters
        rw [group_eq hg, args.1, args.2]
        dsimp only
        rcases Nat.le_one_iff_eq_zero_or_eq_one.mp hf with h | h
        · obtain rfl : flag = 0 := BitVec.eq_of_toNat_eq h
          rfl
        · obtain rfl : flag = 1 := BitVec.eq_of_toNat_eq h
          rfl
      have cleared : ∀ c : Counter, c.read fc = if c ∈ groupCounters group.toNat ∧ flag = 1 then 0 else c.read s.fc := by
        intro c
        by_cases h : flag = 1
        · simp only [fc, h, if_true, and_true]
          exact read_clearGroup hg hl c
        · simp only [fc, h, if_false, and_false]
      have record : fc.record = s.fc.record := by
        unfold fc
        split
        · exact clearGroup_record _ _
        · rfl
      rw [run, reads]
      rcases groupCounters_size hg with ⟨c, d, e, group⟩ | ⟨c, group⟩
      · rw [group] at cleared ⊢
        exact ⟨_, c.read s.fc, d.read s.fc, e.read s.fc, rfl, .inl rfl, cleared, record, rfl⟩
      · rw [group] at cleared ⊢
        exact ⟨_, c.read s.fc, 0, 0, rfl, .inr ⟨rfl, rfl, rfl⟩, cleared, record, rfl⟩
  · have run := serveNow_asks (n := 0) (code := 9) (fun _ s => clearFault s) asks ready data hd rfl (Nat.zero_le _)
    exact congrArg Host.Outcome.next run

end Sys2Proof.Machine
end

