-- ==== Sys2Proof/Proofs/ServiceAnswers.lean ====
section
/-! PROOF. The Service Responder's refusals, reads and writes (O45, O47, O48, O50). -/

namespace Sys2Proof.Machine

section
variable {p : Port} {f : Frame} {rest : List Request} {s : State}

/-! ## Requests that are not carried out (R177) -/

theorem serve_busy {code n : Nat} {c : Byte} {tail : List Byte} (act : Frame → State → State) (h : Asks p f rest s)
    (hb : ¬ Ready s) (hm : f.remote = false) (hd : f.data = c :: tail) (hc : c.toNat = code) :
    serve code n p act s = answered p code .busy [0, 0, 0, 0, 0, 0] { s with mail := { s.mail with requests := rest } } := by
  have wanted : isCommand code f = true := by simp [isCommand, hasCommand, argByte, hm, hd, hc]
  have busy : isBusy (s.setMail { s.mail with requests := rest }) = true := by
    rw [← Bool.not_eq_false, isBusy_eq_false_iff]
    exact hb
  unfold serve
  rw [takeRequest_asks h, if_pos wanted]
  dsimp only
  rw [if_pos busy]
  exact respond_eq p code _ _ _ rfl

theorem taken_eq (rest : List Request) (s : State) : restartIdle (s.setMail { s.mail with requests := rest }) = taken rest s := by
  have mode : (s.setMail { s.mail with requests := rest }).sr.serviceMode = s.sr.serviceMode := rfl
  unfold restartIdle taken
  rw [mode]
  split <;> rfl

theorem serve_short {code n : Nat} {c : Byte} {tail : List Byte} (act : Frame → State → State) (h : Asks p f rest s)
    (hr : Ready s) (hm : f.remote = false) (hd : f.data = c :: tail) (hc : c.toNat = code) (hn : tail.length < n) :
    serve code n p act s = answered p code .badValue [0, 0, 0, 0, 0, 0] (taken rest s) := by
  have wanted : isCommand code f = true := by simp [isCommand, hasCommand, argByte, hm, hd, hc]
  have ready : isBusy (s.setMail { s.mail with requests := rest }) = false := isBusy_eq_false_iff.mpr hr
  have short : f.data.length ≤ n := by
    rw [hd]
    exact hn
  unfold serve
  rw [takeRequest_asks h, if_pos wanted]
  dsimp only
  rw [ready, taken_eq, if_pos short]
  exact respond_eq p code _ _ _ rfl

/-- Each command of the table is a request with its code and its number of argument bytes (R188). -/
theorem exec_serves {code arguments : Nat} {c : Instr}
    (h : (code, c, arguments) ∈ [(1, Instr.enterService p, 0), (2, .exitService p, 0), (3, .readEntry p, 4),
      (4, .writeField p, 7), (5, .activate p, 0), (6, .readSignal p, 1), (7, .readCounters p, 2),
      (8, .readFault p, 1), (9, .clearFault p, 0), (10, .readClaims p, 1), (11, .testHold p, 7),
      (12, .releaseTest p, 1), (13, .resetPart p, 0)]) (s : State) :
    ∃ act, exec c s = .next (serve code arguments p act s) := by
  simp only [List.mem_cons, Prod.mk.injEq, List.not_mem_nil, or_false] at h
  rcases h with ⟨rfl, rfl, rfl⟩ | ⟨rfl, rfl, rfl⟩ | ⟨rfl, rfl, rfl⟩ | ⟨rfl, rfl, rfl⟩ | ⟨rfl, rfl, rfl⟩ | ⟨rfl, rfl, rfl⟩ |
    ⟨rfl, rfl, rfl⟩ | ⟨rfl, rfl, rfl⟩ | ⟨rfl, rfl, rfl⟩ | ⟨rfl, rfl, rfl⟩ | ⟨rfl, rfl, rfl⟩ | ⟨rfl, rfl, rfl⟩ | ⟨rfl, rfl, rfl⟩
  all_goals exact ⟨_, rfl⟩

/-- A request without a command is discarded (log 13). -/
theorem unknownRequest_discards (h : Asks p f rest s) (hd : f.remote = true ∨ f.data = []) :
    unknownRequest p s = { s with mail := { s.mail with requests := rest } } := by
  have none : (!hasCommand f) = true := by rcases hd with h | h <;> simp [hasCommand, h]
  unfold unknownRequest
  rw [takeRequest_asks h, none, Bool.true_or]
  dsimp only
  rw [if_pos rfl]
  dsimp only
  rw [if_pos none]
  rfl

/-- A request whose command byte names no command. -/
theorem unknownRequest_eq {code : Byte} {tail : List Byte} (h : Asks p f rest s) (hm : f.remote = false)
    (hd : f.data = code :: tail) (hc : code = 0 ∨ 13 < code.toNat) :
    unknownRequest p s =
      if isBusy (s.setMail { s.mail with requests := rest }) then
        answered p code.toNat .busy [0, 0, 0, 0, 0, 0] { s with mail := { s.mail with requests := rest } }
      else answered p code.toNat .badValue [0, 0, 0, 0, 0, 0] (taken rest s) := by
  have command : (!hasCommand f) = false := by simp [hasCommand, hm, hd]
  have byte : argByte f 0 = code.toNat := by
    unfold argByte
    rw [hd]
    rfl
  have unknown : (!(decide (1 ≤ code.toNat) && decide (code.toNat ≤ 13))) = true := by
    rcases hc with rfl | h
    · rfl
    · simp only [Bool.not_eq_true', Bool.and_eq_false_iff, decide_eq_false_iff_not]
      omega
  unfold unknownRequest
  rw [takeRequest_asks h, command, byte, unknown, if_pos (Bool.or_true false)]
  dsimp only
  rw [command, byte, taken_eq, respond_eq p code.toNat (.just .busy) _ _ rfl, respond_eq p code.toNat (.just .badValue) _ _ rfl]
  rfl

/-! ## READ_ENTRY (R178) -/

theorem bytesOf_four (n : Nat) :
    bytesOf 4 n = [byte n, byte (n / 256), byte (n / 65536), byte (n / 16777216)] := by
  simp only [bytesOf, Nat.div_div_eq_div_mul]

/-- The tests of the table, the index and the field, and the value (R178). -/
def entryJudged (table index : Nat) (value : Option Word32) : Except Status Word32 :=
  match tableSize table with
  | none => .error .badTable
  | some n => if n ≤ index then .error .badIndex else match value with
    | none => .error .badField
    | some v => .ok v

theorem readEntry_active {a : ActiveBank} (ha : s.active = some a) (table index field : Nat) :
    readEntry s table index field 0 = entryJudged table index (readActive s a table index field) := by
  unfold readEntry
  rw [ha]
  rfl

theorem readEntry_staging {b : Bank} (hs : s.sr.serviceMode = true) (hb : s.sr.staging = some b) (table index field : Nat) :
    readEntry s table index field 1 = entryJudged table index (readStaging b table index field) := by
  unfold readEntry
  rw [hs, hb]
  rfl

theorem tableSize_some {table : Nat} (h : table ≤ 8) : ∃ n, tableSize table = some n := by
  interval_cases table <;> exact ⟨_, rfl⟩

theorem tableSize_none {table : Nat} (h : 8 < table) : tableSize table = none := by
  unfold tableSize
  split
  case h_10 => rfl
  all_goals exact absurd h (by decide)

/-- WRITE_FIELD's tests of the table, the index, the field and the value (R181). -/
theorem writeBank_ok {b b' : Bank} {table index field n : Nat} {v : Word32} {spec : FieldSpec Bank}
    (hn : tableSize table = some n) (hi : index < n) (hf : bankField table index field = some spec)
    (hv : spec.put b v = some b') : writeBank b table index field v = .ok b' := by
  unfold writeBank
  rw [hn, hf]
  dsimp only
  rw [hv]
  exact if_neg (Nat.not_le.mpr hi)

theorem writeBank_badValue {b : Bank} {table index field n : Nat} {v : Word32} {spec : FieldSpec Bank}
    (hn : tableSize table = some n) (hi : index < n) (hf : bankField table index field = some spec)
    (hv : spec.put b v = none) : writeBank b table index field v = .error .badValue := by
  unfold writeBank
  rw [hn, hf]
  dsimp only
  rw [hv]
  exact if_neg (Nat.not_le.mpr hi)

theorem writeBank_badField {b : Bank} {table index field n : Nat} {v : Word32}
    (hn : tableSize table = some n) (hi : index < n) (hf : bankField table index field = none) :
    writeBank b table index field v = .error .badField := by
  unfold writeBank
  rw [hn, hf]
  exact if_neg (Nat.not_le.mpr hi)

/-- A field written has passed every test. -/
theorem writeBank_written {b b' : Bank} {table index field : Nat} {v : Word32}
    (h : writeBank b table index field v = .ok b') : ∃ n spec, tableSize table = some n ∧ index < n ∧
      bankField table index field = some spec ∧ spec.put b v = some b' := by
  unfold writeBank at h
  split at h
  case h_1 => cases h
  case h_2 n hn =>
    split at h
    case isTrue => cases h
    case isFalse hi =>
      split at h
      case h_1 => cases h
      case h_2 spec hf =>
        split at h
        case h_1 => cases h
        case h_2 hv =>
          cases h
          exact ⟨n, spec, hn, Nat.not_le.mp hi, hf, hv⟩

theorem monitorField_none {field : Nat} (h : 11 ≤ field) : monitorField field = none := by
  unfold monitorField
  split
  case h_12 => rfl
  all_goals exact absurd h (by decide)

/-- Past the writable fields of table 0 the active bank reads the running state (R24). -/
theorem readActive_running (a : ActiveBank) {index field : Nat} (h : 11 ≤ field) :
    readActive s a 0 index field = runningField s a index field := by
  have none : bankField 0 index field = none := by
    change (monitorField field).map _ = none
    rw [monitorField_none h]
    rfl
  unfold readActive
  rw [none]
  rfl

theorem runningField_none (a : ActiveBank) {index field : Nat} (h : (11 ≤ field ∧ field ≤ 15) ∨ 25 ≤ field) :
    runningField s a index field = none := by
  unfold runningField
  dsimp only
  split
  case h_10 => rfl
  all_goals exact absurd h (by decide)

theorem runningField_unused (a : ActiveBank) {index field : Nat} (hu : (a.bank.monitor index).inUse = false)
    (h16 : 16 ≤ field) (h21 : field ≤ 21) : runningField s a index field = some 0 := by
  unfold runningField
  rw [hu]
  interval_cases field <;> rfl

/-- The running state of a frame monitor in use, field by field (R24). -/
theorem runningField_used (a : ActiveBank) {index : Nat} (hu : (a.bank.monitor index).inUse = true) :
    let m := s.sm.state index
    runningField s a index 16 = some (BitVec.ofNat 32 (a.minLength index)) ∧
    runningField s a index 17 = some (BitVec.ofNat 32 m.sync.code) ∧
    runningField s a index 18 = some (BitVec.ofNat 32 m.good) ∧
    runningField s a index 19 = some (if m.sync = .valid then BitVec.ofNat 32 (windowBits m.window) else 0) ∧
    runningField s a index 20 = some ((m.baseline.map (BitVec.ofNat 32)).getD absentValue) ∧
    runningField s a index 21 = some ((m.timer.map (BitVec.ofNat 32)).getD absentValue) := by
  unfold runningField
  rw [hu]
  exact ⟨rfl, rfl, rfl, rfl, rfl, rfl⟩

/-- The bits of a loss window (R189). -/
theorem windowBits_testBit (w : List Bool) (j : Nat) : (windowBits w).testBit j = w.getD j false := by
  induction w generalizing j with
  | nil => simp [windowBits]
  | cons e es ih =>
    cases j with
    | zero => cases e <;> simp [windowBits, bit, Nat.testBit_zero, Nat.add_mul_mod_self_left]
    | succ j =>
      have half : (bit e + 2 * windowBits es) / 2 = windowBits es := by cases e <;> (unfold bit; simp; try omega)
      rw [windowBits, Nat.testBit_succ, half, ih]
      rfl

end

/-! ## READ_ENTRY and WRITE_FIELD by what the bank answers (R178, R181) -/

section
variable {f : Frame} {s : State} {b b' : Bank} {v : Word32} {st : Status}

/-- The table, index, field and selector that a READ_ENTRY names (R188). -/
def entryArgs (f : Frame) : Nat × Nat × Nat × Nat := (argByte f 1, argByte f 2, argByte f 3, argByte f 4)

theorem readEntryAnswer_ok
    (h : readEntry s (entryArgs f).1 (entryArgs f).2.1 (entryArgs f).2.2.1 (entryArgs f).2.2.2 = .ok v) :
    readEntryAnswer f s = ⟨.ok, bytesOf 4 v.toNat⟩ := by
  simp only [readEntryAnswer, (show readEntry s (argByte f 1) (argByte f 2) (argByte f 3) (argByte f 4) = _ from h)]

theorem readEntryAnswer_error
    (h : readEntry s (entryArgs f).1 (entryArgs f).2.1 (entryArgs f).2.2.1 (entryArgs f).2.2.2 = .error st) :
    readEntryAnswer f s = .just st := by
  simp only [readEntryAnswer, (show readEntry s (argByte f 1) (argByte f 2) (argByte f 3) (argByte f 4) = _ from h)]

theorem writeField_closed (f : Frame) (h : s.sr.serviceMode = false) : writeField f s = (.just .refusedState, s) := by
  simp only [writeField, h]

theorem writeField_ok (mode : s.sr.serviceMode = true) (bank : s.sr.staging = some b)
    (h : writeBank b (argByte f 1) (argByte f 2) (argByte f 3) (BitVec.ofNat 32 (argLong f 4)) = .ok b') :
    writeField f s = (.just .ok, setResponder (fun r => { r with staging := some b' }) s) := by
  simp only [writeField, mode, bank, h]

theorem writeField_error (mode : s.sr.serviceMode = true) (bank : s.sr.staging = some b)
    (h : writeBank b (argByte f 1) (argByte f 2) (argByte f 3) (BitVec.ofNat 32 (argLong f 4)) = .error st) :
    writeField f s = (.just st, s) := by
  simp only [writeField, mode, bank, h]

end

/-- Settles O45: `serve_busy` and `serve_short` for the commands, `unknownRequest_eq` for a byte that names none. -/
theorem requestsAnsweredBusyOrBadValue : Obligations.RequestsAnsweredBusyOrBadValue := by
  intro p s f rest asks
  refine ⟨fun h => congrArg Host.Outcome.next (unknownRequest_discards asks h), fun code tail c arguments hm hd h => ?_⟩
  rcases h with h | ⟨rfl, -, hc⟩
  · obtain ⟨act, run⟩ := exec_serves h s
    rw [run]
    exact ⟨fun hb => congrArg Host.Outcome.next (serve_busy act asks hb hm hd rfl),
      fun hr hn => congrArg Host.Outcome.next (serve_short act asks hr hm hd rfl hn)⟩
  · have run : exec (.unknownCommandRequest p) s = .next _ :=
      congrArg Host.Outcome.next (unknownRequest_eq asks hm hd hc)
    have ready : isBusy (s.setMail { s.mail with requests := rest }) = false ↔ Ready s := isBusy_eq_false_iff
    refine ⟨fun hb => ?_, fun hr _ => ?_⟩
    · rw [run, if_pos (by simpa using mt ready.mp hb)]
    · rw [run, if_neg (by simpa using ready.mpr hr)]

/-- Settles O47: `readEntry` is judged by the tests of `entryJudged` in both banks, and `runningField_used` gives the
running state. -/
theorem readEntryAnswersTheField : Obligations.ReadEntryAnswersTheField := by
  intro p s f rest table index field selector tail asks ready data hd answer judged
  let w := taken rest s
  have run : exec (.readEntry p) s = _ := congrArg Host.Outcome.next
    (serveNow_asks (n := 4) (code := 3) (fun f s => (readEntryAnswer f s, s)) asks ready data hd rfl (by simp))
  have args : entryArgs f = (table.toNat, index.toNat, field.toNat, selector.toNat) := by
    unfold entryArgs argByte
    rw [hd]
    rfl
  have answered_by : ∀ a, readEntryAnswer f w = a → exec (.readEntry p) s = .next (answered p 3 a.status (padTo 6 a.data) w) :=
    fun a h => h ▸ run
  have refused : ∀ st, readEntry w table.toNat index.toNat field.toNat selector.toNat = .error st → answer st 0 :=
    fun st h => answered_by _ (readEntryAnswer_error (by rw [args]; exact h))
  have read : ∀ v, readEntry w table.toNat index.toNat field.toNat selector.toNat = .ok v → answer .ok v := fun v h => by
    have run := answered_by _ (readEntryAnswer_ok (by rw [args]; exact h))
    dsimp only at run
    rw [bytesOf_four] at run
    exact run
  have judge : ∀ value, readEntry w table.toNat index.toNat field.toNat selector.toNat =
      entryJudged table.toNat index.toNat value → judged value := by
    intro value h
    refine ⟨fun ht => refused _ ?_, fun n hn => ⟨fun hi => refused _ ?_, fun hi hv => refused _ ?_, fun v hi hv => read v ?_⟩⟩
    all_goals rw [h]; unfold entryJudged
    · rw [tableSize_none ht]
    · rw [hn]
      exact if_pos hi
    · rw [hn, hv]
      exact if_neg (Nat.not_le.mpr hi)
    · rw [hn, hv]
      exact if_neg (Nat.not_le.mpr hi)
  have active : ∀ a, selector = 0 → s.active = some a →
      judged (readActive s a table.toNat index.toNat field.toNat) := fun a hsel ha => judge _ (by
    rw [hsel]
    exact readEntry_active (s := w) ha _ _ _)
  refine ⟨fun h0 h1 => refused _ ?_, fun h1 hs => refused _ ?_, fun h0 ha => refused _ ?_, active, ?_, ?_, ?_⟩
  · unfold readEntry
    dsimp only
    split
    case h_1 h => exact absurd (BitVec.eq_of_toNat_eq h) h0
    case h_2 h => exact absurd (BitVec.eq_of_toNat_eq h) h1
    case h_3 => rfl
  · have mode : w.sr.serviceMode = false := (taken_serviceMode rest s).trans hs
    rw [h1]
    unfold readEntry
    rw [mode]
    rfl
  · rw [h0]
    unfold readEntry
    rw [show w.active = none from ha]
    rfl
  · intro a v h0 ha hi ht hv
    obtain ⟨n, hn⟩ := tableSize_some ht
    refine ((active a h0 ha).2 n hn).2.2 v (hi n hn) ?_
    unfold readStaging at hv
    obtain ⟨spec, hspec, hget⟩ := Option.map_eq_some_iff.mp hv
    unfold readActive
    rw [hspec]
    exact congrArg some hget
  · intro a h0 ha ht hi i m k number optional
    have running : ∀ value, 11 ≤ field.toNat → runningField s a i field.toNat = value →
        (value = none → answer .badField 0) ∧ ∀ v, value = some v → answer .ok v := by
      intro value hf hv
      have value_eq : readActive s a table.toNat index.toNat field.toNat = value := by
        rw [ht]
        exact (readActive_running a hf).trans hv
      have size : tableSize table.toNat = some 24 := by rw [ht]; rfl
      have tests := (active a h0 ha).2 24 size
      rw [value_eq] at tests
      exact ⟨tests.2.1 hi, fun v => tests.2.2 v hi⟩
    have is : ∀ (c : Byte) (v : Word32), 11 ≤ c.toNat → runningField s a i c.toNat = some v → field = c → answer .ok v :=
      fun c v hf hv h => (running _ (h ▸ hf) (h ▸ hv)).2 v rfl
    refine ⟨fun hu hf hl => ?_, fun hu => ?_, is 22 _ (by decide) rfl, is 23 _ (by decide) rfl, is 24 _ (by decide) rfl,
      fun h => (running none (by omega) (runningField_none a h)).1 rfl⟩
    · exact (running (some 0) (by omega) (runningField_unused a hu hf hl)).2 0 rfl
    · obtain ⟨f16, f17, f18, f19, f20, f21⟩ := runningField_used (s := s) a hu
      refine ⟨is 16 _ (by decide) f16, fun hf => ⟨fun h => ?_, fun h => ?_, fun h => ?_⟩, is 18 _ (by decide) f18,
        fun hf h => ?_, fun hf h => ⟨_, ?_, windowBits_testBit m.window⟩, fun hf => ⟨fun h => ?_, fun n h => ?_⟩,
        fun hf => ⟨fun h => ?_, fun n h => ?_⟩⟩
      iterate 3 (rw [show s.sm.state index.toNat = m from rfl, h] at f17; exact is 17 _ (by decide) f17 hf)
      · exact is 19 _ (by decide) (f19.trans (congrArg some (if_neg h))) hf
      · exact is 19 _ (by decide) (f19.trans (congrArg some (if_pos h))) hf
      iterate 2 (rw [show s.sm.state index.toNat = m from rfl, h] at f20; exact is 20 _ (by decide) f20 hf)
      iterate 2 (rw [show s.sm.state index.toNat = m from rfl, h] at f21; exact is 21 _ (by decide) f21 hf)
  · intro b h1 hs hb
    have tests : judged (readStaging b table.toNat index.toNat field.toNat) := judge _ (by
      rw [h1]
      exact readEntry_staging (s := w) ((taken_serviceMode rest s).trans hs) ((taken_staging rest s).trans hb) _ _ _)
    refine ⟨tests, fun ht hi hf => ?_⟩
    have size : tableSize table.toNat = some 24 := by rw [ht]; rfl
    refine (tests.2 24 size).2.1 hi ?_
    rw [ht]
    change ((monitorField field.toNat).map _).map _ = none
    rw [monitorField_none hf]
    rfl

/-- Settles O48: `writeBank` meets its tests in order, and what it gives is the new staging bank. -/
theorem writeFieldTestsInOrder : Obligations.WriteFieldTestsInOrder := by
  intro p s f rest table index field v0 v1 v2 v3 tail asks ready data hd value refuses
  have run : exec (.writeField p) s = .next (answered p 4 (writeField f (taken rest s)).1.status
      (padTo 6 (writeField f (taken rest s)).1.data) (writeField f (taken rest s)).2) :=
    congrArg Host.Outcome.next (serveNow_asks (n := 7) writeField asks ready data hd rfl (by simp))
  have args : argByte f 1 = table.toNat ∧ argByte f 2 = index.toNat ∧ argByte f 3 = field.toNat ∧
      BitVec.ofNat 32 (argLong f 4) = value := by
    unfold argLong argWord argByte
    rw [hd]
    refine ⟨rfl, rfl, rfl, congrArg (BitVec.ofNat 32) ?_⟩
    simp only [List.getElem?_cons_succ, List.getElem?_cons_zero, Option.map_some, Option.getD_some]
    omega
  have refused : ∀ st, writeField f (taken rest s) = (.just st, taken rest s) → refuses st := fun st h => by
    rw [h] at run
    exact run
  refine ⟨fun hs => refused _ (writeField_closed f ((taken_serviceMode rest s).trans hs)), fun b hs hb => ?_⟩
  · have mode : (taken rest s).sr.serviceMode = true := (taken_serviceMode rest s).trans hs
    have bank : (taken rest s).sr.staging = some b := (taken_staging rest s).trans hb
    have error : ∀ st, writeBank b table.toNat index.toNat field.toNat value = .error st → refuses st := fun st h =>
      refused _ (writeField_error mode bank (by rw [args.1, args.2.1, args.2.2.1, args.2.2.2]; exact h))
    refine ⟨fun ht => error _ ?_, fun n hn => ⟨fun hi => error _ ?_, fun hi hf => error _ (writeBank_badField hn hi hf),
      fun spec hi hf => ⟨fun hv => error _ (writeBank_badValue hn hi hf hv), fun b' hv => ?_⟩⟩⟩
    · unfold writeBank
      rw [tableSize_none ht]
    · unfold writeBank
      rw [hn]
      exact if_pos hi
    · have written : writeField f (taken rest s) =
          (.just .ok, setResponder (fun r => { r with staging := some b' }) (taken rest s)) :=
        writeField_ok mode bank (by rw [args.1, args.2.1, args.2.2.1, args.2.2.2]; exact writeBank_ok hn hi hf hv)
      rw [run, written]
      unfold taken
      rw [hs]
      rfl

section
variable {p : Port} {f : Frame} {rest : List Request} {s : State}

/-! ## READ_FAULT and READ_CLAIMS (R84, R172) -/

theorem readFaultAnswer_none {part : Nat} (hp : argByte f 1 = part) (h : part ≤ 1) (hr : s.fc.record = none) :
    readFaultAnswer f s = .just .ok := by
  unfold readFaultAnswer
  rw [hp, hr]
  interval_cases part <;> rfl

theorem readFaultAnswer_part {part : Nat} (hp : argByte f 1 = part) (h : 1 < part) :
    readFaultAnswer f s = .just .badValue := by
  unfold readFaultAnswer
  rw [hp]
  split
  case h_5 => rfl
  all_goals omega

/-- A part of a slot of the Claim Table as READ_CLAIMS answers it (R84, R188). -/
def claimPart (part : Nat) (slot : Option Claim) : Answer :=
  match part, slot with
  | 0, none | 1, none => .just .ok
  | 0, some c => ⟨.ok, [byte c.source.code, byte c.tag] ++ bytesOf 2 c.floors.a ++ bytesOf 2 c.floors.b⟩
  | 1, some c => ⟨.ok, bytesOf 2 c.secondsLeft ++ bytesOf 4 c.granted.toNat⟩
  | _, _ => .just .badValue

theorem claimPart_bad {part : Nat} (h : 1 < part) (slot : Option Claim) : claimPart part slot = .just .badValue := by
  unfold claimPart
  split
  case h_5 => rfl
  all_goals exact absurd h (by decide)

theorem claimPart_empty {part : Nat} (h : part ≤ 1) : claimPart part none = .just .ok := by
  interval_cases part <;> rfl

theorem readClaimsAnswer_slot {slot : Option Claim} (h : s.hc.claims[argByte f 1]? = some slot) :
    readClaimsAnswer f s = claimPart (argByte f 2) slot := by
  unfold readClaimsAnswer
  rw [h]
  rfl

end

/-- Settles O50: each command by the entry, the record or the slot that its argument names. -/
theorem readsAnswerWhatIsHeld : Obligations.ReadsAnswerWhatIsHeld := by
  intro p s f rest which tail asks ready data answer
  have arg : ∀ {code : Byte}, f.data = code :: which :: tail → argByte f 1 = which.toNat := fun hd => by
    unfold argByte
    rw [hd]
    rfl
  refine ⟨fun hd => ?_, fun hd => ?_, fun hd hl => ?_⟩
  · have run : ∀ a, readSignalAnswer f (taken rest s) = a → answer (.readSignal p) 6 a.status (padTo 6 a.data) :=
      fun a h => h ▸ congrArg Host.Outcome.next (serveNow_asks (n := 1) (code := 6)
        (fun f s => (readSignalAnswer f s, s)) asks ready data hd rfl (by simp))
    refine ⟨fun h => run (.just .badIndex) ?_, fun k hk => ?_⟩
    · unfold readSignalAnswer
      rw [arg hd, SignalKind.ofCode_none h]
    · intro w
      have read : readSignalAnswer f (taken rest s) = ⟨.ok, byte (s.sm.entry k).validity.code :: bytesOf 4 w⟩ := by
        unfold readSignalAnswer
        rw [arg hd, ← hk, SignalKind.ofCode_code]
        rfl
      rw [bytesOf_four] at read
      exact run _ read
  · have run : ∀ a, readFaultAnswer f (taken rest s) = a → answer (.readFault p) 8 a.status (padTo 6 a.data) :=
      fun a h => h ▸ congrArg Host.Outcome.next (serveNow_asks (n := 1) (code := 8)
        (fun f s => (readFaultAnswer f s, s)) asks ready data hd rfl (by simp))
    refine ⟨fun h => run _ (readFaultAnswer_part (arg hd) h), fun h hr => run _ (readFaultAnswer_none (arg hd) h hr),
      fun r h hr => ?_, fun r h hr => ?_⟩
    all_goals
      have part := arg hd
      rw [h] at part
    · have read : readFaultAnswer f (taken rest s) = ⟨.ok, [byte (1 + 2 * bit (r.severity == .major)), byte r.kind.code,
          byte r.subject.code, byte r.state.code, byte r.repeats]⟩ := by
        unfold readFaultAnswer
        rw [part, taken_fc, hr]
        rfl
      have severity : byte (1 + 2 * bit (r.severity == .major)) = if r.severity = .major then 3 else 1 := by
        cases r.severity <;> rfl
      rw [severity] at read
      exact run _ read
    · intro w
      have read : readFaultAnswer f (taken rest s) = ⟨.ok, 1 :: bytesOf 4 w⟩ := by
        unfold readFaultAnswer
        rw [part, taken_fc, hr]
        rfl
      rw [bytesOf_four] at read
      exact run _ read
  · intro part
    have run : ∀ a, readClaimsAnswer f (taken rest s) = a → answer (.readClaims p) 10 a.status (padTo 6 a.data) :=
      fun a h => h ▸ congrArg Host.Outcome.next (serveNow_asks (n := 1) (code := 10)
        (fun f s => (readClaimsAnswer f s, s)) asks ready data hd rfl (by simp))
    have second : argByte f 2 = part.toNat := by
      unfold argByte
      rw [hd]
      cases tail <;> rfl
    have slot : ∀ c, s.hc.claims[which.toNat]? = some c → (taken rest s).hc.claims[argByte f 1]? = some c := fun c h => by
      rw [arg hd]
      exact h
    refine ⟨fun h => run (.just .badIndex) ?_, fun h h1 => ?_, fun h h1 => ?_, fun c h hp => ?_, fun c h hp => ?_⟩
    · have out : (taken rest s).hc.claims[argByte f 1]? = none := by
        rw [arg hd]
        exact List.getElem?_eq_none (by rw [taken_hc, hl]; omega)
      unfold readClaimsAnswer
      rw [out]
    · obtain ⟨c, hc⟩ : ∃ c, s.hc.claims[which.toNat]? = some c := ⟨_, List.getElem?_eq_getElem (by omega)⟩
      refine run (.just .badValue) ((readClaimsAnswer_slot (slot c hc)).trans ?_)
      rw [second]
      exact claimPart_bad h1 c
    · refine run (.just .ok) ((readClaimsAnswer_slot (slot none h)).trans ?_)
      rw [second]
      exact claimPart_empty h1
    · intro floorA floorB
      have read := readClaimsAnswer_slot (slot (some c) h)
      rw [second, hp] at read
      exact run _ read
    · intro seconds w
      have left : c.secondsLeft = seconds := by
        unfold Claim.secondsLeft seconds
        cases c.timer <;> rfl
      have read := readClaimsAnswer_slot (slot (some c) h)
      rw [second, hp] at read
      change readClaimsAnswer f (taken rest s) = ⟨.ok, bytesOf 2 c.secondsLeft ++ bytesOf 4 w⟩ at read
      rw [left, bytesOf_four] at read
      exact run _ read

end Sys2Proof.Machine
end

