-- ==== Sys2Proof/Proofs/TableFields.lean ====
section
/-! PROOF. The fields of the tables: their numbers and ranges, and what a field written reads back (O49). -/

namespace Sys2Proof.Machine

section
variable {b b' : Bank} {table index fl : Nat} {v : Word32}

/-! ## The fields and ranges of the small tables -/

theorem rateRows_agree :
    RowsAgree [.nat 0 1 255 RateRow.refill, .nat 1 1 255 RateRow.depth] rateField := by
  refine ⟨fun row hr => ?_, fun n h => ?_⟩
  · simp only [List.mem_cons, List.not_mem_nil, or_false] at hr
    rcases hr with rfl | rfl <;> exact ⟨_, rfl, agrees_nat fun _ _ => rfl⟩
  · match n, h with
    | 0, h => exact absurd rfl (h _ List.mem_cons_self)
    | 1, h => exact absurd rfl (h _ (List.mem_cons_of_mem _ List.mem_cons_self))
    | n + 2, _ => rfl

theorem axleRows_agree :
    RowsAgree [.nat 0 0 1500 AxleParams.rated, .nat 1 10 200 AxleParams.gain] axleField := by
  refine ⟨fun row hr => ?_, fun n h => ?_⟩
  · simp only [List.mem_cons, List.not_mem_nil, or_false] at hr
    rcases hr with rfl | rfl <;> exact ⟨_, rfl, agrees_nat fun _ _ => rfl⟩
  · match n, h with
    | 0, h => exact absurd rfl (h _ List.mem_cons_self)
    | 1, h => exact absurd rfl (h _ (List.mem_cons_of_mem _ List.mem_cons_self))
    | n + 2, _ => rfl

theorem minimaRows_agree : RowsAgree minimaRows minimaField := by
  refine ⟨fun row hr => ?_, fun n h => ?_⟩
  · simp only [minimaRows, List.mem_cons, List.not_mem_nil, or_false] at hr
    rcases hr with rfl | rfl | rfl | rfl <;> exact ⟨_, rfl, agrees_nat fun _ _ => rfl⟩
  · simp only [minimaRows, FieldRow.nat, List.mem_cons, List.not_mem_nil, or_false, forall_eq_or_imp, forall_eq] at h
    match n, h with
    | n + 4, _ => rfl

/-- The one field of an entry that is a number: a cell, or a band bound (R90, R189). -/
def numberField (lo hi : Nat) (n : Nat) : Option (FieldSpec Nat) :=
  if n = 0 then some (natField lo hi id fun _ v => v) else none

theorem numberField_agrees (lo hi : Nat) : RowsAgree [.nat 0 lo hi fun cell => cell] (numberField lo hi) := by
  refine ⟨fun row hr => ?_, fun n h => ?_⟩
  · obtain rfl := List.mem_singleton.mp hr
    exact ⟨_, rfl, agrees_nat fun _ _ => rfl⟩
  · exact if_neg fun k => h _ (List.mem_singleton_self _) k.symm

theorem bankField_rates {index field : Nat} (h : index ≠ 0) : bankField 3 index field =
    listField (rateField field) (·.rates) (fun b l => { b with rates := l }) ⟨10, 20⟩ (index - 1) := if_neg h

theorem bankField_cells (index field : Nat) : bankField 4 index field =
    listField (numberField 0 125 field) (·.cells) (fun b l => { b with cells := l }) 0 index := by
  unfold numberField
  change (if field = 0 then _ else none) = _
  split <;> rfl

/-- A band bound is the field of its number: an element of the list of bounds. -/
theorem bankField_grade {field : Nat} (h : field < 8) : bankField 8 0 field =
    listField (numberField 1 400 0) (·.gradeBounds) (fun b l => { b with gradeBounds := l }) 0 field := if_pos h

theorem bankField_mass {field : Nat} (h : field < 6) : bankField 8 1 field =
    listField (numberField 1 65535 0) (·.massBounds) (fun b l => { b with massBounds := l }) 0 field := if_pos h

/-- The bounds of the Release Table, as one of its two entries (R90, R189). -/
theorem boundRows_hold {bands top : Nat} {l : Bank → List Nat} {st : Bank → List Nat → Bank} {index : Nat}
    (hi : index < 2) (hl : ∀ b x, l (st b x) = x) (length : (l b).length = bands)
    (field : ∀ n, n < bands → bankField 8 index n = listField (numberField 1 top 0) l st 0 n)
    (none' : ∀ n, ¬ n < bands → bankField 8 index n = none) :
    RowsHold (boundRows bands top) 8 index (fun x => some (l x)) b := by
  have spec : ∀ n, n < bands → bankField 8 index n = some _ := fun n h => field n h
  refine ⟨fun row hr x v hx hf => ?_, fun row hr x v hx hf => ?_, fun n v h => ?_⟩
  · obtain ⟨n, hn, rfl⟩ := List.mem_map.mp hr
    have inside := List.mem_range.mp hn
    refine ⟨st b ((l b).set n v.toNat), (l b).set n v.toNat,
      writeBank_ok (n := 2) rfl hi (spec n inside) (congrArg (Option.map _) (if_pos hf)), congrArg some (hl _ _), ?_⟩
    exact List.getElem?_set_self (by omega)
  · obtain ⟨n, hn, rfl⟩ := List.mem_map.mp hr
    exact writeBank_badValue (n := 2) rfl hi (spec n (List.mem_range.mp hn)) (congrArg (Option.map _) (if_neg hf))
  · refine writeBank_badField (n := 2) rfl hi (none' n fun k => ?_)
    exact h _ (List.mem_map.mpr ⟨n, List.mem_range.mpr k, rfl⟩) rfl

theorem axleOfCode_eq {i : Nat} {axle : Axle} (h : [Axle.f1, .f2, .t1, .t2, .p][i]? = some axle) :
    axleOfCode i = axle ∧ i < 5 := by
  refine ⟨?_, (List.getElem?_eq_some_iff.mp h).1⟩
  unfold axleOfCode
  rw [show Axle.all = [.f1, .f2, .t1, .t2, .p] from rfl, h]
  rfl

/-- The fields of every table (R189). -/
theorem rows_hold (hb : b.Shaped) :
    (∀ i < 24, RowsHold monitorRows 0 i (fun x => x.monitors[i]?) b) ∧
    (∀ i < 64, RowsHold extractionRows 1 i (fun x => x.extractions[i]?) b) ∧
    (∀ i < 128, RowsHold forwardRows 2 i (fun x => x.forwarding[i]?) b) ∧
    (∀ n v, writeBank b 3 0 n v = .error .badField) ∧
    (∀ i < 7, RowsHold [.nat 0 1 255 RateRow.refill, .nat 1 1 255 RateRow.depth] 3 (i + 1) (fun x => x.rates[i]?) b) ∧
    (∀ i < 48, RowsHold [.nat 0 0 125 fun cell => cell] 4 i (fun x => x.cells[i]?) b) ∧
    RowsHold paramRows 5 0 (fun x => some x.params) b ∧
    (∀ i axle, [Axle.f1, .f2, .t1, .t2, .p][i]? = some axle →
      RowsHold [.nat 0 0 1500 AxleParams.rated, .nat 1 10 200 AxleParams.gain] 6 i (fun x => some (x.axles.get axle)) b) ∧
    RowsHold minimaRows 7 0 (fun x => some x.minima.c) b ∧ RowsHold minimaRows 7 1 (fun x => some x.minima.b) b ∧
    RowsHold (boundRows 8 400) 8 0 (fun x => some x.gradeBounds) b ∧
    RowsHold (boundRows 6 65535) 8 1 (fun x => some x.massBounds) b := by
  refine ⟨fun i hi => ?_, fun i hi => ?_, fun i hi => ?_, fun n v => rfl, fun i hi => ?_, fun i hi => ?_, ?_,
    fun i axle h => ?_, ?_, ?_, ?_, ?_⟩
  · exact rowsHold_list (st := fun b l => { b with monitors := l }) monitorRows_agree (fun _ => rfl) rfl hi fun _ _ => rfl
  · exact rowsHold_list (st := fun b l => { b with extractions := l }) extractionRows_agree (fun _ => rfl) rfl hi fun _ _ => rfl
  · exact rowsHold_list (st := fun b l => { b with forwarding := l }) forwardRows_agree (fun _ => rfl) rfl hi fun _ _ => rfl
  · exact rowsHold_list (l := (·.rates)) (st := fun b l => { b with rates := l }) rateRows_agree
      (fun _ => bankField_rates (Nat.succ_ne_zero i)) rfl (Nat.succ_lt_succ hi) fun _ _ => rfl
  · exact rowsHold_list (numberField_agrees 0 125) (bankField_cells i) rfl hi fun _ _ => rfl
  · exact rowsHold_of paramRows_agree (fun _ => rfl) (n := 1) rfl Nat.one_pos (fun _ h => Option.some.inj h) fun _ _ => rfl
  · obtain ⟨rfl, hi⟩ := axleOfCode_eq h
    exact rowsHold_of axleRows_agree (fun _ => rfl) (n := 5) rfl hi (fun _ h => Option.some.inj h)
      fun _ _ => congrArg some (PerAxle.get_set _ _ _)
  · exact rowsHold_of minimaRows_agree (fun _ => rfl) (n := 2) rfl (by decide) (fun _ h => Option.some.inj h) fun _ _ => rfl
  · exact rowsHold_of minimaRows_agree (fun _ => rfl) (n := 2) rfl (by decide) (fun _ h => Option.some.inj h) fun _ _ => rfl
  · exact boundRows_hold (by decide) (fun _ _ => rfl) hb.gradeBounds (fun _ h => bankField_grade h) fun _ h => if_neg h
  · exact boundRows_hold (by decide) (fun _ _ => rfl) hb.massBounds (fun _ h => bankField_mass h) fun _ h => if_neg h

/-! ## What a write changes -/

/-- A write of one field: it reads as the value written, and every other field of the bank as before. -/
structure Rewritten (b b' : Bank) (table index fl : Nat) (v : Word32) : Prop where
  reads : readStaging b' table index fl = some v
  shaped : b'.Shaped
  others : ∀ table' index' fl' n, tableSize table' = some n → index' < n → (table', index', fl') ≠ (table, index, fl) →
    readStaging b' table' index' fl' = readStaging b table' index' fl'

/-- Fields of other tables are untouched, so only the other fields of the table written count. -/
theorem Rewritten.of_table (reads : readStaging b' table index fl = some v) (shaped : b'.Shaped)
    (apart : ∀ table' i f, table' < 9 → table' ≠ table → readStaging b' table' i f = readStaging b table' i f)
    (same : ∀ i f n, tableSize table = some n → i < n → (i, f) ≠ (index, fl) →
      readStaging b' table i f = readStaging b table i f) : Rewritten b b' table index fl v := by
  refine ⟨reads, shaped, fun table' i f n hn hi hne => ?_⟩
  have small : table' < 9 := by
    by_contra h
    rw [tableSize_none (by omega)] at hn
    cases hn
  by_cases h : table' = table
  · subst h
    exact same i f n hn hi fun k => hne (congrArg (Prod.mk table') k)
  · exact apart table' i f small h

/-- A field of an element of a list of the bank. -/
def listView {α : Type} (field : Nat → Option (FieldSpec α)) (get : Bank → List α) (d : α) (b : Bank) (i f : Nat) :
    Option Word32 :=
  (field f).map fun spec => spec.get (((get b)[i]?).getD d)

theorem readStaging_list {α : Type} {field : Nat → Option (FieldSpec α)} {get : Bank → List α}
    {set : Bank → List α → Bank} {d : α} {i f g : Nat} (h : bankField table index g = listField (field f) get set d i) :
    readStaging b table index g = listView field get d b i f := by
  unfold readStaging
  rw [h]
  exact get_listField

/-- A write of a field of an element of a list. -/
theorem list_written {α : Type} {field : Nat → Option (FieldSpec α)} {get : Bank → List α} {set : Bank → List α → Bank}
    {d : α} {i f g : Nat} {spec : FieldSpec Bank} (hs : bankField table index g = some spec) (hp : spec.put b v = some b')
    (hf : bankField table index g = listField (field f) get set d i) (hl : ∀ b l, get (set b l) = l)
    (back : ∀ x, field f = some x → x.ReadsBack)
    (apart : ∀ x j y, field f = some x → field j = some y → f ≠ j → x.Apart y) (hi : i < (get b).length) :
    (∃ l, b' = set b l ∧ l.length = (get b).length) ∧ listView field get d b' i f = some v ∧
      ∀ i' f', (i', f') ≠ (i, f) → listView field get d b' i' f' = listView field get d b i' f' := by
  obtain ⟨x, y, hx, hput, rfl⟩ := put_listField (hf ▸ hs) hp
  obtain ⟨same, others⟩ := reads_after_set (fs := field) (back x hx) (fun j z hz hne => apart x j z hx hz hne) hx hi hput
  refine ⟨⟨_, rfl, List.length_set ..⟩, ?_, fun i' f' hne => ?_⟩
  · unfold listView
    rw [hl]
    exact same
  · unfold listView
    rw [hl]
    exact others i' f' hne

/-- A write of a field of a part of the bank. -/
theorem part_written {α : Type} {field : Nat → Option (FieldSpec α)} {get : Bank → α} {set : Bank → α → Bank}
    {spec : FieldSpec Bank} (hs : (field fl).map (fun spec => spec.within get set) = some spec)
    (hp : spec.put b v = some b') (hl : ∀ b x, get (set b x) = x) (back : ∀ x, field fl = some x → x.ReadsBack)
    (apart : ∀ x j y, field fl = some x → field j = some y → fl ≠ j → x.Apart y) :
    (∃ x, b' = set b x) ∧ (field fl).map (fun spec => spec.get (get b')) = some v ∧
      ∀ f, f ≠ fl → (field f).map (fun spec => spec.get (get b')) = (field f).map fun spec => spec.get (get b) := by
  obtain ⟨x, hx, rfl⟩ := Option.map_eq_some_iff.mp hs
  obtain ⟨y, hy, rfl⟩ := Option.map_eq_some_iff.mp hp
  refine ⟨⟨y, rfl⟩, ?_, fun f hne => ?_⟩
  · rw [hx, hl]
    exact congrArg some (back x hx _ _ _ hy)
  · rw [hl]
    cases hz : field f with
    | none => rfl
    | some z => exact congrArg some (apart x f z hx hz hne.symm _ _ _ hy)

theorem numberField_back {lo hi : Nat} {x : FieldSpec Nat} {f : Nat} (h : numberField lo hi f = some x) : x.ReadsBack := by
  unfold numberField at h
  split at h
  case isTrue =>
    cases h
    exact readsBack_nat fun _ _ _ _ => rfl
  case isFalse => cases h

theorem numberField_apart {lo hi f j : Nat} {x y : FieldSpec Nat} (hx : numberField lo hi f = some x)
    (hy : numberField lo hi j = some y) (hne : f ≠ j) : x.Apart y := by
  have zero : ∀ {n : Nat} {z : FieldSpec Nat}, numberField lo hi n = some z → n = 0 := fun {n z} h => by
    by_contra k
    rw [numberField, if_neg k] at h
    cases h
  exact absurd ((zero hx).trans (zero hy).symm) hne

/-! ## A write in each table -/

variable {spec : FieldSpec Bank}

/-- A table whose entries are the elements of a list of the bank. -/
theorem list_rewritten {α : Type} {field : Nat → Option (FieldSpec α)} {get : Bank → List α}
    {set : Bank → List α → Bank} {d : α} (hs : bankField table index fl = some spec) (hp : spec.put b v = some b')
    (hf : ∀ i f, bankField table i f = listField (field f) get set d i) (hl : ∀ b l, get (set b l) = l)
    (back : ∀ x f, field f = some x → x.ReadsBack)
    (apart : ∀ x y i j, field i = some x → field j = some y → i ≠ j → x.Apart y) (hi : index < (get b).length)
    (shaped : ∀ l, l.length = (get b).length → (set b l).Shaped)
    (rest : ∀ l t i f, t < 9 → t ≠ table → readStaging (set b l) t i f = readStaging b t i f) :
    Rewritten b b' table index fl v := by
  obtain ⟨⟨l, rfl, length⟩, reads, others⟩ := list_written hs hp (hf index fl) hl (fun x => back x fl)
    (fun x j y => apart x y fl j) hi
  refine .of_table ?_ (shaped l length) (rest l) fun i f n _ _ hne => ?_
  · rw [readStaging_list (hf index fl)]
    exact reads
  · rw [readStaging_list (hf i f), readStaging_list (hf i f)]
    exact others i f hne

theorem monitors_written (hb : b.Shaped) (hi : index < 24) (hs : bankField 0 index fl = some spec)
    (hp : spec.put b v = some b') : Rewritten b b' 0 index fl v := by
  refine list_rewritten (set := fun b l => { b with monitors := l }) hs hp (fun _ _ => rfl) (fun _ _ => rfl)
    (fun _ _ => readsBack_monitor) (fun _ _ _ _ => apart_monitor) (hb.monitors ▸ hi)
    (fun l h => { hb with monitors := h.trans hb.monitors }) fun l t i f ht hne => ?_
  exact readStaging_congr t i f ht (fun h => absurd h hne) (fun _ => rfl) (fun _ => rfl) (fun _ => rfl) (fun _ => rfl)
    (fun _ => rfl) (fun _ => rfl) (fun _ => rfl) fun _ => ⟨rfl, rfl⟩

theorem extractions_written (hb : b.Shaped) (hi : index < 64) (hs : bankField 1 index fl = some spec)
    (hp : spec.put b v = some b') : Rewritten b b' 1 index fl v := by
  refine list_rewritten (set := fun b l => { b with extractions := l }) hs hp (fun _ _ => rfl) (fun _ _ => rfl)
    (fun _ _ => readsBack_extraction) (fun _ _ _ _ => apart_extraction) (hb.extractions ▸ hi)
    (fun l h => { hb with extractions := h.trans hb.extractions }) fun l t i f ht hne => ?_
  exact readStaging_congr t i f ht (fun _ => rfl) (fun h => absurd h hne) (fun _ => rfl) (fun _ => rfl) (fun _ => rfl)
    (fun _ => rfl) (fun _ => rfl) (fun _ => rfl) fun _ => ⟨rfl, rfl⟩

theorem forwarding_written (hb : b.Shaped) (hi : index < 128) (hs : bankField 2 index fl = some spec)
    (hp : spec.put b v = some b') : Rewritten b b' 2 index fl v := by
  refine list_rewritten (set := fun b l => { b with forwarding := l }) hs hp (fun _ _ => rfl) (fun _ _ => rfl)
    (fun _ _ => readsBack_forward) (fun _ _ _ _ => apart_forward) (hb.forwarding ▸ hi)
    (fun l h => { hb with forwarding := h.trans hb.forwarding }) fun l t i f ht hne => ?_
  exact readStaging_congr t i f ht (fun _ => rfl) (fun _ => rfl) (fun h => absurd h hne) (fun _ => rfl) (fun _ => rfl)
    (fun _ => rfl) (fun _ => rfl) (fun _ => rfl) fun _ => ⟨rfl, rfl⟩

theorem cells_written (hb : b.Shaped) (hi : index < 48) (hs : bankField 4 index fl = some spec)
    (hp : spec.put b v = some b') : Rewritten b b' 4 index fl v := by
  refine list_rewritten (set := fun b l => { b with cells := l }) hs hp bankField_cells (fun _ _ => rfl)
    (fun _ _ => numberField_back) (fun _ _ _ _ => numberField_apart) (hb.cells ▸ hi)
    (fun l h => { hb with cells := h.trans hb.cells }) fun l t i f ht hne => ?_
  exact readStaging_congr t i f ht (fun _ => rfl) (fun _ => rfl) (fun _ => rfl) (fun _ => rfl) (fun h => absurd h hne)
    (fun _ => rfl) (fun _ => rfl) (fun _ => rfl) fun _ => ⟨rfl, rfl⟩

/-- Entry 0 of the rate table has no field, and entry i is class i (R149, R189). -/
theorem rates_written (hb : b.Shaped) (hi : index < 8) (hs : bankField 3 index fl = some spec)
    (hp : spec.put b v = some b') : Rewritten b b' 3 index fl v := by
  have unpoliced : ∀ f, bankField 3 0 f = none := fun f => rfl
  have nonzero : index ≠ 0 := by
    rintro rfl
    rw [unpoliced] at hs
    cases hs
  obtain ⟨⟨l, rfl, length⟩, reads, others⟩ := list_written hs hp (bankField_rates nonzero) (fun _ _ => rfl)
    (fun _ => readsBack_rate) (fun _ _ _ => apart_rate) (by rw [hb.rates]; omega)
  refine .of_table ?_ { hb with rates := length.trans hb.rates } (fun t i f ht hne => ?_) fun i f n _ _ hne => ?_
  · rw [readStaging_list (bankField_rates nonzero)]
    exact reads
  · exact readStaging_congr t i f ht (fun _ => rfl) (fun _ => rfl) (fun _ => rfl) (fun h => absurd h hne) (fun _ => rfl)
      (fun _ => rfl) (fun _ => rfl) (fun _ => rfl) fun _ => ⟨rfl, rfl⟩
  · by_cases h0 : i = 0
    · subst h0
      rfl
    · rw [readStaging_list (bankField_rates h0), readStaging_list (bankField_rates h0)]
      refine others (i - 1) f fun k => hne ?_
      obtain ⟨hi, rfl⟩ := Prod.mk.inj k
      exact congrArg (Prod.mk · f) (by omega)

theorem params_written (hb : b.Shaped) (hi : index < 1) (hs : bankField 5 index fl = some spec)
    (hp : spec.put b v = some b') : Rewritten b b' 5 index fl v := by
  have view : ∀ (c : Bank) i f, readStaging c 5 i f = (paramField f).map fun spec => spec.get c.params := fun c i f =>
    Option.map_map _ _ _
  obtain ⟨⟨x, rfl⟩, reads, others⟩ := part_written hs hp (fun _ _ => rfl) (fun _ => readsBack_param)
    (fun _ _ _ => apart_param)
  refine .of_table ((view _ _ _).trans reads) { hb with } (fun t i f ht hne => ?_) fun i f n hn hi' hne => ?_
  · exact readStaging_congr t i f ht (fun _ => rfl) (fun _ => rfl) (fun _ => rfl) (fun _ => rfl) (fun _ => rfl)
      (fun h => absurd h hne) (fun _ => rfl) (fun _ => rfl) fun _ => ⟨rfl, rfl⟩
  · cases hn
    rw [view, view]
    refine others f fun k => hne ?_
    rw [k, show i = index by omega]

theorem axleOfCode_inj {i j : Nat} (hi : i < 5) (hj : j < 5) (h : axleOfCode i = axleOfCode j) : i = j := by
  interval_cases i <;> interval_cases j <;> first | rfl | cases h

/-- Each entry of table 6 is an axle of its own (R25, R189). -/
theorem axles_written (hb : b.Shaped) (hi : index < 5) (hs : bankField 6 index fl = some spec)
    (hp : spec.put b v = some b') : Rewritten b b' 6 index fl v := by
  have view : ∀ (c : Bank) i f, readStaging c 6 i f = (axleField f).map fun spec => spec.get (c.axles.get (axleOfCode i)) :=
    fun _ _ _ => Option.map_map _ _ _
  obtain ⟨⟨x, rfl⟩, reads, others⟩ := part_written hs hp (fun _ _ => PerAxle.get_set ..) (fun _ => readsBack_axle)
    (fun _ _ _ => apart_axle)
  refine .of_table ((view _ _ _).trans reads) { hb with } (fun t i f ht hne => ?_) fun i f n hn hi' hne => ?_
  · exact readStaging_congr t i f ht (fun _ => rfl) (fun _ => rfl) (fun _ => rfl) (fun _ => rfl) (fun _ => rfl)
      (fun _ => rfl) (fun h => absurd h hne) (fun _ => rfl) fun _ => ⟨rfl, rfl⟩
  · cases hn
    rw [view, view]
    by_cases h : i = index
    · subst h
      exact others f fun k => hne (congrArg (Prod.mk i) k)
    · dsimp only
      rw [PerAxle.get_set_ne _ _ fun k => h (axleOfCode_inj hi' hi k)]

theorem minimaPort_other {i j : Nat} (hi : i < 2) (hj : j < 2) (h : i ≠ j) : minimaPort i = (minimaPort j).other := by
  interval_cases i <;> interval_cases j <;> first | rfl | exact absurd rfl h

/-- Entry 0 of table 7 holds the minima of Port C, and entry 1 those of Port B (R153, R189). -/
theorem minima_written (hb : b.Shaped) (hi : index < 2) (hs : bankField 7 index fl = some spec)
    (hp : spec.put b v = some b') : Rewritten b b' 7 index fl v := by
  have view : ∀ (c : Bank) i f, readStaging c 7 i f =
      (minimaField f).map fun spec => spec.get (c.minima.get (minimaPort i)) := fun _ _ _ => Option.map_map _ _ _
  obtain ⟨⟨x, rfl⟩, reads, others⟩ := part_written hs hp (fun _ _ => PerPort.get_set ..) (fun _ => readsBack_minima)
    (fun _ _ _ => apart_minima)
  refine .of_table ((view _ _ _).trans reads) { hb with } (fun t i f ht hne => ?_) fun i f n hn hi' hne => ?_
  · exact readStaging_congr t i f ht (fun _ => rfl) (fun _ => rfl) (fun _ => rfl) (fun _ => rfl) (fun _ => rfl)
      (fun _ => rfl) (fun _ => rfl) (fun h => absurd h hne) fun _ => ⟨rfl, rfl⟩
  · cases hn
    rw [view, view]
    by_cases h : i = index
    · subst h
      exact others f fun k => hne (congrArg (Prod.mk i) k)
    · dsimp only
      rw [minimaPort_other hi' hi h, PerPort.get_set_other]

/-- A reading of the bounds of the Release Table depends on the bound alone (R90, R189). -/
theorem readStaging_bound {c : Bank} {bands top i f : Nat} {get : Bank → List Nat} {set : Bank → List Nat → Bank}
    (inside : f < bands → bankField 8 i f = listField (numberField 1 top 0) get set 0 f)
    (outside : ¬ f < bands → bankField 8 i f = none)
    (h : f < bands → listView (numberField 1 top) get 0 b f 0 = listView (numberField 1 top) get 0 c f 0) :
    readStaging b 8 i f = readStaging c 8 i f := by
  by_cases hf : f < bands
  · rw [readStaging_list (inside hf), readStaging_list (inside hf)]
    exact h hf
  · unfold readStaging
    rw [outside hf]
    rfl

/-- Entry 0 of table 8 holds the grade bounds: a write of one leaves the others and the mass bounds. -/
theorem gradeBounds_written (hb : b.Shaped) (hs : bankField 8 0 fl = some spec) (hp : spec.put b v = some b') :
    Rewritten b b' 8 0 fl v := by
  have inside : fl < 8 := by
    by_contra h
    rw [show bankField 8 0 fl = none from if_neg h] at hs
    cases hs
  obtain ⟨⟨l, rfl, length⟩, reads, others⟩ := list_written hs hp (bankField_grade inside) (fun _ _ => rfl)
    (fun _ => numberField_back) (fun _ _ _ => numberField_apart) (hb.gradeBounds ▸ inside)
  refine .of_table ?_ { hb with gradeBounds := length.trans hb.gradeBounds } (fun t i f ht hne => ?_) fun i f n hn hi hne => ?_
  · rw [readStaging_list (bankField_grade inside)]
    exact reads
  · exact readStaging_congr t i f ht (fun _ => rfl) (fun _ => rfl) (fun _ => rfl) (fun _ => rfl) (fun _ => rfl)
      (fun _ => rfl) (fun _ => rfl) (fun _ => rfl) fun h => absurd h hne
  · cases hn
    interval_cases i
    · exact readStaging_bound bankField_grade (fun h => if_neg h) fun _ => others f 0 fun k => hne (congrArg (Prod.mk 0) (Prod.mk.inj k).1)
    · exact readStaging_bound bankField_mass (fun h => if_neg h) fun _ => rfl

/-- Entry 1 of table 8 holds the mass bounds: a write of one leaves the others and the grade bounds. -/
theorem massBounds_written (hb : b.Shaped) (hs : bankField 8 1 fl = some spec) (hp : spec.put b v = some b') :
    Rewritten b b' 8 1 fl v := by
  have inside : fl < 6 := by
    by_contra h
    rw [show bankField 8 1 fl = none from if_neg h] at hs
    cases hs
  obtain ⟨⟨l, rfl, length⟩, reads, others⟩ := list_written hs hp (bankField_mass inside) (fun _ _ => rfl)
    (fun _ => numberField_back) (fun _ _ _ => numberField_apart) (hb.massBounds ▸ inside)
  refine .of_table ?_ { hb with massBounds := length.trans hb.massBounds } (fun t i f ht hne => ?_) fun i f n hn hi hne => ?_
  · rw [readStaging_list (bankField_mass inside)]
    exact reads
  · exact readStaging_congr t i f ht (fun _ => rfl) (fun _ => rfl) (fun _ => rfl) (fun _ => rfl) (fun _ => rfl)
      (fun _ => rfl) (fun _ => rfl) (fun _ => rfl) fun h => absurd h hne
  · cases hn
    interval_cases i
    · exact readStaging_bound bankField_grade (fun h => if_neg h) fun _ => rfl
    · exact readStaging_bound bankField_mass (fun h => if_neg h) fun _ => others f 0 fun k => hne (congrArg (Prod.mk 1) (Prod.mk.inj k).1)

end

/-- A field of a table written, table by table (R181, R189). -/
theorem writeBank_rewritten {b b' : Bank} {table index fl : Nat} {v : Word32} (hb : b.Shaped)
    (h : writeBank b table index fl v = .ok b') : Rewritten b b' table index fl v := by
  obtain ⟨n, spec, hn, hi, hs, hp⟩ := writeBank_written h
  have small : table < 9 := by
    by_contra h
    rw [tableSize_none (by omega)] at hn
    cases hn
  interval_cases table <;> cases hn
  · exact monitors_written hb hi hs hp
  · exact extractions_written hb hi hs hp
  · exact forwarding_written hb hi hs hp
  · exact rates_written hb hi hs hp
  · exact cells_written hb hi hs hp
  · exact params_written hb hi hs hp
  · exact axles_written hb hi hs hp
  · exact minima_written hb hi hs hp
  · interval_cases index
    · exact gradeBounds_written hb hs hp
    · exact massBounds_written hb hs hp

/-- Settles O49: `rows_hold` for the numbers and ranges, `writeBank_rewritten` for what a write changes. -/
theorem writtenFieldReadsBack : Obligations.WrittenFieldReadsBack := by
  refine ⟨fun b hb => rows_hold hb, fun b b' table index field value hb h => ?_⟩
  obtain ⟨reads, shaped, others⟩ := writeBank_rewritten hb h
  exact ⟨reads, shaped, others⟩

end Sys2Proof.Machine
end
